-- ==== Sys2Proof/Word.lean ====
section
/-! DEFINITION. The two word types of ELPE: a byte is 8 bits, a word is 32 bits (R10). -/

namespace Sys2Proof

/-- A byte (R10). -/
abbrev Byte := BitVec 8

/-- A 32-bit word: the width of every register access (R10, R22). -/
abbrev Word := BitVec 32

end Sys2Proof
end

