-- ==== Sys2Proof/Config.lean ====
section
/-! DEFINITION. The parameters of ELPE. The constants of R7 are definitions here. The parameters that R8 and R9 leave
open are the fields of `Params`; a machine holds one `Params` in its state and never changes it (R65, log 1). The one
free value of the model, the random tag (R266, log 10), is the opaque constant `Config.freeTag`. -/

namespace Sys2Proof

namespace Config

/-- LFSR_WIDTH (R7): the width of the LFSR register and of the private generator's state. -/
abbrev lfsrWidth : Nat := 8

/-- LFSR_SEED, the ASCII value of 'P' (R7). -/
def lfsrSeed : BitVec lfsrWidth := 0x50#8

/-- N_TX_LFSR_BITS: the stream bits that precede the expected response (R7, R151). -/
def nTxLfsrBits : Nat := 250

/-- N_RX_LFSR_BITS: the stream bits the expected response carries (R7, R160). -/
def nRxLfsrBits : Nat := 250

/-- The stream bits one response byte carries (R7, R160). -/
def rxBitsPerByte : Nat := 2

/-- TXH_LEN (R7). -/
def txhLen : Nat := 209

/-- RXH_LEN (R7): 125, the stream bits at 2 bits a byte. -/
def rxhLen : Nat := nRxLfsrBits / rxBitsPerByte

/-- VER_BYTES (R7). -/
def verBytes : Nat := 4

/-- HS_RX_LEN (R7): 129, the response and the version bytes. -/
def hsRxLen : Nat := rxhLen + verBytes

/-- EXPECTED_VERSION (R7). -/
def expectedVersion : Byte := 1#8

/-- ENC_MAX_W (R7). -/
def encMaxW : Nat := 5

/-- ENC_ROWS (R7). -/
def encRows : Nat := 32

/-- CMD_LEN (R7). -/
def cmdLen : Nat := 11

/-- LEN_ELEMS (R7). -/
def lenElems : Nat := 11

/-- LEN_BITS_PER_ELEM (R7). -/
def lenBitsPerElem : Nat := 3

/-- INIT_CALL_FRAME_LEN (R7). -/
def initCallFrameLen : Nat := 8

/-- MAX_PACKET_SIZE (R7). -/
def maxPacketSize : Nat := 1024

/-- PKT_HDR_LEN (R7). -/
def pktHdrLen : Nat := 8

/-- PKT_RSP_LEN (R7). -/
def pktRspLen : Nat := 8

/-- N_XMIT_ATTEMPTS (R7). -/
def nXmitAttempts : Nat := 3

/-- T_HS_MS (R7). -/
def tHsMs : Nat := 2000

/-- T_ACK_EXTRA_MS (R7). -/
def tAckExtraMs : Nat := 250

/-- T_EEPROM_PROGRAM_ACK_MS (R7). -/
def tEepromProgramAckMs : Nat := 5000

/-- T_EEPROM_VERIFY_ACK_MS (R7). -/
def tEepromVerifyAckMs : Nat := 2000

/-- POLL_INTERVAL_MS (R7). -/
def pollIntervalMs : Nat := 10

/-- BYTE_TIME_BITS (R7). -/
def byteTimeBits : Nat := 10

/-- ACK_PROBE (R7). -/
def ackProbe : Byte := 0xF9#8

/-- ACK_OK (R7). -/
def ackOk : Byte := 0xFE#8

/-- T_STAGE2_READY_MS (R7). -/
def tStage2ReadyMs : Nat := 2000

/-- T_EEPROM_PKT_MS (R7). -/
def tEepromPktMs : Nat := 8000

/-- The tag of the n-th draw that `Env.tags` does not list: any 32-bit value, under no law (R13, R266). A FREE VALUE
(log 10): nothing in the model constrains it. -/
opaque freeTag : Nat → Word

end Config

/-- LEN_ORDER, the bit order of the length field (R8, R202). -/
inductive LenOrder
  | msbFirst
  | lsbFirst
  deriving DecidableEq, Repr

/-- The parameters R8 and R9 leave open. The ROM space of R60 (TXH, CMDK, ENC_TABLE, INIT_CALL_FRAME, CTRL_*) is
part of them. -/
structure Params where
  /-- LFSR_TAPS: the bits whose exclusive or is fed back (R8, R151). -/
  lfsrTaps : List (Fin Config.lfsrWidth)
  /-- LEN_ORDER (R8, R202). -/
  lenOrder : LenOrder
  /-- TXH, the transmitted handshake (R156). -/
  txh : List Byte
  /-- RX_BASE (R160). -/
  rxBase : Byte
  /-- ENC_TABLE: row v, column w − 1, entry (byte, consumed) (R120). -/
  encTable : List (List (Byte × Nat))
  /-- CMDK[0..3] (R201). -/
  cmdk : List (List Byte)
  /-- LEN_ELEM_BASE (R202). -/
  lenElemBase : Byte
  /-- LEN_SLOT_BIT[0] (R202). -/
  lenSlot0 : Fin 8
  /-- LEN_SLOT_BIT[1] (R202). -/
  lenSlot1 : Fin 8
  /-- LEN_SLOT_BIT[2] (R202). -/
  lenSlot2 : Fin 8
  /-- LEN_FINAL_TAG (R202). -/
  lenFinalTag : Byte
  /-- TARGET_CHECKSUM (R181). -/
  targetChecksum : Byte
  /-- INIT_CALL_FRAME (R247). -/
  initCallFrame : List Byte
  /-- CTRL_VERIFY_RAM (R9). -/
  ctrlVerifyRam : List Byte
  /-- CTRL_PROGRAM_VERIFY_EEPROM (R9). -/
  ctrlProgramVerifyEeprom : List Byte
  /-- CTRL_READY_TO_LAUNCH (R9). -/
  ctrlReadyToLaunch : List Byte
  /-- CTRL_LAUNCH_NOW (R9). -/
  ctrlLaunchNow : List Byte
  /-- MAX_DATA_SIZE, what ConnMaxDataSize reports (R263). -/
  maxDataSize : Nat
  /-- T_PKT_MS, the default timeout of a tagged exchange (R9). -/
  tPktMs : Nat
  /-- POLL_RX_TIMEOUT_MS (R205). -/
  pollRxTimeoutMs : Nat
  /-- N_STAGE2_ATTEMPTS (R241). -/
  nStage2Attempts : Nat
  /-- PKT_CAPACITY, the value the register PKTCAP is hardwired to (R29), so a 32-bit value (log 19). -/
  pktCapacity : Word
  /-- RXB_SIZE (R63). -/
  rxbSize : Nat
  /-- IMG_MEM_SIZE (R61). -/
  imgMemSize : Nat
  deriving DecidableEq, Repr

end Sys2Proof
end

