-- ==== Sys2Proof/Syntax.lean ====
section
/-! DEFINITION. The commands of ELPE: one constructor per row of R93, its arguments the fields the row uses. -/

namespace Sys2Proof

/-- The field LT (R91, R92): the index of a command constant, and for 1 to 3 the source's LoadType. -/
inductive LoadType
  /-- 0: shutdown; no LoadType, accepted by ROM.CMD only. -/
  | shutdown
  /-- 1: Run. -/
  | run
  /-- 2: ProgramAndShutdown. -/
  | programShutdown
  /-- 3: ProgramAndRun. -/
  | programRun
  deriving DecidableEq, Repr

/-- A command (R93). Field values are kept as the word holds them: a value outside its legal range still decodes, and
the command ends with OPERAND_ERROR (R91, R96). -/
inductive Instr
  | nop
  /-- ENC.LOOKUP, width w and value v (R123). -/
  | encLookup (w : BitVec 3) (v : BitVec 5)
  | encBytes
  | pktClear
  | pktPutb
  | pktSend
  | lfsrSeed
  | lfsrStep
  | hsTx
  | hsRxbyte
  | hsVerify
  | hsVerdec
  | imgCksum
  /-- IMG.RDF, field number f (R183). -/
  | imgRdf (f : BitVec 3)
  /-- IMG.WRF, field number f (R184). -/
  | imgWrf (f : BitVec 3)
  | romCmd (lt : LoadType)
  | romLen
  | romBuild (lt : LoadType)
  | romAck
  | romLoad (lt : LoadType)
  /-- FAST.XMIT, payload selector psel and response-expected flag r (R235). -/
  | fastXmit (psel : BitVec 3) (r : Bool)
  | fastBegin
  | fastData
  | fastEnd (lt : LoadType)
  | connReset
  | connRecv
  | connBaud
  deriving DecidableEq, Repr

end Sys2Proof
end

