-- ==== Sys2Proof/WellFormed.lean ====
section
/-! DEFINITION. The legal field values of a command (R91, R92). A command that is not well formed still decodes and
runs: it ends with OPERAND_ERROR (R91). -/

namespace Sys2Proof

/-- ENC.LOOKUP's fields are legal: 1 ≤ w ≤ ENC_MAX_W and v < 2^w (R91, R123). -/
def legalLookup (w : BitVec 3) (v : BitVec 5) : Bool :=
  decide (1 ≤ w.toNat) && decide (w.toNat ≤ Config.encMaxW) && decide (v.toNat < 2 ^ w.toNat)

/-- A field number of the image header, 0 to 6 (R91, R180). -/
def legalField (f : BitVec 3) : Bool := decide (f.toNat ≤ 6)

/-- A payload selector, 0 to 4 (R91). -/
def legalPsel (psel : BitVec 3) : Bool := decide (psel.toNat ≤ 4)

/-- A LoadType of the source: LT = 0 has none (R92). -/
def legalLoadType (lt : LoadType) : Bool := decide (lt ≠ .shutdown)

/-- Every field of the command has a legal value. -/
def Instr.wellFormed : Instr → Bool
  | .nop => true
  | .encLookup w v => legalLookup w v
  | .encBytes => true
  | .pktClear => true
  | .pktPutb => true
  | .pktSend => true
  | .lfsrSeed => true
  | .lfsrStep => true
  | .hsTx => true
  | .hsRxbyte => true
  | .hsVerify => true
  | .hsVerdec => true
  | .imgCksum => true
  | .imgRdf f => legalField f
  | .imgWrf f => legalField f
  | .romCmd _ => true
  | .romLen => true
  | .romBuild lt => legalLoadType lt
  | .romAck => true
  | .romLoad lt => legalLoadType lt
  | .fastXmit psel _ => legalPsel psel
  | .fastBegin => true
  | .fastData => true
  | .fastEnd lt => legalLoadType lt
  | .connReset => true
  | .connRecv => true
  | .connBaud => true

end Sys2Proof
end

