-- ==== Sys2Proof/Decode.lean ====
section
/-! DEFINITION. The command word: its decoder and encoder (R90 to R95). Decoding is total; a word that no row of R94
selects is rejected by name, and the machine then ends the command with ILLEGAL_COMMAND (R95). -/

namespace Sys2Proof

/-- Why no row of R94 selects a word (R95). -/
inductive DecodeError
  /-- The opcode is in no row of R93; 0xF0 to 0xFF are among these. -/
  | unlistedOpcode
  /-- A reserved bit or a field the opcode does not use is not 0. -/
  | strayBits
  deriving DecidableEq, Repr

/-- The code of LT (R92). -/
def LoadType.code : LoadType → BitVec 2
  | .shutdown => 0#2
  | .run => 1#2
  | .programShutdown => 2#2
  | .programRun => 3#2

/-- LT from its two bits (R92). -/
def LoadType.ofCode (c : BitVec 2) : LoadType :=
  match c.toNat with
  | 0 => .shutdown
  | 1 => .run
  | 2 => .programShutdown
  | _ => .programRun

/-- The mask of a row that uses no field (R94). -/
def maskNone : Word := 0xFFFFFFFF#32
/-- The mask of a row that uses LT (R94). -/
def maskLT : Word := 0xFFFFFCFF#32
/-- The mask of a row that uses F (R94). -/
def maskF : Word := 0xFFFFE3FF#32
/-- The mask of a row that uses F and V (R94). -/
def maskFV : Word := 0xFFFC03FF#32
/-- The mask of a row that uses F and R (R94). -/
def maskFR : Word := 0xFFFBE3FF#32

/-- Field OPC, bits 7:0 (R90). -/
def fieldOpc (c : Word) : Byte := c.extractLsb' 0 8
/-- Field LT, bits 9:8 (R90). -/
def fieldLT (c : Word) : LoadType := LoadType.ofCode (c.extractLsb' 8 2)
/-- Field F, bits 12:10 (R90). -/
def fieldF (c : Word) : BitVec 3 := c.extractLsb' 10 3
/-- Field V, bits 17:13 (R90). -/
def fieldV (c : Word) : BitVec 5 := c.extractLsb' 13 5
/-- Field R, bit 18 (R90). -/
def fieldR (c : Word) : Bool := c.getLsbD 18

/-- The row with this match and mask selects the word, or the word has stray bits (R94, R95). -/
def selectRow (mtch mask c : Word) (i : Instr) : Except DecodeError Instr :=
  if c &&& mask = mtch then .ok i else .error .strayBits

/-- The command a word encodes (R93, R94). -/
def decode (c : Word) : Except DecodeError Instr :=
  match (fieldOpc c).toNat with
  | 0x00 => selectRow 0x00#32 maskNone c .nop
  | 0x10 => selectRow 0x10#32 maskFV c (.encLookup (fieldF c) (fieldV c))
  | 0x11 => selectRow 0x11#32 maskNone c .encBytes
  | 0x18 => selectRow 0x18#32 maskNone c .pktClear
  | 0x19 => selectRow 0x19#32 maskNone c .pktPutb
  | 0x1A => selectRow 0x1A#32 maskNone c .pktSend
  | 0x20 => selectRow 0x20#32 maskNone c .lfsrSeed
  | 0x21 => selectRow 0x21#32 maskNone c .lfsrStep
  | 0x22 => selectRow 0x22#32 maskNone c .hsTx
  | 0x23 => selectRow 0x23#32 maskNone c .hsRxbyte
  | 0x24 => selectRow 0x24#32 maskNone c .hsVerify
  | 0x25 => selectRow 0x25#32 maskNone c .hsVerdec
  | 0x30 => selectRow 0x30#32 maskNone c .imgCksum
  | 0x31 => selectRow 0x31#32 maskF c (.imgRdf (fieldF c))
  | 0x32 => selectRow 0x32#32 maskF c (.imgWrf (fieldF c))
  | 0x40 => selectRow 0x40#32 maskLT c (.romCmd (fieldLT c))
  | 0x41 => selectRow 0x41#32 maskNone c .romLen
  | 0x42 => selectRow 0x42#32 maskLT c (.romBuild (fieldLT c))
  | 0x43 => selectRow 0x43#32 maskNone c .romAck
  | 0x44 => selectRow 0x44#32 maskLT c (.romLoad (fieldLT c))
  | 0x50 => selectRow 0x50#32 maskFR c (.fastXmit (fieldF c) (fieldR c))
  | 0x51 => selectRow 0x51#32 maskNone c .fastBegin
  | 0x52 => selectRow 0x52#32 maskNone c .fastData
  | 0x53 => selectRow 0x53#32 maskLT c (.fastEnd (fieldLT c))
  | 0x60 => selectRow 0x60#32 maskNone c .connReset
  | 0x61 => selectRow 0x61#32 maskNone c .connRecv
  | 0x62 => selectRow 0x62#32 maskNone c .connBaud
  | _ => .error .unlistedOpcode

/-- The instruction the decoder reads from a word numbered as spec/opcode_table.json numbers it. ELPE has one 32-bit
word per command and no operand word (R90), so bits above nbits are 0. -/
def decodeTableWord (nbits w : Nat) : Option Instr :=
  match decode (BitVec.ofNat 32 (w % 2 ^ nbits)) with
  | .ok i => some i
  | .error _ => none

/-- A word from its fields, reserved bits 0 (R90). -/
def packWord (opc : Byte) (lt : LoadType) (f : BitVec 3) (v : BitVec 5) (r : Bool) : Word :=
  0#13 ++ BitVec.ofBool r ++ v ++ f ++ lt.code ++ opc

/-- A word that uses no field but OPC. -/
def packOpc (opc : Byte) : Word := packWord opc .shutdown 0 0 false

/-- The word of a command (R90, R93). Unused fields are 0, the value `LoadType.shutdown` for LT. -/
def encode : Instr → Word
  | .nop => packOpc 0x00
  | .encLookup w v => packWord 0x10 .shutdown w v false
  | .encBytes => packOpc 0x11
  | .pktClear => packOpc 0x18
  | .pktPutb => packOpc 0x19
  | .pktSend => packOpc 0x1A
  | .lfsrSeed => packOpc 0x20
  | .lfsrStep => packOpc 0x21
  | .hsTx => packOpc 0x22
  | .hsRxbyte => packOpc 0x23
  | .hsVerify => packOpc 0x24
  | .hsVerdec => packOpc 0x25
  | .imgCksum => packOpc 0x30
  | .imgRdf f => packWord 0x31 .shutdown f 0 false
  | .imgWrf f => packWord 0x32 .shutdown f 0 false
  | .romCmd lt => packWord 0x40 lt 0 0 false
  | .romLen => packOpc 0x41
  | .romBuild lt => packWord 0x42 lt 0 0 false
  | .romAck => packOpc 0x43
  | .romLoad lt => packWord 0x44 lt 0 0 false
  | .fastXmit psel r => packWord 0x50 .shutdown psel 0 r
  | .fastBegin => packOpc 0x51
  | .fastData => packOpc 0x52
  | .fastEnd lt => packWord 0x53 lt 0 0 false
  | .connReset => packOpc 0x60
  | .connRecv => packOpc 0x61
  | .connBaud => packOpc 0x62

/-- The row a command belongs to: its match and its mask (R93, R94). -/
def rowOf : Instr → Word × Word
  | .nop => (0x00, maskNone)
  | .encLookup _ _ => (0x10, maskFV)
  | .encBytes => (0x11, maskNone)
  | .pktClear => (0x18, maskNone)
  | .pktPutb => (0x19, maskNone)
  | .pktSend => (0x1A, maskNone)
  | .lfsrSeed => (0x20, maskNone)
  | .lfsrStep => (0x21, maskNone)
  | .hsTx => (0x22, maskNone)
  | .hsRxbyte => (0x23, maskNone)
  | .hsVerify => (0x24, maskNone)
  | .hsVerdec => (0x25, maskNone)
  | .imgCksum => (0x30, maskNone)
  | .imgRdf _ => (0x31, maskF)
  | .imgWrf _ => (0x32, maskF)
  | .romCmd _ => (0x40, maskLT)
  | .romLen => (0x41, maskNone)
  | .romBuild _ => (0x42, maskLT)
  | .romAck => (0x43, maskNone)
  | .romLoad _ => (0x44, maskLT)
  | .fastXmit _ _ => (0x50, maskFR)
  | .fastBegin => (0x51, maskNone)
  | .fastData => (0x52, maskNone)
  | .fastEnd _ => (0x53, maskLT)
  | .connReset => (0x60, maskNone)
  | .connRecv => (0x61, maskNone)
  | .connBaud => (0x62, maskNone)

end Sys2Proof
end

