-- ==== Sys2Proof/Machine/Params.lean ====
section
/-! DEFINITION. The predicates the parameters must meet (R312, U15) and one set of parameter values, the spec's
candidates (R9), that `State.reset` carries. No rule depends on the candidates; the obligations hold for every
parameter set that meets the predicates (log 1). -/

namespace Sys2Proof

namespace Params

/-- ENC_TABLE[v][w]; a cell the table does not have reads as (0, 0), which WF_ENC refuses (R120, R121). -/
def encCell (p : Params) (v w : Nat) : Byte × Nat :=
  ((p.encTable.getD v []).getD (w - 1) (0#8, 0))

/-- WF_ENC for one width: every readable cell consumes at least 1 and at most w bits (R121). -/
def wfEncWidth (p : Params) (w : Nat) : Bool :=
  (List.range (2 ^ w)).all fun v => decide (1 ≤ (p.encCell v w).2) && decide ((p.encCell v w).2 ≤ w)

/-- WF_ENC (R121). -/
def wfEnc (p : Params) : Bool := (List.range Config.encMaxW).all fun k => p.wfEncWidth (k + 1)

/-- ENC_TABLE has ENC_ROWS rows of ENC_MAX_W entries (R7, R120). -/
def encShape (p : Params) : Bool :=
  decide (p.encTable.length = Config.encRows) && p.encTable.all fun row => decide (row.length = Config.encMaxW)

/-- The parameters meet their predicates (R312 item 1, R9's N_STAGE2_ATTEMPTS ≥ 1, and the shapes of ENC_TABLE and
CMDK; log 5). -/
def wf (p : Params) : Bool :=
  p.encShape && p.wfEnc && decide (p.txh.length = Config.txhLen) && !p.rxBase.getLsbD 0 && !p.rxBase.getLsbD 5 &&
    decide (Config.hsRxLen ≤ p.rxbSize) && decide (p.cmdk.length = 4) &&
    p.cmdk.all (fun k => decide (k.length = Config.cmdLen)) &&
    decide (p.initCallFrame.length = Config.initCallFrameLen) && decide (1 ≤ p.nStage2Attempts)

/-- CMDK[k] (R201). -/
def cmdConst (p : Params) (k : Nat) : List Byte := p.cmdk.getD k []

end Params

namespace Config

/-- The entry of a cell that is never read, v ≥ 2^w (R122). -/
def unread : Byte × Nat := (0#8, 0)

/-- ENC_TABLE rows v = 0 to 7 of the candidate (R122). -/
def encRows0 : List (List (Byte × Nat)) :=
  [[(0xFE#8, 1), (0xF2#8, 2), (0x92#8, 3), (0x92#8, 3), (0x92#8, 3)],
   [(0xFF#8, 1), (0xF9#8, 2), (0xC9#8, 3), (0xC9#8, 3), (0xC9#8, 3)],
   [unread, (0xFA#8, 2), (0xCA#8, 3), (0xCA#8, 3), (0xCA#8, 3)],
   [unread, (0xFD#8, 2), (0xE5#8, 3), (0x25#8, 4), (0x25#8, 4)],
   [unread, unread, (0xD2#8, 3), (0xD2#8, 3), (0xD2#8, 3)],
   [unread, unread, (0xE9#8, 3), (0x29#8, 4), (0x29#8, 4)],
   [unread, unread, (0xEA#8, 3), (0x2A#8, 4), (0x2A#8, 4)],
   [unread, unread, (0xF5#8, 3), (0x95#8, 4), (0x95#8, 4)]]

/-- ENC_TABLE rows v = 8 to 15 of the candidate (R122). -/
def encRows1 : List (List (Byte × Nat)) :=
  [[unread, unread, unread, (0x92#8, 3), (0x92#8, 3)],
   [unread, unread, unread, (0x49#8, 4), (0x49#8, 4)],
   [unread, unread, unread, (0x4A#8, 4), (0x4A#8, 4)],
   [unread, unread, unread, (0xA5#8, 4), (0xA5#8, 4)],
   [unread, unread, unread, (0x52#8, 4), (0x52#8, 4)],
   [unread, unread, unread, (0xA9#8, 4), (0xA9#8, 4)],
   [unread, unread, unread, (0xAA#8, 4), (0xAA#8, 4)],
   [unread, unread, unread, (0xD5#8, 4), (0xD5#8, 4)]]

/-- ENC_TABLE rows v = 16 to 23 of the candidate (R122). -/
def encRows2 : List (List (Byte × Nat)) :=
  [[unread, unread, unread, unread, (0x92#8, 3)],
   [unread, unread, unread, unread, (0xC9#8, 3)],
   [unread, unread, unread, unread, (0xCA#8, 3)],
   [unread, unread, unread, unread, (0x25#8, 4)],
   [unread, unread, unread, unread, (0xD2#8, 3)],
   [unread, unread, unread, unread, (0x29#8, 4)],
   [unread, unread, unread, unread, (0x2A#8, 4)],
   [unread, unread, unread, unread, (0x95#8, 4)]]

/-- ENC_TABLE rows v = 24 to 31 of the candidate (R122). -/
def encRows3 : List (List (Byte × Nat)) :=
  [[unread, unread, unread, unread, (0x92#8, 3)],
   [unread, unread, unread, unread, (0x49#8, 4)],
   [unread, unread, unread, unread, (0x4A#8, 4)],
   [unread, unread, unread, unread, (0xA5#8, 4)],
   [unread, unread, unread, unread, (0x52#8, 4)],
   [unread, unread, unread, unread, (0xA9#8, 4)],
   [unread, unread, unread, unread, (0xAA#8, 4)],
   [unread, unread, unread, unread, (0x55#8, 5)]]

/-- The candidate ENC_TABLE (R122); PRESUMED (log 2). -/
def encTable : List (List (Byte × Nat)) := encRows0 ++ encRows1 ++ encRows2 ++ encRows3

/-- TXH_T bytes 0 to 39 (R158). -/
def txhLead0 : List Byte :=
  [0x49#8, 0xCA#8, 0xE9#8, 0xD2#8, 0xD2#8, 0xE9#8, 0xC9#8, 0x92#8,
   0xCA#8, 0xE5#8, 0xD2#8, 0xC9#8, 0xC9#8, 0xEA#8, 0xCA#8, 0xEA#8,
   0x92#8, 0xEA#8, 0xE5#8, 0xCA#8, 0xC9#8, 0xD2#8, 0xCA#8, 0xE9#8,
   0xD2#8, 0xD2#8, 0xE9#8, 0xC9#8, 0x92#8, 0xCA#8, 0xE5#8, 0xD2#8,
   0xC9#8, 0xC9#8, 0xEA#8, 0xCA#8, 0xEA#8, 0x92#8, 0xEA#8, 0xE5#8]

/-- TXH_T bytes 40 to 79 (R158). -/
def txhLead1 : List Byte :=
  [0xCA#8, 0xC9#8, 0xD2#8, 0xCA#8, 0xE9#8, 0xD2#8, 0xD2#8, 0xE9#8,
   0xC9#8, 0x92#8, 0xCA#8, 0xFF#8, 0xC9#8, 0x2A#8, 0xCA#8, 0x52#8,
   0xCA#8, 0x2A#8, 0x92#8, 0xD5#8, 0xD2#8, 0xCA#8, 0x92#8, 0x29#8,
   0x29#8, 0xCA#8, 0x2A#8, 0x25#8, 0x92#8, 0x4A#8, 0xC9#8, 0x2A#8,
   0xCA#8, 0x52#8, 0xCA#8, 0x2A#8, 0x92#8, 0xD5#8, 0xD2#8, 0xCA#8]

/-- TXH_T, the spec's test constant (R158); PRESUMED (log 2). -/
def txhTest : List Byte := txhLead0 ++ txhLead1 ++ List.replicate 129 0x29#8

/-- A candidate command constant: ten elements of 0x92 and a last one (R201); PRESUMED (log 2). -/
def cmdCandidate (last : Byte) : List Byte := List.replicate 10 0x92#8 ++ [last]

/-- The parameter values of `State.reset`. The candidates of R9 are PRESUMED (log 2); the values R9 has no candidate
for, CTRL_*, MAX_DATA_SIZE, T_PKT_MS, N_STAGE2_ATTEMPTS, PKT_CAPACITY and IMG_MEM_SIZE, are a DESIGN CHOICE (log 3). -/
def candidates : Params where
  lfsrTaps := [0, 1, 4, 7]
  lenOrder := .msbFirst
  txh := txhTest
  rxBase := 0xCE#8
  encTable := encTable
  cmdk := [cmdCandidate 0xF2#8, cmdCandidate 0xFA#8, cmdCandidate 0xF3#8, cmdCandidate 0xFB#8]
  lenElemBase := 0x92#8
  lenSlot0 := 0
  lenSlot1 := 3
  lenSlot2 := 6
  lenFinalTag := 0x60#8
  targetChecksum := 0x14#8
  initCallFrame := [0xFF#8, 0xFF#8, 0xF9#8, 0xFF#8, 0xFF#8, 0xFF#8, 0xF9#8, 0xFF#8]
  ctrlVerifyRam := []
  ctrlProgramVerifyEeprom := []
  ctrlReadyToLaunch := []
  ctrlLaunchNow := []
  maxDataSize := 1032
  tPktMs := 1000
  pollRxTimeoutMs := 10
  nStage2Attempts := 1
  pktCapacity := 2048#32
  rxbSize := 256
  imgMemSize := 65536

end Config

end Sys2Proof
end

