-- ==== Sys2Proof/Machine/State.lean ====
section
/-! DEFINITION. The state of ELPE as plain data: the registers of R22, the sequencer phase of R34, the spaces of R60,
and the model's own fields (what the host will do, what the environment will answer, what was called). -/

namespace Sys2Proof.Machine

/-- A byte space: the listed cells at strictly rising addresses, no cell holding 0x00, which is what an unlisted
address reads as (log 6, log 7). -/
abbrev Memory := List Host.Cell

/-- What an unlisted address reads as (log 6). -/
def Memory.blank : Byte := 0x00#8

/-- The error codes of R280. -/
inductive ErrCode
  | none
  | handshakeMismatch
  | versionMismatch
  | checksumAckTimeout
  | packetTimeout
  | resultMismatch
  | bufferOverflow
  | connectionIo
  | baudRateSwitchFailure
  | checksumNak
  | illegalCommand
  | sequenceError
  | operandError
  deriving DecidableEq, Repr

/-- The steps STAGE names (R38). -/
inductive Stage
  | none
  | build
  | reset
  | send
  | handshakeRx
  | version
  | checksumAck
  | eepromProgramAck
  | eepromVerifyAck
  | stage2Ready
  | baudSwitch
  | dataChunk
  | verifyRam
  | programEeprom
  | readyToLaunch
  | launch
  deriving DecidableEq, Repr

/-- The slow-load state SSTATE (R37). -/
inductive SState
  | idle
  | reset
  | handshakeSent
  | handshakeVerified
  | versionVerified
  | checksumAckPending
  | eepromProgramAckPending
  | eepromVerifyAckPending
  | done
  | failed
  deriving DecidableEq, Repr

/-- The fast-load state FSTATE (R39). -/
inductive FState
  | begin
  | secondStageStarted
  | transmitting
  | verifyingRam
  | programmingEeprom
  | readyToLaunch
  | launched
  | failed
  deriving DecidableEq, Repr

/-- The registers a command's steps assign by name; the others are written by the step that computes them. -/
inductive SeqReg
  | res0
  | res1
  | lfsr
  | pktid
  | cksum
  | baud
  deriving DecidableEq, Repr

/-- What such an assignment stores. -/
inductive Val
  | const (v : Word)
  /-- The value the last procedure of the command returned (AckPoll, SlowLoad or Xmit). -/
  | ret
  | attempt
  | pktid
  | pktlen
  deriving DecidableEq, Repr

/-- The arguments of one tagged exchange Xmit(id, payload, t, resp, stage) (R232). -/
structure Exchange where
  id : Word
  payload : List Byte
  timeout : Nat
  resp : Bool
  stage : Stage
  deriving DecidableEq, Repr

/-- The result of ConnRecv (R263). -/
inductive RxAnswer
  | bytes (l : List Byte)
  | timeout
  | ioErr
  deriving DecidableEq, Repr

/-- What the step that called ConnRecv does with its result. -/
inductive RxUse
  /-- CONN.RECV (R264). -/
  | raw
  /-- The handshake response of SlowLoad (R210). -/
  | handshake
  /-- Poll i of n of AckPoll at a stage (R205). -/
  | poll (i n : Nat) (st : Stage)
  /-- Attempt a of a tagged exchange (R232). -/
  | response (x : Exchange) (a : Nat)
  /-- The second stage's readiness response (R241). -/
  | ready
  deriving DecidableEq, Repr

/-- One step of the sequencer (R34): what the pseudocode of a command does between two points at which the host can
see the block (log 20). A Connection primitive is two steps: the call, and the step its result arrives at. -/
inductive Act
  | set (r : SeqReg) (v : Val)
  | sstate (q : SState)
  | fstate (q : FState)
  /-- Write one byte of IMG. -/
  | imgByte (off : Nat) (b : Byte)
  /-- PKTLEN <- 0. -/
  | clearPkt
  /-- Append(l), or BUFFER_OVERFLOW (R62). -/
  | append (l : List Byte)
  /-- Call ConnSend(l); `info` is the ERRINFO of a failure. -/
  | send (l : List Byte) (info : Word)
  /-- Call ConnSend of the packet buffer (R130, R210). -/
  | sendPkt
  /-- ConnSend returns. -/
  | sent (info : Word)
  /-- Call ConnReset. -/
  | connReset
  /-- ConnReset returns. -/
  | wasReset
  /-- Call ConnSetBaud(r). -/
  | setBaud (r : Word)
  /-- ConnSetBaud(r) returns; BAUD is assigned in a step of its own. -/
  | baudSet (r : Word)
  /-- Call ConnRecv(n, t). -/
  | recv (n t : Nat) (k : RxUse)
  /-- ConnRecv(n, t) returns. -/
  | heard (n : Nat) (k : RxUse)
  /-- One received byte is written to RXB (R63, R73). -/
  | rxByte (off : Nat) (b : Byte)
  /-- RXCNT <- n (R63). -/
  | rxCount (n : Nat)
  /-- The calling step goes on with the result, RXB and RXCNT being written. -/
  | answered (r : RxAnswer) (k : RxUse)
  /-- HsCompare (R161). -/
  | hsCompare
  /-- HsVersion's write of VERSION (R161). -/
  | hsVersion
  /-- HsVersion's check of it (R161). -/
  | hsAccept
  /-- AckPoll(bc, extra, stage), bc = PKTLEN when none (R205, R208). -/
  | ackPoll (bc : Option Nat) (extra : Nat) (st : Stage)
  /-- Start SlowLoad(lt), the a-th attempt (R210, R241). -/
  | slowLoad (lt : LoadType) (a : Nat)
  /-- SlowLoad ends without error. -/
  | slowEnd (a : Nat)
  /-- Start attempt a of a tagged exchange: draw the tag into TAG (R232). -/
  | xmit (x : Exchange) (a : Nat)
  /-- STATUS.ATTEMPT <- a (R232). -/
  | attempt (a : Nat)
  /-- The application's check of the result (R234). -/
  | expect (want : Word) (st : Stage)
  /-- The chunk loop of FAST.DATA, from position pos with n chunks sent (R244). -/
  | chunk (off size pos n : Nat)
  /-- A check before the first step failed (R281). -/
  | reject (c : ErrCode) (info : Word)
  deriving DecidableEq, Repr

/-- The sequencer phase (R34): IDLE, or a running command with the value its last procedure returned and the steps
still to do. -/
inductive Phase
  | idle
  | exec (i : Instr) (ret : Word) (todo : List Act)
  deriving DecidableEq, Repr

/-- The result of ConnSend, ConnSetBaud or ConnReset (R263). -/
inductive IoStatus
  | ok
  | ioErr
  deriving DecidableEq, Repr

/-- The draws of the environment not used yet (R13; log 8, log 10). -/
structure Env where
  /-- The results of the next ConnSend, ConnSetBaud and ConnReset calls. -/
  status : List IoStatus
  /-- The results of the next ConnRecv calls. -/
  rx : List RxAnswer
  /-- The next tags that are listed; after them each draw is free. -/
  tags : List Word
  /-- How many free tags were drawn. -/
  drawn : Nat
  deriving DecidableEq, Repr

/-- A Connection primitive as the Connection sees it called (R263). -/
inductive ConnCall
  | send (l : List Byte)
  | recv (n t : Nat)
  | setBaud (r : Word)
  | reset
  deriving DecidableEq, Repr

/-- A move of the host (R267). A register access is a whole 32-bit word by its type (R22). -/
inductive HostMove
  | readReg (off : Nat)
  | writeReg (off : Nat) (v : Word)
  | readPkt (off : Nat)
  | readRxb (off : Nat)
  | readImg (off : Nat)
  | writeImg (off : Nat) (b : Byte)
  /-- Read STATUS and stop the program if ERR = 1 (R98, log 26). -/
  | check
  /-- Hardware reset (R310). -/
  | reset
  deriving DecidableEq, Repr

/-- A host move and when it lands: once BUSY = 0 (`none`, R98's WAIT), or after k more sequencer steps (log 11). -/
structure Timed where
  wait : Option Nat
  move : HostMove
  deriving DecidableEq, Repr

/-- The machine. -/
structure State where
  /-- The parameters, the ROM space among them; no step changes them (R65, log 1). -/
  cfg : Params
  /-- CMD (R23). -/
  cmd : Word
  /-- STATUS.DONE (R24). -/
  done : Bool
  /-- STATUS.ERR (R24). -/
  err : Bool
  /-- STATUS.OVR (R24). -/
  ovr : Bool
  /-- STATUS.ECODE (R24, R280). -/
  ecode : ErrCode
  /-- STATUS.STAGE (R38). -/
  stage : Stage
  /-- STATUS.SSTATE (R37). -/
  sstate : SState
  /-- STATUS.FSTATE (R39). -/
  fstate : FState
  /-- STATUS.ATTEMPT (R24). -/
  attempt : BitVec 2
  /-- ARG0 (R25). -/
  arg0 : Word
  /-- ARG1 (R25). -/
  arg1 : Word
  /-- ARG2 (R25). -/
  arg2 : Word
  /-- ARG3 (R25). -/
  arg3 : Word
  /-- RES0 (R25). -/
  res0 : Word
  /-- RES1 (R25). -/
  res1 : Word
  /-- LFSR (R26). -/
  lfsr : BitVec Config.lfsrWidth
  /-- VERSION (R27). -/
  version : Byte
  /-- PKTLEN (R28). -/
  pktlen : Word
  /-- PKTID (R30). -/
  pktid : Word
  /-- CKSUM (R31). -/
  cksum : Word
  /-- TAG (R32). -/
  tag : Word
  /-- BAUD (R33). -/
  baud : Word
  /-- IMGSIZE (R35). -/
  imgsize : Word
  /-- ERRINFO (R289). -/
  errinfo : Word
  /-- RXCNT (R36). -/
  rxcnt : Word
  /-- The sequencer phase (R34); STATUS.BUSY is phase ≠ IDLE. -/
  phase : Phase
  /-- The IMG space (R60, R61). -/
  img : Memory
  /-- The PKT space (R60, R62). -/
  pkt : Memory
  /-- The RXB space (R60, R63). -/
  rxb : Memory
  /-- The environment's draws still to come (R13); the model's own field. -/
  env : Env
  /-- The Connection calls made so far, oldest first; the model's own field (log 12). -/
  calls : List ConnCall
  /-- The host's moves still to come; the model's own field (log 11). -/
  hostq : List Timed
  /-- The value the host's last read returned; the model's own field (log 13). -/
  rdata : Word
  deriving DecidableEq, Repr

/-- What stops the model with a fault. None is the block's own error: those are next states (R14). -/
inductive Fault
  /-- Raised by `step` when a parameter fails its predicate (R14.3, U15). Safe. -/
  | badParameter
  /-- Raised by a host read of PKT at or past PKTLEN or of RXB at or past RXCNT (R64, U7). Safe. -/
  | unreadableByte
  /-- Raised by a host access to an IMG offset at or past IMG_MEM_SIZE, which does not exist (R60; log 23). Safe. -/
  | noSuchImgByte
  deriving DecidableEq, Repr

/-- What the model refuses. -/
inductive Refusal
  /-- An arm of `exec` without a meaning. No arm is left so. -/
  | notModelled (mnemonic : String)
  /-- Raised by a host register access at an offset that is no multiple of 4 (R72, U11). Safe. -/
  | misalignedAccess
  /-- Raised by a host write of IMG while BUSY = 1, a move the host does not have (R317, U10). Safe. -/
  | imgWriteWhileBusy
  deriving DecidableEq, Repr

/-- The machine right after reset (R42). The spec gives every register's value; the parameters are log 2 and log 3, the
spaces log 6 and log 7, and the model's own fields are empty (log 8, log 11, log 12, log 13). -/
def State.reset : State where
  cfg := Config.candidates
  cmd := 0#32
  done := false
  err := false
  ovr := false
  ecode := .none
  stage := .none
  sstate := .idle
  fstate := .begin
  attempt := 0#2
  arg0 := 0#32
  arg1 := 0#32
  arg2 := 0#32
  arg3 := 0#32
  res0 := 0#32
  res1 := 0#32
  lfsr := Config.lfsrSeed
  version := 0#8
  pktlen := 0#32
  pktid := 0#32
  cksum := 0#32
  tag := 0#32
  baud := 0#32
  imgsize := 0#32
  errinfo := 0#32
  rxcnt := 0#32
  phase := .idle
  img := []
  pkt := []
  rxb := []
  env := ⟨[], [], [], 0⟩
  calls := []
  hostq := []
  rdata := 0#32

end Sys2Proof.Machine
end

