-- ==== Sys2Proof/Machine/Codec.lean ====
section
/-! DEFINITION. The protocol arithmetic of the three sub-units, as functions of the parameters: the LFSR and its stream
(R151), the expected response and the version (R160), the encoder's walker (R124), the length field (R202), the
checksum (R181), little-endian fields (R66, R67), packets (R231), and the poll and packet counts (R205, R240). -/

namespace Sys2Proof.Machine

/-- A bit as the low bit of a byte. -/
def bitByte (b : Bool) : Byte := (BitVec.ofBool b).setWidth 8

/-- The exclusive or of the tapped bits (R151). -/
def lfsrFeedback (taps : List (Fin Config.lfsrWidth)) (s : BitVec Config.lfsrWidth) : Bool :=
  taps.foldl (fun x t => x ^^ s.getLsbD t.val) false

/-- Next(s) (R151). -/
def lfsrNext (taps : List (Fin Config.lfsrWidth)) (s : BitVec Config.lfsrWidth) : BitVec Config.lfsrWidth :=
  ((s <<< 1) &&& 0xFE#8) ||| (BitVec.ofBool (lfsrFeedback taps s)).setWidth Config.lfsrWidth

/-- s_k, the private generator's state after k steps from the seed (R150, R151). -/
def lfsrState (taps : List (Fin Config.lfsrWidth)) : Nat → BitVec Config.lfsrWidth
  | 0 => Config.lfsrSeed
  | k + 1 => lfsrNext taps (lfsrState taps k)

/-- o[k] (R151). -/
def streamBit (taps : List (Fin Config.lfsrWidth)) (k : Nat) : Bool := (lfsrState taps k).getLsbD 0

/-- A response byte with its two stream bits at bits 0 and 5 (R160). -/
def rxByte (base : Byte) (b0 b1 : Bool) : Byte := base ||| bitByte b0 ||| (bitByte b1 <<< 5)

/-- The n response bytes that the generator gives from state s on: `rxh` in one pass over the stream. -/
def rxhFrom (p : Params) : Nat → BitVec Config.lfsrWidth → List Byte
  | 0, _ => []
  | n + 1, s =>
    rxByte p.rxBase (s.getLsbD 0) ((lfsrNext p.lfsrTaps s).getLsbD 0) ::
      rxhFrom p n (lfsrNext p.lfsrTaps (lfsrNext p.lfsrTaps s))

/-- RXH[k] (R160). -/
def rxhByte (p : Params) (k : Nat) : Byte :=
  rxByte p.rxBase (streamBit p.lfsrTaps (Config.nTxLfsrBits + 2 * k))
    (streamBit p.lfsrTaps (Config.nTxLfsrBits + 1 + 2 * k))

/-- RxHandshake: the list of RXH[0] to RXH[124] (R160). -/
def rxh (p : Params) : List Byte :=
  rxhFrom p Config.rxhLen (lfsrState p.lfsrTaps Config.nTxLfsrBits)

/-- One fold of the version decode (R160). -/
def verFold (acc b : Byte) : Byte :=
  ((acc >>> 2) &&& 0x3F#8) ||| ((b &&& 0x01#8) <<< 6) ||| ((b &&& 0x20#8) <<< 2)

/-- VerDecode (R160). -/
def verDecode (l : List Byte) : Byte := l.foldl verFold 0#8

/-- The bits of a byte, LSB first (R68). -/
def byteBits (b : Byte) : List Bool :=
  [b.getLsbD 0, b.getLsbD 1, b.getLsbD 2, b.getLsbD 3, b.getLsbD 4, b.getLsbD 5, b.getLsbD 6, b.getLsbD 7]

/-- The input bits of a byte list (R68). -/
def bitStream (d : List Byte) : List Bool := d.flatMap byteBits

/-- The value of a bit group, bit 0 the first (R120). -/
def bitsVal : List Bool → Nat
  | [] => 0
  | b :: bs => b.toNat + 2 * bitsVal bs

/-- The walker over the bits not consumed yet, at most n groups (R124). -/
def encWalk (p : Params) : Nat → List Bool → List Byte
  | 0, _ => []
  | _ + 1, [] => []
  | n + 1, b :: bs =>
    let g := (b :: bs).take Config.encMaxW
    let e := p.encCell (bitsVal g) g.length
    e.1 :: encWalk p n ((b :: bs).drop e.2)

/-- EncodeBits(d) (R124): at most 8·len(d) groups, since each consumes at least one bit. -/
def encodeBits (p : Params) (d : List Byte) : List Byte := encWalk p (8 * d.length) (bitStream d)

/-- q[j], the j-th bit of the count in LEN_ORDER (R202). -/
def lenBit (p : Params) (c : Word) (j : Nat) : Bool :=
  match p.lenOrder with
  | .msbFirst => c.getLsbD (31 - j)
  | .lsbFirst => c.getLsbD j

/-- Elem(s0, s1, s2) (R202). -/
def lenElem (p : Params) (s0 s1 s2 : Bool) : Byte :=
  p.lenElemBase ||| (bitByte s0 <<< p.lenSlot0.val) ||| (bitByte s1 <<< p.lenSlot1.val) |||
    (bitByte s2 <<< p.lenSlot2.val)

/-- LenField(c) (R202). -/
def lenField (p : Params) (c : Word) : List Byte :=
  (List.range (Config.lenElems - 1)).map (fun i => lenElem p (q i 0) (q i 1) (q i 2)) ++
    [lenElem p (q (Config.lenElems - 1) 0) (q (Config.lenElems - 1) 1) false ||| p.lenFinalTag]
where
  /-- The count bit in slot j of element i. -/
  q (i j : Nat) : Bool := lenBit p c (Config.lenBitsPerElem * i + j)

/-- RomPacket(lt) for an image (R200). -/
def romPacket (p : Params) (lt : LoadType) (image : List Byte) : List Byte :=
  p.txh ++ p.cmdConst lt.code.toNat ++ lenField p (BitVec.ofNat 32 (image.length / 4)) ++ encodeBits p image

/-- The sum of bytes as unsigned values. -/
def byteSum (l : List Byte) : Nat := (l.map BitVec.toNat).sum

/-- The sum of bytes mod 256 (R181). -/
def sumByte (l : List Byte) : Byte := BitVec.ofNat 8 (byteSum l)

/-- The new checksum byte of an image whose old one is given (R181). -/
def checksumByte (target : Byte) (image : List Byte) (old : Byte) : Byte := target - (sumByte image - old)

/-- Σ l[i]·2^(8i) (R66). -/
def leValue : List Byte → Nat
  | [] => 0
  | b :: bs => b.toNat + 256 * leValue bs

/-- LE32 of the first four bytes (R11, R67). -/
def le32 (l : List Byte) : Word := BitVec.ofNat 32 (leValue (l.take 4))

/-- Byte k of a word. -/
def wordByte (v : Word) (k : Nat) : Byte := v.extractLsb' (8 * k) 8

/-- The n low bytes of a word, lowest first (R66). -/
def leBytes (v : Word) (n : Nat) : List Byte := (List.range n).map (wordByte v)

/-- bytesLE32 (R11). -/
def bytesLE32 (v : Word) : List Byte := leBytes v 4

/-- Packet(id, tag, payload) (R231). -/
def fastPacket (id tag : Word) (payload : List Byte) : List Byte := bytesLE32 id ++ bytesLE32 tag ++ payload

/-- The number of polls AckPoll makes (R205). -/
def pollCount (bc extra : Nat) (baud : Word) : Nat :=
  let budget := bc * Config.byteTimeBits * 1000 / baud.toNat + extra
  max 1 ((budget + (Config.pollIntervalMs - 1)) / Config.pollIntervalMs)

/-- PacketCount(s) (R240). -/
def packetCount (size : Word) : Word :=
  BitVec.ofNat 32 ((size.toNat + (Config.maxPacketSize - 1)) / Config.maxPacketSize)

/-- The first index at which two lists differ (HsCompare's loop, R161). -/
def firstDiff : List Byte → List Byte → Option Nat
  | a :: as, b :: bs => if a = b then (firstDiff as bs).map (· + 1) else some 0
  | _, _ => none

end Sys2Proof.Machine
end

