-- ==== Sys2Proof/Machine/Flags.lean ====
section
/-! DEFINITION. STATUS (R24): the numbers of its fields (R37 to R39, R280), the word the host reads, and what a write of
1 clears. -/

namespace Sys2Proof.Machine

/-- ECODE (R280). -/
def ErrCode.code : ErrCode → BitVec 4
  | .none => 0
  | .handshakeMismatch => 1
  | .versionMismatch => 2
  | .checksumAckTimeout => 3
  | .packetTimeout => 4
  | .resultMismatch => 5
  | .bufferOverflow => 6
  | .connectionIo => 7
  | .baudRateSwitchFailure => 8
  | .checksumNak => 9
  | .illegalCommand => 10
  | .sequenceError => 11
  | .operandError => 12

/-- STAGE (R38). -/
def Stage.code : Stage → BitVec 4
  | .none => 0
  | .build => 1
  | .reset => 2
  | .send => 3
  | .handshakeRx => 4
  | .version => 5
  | .checksumAck => 6
  | .eepromProgramAck => 7
  | .eepromVerifyAck => 8
  | .stage2Ready => 9
  | .baudSwitch => 10
  | .dataChunk => 11
  | .verifyRam => 12
  | .programEeprom => 13
  | .readyToLaunch => 14
  | .launch => 15

/-- SSTATE (R37). -/
def SState.code : SState → BitVec 4
  | .idle => 0
  | .reset => 1
  | .handshakeSent => 2
  | .handshakeVerified => 3
  | .versionVerified => 4
  | .checksumAckPending => 5
  | .eepromProgramAckPending => 6
  | .eepromVerifyAckPending => 7
  | .done => 8
  | .failed => 9

/-- FSTATE (R39). -/
def FState.code : FState → BitVec 3
  | .begin => 0
  | .secondStageStarted => 1
  | .transmitting => 2
  | .verifyingRam => 3
  | .programmingEeprom => 4
  | .readyToLaunch => 5
  | .launched => 6
  | .failed => 7

/-- BUSY = (phase ≠ IDLE) (R34). -/
def State.busy (s : State) : Bool := decide (s.phase ≠ .idle)

/-- The STATUS word (R24); bits 19 and 31:22 are reserved and read 0. -/
def State.statusWord (s : State) : Word :=
  0#10 ++ s.attempt ++ 0#1 ++ s.fstate.code ++ s.sstate.code ++ s.stage.code ++ s.ecode.code ++
    BitVec.ofBool s.ovr ++ BitVec.ofBool s.err ++ BitVec.ofBool s.done ++ BitVec.ofBool s.busy

/-- A host write of STATUS while BUSY = 0: bits 1, 2 and 3 clear DONE, ERR and OVR, and clearing ERR clears ECODE and
STAGE (R24). This is the whole return from an error (R287). -/
def State.clearStatus (v : Word) (s : State) : State :=
  { s with
    done := s.done && !v.getLsbD 1
    err := s.err && !v.getLsbD 2
    ovr := s.ovr && !v.getLsbD 3
    ecode := if v.getLsbD 2 then .none else s.ecode
    stage := if v.getLsbD 2 then .none else s.stage }

end Sys2Proof.Machine
end

