-- ==== Sys2Proof/Machine/Ops.lean ====
section
/-! DEFINITION. The shared operations: byte spaces (R60 to R66), appending to PKT (R62), receiving into RXB (R63), the
start and the end of a command (R24, D50), `raise Error` (R285), hardware reset (R310), and the draws (R13). -/

namespace Sys2Proof.Machine

/-! ### Byte spaces -/

namespace Memory

/-- The byte at an address. -/
def get (m : Memory) (a : Nat) : Byte :=
  match m with
  | [] => blank
  | (x, b) :: rest => if x = a then b else get rest a

/-- The cells that hold a byte list from an address on, cells equal to the blank byte left out. -/
def cells (a : Nat) : List Byte → Memory
  | [] => []
  | b :: bs => if b = blank then cells (a + 1) bs else (a, b) :: cells (a + 1) bs

/-- MemWrite: the bytes l at a, a + 1, … replace what was there; every width and byte order is made from this one
(R11, R66). -/
def store (m : Memory) (a : Nat) (l : List Byte) : Memory :=
  m.filter (fun c => decide (c.1 < a)) ++ (cells a l ++ m.filter (fun c => decide (a + l.length ≤ c.1)))

/-- MemRead: the n bytes from a on (R11). -/
def read (m : Memory) (a : Nat) : Nat → List Byte
  | 0 => []
  | n + 1 => get m a :: read m (a + 1) n

/-- The canonical form from an address on: addresses strictly rising, no blank cell. -/
def wfFrom (lo : Nat) : Memory → Bool
  | [] => true
  | (x, b) :: rest => decide (lo ≤ x) && decide (b ≠ blank) && wfFrom (x + 1) rest

/-- The canonical form: equal spaces are equal lists. -/
def wf (m : Memory) : Bool := wfFrom 0 m

end Memory

/-- The value DrawTag() returns next: the next listed tag, or a free value (R13, R266, log 10). -/
def Env.nextTag (e : Env) : Word :=
  match e.tags with
  | [] => Config.freeTag e.drawn
  | t :: _ => t

/-- The environment after one DrawTag(). -/
def Env.afterTag (e : Env) : Env :=
  match e.tags with
  | [] => { e with drawn := e.drawn + 1 }
  | _ :: ts => { e with tags := ts }

namespace State

/-! ### Reading the spaces -/

/-- The image IMG[0 .. IMGSIZE−1] (R61). -/
def image (s : State) : List Byte := s.img.read 0 s.imgsize.toNat

/-- The packet buffer PKT[0 .. PKTLEN−1] (R28). -/
def packet (s : State) : List Byte := s.pkt.read 0 s.pktlen.toNat

/-! ### The running command -/

/-- The phase alone changes. -/
def setPhase (p : Phase) (s : State) : State := { s with phase := p }

/-- The answers of ConnSend, ConnReset and ConnSetBaud still to come. -/
def setStatus (l : List IoStatus) (s : State) : State := { s with env := { s.env with status := l } }

/-- The answers of ConnRecv still to come. -/
def setRx (l : List RxAnswer) (s : State) : State := { s with env := { s.env with rx := l } }

/-- SSTATE alone changes. -/
def setSState (q : SState) (s : State) : State := { s with sstate := q }

/-- FSTATE alone changes. -/
def setFState (q : FState) (s : State) : State := { s with fstate := q }

/-- One byte of IMG is written. -/
def setImgByte (off : Nat) (b : Byte) (s : State) : State := { s with img := s.img.store off [b] }

/-- PKTLEN <- 0; PKT's bytes stay (R128). -/
def clearPkt (s : State) : State := { s with pktlen := 0#32 }

/-- One byte of RXB is written (R63). -/
def setRxByte (off : Nat) (b : Byte) (s : State) : State := { s with rxb := s.rxb.store off [b] }

/-- RXCNT alone changes (R63). -/
def setRxCount (n : Nat) (s : State) : State := { s with rxcnt := BitVec.ofNat 32 n }

/-- STATUS.ATTEMPT alone changes (R232). -/
def setAttempt (a : Nat) (s : State) : State := { s with attempt := BitVec.ofNat 2 a }

/-- VERSION alone changes. -/
def setVersion (v : Byte) (s : State) : State := { s with version := v }

/-- Put steps in front of those still to do. -/
def push (l : List Act) (s : State) : State :=
  { s with phase := match s.phase with
      | .idle => .idle
      | .exec i ret todo => .exec i ret (l ++ todo) }

/-- Record the value a procedure of the command returns. -/
def setRet (v : Word) (s : State) : State :=
  { s with phase := match s.phase with
      | .idle => .idle
      | .exec i _ todo => .exec i v todo }

/-- The value the last procedure returned. -/
def ret (s : State) : Word :=
  match s.phase with
  | .idle => 0#32
  | .exec _ v _ => v

/-- What a named assignment stores. -/
def val (s : State) : Val → Word
  | .const v => v
  | .ret => s.ret
  | .attempt => s.attempt.setWidth 32
  | .pktid => s.pktid
  | .pktlen => s.pktlen

/-- A named assignment of a command. -/
def assign (r : SeqReg) (v : Word) (s : State) : State :=
  match r with
  | .res0 => { s with res0 := v }
  | .res1 => { s with res1 := v }
  | .lfsr => { s with lfsr := v.setWidth Config.lfsrWidth }
  | .pktid => { s with pktid := v }
  | .cksum => { s with cksum := v }
  | .baud => { s with baud := v }

/-- The start of a command: BUSY is set, DONE, ERR, ECODE and STAGE are cleared, OVR is not (R24, D50). -/
def start (i : Instr) (todo : List Act) (s : State) : State :=
  { s with done := false, err := false, ecode := .none, stage := .none, phase := .exec i 0#32 todo }

/-- The end of a command without error: BUSY is cleared and DONE set (R24). -/
def finish (s : State) : State := { s with done := true, phase := .idle }

/-! ### Errors -/

/-- The part of `raise Error` that reports: ECODE, STAGE, ERRINFO, ERR, DONE, BUSY and the phase (R285). -/
def report (c : ErrCode) (st : Stage) (info : Word) (s : State) : State :=
  { s with ecode := c, stage := st, errinfo := info, err := true, done := true, phase := .idle }

/-- FAST.BEGIN, FAST.DATA and FAST.END: the commands whose errors after their checks set FSTATE (R285). -/
def inFastLoad : Instr → Bool
  | .fastBegin | .fastData | .fastEnd _ => true
  | .nop | .encLookup _ _ | .encBytes | .pktClear | .pktPutb | .pktSend | .lfsrSeed | .lfsrStep | .hsTx
  | .hsRxbyte | .hsVerify | .hsVerdec | .imgCksum | .imgRdf _ | .imgWrf _ | .romCmd _ | .romLen | .romBuild _
  | .romAck | .romLoad _ | .fastXmit _ _ | .connReset | .connRecv | .connBaud => false

/-- Inside SlowLoad: the attempt that runs and the steps after it. -/
def enclosingSlow : List Act → Option (Nat × List Act)
  | [] => none
  | .slowEnd a :: after => some (a, after)
  | _ :: rest => enclosingSlow rest

/-- FSTATE <- Failed if the command is one of the three fast-load commands (R285). -/
def markFast (i : Instr) (s : State) : State :=
  if inFastLoad i then s.setFState .failed else s

/-- `raise Error(c, st, info)` at a step of the running command (R285). Inside SlowLoad SSTATE becomes Failed. An error
of a second-stage attempt before the last one is not reported: FAST.BEGIN starts the next attempt (R241, log 15). -/
def raise (c : ErrCode) (st : Stage) (info : Word) (s : State) : State :=
  match s.phase with
  | .idle => s.report c st info
  | .exec i ret todo =>
    match enclosingSlow todo with
    | none => (s.markFast i).report c st info
    | some (a, after) =>
      if i = .fastBegin ∧ a < s.cfg.nStage2Attempts then
        (s.setSState .failed).setPhase (.exec i ret (.slowLoad .run (a + 1) :: after))
      else ((s.setSState .failed).markFast i).report c st info

/-- A command word that no row selects (R95): the command starts and ends at once with ILLEGAL_COMMAND. -/
def illegal (w : Word) (s : State) : State := s.report .illegalCommand .none w

/-! ### PKT, RXB, the Connection -/

/-- The bytes l are written at PKTLEN, and PKTLEN moves past them (R62). -/
def putPkt (l : List Byte) (s : State) : State :=
  { s with pkt := s.pkt.store s.pktlen.toNat l, pktlen := s.pktlen + BitVec.ofNat 32 l.length }

/-- Append(l) (R62): all of it and OK, or BUFFER_OVERFLOW and nothing written. -/
def appendPkt (l : List Byte) (s : State) : State :=
  if s.pktlen.toNat + l.length > s.cfg.pktCapacity.toNat then
    s.raise .bufferOverflow .build (BitVec.ofNat 32 l.length)
  else s.putPkt l

/-- A Connection primitive is called. -/
def call (c : ConnCall) (s : State) : State := { s with calls := s.calls ++ [c] }

/-- What ConnRecv(n, t) gives ELPE from what the environment lists: exactly n bytes, or TIMEOUT for fewer (R232, D45,
log 9). -/
def deliver (n : Nat) : RxAnswer → RxAnswer
  | .bytes l => if l.length < n then .timeout else .bytes (l.take n)
  | .timeout => .timeout
  | .ioErr => .ioErr

/-- The value DrawTag() returns next. -/
def nextTag (s : State) : Word := s.env.nextTag

/-- A fresh tag is drawn into TAG (R232). -/
def drawTag (s : State) : State := { s with tag := s.env.nextTag, env := s.env.afterTag }

/-! ### Reset -/

/-- Hardware reset (R310, R311): every register takes its reset value and the phase is IDLE; the parameters and IMG are
left alone, PKT and RXB are unreadable (log 7), and what the host and the environment will do is theirs (log 21). -/
def hwReset (s : State) : State :=
  { State.reset with
    cfg := s.cfg
    img := s.img
    pkt := s.pkt
    rxb := s.rxb
    env := s.env
    calls := s.calls
    hostq := s.hostq
    rdata := s.rdata }

end State

end Sys2Proof.Machine
end

