-- ==== Sys2Proof/Machine/Operands.lean ====
section
/-! DEFINITION. The operand forms of the commands: image header fields (R180), LoadTypes (R92), payload selectors (R91),
and the range checks the commands make before their first step (R61, R281). -/

namespace Sys2Proof.Machine

/-- NeedsEeprom(LT) (R92). -/
def needsEeprom : LoadType → Bool
  | .shutdown => false
  | .run => false
  | .programShutdown => true
  | .programRun => true

/-- Offset and width of header field f; there is no field 7 (R180, R91). -/
def imgField (f : BitVec 3) : Option (Nat × Nat) :=
  match f.toNat with
  | 0 => some (0, 4)
  | 1 => some (4, 1)
  | 2 => some (5, 1)
  | 3 => some (6, 2)
  | 4 => some (8, 2)
  | 5 => some (10, 2)
  | 6 => some (12, 2)
  | _ => none

/-- Offset of the checksum byte (R180). -/
def cksumOffset : Nat := 5

namespace State

/-- The header field f as IMG.RDF and IMG.WRF check it: it exists, lies in the image, and the image lies in IMG
(R183, R184). -/
def headerField (f : BitVec 3) (s : State) : Option (Nat × Nat) :=
  match imgField f with
  | none => none
  | some (off, n) =>
    if off + n > s.imgsize.toNat ∨ s.imgsize.toNat > s.cfg.imgMemSize then none else some (off, n)

/-- IMG[off .. off+n−1] does not lie in IMG; the sum is exact (R125, R235, R244). -/
def pastImg (off n : Word) (s : State) : Bool := decide (off.toNat + n.toNat > s.cfg.imgMemSize)

/-- The image runs past IMG_MEM_SIZE or has no word count (R204, R210). -/
def badRomImage (s : State) : Bool :=
  decide (s.imgsize.toNat % 4 ≠ 0) || decide (s.imgsize.toNat > s.cfg.imgMemSize)

/-- The image does not reach its checksum byte or runs past IMG_MEM_SIZE (R182). -/
def badCksumImage (s : State) : Bool :=
  decide (s.imgsize.toNat < 6) || decide (s.imgsize.toNat > s.cfg.imgMemSize)

/-- The byte CksumUpdate writes to IMG[5] (R181). -/
def newCksum (s : State) : Byte :=
  checksumByte s.cfg.targetChecksum s.image (s.img.get cksumOffset)

/-- A fast packet with this payload is longer than MAX_DATA_SIZE (R235, R244, R247). -/
def tooLong (n : Nat) (s : State) : Bool := decide (Config.pktHdrLen + n > s.cfg.maxDataSize)

/-- The payload FAST.XMIT sends (R235). -/
def xmitPayload (psel : BitVec 3) (s : State) : List Byte :=
  match psel.toNat with
  | 0 => s.img.read s.arg1.toNat s.arg2.toNat
  | 1 => s.cfg.ctrlVerifyRam
  | 2 => s.cfg.ctrlProgramVerifyEeprom
  | 3 => s.cfg.ctrlReadyToLaunch
  | _ => s.cfg.ctrlLaunchNow

/-- Its length, known before IMG is read (R235, R281). -/
def xmitLength (psel : BitVec 3) (s : State) : Nat :=
  if psel = 0#3 then s.arg2.toNat else (s.xmitPayload psel).length

/-- The control payloads FAST.END sends for a LoadType, in order (R247). -/
def endPayloads (lt : LoadType) (s : State) : List (List Byte) :=
  s.cfg.ctrlVerifyRam ::
    ((if needsEeprom lt then [s.cfg.ctrlProgramVerifyEeprom] else []) ++
      [s.cfg.ctrlReadyToLaunch, s.cfg.ctrlLaunchNow])

/-- The first of them, in that order, that is too long (R247, log 16). -/
def longEndPayload (lt : LoadType) (s : State) : Option (List Byte) :=
  (s.endPayloads lt).find? fun l => s.tooLong l.length

/-- FAST.DATA and FAST.END are allowed (R236). -/
def fastReady (s : State) : Bool :=
  decide (s.fstate = .secondStageStarted) || decide (s.fstate = .transmitting)

end State

end Sys2Proof.Machine
end

