-- ==== Sys2Proof/Machine/Sequencer.lean ====
section
/-! DEFINITION. The sequencer (R34): what each step does, running the steps of a command, and launching one. A command
runs until it ends, until it waits for the Connection, or until a move of the host lands. -/

namespace Sys2Proof.Machine

/-- The 32-bit pattern ERRINFO holds for a missing answer (R289). -/
def noAnswer : Word := 0xFFFFFFFF#32

/-- Poll i of n of AckPoll (R205). -/
def pollActs (p : Params) (i n : Nat) (st : Stage) : List Act :=
  [.send [Config.ackProbe] (BitVec.ofNat 32 i), .recv 1 p.pollRxTimeoutMs (.poll i n st)]

/-- SlowLoad(lt), attempt a, after SSTATE <- Idle (R210). -/
def slowLoadActs (packet : List Byte) (lt : LoadType) (a : Nat) : List Act :=
  [.clearPkt, .append packet, .connReset, .sstate .reset, .sendPkt, .sstate .handshakeSent,
    .recv Config.hsRxLen Config.tHsMs .handshake, .hsCompare, .sstate .handshakeVerified, .hsVersion, .hsAccept,
    .sstate .versionVerified, .sstate .checksumAckPending, .ackPoll none Config.tAckExtraMs .checksumAck] ++
  (if needsEeprom lt then
    [.sstate .eepromProgramAckPending, .ackPoll (some 0) Config.tEepromProgramAckMs .eepromProgramAck,
      .sstate .eepromVerifyAckPending, .ackPoll (some 0) Config.tEepromVerifyAckMs .eepromVerifyAck]
   else []) ++
  [.sstate .done, .slowEnd a]

/-- A bad or missing response at attempt a: the next attempt with a fresh tag, or PACKET_TIMEOUT after the third
(R232). -/
def xmitRetry (x : Exchange) (a : Nat) (last : Word) (s : State) : State :=
  if a < Config.nXmitAttempts then s.push [.xmit x (a + 1)] else s.raise .packetTimeout x.stage last

/-- What the calling step does with the result of a receive, RXB and RXCNT being written (R205, R210, R232, R241,
R264). -/
def RxUse.act (k : RxUse) (r : RxAnswer) (s : State) : State :=
  match k with
  | .raw =>
    match r with
    | .bytes _ => s
    | .timeout => s.raise .connectionIo .handshakeRx noAnswer
    | .ioErr => s.raise .connectionIo .handshakeRx 0#32
  | .handshake =>
    match r with
    | .bytes _ => s
    | .timeout => s
    | .ioErr => s.raise .connectionIo .handshakeRx 0#32
  | .poll i n st =>
    match r with
    | .bytes l =>
      if l.getD 0 0#8 = Config.ackOk then s.setRet (BitVec.ofNat 32 i)
      else s.raise .checksumNak st ((l.getD 0 0#8).setWidth 32)
    | .timeout =>
      if i < n then s.push (pollActs s.cfg (i + 1) n st) else s.raise .checksumAckTimeout st noAnswer
    | .ioErr => s.raise .connectionIo st (BitVec.ofNat 32 i)
  | .response x a =>
    match r with
    | .bytes l =>
      if le32 (l.drop 4) = s.tag ∧ le32 l ≠ x.id then s.setRet (le32 l) else xmitRetry x a (le32 l) s
    | .timeout => xmitRetry x a noAnswer s
    | .ioErr => s.raise .connectionIo x.stage (BitVec.ofNat 32 a)
  | .ready =>
    match r with
    | .bytes l => if le32 l = s.pktid then s else s.raise .resultMismatch .stage2Ready (le32 l)
    | .timeout => s.raise .packetTimeout .stage2Ready noAnswer
    | .ioErr => s.raise .connectionIo .stage2Ready 0#32

/-- HsCompare (R161). -/
def hsCompare (s : State) : State :=
  if s.rxcnt.toNat < Config.hsRxLen then s.raise .handshakeMismatch .handshakeRx noAnswer
  else
    match firstDiff (s.rxb.read 0 Config.rxhLen) (rxh s.cfg) with
    | none => s
    | some k => s.raise .handshakeMismatch .handshakeRx (BitVec.ofNat 32 k)

/-- The version the last response carries (R161). -/
def rxVersion (s : State) : Byte := verDecode (s.rxb.read Config.rxhLen Config.verBytes)

/-- HsVersion's write: VERSION is the decoded version, before it is checked (R160, R161). The host can see it there
while BUSY = 1, which R315 leaves open: the model's choice (log 20). -/
def hsVersion (s : State) : State := s.setVersion (rxVersion s)

/-- HsVersion's check of the version just written (R161). -/
def hsAccept (s : State) : State :=
  if s.version = Config.expectedVersion then s else s.raise .versionMismatch .version (s.version.setWidth 32)

/-- Start attempt a of an exchange: a fresh tag, ATTEMPT, the packet, and the receive if a response is expected
(R232). -/
def xmitAttempt (x : Exchange) (a : Nat) (s : State) : State :=
  s.drawTag.push
    ([.attempt a, .send (fastPacket x.id s.nextTag x.payload) (BitVec.ofNat 32 a)] ++
      if x.resp then [.recv Config.pktRspLen x.timeout (.response x a)] else [])

/-- The chunk loop of FAST.DATA at position pos (R244). -/
def chunkStep (off size pos n : Nat) (s : State) : State :=
  if pos < size then
    let len := min Config.maxPacketSize (size - pos)
    let data := s.img.read (off + pos) len
    let want := s.pktid - 1#32
    (s.setFState .transmitting).push
      [.xmit ⟨s.pktid, data, s.cfg.tPktMs, true, .dataChunk⟩ 1, .expect want .dataChunk,
        .set .cksum (.const (s.cksum + BitVec.ofNat 32 (byteSum data))), .set .pktid (.const want),
        .chunk off size (pos + len) (n + 1)]
  else s.push [.set .res0 (.const (BitVec.ofNat 32 n))]

/-- The answer of ConnSend, ConnReset or ConnSetBaud: the step waits while there is none (log 8). -/
def takeStatus (onOk onIoErr : State → State) (s : State) : Option State :=
  match s.env.status with
  | [] => none
  | .ok :: rest => some (onOk (s.setStatus rest))
  | .ioErr :: rest => some (onIoErr (s.setStatus rest))

/-- The writes of received bytes to RXB from an offset on, one step each (R73). -/
def rxBytes (off : Nat) : List Byte → List Act
  | [] => []
  | b :: bs => .rxByte off b :: rxBytes (off + 1) bs

/-- What a receive does with its result: its bytes go to RXB one by one, then RXCNT is set, to 0 for TIMEOUT and IOERR,
and then the calling step goes on (R63, R73). -/
def receiveActs (r : RxAnswer) (k : RxUse) : List Act :=
  match r with
  | .bytes l => rxBytes 0 l ++ [.rxCount l.length, .answered r k]
  | .timeout => [.rxCount 0, .answered r k]
  | .ioErr => [.rxCount 0, .answered r k]

/-- The answer of ConnRecv(n, t): the receive goes on with it; the step waits while there is none (R63, log 8). -/
def takeRx (n : Nat) (k : RxUse) (s : State) : Option State :=
  match s.env.rx with
  | [] => none
  | r :: rest => some ((s.setRx rest).push (receiveActs (State.deliver n r) k))

/-- One step, taken off the list of those still to do; `none` while the Connection withholds its answer. -/
def Act.run (a : Act) (s : State) : Option State :=
  match a with
  | .set r v => some (s.assign r (s.val v))
  | .sstate q => some (s.setSState q)
  | .fstate q => some (s.setFState q)
  | .imgByte off b => some (s.setImgByte off b)
  | .clearPkt => some s.clearPkt
  | .append l => some (s.appendPkt l)
  | .send l info => some ((s.call (.send l)).push [.sent info])
  | .sendPkt => some ((s.call (.send s.packet)).push [.sent 0#32])
  | .sent info => takeStatus id (State.raise .connectionIo .send info) s
  | .connReset => some ((s.call .reset).push [.wasReset])
  | .wasReset => takeStatus id (State.raise .connectionIo .reset 0#32) s
  | .setBaud r => some ((s.call (.setBaud r)).push [.baudSet r])
  | .baudSet r =>
    takeStatus (State.push [.set .baud (.const r)]) (State.raise .baudRateSwitchFailure .baudSwitch r) s
  | .recv n t k => some ((s.call (.recv n t)).push [.heard n k])
  | .heard n k => takeRx n k s
  | .rxByte off b => some (s.setRxByte off b)
  | .rxCount n => some (s.setRxCount n)
  | .answered r k => some (k.act r s)
  | .hsCompare => some (Machine.hsCompare s)
  | .hsVersion => some (Machine.hsVersion s)
  | .hsAccept => some (Machine.hsAccept s)
  | .ackPoll bc extra st =>
    some (s.push (pollActs s.cfg 1 (pollCount (bc.getD s.pktlen.toNat) extra s.baud) st))
  | .slowLoad lt a => some ((s.setSState .idle).push (slowLoadActs (romPacket s.cfg lt s.image) lt a))
  | .slowEnd a => some (s.setRet (BitVec.ofNat 32 a))
  | .xmit x a => some (xmitAttempt x a s)
  | .attempt a => some (s.setAttempt a)
  | .expect want st => some (if s.ret = want then s else s.raise .resultMismatch st s.ret)
  | .chunk off size pos n => some (chunkStep off size pos n s)
  | .reject c info => some (s.report c .none info)

namespace State

/-- One sequencer step: the next step of the running command, or its end when none is left; `none` when idle or
waiting. -/
def seqStep (s : State) : Option State :=
  match s.phase with
  | .idle => none
  | .exec _ _ [] => some s.finish
  | .exec i ret (a :: todo) => a.run (s.setPhase (.exec i ret todo))

/-- A move of the host lands before the next sequencer step (log 11). -/
def hostDue (s : State) : Bool :=
  match s.hostq with
  | ⟨some 0, _⟩ :: _ => true
  | _ => false

/-- A sequencer step has passed for the host's next move. -/
def tick (s : State) : State :=
  { s with hostq := match s.hostq with
      | ⟨some (k + 1), m⟩ :: q => ⟨some k, m⟩ :: q
      | q => q }

/-- Run at most n sequencer steps, stopping when the command ends or waits or a move of the host lands. -/
def run : Nat → State → State
  | 0, s => s
  | n + 1, s =>
    if s.hostDue then s
    else
      match s.seqStep with
      | none => s
      | some s' => run n s'.tick

/-- A bound on the sequencer steps before the command ends or waits: every loop consumes an answer or an attempt, and a
receive writes at most HS_RX_LEN or RXB_SIZE bytes. A command that met the bound would go on at the next step of the
machine (log 25). -/
def fuel (s : State) : Nat :=
  (256 + s.cfg.rxbSize) * (1 + s.cfg.nStage2Attempts + s.env.status.length + s.env.rx.length)

/-- Go on with the running command. -/
def resume (s : State) : State := run s.fuel s

end State

/-- Start a command with its steps and run it (R23, R24). -/
def launch (i : Instr) (todo : List Act) (s : State) : Host.Outcome State Fault Refusal :=
  .next (s.start i todo).resume

/-- The steps of a command that fails a check before its first step: OPERAND_ERROR, STAGE 0 (R281). -/
def operandError (info : Word) : List Act := [.reject .operandError info]

end Sys2Proof.Machine
end

