-- ==== Sys2Proof/Machine/Encoder.lean ====
section
/-! DEFINITION. The bit-stream encoder and packet-buffer commands: ENC.LOOKUP, ENC.BYTES, PKT.CLEAR, PKT.PUTB, PKT.SEND
(R123 to R130). -/

namespace Sys2Proof.Machine

/-- ENC.LOOKUP (R123). -/
def execEncLookup (w : BitVec 3) (v : BitVec 5) (s : State) : Host.Outcome State Fault Refusal :=
  launch (.encLookup w v)
    (if legalLookup w v then
      [.set .res0 (.const ((s.cfg.encCell v.toNat w.toNat).1.setWidth 32)),
        .set .res1 (.const (BitVec.ofNat 32 (s.cfg.encCell v.toNat w.toNat).2))]
    else operandError s.cmd) s

/-- ENC.BYTES (R125, R126). -/
def execEncBytes (s : State) : Host.Outcome State Fault Refusal :=
  launch .encBytes
    (if s.pastImg s.arg0 s.arg1 then operandError s.arg0
    else
      let out := encodeBits s.cfg (s.img.read s.arg0.toNat s.arg1.toNat)
      [.append out, .set .res0 (.const (BitVec.ofNat 32 out.length)), .set .res1 (.const (8#32 * s.arg1))]) s

/-- PKT.CLEAR (R128). -/
def execPktClear (s : State) : Host.Outcome State Fault Refusal :=
  launch .pktClear [.clearPkt] s

/-- PKT.PUTB (R129). -/
def execPktPutb (s : State) : Host.Outcome State Fault Refusal :=
  launch .pktPutb [.append [s.arg0.setWidth 8]] s

/-- PKT.SEND (R130). -/
def execPktSend (s : State) : Host.Outcome State Fault Refusal :=
  launch .pktSend
    (if s.pktlen = 0#32 then [.set .res0 .pktlen] else [.sendPkt, .set .res0 .pktlen]) s

end Sys2Proof.Machine
end

