-- ==== Sys2Proof/Machine/Fast.lean ====
section
/-! DEFINITION. The fast protocol's commands: FAST.XMIT, FAST.BEGIN, FAST.DATA, FAST.END (R235 to R247). -/

namespace Sys2Proof.Machine

/-- FAST.XMIT (R235). -/
def execFastXmit (psel : BitVec 3) (r : Bool) (s : State) : Host.Outcome State Fault Refusal :=
  launch (.fastXmit psel r)
    (if !legalPsel psel then operandError (psel.setWidth 32)
    else if psel = 0#3 ∧ s.pastImg s.arg1 s.arg2 then operandError s.arg1
    else if s.tooLong (s.xmitLength psel) then operandError (BitVec.ofNat 32 (s.xmitLength psel))
    else
      .xmit ⟨s.arg0, s.xmitPayload psel, if s.arg3 = 0#32 then s.cfg.tPktMs else s.arg3.toNat, r, .dataChunk⟩ 1 ::
        ((if r then [.set .res0 .ret] else []) ++ [.set .res1 .attempt])) s

/-- FAST.BEGIN (R240, R241). -/
def execFastBegin (s : State) : Host.Outcome State Fault Refusal :=
  launch .fastBegin
    (if s.arg1 = 0#32 ∨ s.arg2 = 0#32 then operandError 0#32
    else if s.badCksumImage ∨ s.badRomImage then operandError s.imgsize
    else
      [.fstate .begin, .set .pktid (.const (packetCount s.arg0)), .imgByte cksumOffset s.newCksum,
        .setBaud s.arg1, .slowLoad .run 1, .recv Config.pktRspLen Config.tStage2ReadyMs .ready,
        .setBaud s.arg2, .set .cksum (.const 0#32), .fstate .secondStageStarted, .set .res0 .pktid,
        .set .res1 .ret]) s

/-- FAST.DATA (R244). -/
def execFastData (s : State) : Host.Outcome State Fault Refusal :=
  launch .fastData
    (if s.pastImg s.arg0 s.arg1 then operandError s.arg0
    else if s.arg1 ≠ 0#32 ∧ s.tooLong (min s.arg1.toNat Config.maxPacketSize) then operandError s.arg1
    else if !s.fastReady then [.reject .sequenceError (s.fstate.code.setWidth 32)]
    else [.chunk s.arg0.toNat s.arg1.toNat 0 0]) s

/-- An exchange of FAST.END: the current PKTID, a control payload, the result the application expects (R247, D29). -/
def endExchange (s : State) (payload : List Byte) (t : Nat) (st : Stage) (want : Word) : List Act :=
  [.xmit ⟨s.pktid, payload, t, true, st⟩ 1, .expect want st]

/-- The steps of FAST.END with the checksum sum that includes INIT_CALL_FRAME (R247). -/
def fastEndActs (lt : LoadType) (sum : Word) (s : State) : List Act :=
  [.set .cksum (.const sum), .fstate .verifyingRam] ++
  endExchange s s.cfg.ctrlVerifyRam s.cfg.tPktMs .verifyRam (-sum) ++
  (if needsEeprom lt then
    .fstate .programmingEeprom ::
      endExchange s s.cfg.ctrlProgramVerifyEeprom Config.tEepromPktMs .programEeprom (-(2#32 * sum))
   else []) ++
  (.fstate .readyToLaunch ::
    endExchange s s.cfg.ctrlReadyToLaunch s.cfg.tPktMs .readyToLaunch (s.pktid - 1#32)) ++
  [.xmit ⟨s.pktid, s.cfg.ctrlLaunchNow, 0, false, .launch⟩ 1, .fstate .launched]

/-- FAST.END (R247). -/
def execFastEnd (lt : LoadType) (s : State) : Host.Outcome State Fault Refusal :=
  launch (.fastEnd lt)
    (if !legalLoadType lt then operandError 0#32
    else
      match s.longEndPayload lt with
      | some l => operandError (BitVec.ofNat 32 l.length)
      | none =>
        if !s.fastReady then [.reject .sequenceError (s.fstate.code.setWidth 32)]
        else fastEndActs lt (s.cksum + BitVec.ofNat 32 (byteSum s.cfg.initCallFrame)) s) s

end Sys2Proof.Machine
end

