-- ==== Sys2Proof/Machine/Handshake.lean ====
section
/-! DEFINITION. The handshake generator's commands: LFSR.SEED, LFSR.STEP, HS.TX, HS.RXBYTE, HS.VERIFY, HS.VERDEC (R153
to R162). -/

namespace Sys2Proof.Machine

/-- LFSR.SEED (R153). -/
def execLfsrSeed (s : State) : Host.Outcome State Fault Refusal :=
  launch .lfsrSeed [.set .lfsr (.const (Config.lfsrSeed.setWidth 32))] s

/-- LFSR.STEP (R154). -/
def execLfsrStep (s : State) : Host.Outcome State Fault Refusal :=
  let next := (lfsrNext s.cfg.lfsrTaps s.lfsr).setWidth 32
  launch .lfsrStep
    [.set .res0 (.const ((bitByte (s.lfsr.getLsbD 0)).setWidth 32)), .set .lfsr (.const next),
      .set .res1 (.const next)] s

/-- HS.TX (R157). -/
def execHsTx (s : State) : Host.Outcome State Fault Refusal :=
  launch .hsTx [.append s.cfg.txh, .set .res0 (.const (BitVec.ofNat 32 Config.txhLen))] s

/-- The two stream bits of response byte k as RES1 shows them (R159). -/
def rxBits (p : Params) (k : Nat) : Word :=
  (bitByte (streamBit p.lfsrTaps (Config.nTxLfsrBits + 2 * k))).setWidth 32 |||
    ((bitByte (streamBit p.lfsrTaps (Config.nTxLfsrBits + 1 + 2 * k))).setWidth 32 <<< 1)

/-- HS.RXBYTE (R159). -/
def execHsRxbyte (s : State) : Host.Outcome State Fault Refusal :=
  launch .hsRxbyte
    (if s.arg0.toNat ≥ Config.rxhLen then operandError s.arg0
    else
      [.set .res0 (.const ((rxhByte s.cfg s.arg0.toNat).setWidth 32)),
        .set .res1 (.const (rxBits s.cfg s.arg0.toNat))]) s

/-- HS.VERIFY (R161). -/
def execHsVerify (s : State) : Host.Outcome State Fault Refusal :=
  launch .hsVerify [.hsCompare, .hsVersion, .hsAccept] s

/-- HS.VERDEC (R162). -/
def execHsVerdec (s : State) : Host.Outcome State Fault Refusal :=
  launch .hsVerdec [.set .res0 (.const ((verDecode (bytesLE32 s.arg0)).setWidth 32))] s

end Sys2Proof.Machine
end

