-- ==== Sys2Proof/Machine/Image.lean ====
section
/-! DEFINITION. The image commands: IMG.CKSUM, IMG.RDF, IMG.WRF (R182 to R184). -/

namespace Sys2Proof.Machine

/-- IMG.CKSUM (R181, R182): the new checksum byte, and the sum before the write, sign-extended. -/
def execImgCksum (s : State) : Host.Outcome State Fault Refusal :=
  launch .imgCksum
    (if s.badCksumImage then operandError s.imgsize
    else [.imgByte cksumOffset s.newCksum, .set .res0 (.const ((sumByte s.image).signExtend 32))]) s

/-- IMG.RDF (R183). -/
def execImgRdf (f : BitVec 3) (s : State) : Host.Outcome State Fault Refusal :=
  launch (.imgRdf f)
    (match s.headerField f with
    | none => operandError (f.setWidth 32)
    | some (off, n) => [.set .res0 (.const (BitVec.ofNat 32 (leValue (s.img.read off n))))]) s

/-- The steps of IMG.WRF's loop: the bytes of a value from an offset on, one step each (R73, R184). -/
def imgBytes (off : Nat) : List Byte → List Act
  | [] => []
  | b :: bs => .imgByte off b :: imgBytes (off + 1) bs

/-- IMG.WRF (R184). -/
def execImgWrf (f : BitVec 3) (s : State) : Host.Outcome State Fault Refusal :=
  launch (.imgWrf f)
    (match s.headerField f with
    | none => operandError (f.setWidth 32)
    | some (off, n) => imgBytes off (leBytes s.arg0 n)) s

end Sys2Proof.Machine
end

