-- ==== Sys2Proof/Machine/Interface.lean ====
section
/-! DEFINITION. The null command and the raw interface commands: NOP, CONN.RESET, CONN.RECV, CONN.BAUD (R260 to R265). -/

namespace Sys2Proof.Machine

/-- NOP (R260). -/
def execNop (s : State) : Host.Outcome State Fault Refusal := launch .nop [] s

/-- CONN.RESET (R261). -/
def execConnReset (s : State) : Host.Outcome State Fault Refusal := launch .connReset [.connReset] s

/-- CONN.RECV (R264). -/
def execConnRecv (s : State) : Host.Outcome State Fault Refusal :=
  launch .connRecv
    (if s.arg0 = 0#32 ∨ s.arg0.toNat > s.cfg.rxbSize then operandError s.arg0
    else [.recv s.arg0.toNat s.arg1.toNat .raw, .set .res0 (.const s.arg0)]) s

/-- CONN.BAUD (R265). -/
def execConnBaud (s : State) : Host.Outcome State Fault Refusal :=
  launch .connBaud (if s.arg0 = 0#32 then operandError 0#32 else [.setBaud s.arg0]) s

end Sys2Proof.Machine
end

