-- ==== Sys2Proof/Machine/Rom.lean ====
section
/-! DEFINITION. The ROM-protocol commands: ROM.CMD, ROM.LEN, ROM.BUILD, ROM.ACK, ROM.LOAD (R201 to R210). -/

namespace Sys2Proof.Machine

/-- ROM.CMD (R201): every LT is legal. -/
def execRomCmd (lt : LoadType) (s : State) : Host.Outcome State Fault Refusal :=
  launch (.romCmd lt) [.append (s.cfg.cmdConst lt.code.toNat)] s

/-- ROM.LEN (R203). -/
def execRomLen (s : State) : Host.Outcome State Fault Refusal :=
  launch .romLen [.append (lenField s.cfg s.arg0)] s

/-- ROM.BUILD (R204). -/
def execRomBuild (lt : LoadType) (s : State) : Host.Outcome State Fault Refusal :=
  launch (.romBuild lt)
    (if !legalLoadType lt then operandError 0#32
    else if s.badRomImage then operandError s.imgsize
    else [.clearPkt, .append (romPacket s.cfg lt s.image), .set .res0 .pktlen]) s

/-- ROM.ACK (R206, R207). -/
def execRomAck (s : State) : Host.Outcome State Fault Refusal :=
  launch .romAck
    (if s.baud = 0#32 then operandError 0#32
    else
      [.ackPoll (some s.arg0.toNat) s.arg1.toNat .checksumAck, .set .res0 .ret,
        .set .res1 (.const (BitVec.ofNat 32 (pollCount s.arg0.toNat s.arg1.toNat s.baud)))]) s

/-- ROM.LOAD (R210). -/
def execRomLoad (lt : LoadType) (s : State) : Host.Outcome State Fault Refusal :=
  launch (.romLoad lt)
    (if !legalLoadType lt then operandError 0#32
    else if s.badRomImage then operandError s.imgsize
    else if s.baud = 0#32 then operandError 0#32
    else [.slowLoad lt 1]) s

end Sys2Proof.Machine
end

