-- ==== Sys2Proof/Machine/Dispatch.lean ====
section
/-! DEFINITION. The meaning of every command (R93). -/

namespace Sys2Proof.Machine

def exec (i : Instr) (s : State) : Host.Outcome State Fault Refusal :=
  match i with
  | .nop => Sys2Proof.Machine.execNop s
  | .encLookup w v => Sys2Proof.Machine.execEncLookup w v s
  | .encBytes => Sys2Proof.Machine.execEncBytes s
  | .pktClear => Sys2Proof.Machine.execPktClear s
  | .pktPutb => Sys2Proof.Machine.execPktPutb s
  | .pktSend => Sys2Proof.Machine.execPktSend s
  | .lfsrSeed => Sys2Proof.Machine.execLfsrSeed s
  | .lfsrStep => Sys2Proof.Machine.execLfsrStep s
  | .hsTx => Sys2Proof.Machine.execHsTx s
  | .hsRxbyte => Sys2Proof.Machine.execHsRxbyte s
  | .hsVerify => Sys2Proof.Machine.execHsVerify s
  | .hsVerdec => Sys2Proof.Machine.execHsVerdec s
  | .imgCksum => Sys2Proof.Machine.execImgCksum s
  | .imgRdf f => Sys2Proof.Machine.execImgRdf f s
  | .imgWrf f => Sys2Proof.Machine.execImgWrf f s
  | .romCmd lt => Sys2Proof.Machine.execRomCmd lt s
  | .romLen => Sys2Proof.Machine.execRomLen s
  | .romBuild lt => Sys2Proof.Machine.execRomBuild lt s
  | .romAck => Sys2Proof.Machine.execRomAck s
  | .romLoad lt => Sys2Proof.Machine.execRomLoad lt s
  | .fastXmit psel r => Sys2Proof.Machine.execFastXmit psel r s
  | .fastBegin => Sys2Proof.Machine.execFastBegin s
  | .fastData => Sys2Proof.Machine.execFastData s
  | .fastEnd lt => Sys2Proof.Machine.execFastEnd lt s
  | .connReset => Sys2Proof.Machine.execConnReset s
  | .connRecv => Sys2Proof.Machine.execConnRecv s
  | .connBaud => Sys2Proof.Machine.execConnBaud s

end Sys2Proof.Machine
end

