-- ==== Sys2Proof/Machine/HostBus.lean ====
section
/-! DEFINITION. The host's moves: the register map (R22), reads and writes of registers (R23 to R36, R316), starting a
command (R23, R95), reads and writes of the byte spaces (R64, R317), reset (R310), and the host programs of R98. -/

namespace Sys2Proof.Machine

/-- The registers of the map (R22). -/
inductive HostReg
  | cmd
  | status
  | arg0
  | arg1
  | arg2
  | arg3
  | res0
  | res1
  | lfsr
  | version
  | pktlen
  | pktcap
  | pktid
  | cksum
  | tag
  | baud
  | imgsize
  | errinfo
  | rxcnt
  deriving DecidableEq, Repr

/-- The register at a byte offset; the other offsets have none (R22). -/
def hostReg (off : Nat) : Option HostReg :=
  match off with
  | 0x00 => some .cmd
  | 0x04 => some .status
  | 0x08 => some .arg0
  | 0x0C => some .arg1
  | 0x10 => some .arg2
  | 0x14 => some .arg3
  | 0x18 => some .res0
  | 0x1C => some .res1
  | 0x20 => some .lfsr
  | 0x24 => some .version
  | 0x28 => some .pktlen
  | 0x2C => some .pktcap
  | 0x30 => some .pktid
  | 0x34 => some .cksum
  | 0x38 => some .tag
  | 0x3C => some .baud
  | 0x40 => some .imgsize
  | 0x44 => some .errinfo
  | 0x48 => some .rxcnt
  | _ => none

namespace State

/-- The word a register holds (R22 to R36). -/
def regWord (s : State) : HostReg → Word
  | .cmd => s.cmd
  | .status => s.statusWord
  | .arg0 => s.arg0
  | .arg1 => s.arg1
  | .arg2 => s.arg2
  | .arg3 => s.arg3
  | .res0 => s.res0
  | .res1 => s.res1
  | .lfsr => s.lfsr.setWidth 32
  | .version => s.version.setWidth 32
  | .pktlen => s.pktlen
  | .pktcap => s.cfg.pktCapacity
  | .pktid => s.pktid
  | .cksum => s.cksum
  | .tag => s.tag
  | .baud => s.baud
  | .imgsize => s.imgsize
  | .errinfo => s.errinfo
  | .rxcnt => s.rxcnt

/-- What a host read of an aligned offset returns; an offset not listed reads 0 (R22). -/
def readReg (off : Nat) (s : State) : Word :=
  match hostReg off with
  | some r => s.regWord r
  | none => 0#32

/-- A host write of a register other than CMD while BUSY = 0; a write to a read-only register is ignored (R22). -/
def writeIdle (r : HostReg) (v : Word) (s : State) : State :=
  match r with
  | .cmd => s
  | .status => s.clearStatus v
  | .arg0 => { s with arg0 := v }
  | .arg1 => { s with arg1 := v }
  | .arg2 => { s with arg2 := v }
  | .arg3 => { s with arg3 := v }
  | .res0 => s
  | .res1 => s
  | .lfsr => { s with lfsr := v.setWidth Config.lfsrWidth }
  | .version => s
  | .pktlen => s
  | .pktcap => s
  | .pktid => { s with pktid := v }
  | .cksum => { s with cksum := v }
  | .tag => s
  | .baud => s
  | .imgsize => { s with imgsize := v }
  | .errinfo => s
  | .rxcnt => s

/-- A host write of a register while BUSY = 1: it is ignored and sets OVR, whichever register it names (R24, R316); CMD
reads back the ignored word (R23). -/
def writeBusy (r : HostReg) (v : Word) (s : State) : State :=
  { s with ovr := true, cmd := if r = .cmd then v else s.cmd }

/-- A host write of CMD while BUSY = 0 (R23): the command the word encodes, or ILLEGAL_COMMAND (R95). -/
def command (w : Word) (s : State) : Host.Outcome State Fault Refusal :=
  match decode w with
  | .ok i => exec i { s with cmd := w }
  | .error _ => .next ({ s with cmd := w }.illegal w)

/-- A host write of an aligned offset; an offset not listed is no register and ignores it (R22; OVR then: log 14). -/
def writeReg (off : Nat) (v : Word) (s : State) : Host.Outcome State Fault Refusal :=
  match hostReg off with
  | none => .next s
  | some r =>
    if s.busy then .next (s.writeBusy r v)
    else if r = .cmd then s.command v
    else .next (s.writeIdle r v)

/-- A byte the host reads (R64). -/
def readByte (b : Byte) (s : State) : State := { s with rdata := b.setWidth 32 }

/-- A move of the host (R267, R310). -/
def hostMove (m : HostMove) (s : State) : Host.Outcome State Fault Refusal :=
  match m with
  | .readReg off =>
    if off % 4 = 0 then .next { s with rdata := s.readReg off } else .refused .misalignedAccess
  | .writeReg off v => if off % 4 = 0 then s.writeReg off v else .refused .misalignedAccess
  | .readPkt off => if off < s.pktlen.toNat then .next (s.readByte (s.pkt.get off)) else .fault .unreadableByte
  | .readRxb off => if off < s.rxcnt.toNat then .next (s.readByte (s.rxb.get off)) else .fault .unreadableByte
  | .readImg off => if off < s.cfg.imgMemSize then .next (s.readByte (s.img.get off)) else .fault .noSuchImgByte
  | .writeImg off b =>
    if s.busy then .refused .imgWriteWhileBusy
    else if off < s.cfg.imgMemSize then .next { s with img := s.img.store off [b] }
    else .fault .noSuchImgByte
  | .check => .next { s with rdata := s.statusWord, hostq := if s.err then [] else s.hostq }
  | .reset => .next s.hwReset

end State

/-! ### Host programs (R98) -/

/-- Offset of CMD (R22). -/
def cmdOffset : Nat := 0x00
/-- Offset of STATUS (R22). -/
def statusOffset : Nat := 0x04
/-- Offset of ARG0 (R22). -/
def arg0Offset : Nat := 0x08
/-- Offset of ARG1 (R22). -/
def arg1Offset : Nat := 0x0C
/-- Offset of ARG2 (R22). -/
def arg2Offset : Nat := 0x10

/-- A move that lands once BUSY = 0: WAIT comes before it (R98). -/
def afterWait (m : HostMove) : Timed := ⟨none, m⟩

/-- WR (R98). -/
def hostWr (off : Nat) (v : Word) : Timed := afterWait (.writeReg off v)

/-- CMD mnemonic; WAIT; and the check of ERR that follows each WAIT (R98). -/
def hostCmd (i : Instr) : List Timed := [hostWr cmdOffset (encode i), afterWait .check]

/-- ACK: clear DONE, ERR and OVR (R98). -/
def hostAck : Timed := hostWr statusOffset 0x0000000E#32

/-- LOAD.SLOW lt (R98). -/
def loadSlow (lt : LoadType) : List Timed := hostCmd (.romLoad lt)

/-- LOAD.FAST off, size, baud0, baud1, lt (R98). -/
def loadFast (off size baud0 baud1 : Word) (lt : LoadType) : List Timed :=
  [hostWr arg0Offset size, hostWr arg1Offset baud0, hostWr arg2Offset baud1] ++ hostCmd .fastBegin ++
    [hostWr arg0Offset off, hostWr arg1Offset size] ++ hostCmd .fastData ++ hostCmd (.fastEnd lt)

end Sys2Proof.Machine
end

