-- ==== Sys2Proof/Machine/Step.lean ====
section
/-! DEFINITION. One step of the machine (R12, R23, R34): the host's next move, or the running command going on. -/

namespace Sys2Proof.Machine

/-- The host's next move lands on the running command: it is due, or it is timed and the command waits for the
Connection (log 11). A move timed after WAIT does not. -/
def State.landsNow (s : State) (wait : Option Nat) : Bool :=
  match wait with
  | none => false
  | some k => decide (k = 0) || s.seqStep.isNone

/-- The machine goes on only with parameters that meet their predicates; otherwise it is a model fault (R14.3). -/
def State.guarded (s : State) (o : Host.Outcome State Fault Refusal) : Host.Outcome State Fault Refusal :=
  if s.cfg.wf then o else .fault .badParameter

/-- While idle the host's next move happens, or nothing if it has none (R301). While a command runs, a move of the host
lands on it or the command goes on; a command whose Connection answer is missing stays as it is (R14, U21). -/
def step (s : State) : Host.Outcome State Fault Refusal :=
  match s.hostq with
  | [] => s.guarded (.next s.resume)
  | t :: q =>
    s.guarded
      (if s.busy && !s.landsNow t.wait then .next s.resume else State.hostMove t.move { s with hostq := q })

/-- The state in which the host's next move is the CMD write of a word and no command runs, so that the next step runs
it (log 22). A command word has no operand words, so bits above nbits are 0 (R90). -/
def State.withFetchWord (s : State) (nbits w : Nat) : State :=
  { s with
    phase := .idle
    hostq := hostWr cmdOffset (BitVec.ofNat 32 (w % 2 ^ nbits)) :: s.hostq }

end Sys2Proof.Machine
end

