-- ==== Sys2Proof/Safety.lean ====
section
/-! DEFINITION. The terms the claims use: what the host and the environment do in a run a claim speaks of, what a state of
a sound run satisfies, and the end of a command. -/

namespace Sys2Proof.Machine

/-! ### A run the host does not disturb -/

/-- The host's next move, if any, waits until BUSY = 0, as R315 asks of a program. -/
def State.hostWaits (s : State) : Bool :=
  match s.hostq with
  | [] => true
  | t :: _ => t.wait.isNone

/-- No move of the host lands in the next step: it has none, or the next one waits for BUSY = 0, or its time has not come
and the command can go on (log 11). -/
def State.noMoveLands (s : State) : Prop := ∀ m q, s.hostq = m :: q → s.landsNow m.wait = false

/-- A move the host has (R64, R72, R317): aligned, at a readable or existing byte, and no IMG write while BUSY = 1. -/
def HostMove.legal (m : HostMove) (s : State) : Bool :=
  match m with
  | .readReg off => decide (off % 4 = 0)
  | .writeReg off _ => decide (off % 4 = 0)
  | .readPkt off => decide (off < s.pktlen.toNat)
  | .readRxb off => decide (off < s.rxcnt.toNat)
  | .readImg off => decide (off < s.cfg.imgMemSize)
  | .writeImg off _ => !s.busy && decide (off < s.cfg.imgMemSize)
  | .check => true
  | .reset => true

/-! ### The end of a command -/

/-- The command has ended without error: DONE = 1, ERR = 0, no code, no stage, phase IDLE (R14, R24). -/
def State.doneOk (s : State) : State :=
  { s with done := true, err := false, ecode := .none, stage := .none, phase := .idle }

/-- The command has ended with an error: DONE = 1, ERR = 1, the code, the stage, ERRINFO, phase IDLE (R14, R285). -/
def State.doneErr (c : ErrCode) (st : Stage) (info : Word) (s : State) : State :=
  { s with done := true, err := true, ecode := c, stage := st, errinfo := info, phase := .idle }

/-! ### Answers and calls -/

/-- The value of the k-th draw from here, counted from 0 (R266). -/
def Env.tagNo : Nat → Env → Word
  | 0, e => e.nextTag
  | k + 1, e => tagNo k e.afterTag

/-- The environment after k draws. -/
def Env.afterTags : Nat → Env → Env
  | 0, e => e
  | k + 1, e => afterTags k e.afterTag

/-- The calls of i polls of AckPoll (R205, R211). -/
def pollCalls (p : Params) : Nat → List ConnCall
  | 0 => []
  | i + 1 => pollCalls p i ++ [.send [Config.ackProbe], .recv 1 p.pollRxTimeoutMs]

/-- The receive answers of a poll sequence that hears 0xFE at poll i ≥ 1: i − 1 timeouts, then the byte (R205). -/
def ackAtPoll (i : Nat) : List RxAnswer := List.replicate (i - 1) .timeout ++ [.bytes [Config.ackOk]]

/-- Attempt k of an exchange (R232) is not accepted: the answer is a timeout, or its tag is not the one sent, or its
result is the id itself. -/
def notAccepted (id tag : Word) (r : RxAnswer) : Prop :=
  match State.deliver Config.pktRspLen r with
  | .bytes l => ¬(le32 (l.drop 4) = tag ∧ le32 l ≠ id)
  | .timeout => True
  | .ioErr => False

/-- No answer of the list is accepted, answer k being heard after the (k + 1)-th tag from here is drawn (R232). -/
def noneAccepted (id : Word) (e : Env) (answers : List RxAnswer) : Prop :=
  ∀ k r, answers[k]? = some r → notAccepted id (e.tagNo k) r

/-- What PACKET_TIMEOUT reports of the last answer: its result, or 0xFFFFFFFF for a timeout (R232, R289). -/
def lastResult (r : RxAnswer) : Word :=
  match State.deliver Config.pktRspLen r with
  | .bytes l => le32 l
  | .timeout => noAnswer
  | .ioErr => noAnswer

/-- RXCNT after an answer (R63). -/
def lastCount (r : RxAnswer) : Word :=
  match State.deliver Config.pktRspLen r with
  | .bytes _ => 8#32
  | .timeout => 0#32
  | .ioErr => 0#32

/-- The calls of n attempts of an exchange, each with its own tag (R232). -/
def xmitCalls (id : Word) (payload : List Byte) (t : Nat) (e : Env) (n : Nat) : List ConnCall :=
  (List.range n).flatMap fun k =>
    [.send (fastPacket id (e.tagNo k) payload), .recv Config.pktRspLen t]

/-- A response with a result and a tag (R231). -/
def response (result tag : Word) : List Byte := bytesLE32 result ++ bytesLE32 tag

/-- The byte lists that answers to ConnRecv(n) put into RXB, in order (R63). -/
def deliveries (n : Nat) (answers : List RxAnswer) : List (List Byte) :=
  answers.filterMap fun r =>
    match State.deliver n r with
    | .bytes l => some l
    | .timeout => none
    | .ioErr => none

/-! ### Exchanges of FAST.DATA and FAST.END -/

/-- An exchange of a load command: what it sends, and the result its application layer wants (R234). -/
structure Wanted where
  id : Word
  payload : List Byte
  timeout : Nat
  stage : Stage
  want : Word

/-- An exchange that is accepted after the answers `bad` that are not (R232). -/
structure Accepted where
  asked : Wanted
  bad : List RxAnswer

/-- Exchanges made one after another, each accepted within three attempts; a result that is the id never is (R232,
R234). -/
def allAccepted : Env → List Accepted → Prop
  | _, [] => True
  | e, x :: rest =>
    x.bad.length < 3 ∧ x.asked.want ≠ x.asked.id ∧ noneAccepted x.asked.id e x.bad ∧
      allAccepted (e.afterTags (x.bad.length + 1)) rest

/-- How many tags they draw: one an attempt. -/
def tagsDrawn : List Accepted → Nat
  | [] => 0
  | x :: rest => x.bad.length + 1 + tagsDrawn rest

/-- The attempts of the last of them, or the given number when there is none (R24). -/
def lastAttempts (before : BitVec 2) : List Accepted → BitVec 2
  | [] => before
  | x :: rest => lastAttempts (BitVec.ofNat 2 (x.bad.length + 1)) rest

/-- Their answers: what is not accepted, then the wanted result with the tag of that attempt. -/
def acceptedAnswers : Env → List Accepted → List RxAnswer
  | _, [] => []
  | e, x :: rest =>
    x.bad ++ .bytes (response x.asked.want (e.tagNo x.bad.length)) ::
      acceptedAnswers (e.afterTags (x.bad.length + 1)) rest

/-- Their calls. -/
def acceptedCalls : Env → List Accepted → List ConnCall
  | _, [] => []
  | e, x :: rest =>
    xmitCalls x.asked.id x.asked.payload x.asked.timeout e (x.bad.length + 1) ++
      acceptedCalls (e.afterTags (x.bad.length + 1)) rest

/-- How an exchange fails after the answers that are not accepted (R232, R234): at the next attempt the send fails, the
receive fails, or the accepted result is r, not the wanted one; or there were three such answers. -/
inductive ExchangeFailure
  | sendFails
  | recvFails
  | unexpected (r : Word)
  | exhausted

namespace ExchangeFailure

/-- The exchange can fail so. -/
def possible (f : ExchangeFailure) (x : Accepted) (e : Env) : Prop :=
  noneAccepted x.asked.id e x.bad ∧
    match f with
    | sendFails => x.bad.length < 3
    | recvFails => x.bad.length < 3
    | unexpected r => x.bad.length < 3 ∧ r ≠ x.asked.id ∧ r ≠ x.asked.want
    | exhausted => x.bad.length = 3

/-- The attempts made. -/
def attempts (f : ExchangeFailure) (bad : List RxAnswer) : Nat :=
  match f with
  | sendFails => bad.length + 1
  | recvFails => bad.length + 1
  | unexpected _ => bad.length + 1
  | exhausted => bad.length

/-- The results of the sends. -/
def statuses (f : ExchangeFailure) (bad : List RxAnswer) : List IoStatus :=
  match f with
  | sendFails => List.replicate bad.length .ok ++ [.ioErr]
  | recvFails => List.replicate (bad.length + 1) .ok
  | unexpected _ => List.replicate (bad.length + 1) .ok
  | exhausted => List.replicate bad.length .ok

/-- The results of the receives. -/
def answers (f : ExchangeFailure) (bad : List RxAnswer) (e : Env) : List RxAnswer :=
  match f with
  | sendFails => bad
  | recvFails => bad ++ [.ioErr]
  | unexpected r => bad ++ [.bytes (response r (e.tagNo bad.length))]
  | exhausted => bad

/-- The calls. -/
def calls (f : ExchangeFailure) (x : Accepted) (e : Env) : List ConnCall :=
  match f with
  | sendFails =>
    xmitCalls x.asked.id x.asked.payload x.asked.timeout e x.bad.length ++
      [.send (fastPacket x.asked.id (e.tagNo x.bad.length) x.asked.payload)]
  | recvFails => xmitCalls x.asked.id x.asked.payload x.asked.timeout e (x.bad.length + 1)
  | unexpected _ => xmitCalls x.asked.id x.asked.payload x.asked.timeout e (x.bad.length + 1)
  | exhausted => xmitCalls x.asked.id x.asked.payload x.asked.timeout e x.bad.length

/-- RXCNT afterwards, from what it was. -/
def count (f : ExchangeFailure) (bad : List RxAnswer) (before : Word) : Word :=
  match f with
  | sendFails => (bad.getLast?.map lastCount).getD before
  | recvFails => 0#32
  | unexpected _ => 8#32
  | exhausted => (bad.getLast?.map lastCount).getD before

/-- ECODE, STAGE and ERRINFO (R232, R234). -/
def report (f : ExchangeFailure) (x : Accepted) : ErrCode × Stage × Word :=
  match f with
  | sendFails => (.connectionIo, .send, BitVec.ofNat 32 (x.bad.length + 1))
  | recvFails => (.connectionIo, x.asked.stage, BitVec.ofNat 32 (x.bad.length + 1))
  | unexpected r => (.resultMismatch, x.asked.stage, r)
  | exhausted => (.packetTimeout, x.asked.stage, (x.bad.getLast?.map lastResult).getD noAnswer)

end ExchangeFailure

/-- Chunk j of FAST.DATA (R244): its packet, and the wanted result PKTID − 1. -/
def dataChunk (s : State) (off size j : Nat) : Wanted where
  id := s.pktid - BitVec.ofNat 32 j
  payload := s.img.read (off + 1024 * j) (min 1024 (size - 1024 * j))
  timeout := s.cfg.tPktMs
  stage := .dataChunk
  want := s.pktid - BitVec.ofNat 32 j - 1#32

/-- The first exchanges of FAST.DATA, chunk j accepted after the answers `bads[j]`, counted from a chunk on. -/
def dataChunks (s : State) (off size : Nat) : Nat → List (List RxAnswer) → List Accepted
  | _, [] => []
  | j, bad :: rest => ⟨dataChunk s off size j, bad⟩ :: dataChunks s off size (j + 1) rest

/-- The exchanges of FAST.END that expect a response, in order, with the checksum that includes INIT_CALL_FRAME
(R247). -/
def controlExchanges (s : State) (lt : LoadType) (sum : Word) : List Wanted :=
  ⟨s.pktid, s.cfg.ctrlVerifyRam, s.cfg.tPktMs, .verifyRam, -sum⟩ ::
    ((if needsEeprom lt then
        [⟨s.pktid, s.cfg.ctrlProgramVerifyEeprom, 8000, .programEeprom, -(2#32 * sum)⟩]
      else []) ++
      [⟨s.pktid, s.cfg.ctrlReadyToLaunch, s.cfg.tPktMs, .readyToLaunch, s.pktid - 1#32⟩])

/-! ### How a slow load ends -/

/-- How AckPoll fails at its poll i (R205): a byte other than 0xFE, a failed receive, a failed send, or the last poll
timing out. -/
inductive AckFailure
  | nak (b : Byte)
  | recvFails
  | sendFails
  | exhausted

namespace AckFailure

/-- AckPoll of n polls can fail so at poll i. -/
def possible (g : AckFailure) (i n : Nat) : Prop :=
  1 ≤ i ∧ i ≤ n ∧
    match g with
    | nak b => b ≠ 0xFE#8
    | recvFails => True
    | sendFails => True
    | exhausted => i = n

/-- The results of the sends. -/
def statuses (g : AckFailure) (i : Nat) : List IoStatus :=
  match g with
  | nak _ => List.replicate i .ok
  | recvFails => List.replicate i .ok
  | sendFails => List.replicate (i - 1) .ok ++ [.ioErr]
  | exhausted => List.replicate i .ok

/-- The results of the receives. -/
def answers (g : AckFailure) (i : Nat) : List RxAnswer :=
  List.replicate (i - 1) .timeout ++
    match g with
    | nak b => [.bytes [b]]
    | recvFails => [.ioErr]
    | sendFails => []
    | exhausted => [.timeout]

/-- The calls. -/
def calls (g : AckFailure) (p : Params) (i : Nat) : List ConnCall :=
  match g with
  | nak _ => pollCalls p i
  | recvFails => pollCalls p i
  | sendFails => pollCalls p (i - 1) ++ [.send [0xF9#8]]
  | exhausted => pollCalls p i

/-- RXCNT afterwards, from what it was. -/
def count (g : AckFailure) (i : Nat) (before : Word) : Word :=
  match g with
  | nak _ => 1#32
  | recvFails => 0#32
  | sendFails => if i = 1 then before else 0#32
  | exhausted => 0#32

/-- ECODE, STAGE and ERRINFO at a stage (R205). -/
def report (g : AckFailure) (st : Stage) (i : Nat) : ErrCode × Stage × Word :=
  match g with
  | nak b => (.checksumNak, st, b.setWidth 32)
  | recvFails => (.connectionIo, st, BitVec.ofNat 32 i)
  | sendFails => (.connectionIo, .send, BitVec.ofNat 32 i)
  | exhausted => (.checksumAckTimeout, st, 0xFFFFFFFF#32)

end AckFailure

/-- The acknowledgements of a slow load: the stage of each and its number of polls (R205, R208). -/
def ackBudgets (lt : LoadType) (packet : List Byte) (baud : Word) : List (Stage × Nat) :=
  (.checksumAck, pollCount packet.length 250 baud) ::
    if needsEeprom lt then
      [(.eepromProgramAck, pollCount 0 5000 baud), (.eepromVerifyAck, pollCount 0 2000 baud)]
    else []

/-- A response that passes the handshake and carries version 1 (R160, R161). -/
def goodResponse (p : Params) (l : List Byte) : Prop :=
  l.length = 129 ∧ (∀ n, n < 125 → l.getD n 0#8 = rxhByte p n) ∧ verDecode (l.drop 125) = 1#8

/-- The acknowledgements came at these polls, as far as the list goes (R205). -/
def ackedAt (polls : List Nat) (budgets : List (Stage × Nat)) : Prop :=
  polls.length ≤ budgets.length ∧
    ∀ (k i : Nat), polls[k]? = some i → 1 ≤ i ∧ ∀ b : Stage × Nat, budgets[k]? = some b → i ≤ b.2

/-- How SlowLoad fails (R210): at BUILD, RESET, SEND or HANDSHAKE_RX, by a response that is missing or first differs at
byte k, by its version, or, after acknowledgements at the polls `acked`, at poll i of the next one. -/
inductive SlowFailure
  | overflow
  | resetFails
  | sendFails
  | recvFails
  | noResponse
  | differs (l : List Byte) (k : Nat)
  | badVersion (l : List Byte)
  | ack (l : List Byte) (acked : List Nat) (i : Nat) (g : AckFailure)

namespace SlowFailure

/-- SlowLoad(lt) of a packet can fail so at a baud rate. -/
def possible (f : SlowFailure) (p : Params) (lt : LoadType) (packet : List Byte) (baud : Word) : Prop :=
  match f with
  | overflow => p.pktCapacity.toNat < packet.length
  | resetFails => packet.length ≤ p.pktCapacity.toNat
  | sendFails => packet.length ≤ p.pktCapacity.toNat
  | recvFails => packet.length ≤ p.pktCapacity.toNat
  | noResponse => packet.length ≤ p.pktCapacity.toNat
  | differs l k =>
    packet.length ≤ p.pktCapacity.toNat ∧ l.length = 129 ∧ k < 125 ∧
      (∀ j, j < k → l.getD j 0#8 = rxhByte p j) ∧ l.getD k 0#8 ≠ rxhByte p k
  | badVersion l =>
    packet.length ≤ p.pktCapacity.toNat ∧ l.length = 129 ∧ (∀ n, n < 125 → l.getD n 0#8 = rxhByte p n) ∧
      verDecode (l.drop 125) ≠ 1#8
  | ack l acked i g =>
    packet.length ≤ p.pktCapacity.toNat ∧ goodResponse p l ∧ ackedAt acked (ackBudgets lt packet baud) ∧
      ∃ b, (ackBudgets lt packet baud)[acked.length]? = some b ∧ g.possible i b.2

/-- The results of ConnReset and of the sends. -/
def statuses : SlowFailure → List IoStatus
  | overflow => []
  | resetFails => [.ioErr]
  | sendFails => [.ok, .ioErr]
  | recvFails => [.ok, .ok]
  | noResponse => [.ok, .ok]
  | differs _ _ => [.ok, .ok]
  | badVersion _ => [.ok, .ok]
  | ack _ acked i g => [.ok, .ok] ++ List.replicate acked.sum .ok ++ g.statuses i

/-- The results of the receives. -/
def answers : SlowFailure → List RxAnswer
  | overflow => []
  | resetFails => []
  | sendFails => []
  | recvFails => [.ioErr]
  | noResponse => [.timeout]
  | differs l _ => [.bytes l]
  | badVersion l => [.bytes l]
  | ack l acked i g => .bytes l :: (acked.flatMap ackAtPoll ++ g.answers i)

/-- The calls (R211). -/
def calls (f : SlowFailure) (p : Params) (packet : List Byte) : List ConnCall :=
  match f with
  | overflow => []
  | resetFails => [.reset]
  | sendFails => [.reset, .send packet]
  | recvFails => [.reset, .send packet, .recv 129 2000]
  | noResponse => [.reset, .send packet, .recv 129 2000]
  | differs _ _ => [.reset, .send packet, .recv 129 2000]
  | badVersion _ => [.reset, .send packet, .recv 129 2000]
  | ack _ acked i g => [.reset, .send packet, .recv 129 2000] ++ acked.flatMap (pollCalls p) ++ g.calls p i

/-- The byte lists put into RXB, in order. -/
def received (f : SlowFailure) : List (List Byte) :=
  match f with
  | overflow => []
  | resetFails => []
  | sendFails => []
  | recvFails => []
  | noResponse => []
  | differs l _ => [l]
  | badVersion l => [l]
  | ack l acked _ g =>
    l :: (acked.map (fun _ => [0xFE#8]) ++
      match g with
      | .nak b => [[b]]
      | .recvFails => []
      | .sendFails => []
      | .exhausted => [])

/-- RXCNT afterwards, from what it was. -/
def count (f : SlowFailure) (before : Word) : Word :=
  match f with
  | overflow => before
  | resetFails => before
  | sendFails => before
  | recvFails => 0#32
  | noResponse => 0#32
  | differs _ _ => 129#32
  | badVersion _ => 129#32
  | ack _ acked i g => g.count i (if acked = [] then 129#32 else 1#32)

/-- VERSION afterwards, from what it was: written once the compare has passed (R160). -/
def version (f : SlowFailure) (before : Byte) : Byte :=
  match f with
  | overflow => before
  | resetFails => before
  | sendFails => before
  | recvFails => before
  | noResponse => before
  | differs _ _ => before
  | badVersion l => verDecode (l.drop 125)
  | ack _ _ _ _ => 1#8

/-- PKTLEN afterwards (R210): the packet stays, or is empty when it did not fit. -/
def pktlen (f : SlowFailure) (packet : List Byte) : Word :=
  match f with
  | overflow => 0#32
  | resetFails => BitVec.ofNat 32 packet.length
  | sendFails => BitVec.ofNat 32 packet.length
  | recvFails => BitVec.ofNat 32 packet.length
  | noResponse => BitVec.ofNat 32 packet.length
  | differs _ _ => BitVec.ofNat 32 packet.length
  | badVersion _ => BitVec.ofNat 32 packet.length
  | ack _ _ _ _ => BitVec.ofNat 32 packet.length

/-- ECODE, STAGE and ERRINFO (R161, R205, R210). -/
def report (f : SlowFailure) (packet : List Byte) : ErrCode × Stage × Word :=
  match f with
  | overflow => (.bufferOverflow, .build, BitVec.ofNat 32 packet.length)
  | resetFails => (.connectionIo, .reset, 0#32)
  | sendFails => (.connectionIo, .send, 0#32)
  | recvFails => (.connectionIo, .handshakeRx, 0#32)
  | noResponse => (.handshakeMismatch, .handshakeRx, 0xFFFFFFFF#32)
  | differs _ k => (.handshakeMismatch, .handshakeRx, BitVec.ofNat 32 k)
  | badVersion l => (.versionMismatch, .version, (verDecode (l.drop 125)).setWidth 32)
  | ack _ acked i g =>
    g.report (match acked.length with
      | 0 => .checksumAck
      | 1 => .eepromProgramAck
      | _ => .eepromVerifyAck) i

end SlowFailure

/-- How FAST.BEGIN fails after the slow load (R241): no readiness response, a failed receive, another result, or the
second baud switch. -/
inductive ReadyFailure
  | noResponse
  | recvFails
  | unexpected (l : List Byte)
  | baudFails (l : List Byte)

namespace ReadyFailure

/-- FAST.BEGIN with this packet count can fail so. -/
def possible (f : ReadyFailure) (count : Word) : Prop :=
  match f with
  | noResponse => True
  | recvFails => True
  | unexpected l => l.length = 8 ∧ le32 l ≠ count
  | baudFails l => l.length = 8 ∧ le32 l = count

/-- The result of the second ConnSetBaud, if it is called. -/
def statuses : ReadyFailure → List IoStatus
  | noResponse => []
  | recvFails => []
  | unexpected _ => []
  | baudFails _ => [.ioErr]

/-- The result of the receive. -/
def answer : ReadyFailure → RxAnswer
  | noResponse => .timeout
  | recvFails => .ioErr
  | unexpected l => .bytes l
  | baudFails l => .bytes l

/-- The calls. -/
def calls (f : ReadyFailure) (baud : Word) : List ConnCall :=
  match f with
  | noResponse => [.recv 8 2000]
  | recvFails => [.recv 8 2000]
  | unexpected _ => [.recv 8 2000]
  | baudFails _ => [.recv 8 2000, .setBaud baud]

/-- ECODE, STAGE and ERRINFO (R241). -/
def report (f : ReadyFailure) (baud : Word) : ErrCode × Stage × Word :=
  match f with
  | noResponse => (.packetTimeout, .stage2Ready, 0xFFFFFFFF#32)
  | recvFails => (.connectionIo, .stage2Ready, 0#32)
  | unexpected l => (.resultMismatch, .stage2Ready, le32 l)
  | baudFails _ => (.baudRateSwitchFailure, .baudSwitch, baud)

end ReadyFailure

/-- The most calls one SlowLoad makes (R322). -/
def slowLoadBound (lt : LoadType) (packet : List Byte) (baud : Word) : Nat :=
  3 + 2 * ((ackBudgets lt packet baud).map (·.2)).sum

/-! ### A command and the steps after its start -/

/-- From s the machine reaches t while a command runs: by its steps, with no hardware reset among them, and between steps
the environment may list any answers and the host any moves (log 8, log 11). -/
inductive Follows : State → State → Prop
  | refl (s : State) : Follows s s
  | step {s t u : State} (running : s.phase ≠ .idle) (noReset : ∀ w q, s.hostq ≠ ⟨w, .reset⟩ :: q)
      (steps : Machine.step s = .next t) (rest : Follows t u) : Follows s u
  | outside {s u : State} (e : Env) (q : List Timed) (rest : Follows { s with env := e, hostq := q } u) : Follows s u

/-- Commands run one after another, as a host program runs them (R77). -/
def execList : List Instr → State → Host.Outcome State Fault Refusal
  | [], s => .next s
  | i :: rest, s =>
    match exec i s with
    | .next t => execList rest t
    | .fault f => .fault f
    | .refused r => .refused r

/-! ### Memory -/

/-- m' is m with the bytes l stored from address a on, and no other byte changed. -/
def Memory.Stored (m m' : Memory) (a : Nat) (l : List Byte) : Prop :=
  (∀ k, k < l.length → m'.get (a + k) = l.getD k 0#8) ∧
    ∀ x, x < a ∨ a + l.length ≤ x → m'.get x = m.get x

/-- m' is m after the byte lists were stored one after another, each from address 0 on, and no other byte changed. -/
def Memory.Received (m m' : Memory) (ls : List (List Byte)) : Prop :=
  ∀ x, m'.get x = ls.foldl (fun b l => if x < l.length then l.getD x 0#8 else b) (m.get x)

/-! ### Invariants -/

/-- Every listed address of a space is below a size. -/
def Memory.below (m : Memory) (size : Nat) : Bool := m.all fun c => decide (c.1 < size)

/-- The three spaces are in canonical form. -/
def State.canonical (s : State) : Prop := s.img.wf = true ∧ s.pkt.wf = true ∧ s.rxb.wf = true

/-- A step still to do stays inside the spaces: a receive and what it writes fit RXB, and an IMG byte lies in IMG (R61,
R63). -/
def Act.fits (p : Params) : Act → Bool
  | .recv n _ _ => decide (n ≤ p.rxbSize)
  | .heard n _ => decide (n ≤ p.rxbSize)
  | .rxByte off _ => decide (off < p.rxbSize)
  | .rxCount n => decide (n ≤ p.rxbSize)
  | .imgByte off _ => decide (off < p.imgMemSize)
  | .set _ _ => true
  | .sstate _ => true
  | .fstate _ => true
  | .clearPkt => true
  | .append _ => true
  | .send _ _ => true
  | .sendPkt => true
  | .sent _ => true
  | .connReset => true
  | .wasReset => true
  | .setBaud _ => true
  | .baudSet _ => true
  | .hsCompare => true
  | .hsVersion => true
  | .hsAccept => true
  | .answered _ _ => true
  | .ackPoll _ _ _ => true
  | .slowLoad _ _ => true
  | .slowEnd _ => true
  | .xmit _ _ => true
  | .attempt _ => true
  | .expect _ _ => true
  | .chunk _ _ _ _ => true
  | .reject _ _ => true

/-- The steps still to do. -/
def State.todo (s : State) : List Act :=
  match s.phase with
  | .idle => []
  | .exec _ _ todo => todo

/-- Nothing lies outside the spaces, PKTLEN ≤ PKTCAP (R28), RXCNT ≤ RXB_SIZE (R63), and no step still to do will leave
them. -/
def State.inSpaces (s : State) : Prop :=
  s.img.below s.cfg.imgMemSize = true ∧ s.pkt.below s.cfg.pktCapacity.toNat = true ∧
    s.rxb.below s.cfg.rxbSize = true ∧ s.pktlen.toNat ≤ s.cfg.pktCapacity.toNat ∧
    s.rxcnt.toNat ≤ s.cfg.rxbSize ∧ s.todo.all (Act.fits s.cfg) = true

/-- STATUS is consistent: while a command runs DONE and ERR are 0, and without ERR there is no code and no stage (R24). -/
def State.statusConsistent (s : State) : Prop :=
  (s.phase ≠ .idle → s.done = false ∧ s.err = false) ∧ (s.err = false → s.ecode = .none ∧ s.stage = .none)

/-! ### Families of commands -/

/-- The commands that change SSTATE (R37). -/
def movesSState : Instr → Bool
  | .romLoad _ => true
  | .fastBegin => true
  | .nop | .encLookup _ _ | .encBytes | .pktClear | .pktPutb | .pktSend | .lfsrSeed | .lfsrStep | .hsTx
  | .hsRxbyte | .hsVerify | .hsVerdec | .imgCksum | .imgRdf _ | .imgWrf _ | .romCmd _ | .romLen | .romBuild _
  | .romAck | .fastXmit _ _ | .fastData | .fastEnd _ | .connReset | .connRecv | .connBaud => false

/-- The commands that change FSTATE (R39). -/
def movesFState : Instr → Bool
  | .fastBegin => true
  | .fastData => true
  | .fastEnd _ => true
  | .nop | .encLookup _ _ | .encBytes | .pktClear | .pktPutb | .pktSend | .lfsrSeed | .lfsrStep | .hsTx
  | .hsRxbyte | .hsVerify | .hsVerdec | .imgCksum | .imgRdf _ | .imgWrf _ | .romCmd _ | .romLen | .romBuild _
  | .romAck | .romLoad _ | .fastXmit _ _ | .connReset | .connRecv | .connBaud => false

/-- The commands that write IMG (R60). -/
def writesImg : Instr → Bool
  | .imgCksum => true
  | .imgWrf _ => true
  | .fastBegin => true
  | .nop | .encLookup _ _ | .encBytes | .pktClear | .pktPutb | .pktSend | .lfsrSeed | .lfsrStep | .hsTx
  | .hsRxbyte | .hsVerify | .hsVerdec | .imgRdf _ | .romCmd _ | .romLen | .romBuild _ | .romAck | .romLoad _
  | .fastXmit _ _ | .fastData | .fastEnd _ | .connReset | .connRecv | .connBaud => false

/-- The commands that write the LFSR register (R26). -/
def writesLfsr : Instr → Bool
  | .lfsrSeed => true
  | .lfsrStep => true
  | .nop | .encLookup _ _ | .encBytes | .pktClear | .pktPutb | .pktSend | .hsTx | .hsRxbyte | .hsVerify | .hsVerdec
  | .imgCksum | .imgRdf _ | .imgWrf _ | .romCmd _ | .romLen | .romBuild _ | .romAck | .romLoad _ | .fastXmit _ _
  | .fastBegin | .fastData | .fastEnd _ | .connReset | .connRecv | .connBaud => false

/-- The commands that write VERSION (R27). -/
def writesVersion : Instr → Bool
  | .hsVerify => true
  | .romLoad _ => true
  | .fastBegin => true
  | .nop | .encLookup _ _ | .encBytes | .pktClear | .pktPutb | .pktSend | .lfsrSeed | .lfsrStep | .hsTx
  | .hsRxbyte | .hsVerdec | .imgCksum | .imgRdf _ | .imgWrf _ | .romCmd _ | .romLen | .romBuild _ | .romAck
  | .fastXmit _ _ | .fastData | .fastEnd _ | .connReset | .connRecv | .connBaud => false

/-- The commands that write PKTID (R30). -/
def writesPktid : Instr → Bool
  | .fastBegin => true
  | .fastData => true
  | .nop | .encLookup _ _ | .encBytes | .pktClear | .pktPutb | .pktSend | .lfsrSeed | .lfsrStep | .hsTx
  | .hsRxbyte | .hsVerify | .hsVerdec | .imgCksum | .imgRdf _ | .imgWrf _ | .romCmd _ | .romLen | .romBuild _
  | .romAck | .romLoad _ | .fastXmit _ _ | .fastEnd _ | .connReset | .connRecv | .connBaud => false

/-- The commands that write BAUD (R33). -/
def writesBaud : Instr → Bool
  | .fastBegin => true
  | .connBaud => true
  | .nop | .encLookup _ _ | .encBytes | .pktClear | .pktPutb | .pktSend | .lfsrSeed | .lfsrStep | .hsTx
  | .hsRxbyte | .hsVerify | .hsVerdec | .imgCksum | .imgRdf _ | .imgWrf _ | .romCmd _ | .romLen | .romBuild _
  | .romAck | .romLoad _ | .fastXmit _ _ | .fastData | .fastEnd _ | .connReset | .connRecv => false

/-- The commands that append to PKT or empty it (R60, R319). -/
def writesPkt : Instr → Bool
  | .encBytes => true
  | .pktClear => true
  | .pktPutb => true
  | .hsTx => true
  | .romCmd _ => true
  | .romLen => true
  | .romBuild _ => true
  | .romLoad _ => true
  | .fastBegin => true
  | .nop | .encLookup _ _ | .pktSend | .lfsrSeed | .lfsrStep | .hsRxbyte | .hsVerify | .hsVerdec | .imgCksum
  | .imgRdf _ | .imgWrf _ | .romAck | .fastXmit _ _ | .fastData | .fastEnd _ | .connReset | .connRecv
  | .connBaud => false

/-- The commands that receive, so write RXB (R60). -/
def writesRxb : Instr → Bool
  | .connRecv => true
  | .romAck => true
  | .romLoad _ => true
  | .fastXmit _ _ => true
  | .fastBegin => true
  | .fastData => true
  | .fastEnd _ => true
  | .nop | .encLookup _ _ | .encBytes | .pktClear | .pktPutb | .pktSend | .lfsrSeed | .lfsrStep | .hsTx
  | .hsRxbyte | .hsVerify | .hsVerdec | .imgCksum | .imgRdf _ | .imgWrf _ | .romCmd _ | .romLen | .romBuild _
  | .connReset | .connBaud => false

/-- The commands that draw tags, so write TAG and ATTEMPT (R32, R232). -/
def drawsTags : Instr → Bool
  | .fastXmit _ _ => true
  | .fastData => true
  | .fastEnd _ => true
  | .nop | .encLookup _ _ | .encBytes | .pktClear | .pktPutb | .pktSend | .lfsrSeed | .lfsrStep | .hsTx
  | .hsRxbyte | .hsVerify | .hsVerdec | .imgCksum | .imgRdf _ | .imgWrf _ | .romCmd _ | .romLen | .romBuild _
  | .romAck | .romLoad _ | .fastBegin | .connReset | .connRecv | .connBaud => false

/-- A step that may stand among the steps of a command: one that writes a field only the commands of a family write
belongs to commands of that family, and a failed check is an OPERAND_ERROR, or a SEQUENCE_ERROR of a fast-load command
(R281). -/
def Act.ofCommand (i : Instr) : Act → Bool
  | .set .lfsr _ => writesLfsr i
  | .set .res0 _ => true
  | .set .res1 _ => true
  | .set .pktid _ => writesPktid i
  | .set .cksum _ => movesFState i
  | .set .baud _ => writesBaud i
  | .sstate _ => movesSState i
  | .slowLoad _ _ => movesSState i && writesPkt i && writesRxb i && writesVersion i
  | .slowEnd _ => movesSState i
  | .fstate _ => movesFState i
  | .chunk _ _ _ _ => movesFState i && writesPktid i && drawsTags i && writesRxb i
  | .imgByte _ _ => writesImg i
  | .setBaud _ => writesBaud i
  | .baudSet _ => writesBaud i
  | .hsVersion => writesVersion i
  | .clearPkt => writesPkt i
  | .append _ => writesPkt i
  | .recv _ _ (.response _ _) => writesRxb i && drawsTags i
  | .recv _ _ .raw => writesRxb i
  | .recv _ _ .handshake => writesRxb i
  | .recv _ _ (.poll _ _ _) => writesRxb i
  | .recv _ _ .ready => writesRxb i
  | .heard _ (.response _ _) => writesRxb i && drawsTags i
  | .heard _ .raw => writesRxb i
  | .heard _ .handshake => writesRxb i
  | .heard _ (.poll _ _ _) => writesRxb i
  | .heard _ .ready => writesRxb i
  | .rxByte _ _ => writesRxb i
  | .rxCount _ => writesRxb i
  | .answered _ (.response _ _) => writesRxb i && drawsTags i
  | .answered _ .raw => writesRxb i
  | .answered _ .handshake => writesRxb i
  | .answered _ (.poll _ _ _) => writesRxb i
  | .answered _ .ready => writesRxb i
  | .ackPoll _ _ _ => writesRxb i
  | .attempt _ => drawsTags i
  | .xmit x _ => drawsTags i && (!x.resp || writesRxb i)
  | .send _ _ => true
  | .sendPkt => true
  | .sent _ => true
  | .connReset => true
  | .wasReset => true
  | .hsCompare => true
  | .hsAccept => true
  | .expect _ _ => true
  | .reject c _ => decide (c = .operandError) || (decide (c = .sequenceError) && movesFState i)

/-- The steps still to do belong to the running command. -/
def State.ownSteps (s : State) : Prop :=
  match s.phase with
  | .idle => True
  | .exec i _ todo => todo.all (Act.ofCommand i) = true

/-- From s to t nothing changed that command i does not write (R26, R27, R30 to R33, R37, R39, R60). -/
def onlyOwnWrites (i : Instr) (s t : State) : Prop :=
  (movesSState i = false → t.sstate = s.sstate) ∧
  (movesFState i = false → t.fstate = s.fstate ∧ t.cksum = s.cksum) ∧
  (writesPktid i = false → t.pktid = s.pktid) ∧
  (writesLfsr i = false → t.lfsr = s.lfsr) ∧
  (writesVersion i = false → t.version = s.version) ∧
  (writesBaud i = false → t.baud = s.baud) ∧
  (writesImg i = false → t.img = s.img) ∧
  (writesPkt i = false → t.pkt = s.pkt ∧ t.pktlen = s.pktlen) ∧
  (writesRxb i = false → t.rxb = s.rxb ∧ t.rxcnt = s.rxcnt) ∧
  (drawsTags i = false → t.tag = s.tag ∧ t.attempt = s.attempt)

end Sys2Proof.Machine
end

