-- ==== Sys2Proof/Certificates/Slice0/Obligations.lean ====
section
/-! DEFINITION. The statements for the provers. A statement about a command says what `exec` answers, as a whole next
state, when no move of the host lands while it runs (`hostWaits`, which R315 asks of a program) and when the listed
answers of the environment suffice. A field the next state does not name is unchanged: the frame is part of each
statement. Memory is said through the read of one byte (`Memory.Stored`). -/

section Slice0Obligations

open Sys2Proof Sys2Proof.Machine

/-! ### The machine -/

/-- R42, R310, R311: hardware reset, idle or in the middle of a command. -/
def Obligations.HardwareResetRestoresEveryRegister : Prop :=
  ∀ (s : State) (w : Option Nat) (q : List Timed), s.cfg.wf = true → s.hostq = ⟨w, .reset⟩ :: q →
    (s.phase = .idle ∨ w = some 0) →
    ∃ t, step s = .next t ∧ t.phase = .idle ∧ t.readReg 0x04 = 0#32 ∧ t.done = false ∧ t.err = false ∧
      t.ovr = false ∧ t.ecode = .none ∧ t.stage = .none ∧ t.sstate = .idle ∧ t.fstate = .begin ∧
      t.attempt = 0#2 ∧ t.cmd = 0#32 ∧ t.arg0 = 0#32 ∧ t.arg1 = 0#32 ∧ t.arg2 = 0#32 ∧ t.arg3 = 0#32 ∧
      t.res0 = 0#32 ∧ t.res1 = 0#32 ∧ t.lfsr = 0x50#8 ∧ t.version = 0#8 ∧ t.pktlen = 0#32 ∧
      t.readReg 0x2C = s.cfg.pktCapacity ∧ t.pktid = 0#32 ∧ t.cksum = 0#32 ∧ t.tag = 0#32 ∧ t.baud = 0#32 ∧
      t.imgsize = 0#32 ∧ t.errinfo = 0#32 ∧ t.rxcnt = 0#32 ∧ t.cfg = s.cfg ∧ t.img = s.img ∧
      (∀ off, t.hostMove (.readPkt off) = .fault .unreadableByte) ∧
      (∀ off, t.hostMove (.readRxb off) = .fault .unreadableByte)

/-- The state right after reset meets the invariants that the steps keep. Its parameter values and its empty spaces and
queues are the model's choice (log 2, log 3, log 6, log 8, log 11). -/
def Obligations.ResetStateMeetsTheInvariants : Prop :=
  State.reset.cfg.wf = true ∧ State.reset.canonical ∧ State.reset.inSpaces ∧ State.reset.statusConsistent ∧
    State.reset.ownSteps ∧ State.reset.phase = .idle ∧ State.reset.readReg 0x04 = 0#32 ∧
    State.reset.lfsr = 0x50#8

/-- R90 to R94: the decoder reads back every command from its word, every field at every value. -/
def Obligations.DecodeOfEncode : Prop := ∀ i : Instr, decode (encode i) = .ok i

/-- R90 to R94: a word has one meaning: it is the word of the command it decodes to, and each field is the unsigned
integer of its bits; the LoadTypes have the numbers of R92. -/
def Obligations.WordsHaveOneMeaning : Prop :=
  (∀ (c : Word) (i : Instr), decode c = .ok i → encode i = c) ∧
  (∀ (c : Word) w v, decode c = .ok (.encLookup w v) →
    w.toNat = c.toNat / 2 ^ 10 % 8 ∧ v.toNat = c.toNat / 2 ^ 13 % 32) ∧
  (∀ (c : Word) f, decode c = .ok (.imgRdf f) ∨ decode c = .ok (.imgWrf f) → f.toNat = c.toNat / 2 ^ 10 % 8) ∧
  (∀ (c : Word) psel r, decode c = .ok (.fastXmit psel r) →
    psel.toNat = c.toNat / 2 ^ 10 % 8 ∧ r.toNat = c.toNat / 2 ^ 18 % 2) ∧
  (∀ (c : Word) lt, decode c = .ok (.romCmd lt) ∨ decode c = .ok (.romBuild lt) ∨ decode c = .ok (.romLoad lt) ∨
    decode c = .ok (.fastEnd lt) → lt.code.toNat = c.toNat / 2 ^ 8 % 4) ∧
  [LoadType.shutdown, .run, .programShutdown, .programRun].map LoadType.code = [0, 1, 2, 3]

/-- R93, R94: the rows, each its match and its mask; a word decodes exactly when a row selects it, to a command of that
row; no two rows select one word. -/
def Obligations.RowSelectionIsExact : Prop :=
  ([Instr.nop, .encBytes, .pktClear, .pktPutb, .pktSend, .lfsrSeed, .lfsrStep, .hsTx, .hsRxbyte, .hsVerify, .hsVerdec,
    .imgCksum, .romLen, .romAck, .fastBegin, .fastData, .connReset, .connRecv, .connBaud].map rowOf =
    [0x00#32, 0x11, 0x18, 0x19, 0x1A, 0x20, 0x21, 0x22, 0x23, 0x24, 0x25, 0x30, 0x41, 0x43, 0x51, 0x52, 0x60, 0x61,
      0x62].map (fun opc => (opc, 0xFFFFFFFF#32))) ∧
  (∀ lt, [Instr.romCmd lt, .romBuild lt, .romLoad lt, .fastEnd lt].map rowOf =
    [0x40#32, 0x42, 0x44, 0x53].map fun opc => (opc, 0xFFFFFCFF#32)) ∧
  (∀ f, [Instr.imgRdf f, .imgWrf f].map rowOf = [(0x31#32, 0xFFFFE3FF#32), (0x32#32, 0xFFFFE3FF#32)]) ∧
  (∀ w v, rowOf (.encLookup w v) = (0x10#32, 0xFFFC03FF#32)) ∧
  (∀ psel r, rowOf (.fastXmit psel r) = (0x50#32, 0xFFFBE3FF#32)) ∧
  (∀ (c : Word) (i : Instr), decode c = .ok i → c &&& (rowOf i).2 = (rowOf i).1) ∧
  (∀ (c : Word) (j : Instr), c &&& (rowOf j).2 = (rowOf j).1 → ∃ i, decode c = .ok i ∧ rowOf i = rowOf j) ∧
  (∀ (c : Word) (j k : Instr), c &&& (rowOf j).2 = (rowOf j).1 → c &&& (rowOf k).2 = (rowOf k).1 →
    rowOf j = rowOf k)

/-- R95, R97: words of every family, and illegal words, written out from the encoding. -/
def Obligations.SampleWordsDecode : Prop :=
  decode 0x00000000#32 = .ok .nop ∧ decode 0x0000AC10#32 = .ok (.encLookup 3 5) ∧
  decode 0x0000001A#32 = .ok .pktSend ∧ decode 0x00000023#32 = .ok .hsRxbyte ∧
  decode 0x00000C32#32 = .ok (.imgWrf 3) ∧ decode 0x00000144#32 = .ok (.romLoad .run) ∧
  decode 0x00000353#32 = .ok (.fastEnd .programRun) ∧ decode 0x00040450#32 = .ok (.fastXmit 1 true) ∧
  decode 0x00000062#32 = .ok .connBaud ∧ decode 0x000000FF#32 = .error .unlistedOpcode ∧
  decode 0x00000100#32 = .error .strayBits ∧ decode 0x00080010#32 = .error .strayBits ∧
  decode 0x00000411#32 = .error .strayBits

/-- R23, R34: a CMD write while BUSY = 0 runs the command the word encodes; the word is what CMD reads back. A running
command goes on at the steps at which no move of the host lands. That `withFetchWord` places such a write is the model's
choice (log 22). -/
def Obligations.StepRunsTheDecodedCommand : Prop :=
  (∀ (s : State) (w : Word) (wait : Option Nat) (q : List Timed) (i : Instr), s.cfg.wf = true → s.phase = .idle →
    s.hostq = ⟨wait, .writeReg 0x00 w⟩ :: q → decode w = .ok i →
    step s = exec i { s with cmd := w, hostq := q }) ∧
  (∀ (s : State) (w : Word) (i : Instr), s.cfg.wf = true → decode w = .ok i →
    step (s.withFetchWord 32 w.toNat) = exec i { s with phase := .idle, cmd := w }) ∧
  (∀ s : State, s.cfg.wf = true → s.phase ≠ .idle → s.noMoveLands → step s = .next s.resume)

/-- R95: an illegal word ends the command at once; nothing changes but STATUS, ERRINFO and the CMD read-back. -/
def Obligations.IllegalWordEndsAtOnce : Prop :=
  (∀ (s : State) (w : Word) (wait : Option Nat) (q : List Timed), s.cfg.wf = true → s.phase = .idle →
    s.hostq = ⟨wait, .writeReg 0x00 w⟩ :: q → (∀ i, w &&& (rowOf i).2 ≠ (rowOf i).1) →
    step s = .next { s.doneErr .illegalCommand .none w with cmd := w, hostq := q }) ∧
  ∀ (w : Word) (i : Instr), w &&& 0xF0#32 = 0xF0#32 → w &&& (rowOf i).2 ≠ (rowOf i).1

/-- R23, R24, R316: a register write while BUSY = 1, whichever register it names, is ignored and sets OVR; CMD reads
back the ignored word; OVR is sticky. That a write of a read-only register sets OVR too is the model's reading of R24's
"a CMD or register write" (log 14). -/
def Obligations.WritesWhileBusyAreIgnored : Prop :=
  (∀ (s : State) (off : Nat) (v : Word) (q : List Timed), s.cfg.wf = true → s.phase ≠ .idle →
    s.hostq = ⟨some 0, .writeReg off v⟩ :: q → off % 4 = 0 → off ≤ 0x48 →
    step s = .next { s with hostq := q, ovr := true, cmd := if off = 0x00 then v else s.cmd }) ∧
  (∀ s : State, s.readReg 0x00 = s.cmd) ∧
  (∀ s t : State, s.ovr = true → step s = .next t → t.ovr = true ∨
    (∃ wait v q, s.hostq = ⟨wait, .writeReg 0x04 v⟩ :: q ∧ v.getLsbD 3 = true ∧ s.phase = .idle) ∨
    ∃ wait q, s.hostq = ⟨wait, .reset⟩ :: q)

/-- R23, R24, R316: an ignored write does not influence the running command: going on after it gives what going on
without it gives, but for OVR and the CMD read-back. That a write of a read-only register sets OVR too is the model's
reading of R24 (log 14). -/
def Obligations.IgnoredWriteDoesNotInfluenceTheCommand : Prop :=
  ∀ (s : State) (r : HostReg) (v : Word), s.phase ≠ .idle →
    (s.writeBusy r v).resume = { s.resume with ovr := true, cmd := if r = .cmd then v else s.cmd }

/-- R24, R37, R38, R39, R280: the fields of STATUS and their codes. -/
def Obligations.StatusWordFields : Prop :=
  (∀ s : State,
    (s.readReg 0x04).getLsbD 0 = decide (s.phase ≠ .idle) ∧ (s.readReg 0x04).getLsbD 1 = s.done ∧
    (s.readReg 0x04).getLsbD 2 = s.err ∧ (s.readReg 0x04).getLsbD 3 = s.ovr ∧
    (s.readReg 0x04).extractLsb' 4 4 = s.ecode.code ∧ (s.readReg 0x04).extractLsb' 8 4 = s.stage.code ∧
    (s.readReg 0x04).extractLsb' 12 4 = s.sstate.code ∧ (s.readReg 0x04).extractLsb' 16 3 = s.fstate.code ∧
    (s.readReg 0x04).getLsbD 19 = false ∧ (s.readReg 0x04).extractLsb' 20 2 = s.attempt ∧
    (s.readReg 0x04).extractLsb' 22 10 = 0#10) ∧
  [ErrCode.none, .handshakeMismatch, .versionMismatch, .checksumAckTimeout, .packetTimeout, .resultMismatch,
    .bufferOverflow, .connectionIo, .baudRateSwitchFailure, .checksumNak, .illegalCommand, .sequenceError,
    .operandError].map ErrCode.code = [0, 1, 2, 3, 4, 5, 6, 7, 8, 9, 10, 11, 12] ∧
  [Stage.none, .build, .reset, .send, .handshakeRx, .version, .checksumAck, .eepromProgramAck, .eepromVerifyAck,
    .stage2Ready, .baudSwitch, .dataChunk, .verifyRam, .programEeprom, .readyToLaunch, .launch].map Stage.code =
    [0, 1, 2, 3, 4, 5, 6, 7, 8, 9, 10, 11, 12, 13, 14, 15] ∧
  [SState.idle, .reset, .handshakeSent, .handshakeVerified, .versionVerified, .checksumAckPending,
    .eepromProgramAckPending, .eepromVerifyAckPending, .done, .failed].map SState.code =
    [0, 1, 2, 3, 4, 5, 6, 7, 8, 9] ∧
  [FState.begin, .secondStageStarted, .transmitting, .verifyingRam, .programmingEeprom, .readyToLaunch, .launched,
    .failed].map FState.code = [0, 1, 2, 3, 4, 5, 6, 7]

/-- R24, R287: a STATUS write while BUSY = 0 clears DONE, ERR and OVR by ones, and ECODE and STAGE with ERR; ERRINFO
stays. -/
def Obligations.StatusWriteClears : Prop :=
  ∀ (s : State) (v : Word) (wait : Option Nat) (q : List Timed), s.cfg.wf = true → s.phase = .idle →
    s.hostq = ⟨wait, .writeReg 0x04 v⟩ :: q →
    step s = .next { s with
      hostq := q
      done := s.done && !v.getLsbD 1
      err := s.err && !v.getLsbD 2
      ovr := s.ovr && !v.getLsbD 3
      ecode := if v.getLsbD 2 then .none else s.ecode
      stage := if v.getLsbD 2 then .none else s.stage }

/-- R22, R25, R26, R30, R31, R35: what a register read returns at every aligned offset, STATUS among them (its fields:
`StatusWordFields`), and what an idle write of a register other than CMD and STATUS does. -/
def Obligations.IdleRegisterAccess : Prop :=
  (∀ (s : State) (off : Nat) (wait : Option Nat) (q : List Timed), s.cfg.wf = true →
    s.hostq = ⟨wait, .readReg off⟩ :: q → (s.phase = .idle ∨ wait = some 0) → off % 4 = 0 →
    ∃ v, step s = .next { s with hostq := q, rdata := v } ∧
      (off = 0x00 → v = s.cmd) ∧ (off = 0x04 → v = s.statusWord) ∧ (off = 0x08 → v = s.arg0) ∧ (off = 0x0C → v = s.arg1) ∧
      (off = 0x10 → v = s.arg2) ∧ (off = 0x14 → v = s.arg3) ∧ (off = 0x18 → v = s.res0) ∧
      (off = 0x1C → v = s.res1) ∧ (off = 0x20 → v = s.lfsr.setWidth 32) ∧
      (off = 0x24 → v = s.version.setWidth 32) ∧ (off = 0x28 → v = s.pktlen) ∧
      (off = 0x2C → v = s.cfg.pktCapacity) ∧ (off = 0x30 → v = s.pktid) ∧ (off = 0x34 → v = s.cksum) ∧
      (off = 0x38 → v = s.tag) ∧ (off = 0x3C → v = s.baud) ∧ (off = 0x40 → v = s.imgsize) ∧
      (off = 0x44 → v = s.errinfo) ∧ (off = 0x48 → v = s.rxcnt) ∧ (0x48 < off → v = 0#32)) ∧
  (∀ (s : State) (off : Nat) (v : Word) (wait : Option Nat) (q : List Timed), s.cfg.wf = true → s.phase = .idle →
    s.hostq = ⟨wait, .writeReg off v⟩ :: q → off % 4 = 0 → off ≠ 0x00 → off ≠ 0x04 →
    step s = .next { s with
      hostq := q
      arg0 := if off = 0x08 then v else s.arg0
      arg1 := if off = 0x0C then v else s.arg1
      arg2 := if off = 0x10 then v else s.arg2
      arg3 := if off = 0x14 then v else s.arg3
      lfsr := if off = 0x20 then v.setWidth 8 else s.lfsr
      pktid := if off = 0x30 then v else s.pktid
      cksum := if off = 0x34 then v else s.cksum
      imgsize := if off = 0x40 then v else s.imgsize })

/-- R74: a read that lands changes nothing but the value the host holds. -/
def Obligations.ReadsHaveNoSideEffects : Prop :=
  ∀ (s t : State) (m : HostMove) (wait : Option Nat) (q : List Timed), s.hostq = ⟨wait, m⟩ :: q →
    (s.phase = .idle ∨ wait = some 0) →
    (∃ off, m = .readReg off ∨ m = .readPkt off ∨ m = .readRxb off ∨ m = .readImg off) →
    step s = .next t → t = { s with hostq := q, rdata := t.rdata }

/-- R64: the host reads PKT below PKTLEN and RXB below RXCNT; a read past them is a fault, never a value. -/
def Obligations.PktAndRxbReads : Prop :=
  ∀ (s : State) (off : Nat) (wait : Option Nat) (q : List Timed), s.cfg.wf = true →
    (s.phase = .idle ∨ wait = some 0) →
    (s.hostq = ⟨wait, .readPkt off⟩ :: q →
      (off < s.pktlen.toNat → step s = .next { s with hostq := q, rdata := (s.pkt.get off).setWidth 32 }) ∧
      (s.pktlen.toNat ≤ off → step s = .fault .unreadableByte)) ∧
    (s.hostq = ⟨wait, .readRxb off⟩ :: q →
      (off < s.rxcnt.toNat → step s = .next { s with hostq := q, rdata := (s.rxb.get off).setWidth 32 }) ∧
      (s.rxcnt.toNat ≤ off → step s = .fault .unreadableByte))

/-- R60, R72, R77, R317: host accesses of IMG, and register accesses that are not aligned. A fault at an IMG offset
past the space is the model's choice (log 23). -/
def Obligations.ImgAndMisalignedAccesses : Prop :=
  ∀ (s : State) (off : Nat) (b : Byte) (v : Word) (wait : Option Nat) (q : List Timed), s.cfg.wf = true →
    (s.phase = .idle ∨ wait = some 0) →
    (s.hostq = ⟨wait, .readImg off⟩ :: q →
      (off < s.cfg.imgMemSize → step s = .next { s with hostq := q, rdata := (s.img.get off).setWidth 32 }) ∧
      (s.cfg.imgMemSize ≤ off → step s = .fault .noSuchImgByte)) ∧
    (s.hostq = ⟨wait, .writeImg off b⟩ :: q →
      (s.phase ≠ .idle → step s = .refused .imgWriteWhileBusy) ∧
      (s.phase = .idle → off < s.cfg.imgMemSize →
        ∃ m, Memory.Stored s.img m off [b] ∧ step s = .next { s with hostq := q, img := m }) ∧
      (s.phase = .idle → s.cfg.imgMemSize ≤ off → step s = .fault .noSuchImgByte)) ∧
    (off % 4 ≠ 0 → (s.hostq = ⟨wait, .readReg off⟩ :: q ∨ s.hostq = ⟨wait, .writeReg off v⟩ :: q) →
      step s = .refused .misalignedAccess)

/-- R98: a program that reads STATUS after WAIT goes on without an error and has no further move with one; ACK clears
DONE, ERR and OVR. The move that reads STATUS and stops is the model's form of the rule (log 26). -/
def Obligations.ProgramsStopAtTheFirstError : Prop :=
  ∀ (s : State) (q : List Timed), s.cfg.wf = true → s.phase = .idle →
    (s.hostq = ⟨none, .check⟩ :: q →
      step s = .next { s with rdata := s.readReg 0x04, hostq := if s.err then [] else q }) ∧
    (s.hostq = hostAck :: q → step s = .next { s with
      hostq := q, done := false, err := false, ovr := false, ecode := .none, stage := .none })

/-! ### NOP and the raw interface commands -/

/-- R264: the word, the range check, and the three results of the receive. -/
def Obligations.ConnRecvResult : Prop :=
  decode 0x00000061#32 = .ok .connRecv ∧
  ∀ s : State, s.hostWaits = true →
    (s.arg0 = 0#32 ∨ s.cfg.rxbSize < s.arg0.toNat →
      exec .connRecv s = .next (s.doneErr .operandError .none s.arg0)) ∧
    (s.arg0 ≠ 0#32 → s.arg0.toNat ≤ s.cfg.rxbSize → ∀ rx : List RxAnswer,
      (∀ l : List Byte, l.length = s.arg0.toNat → s.env.rx = .bytes l :: rx →
        ∃ m, Memory.Stored s.rxb m 0 l ∧ exec .connRecv s =
          .next { s.doneOk with
            rxb := m, rxcnt := s.arg0, res0 := s.arg0, env := { s.env with rx := rx },
            calls := s.calls ++ [.recv s.arg0.toNat s.arg1.toNat] }) ∧
      (s.env.rx = .timeout :: rx → exec .connRecv s =
        .next { s.doneErr .connectionIo .handshakeRx 0xFFFFFFFF#32 with
          rxcnt := 0#32, env := { s.env with rx := rx },
          calls := s.calls ++ [.recv s.arg0.toNat s.arg1.toNat] }) ∧
      (s.env.rx = .ioErr :: rx → exec .connRecv s =
        .next { s.doneErr .connectionIo .handshakeRx 0#32 with
          rxcnt := 0#32, env := { s.env with rx := rx },
          calls := s.calls ++ [.recv s.arg0.toNat s.arg1.toNat] }))

/-- R260, R261, R265: NOP only ends; CONN.RESET and CONN.BAUD with each result of their primitive, and the check of a
rate of 0. -/
def Obligations.NopConnResetAndConnBaud : Prop :=
  decode 0x00000000#32 = .ok .nop ∧ decode 0x00000060#32 = .ok .connReset ∧ decode 0x00000062#32 = .ok .connBaud ∧
  ∀ s : State, s.hostWaits = true →
    exec .nop s = .next s.doneOk ∧
    (∀ st : List IoStatus,
      (s.env.status = .ok :: st → exec .connReset s =
        .next { s.doneOk with env := { s.env with status := st }, calls := s.calls ++ [.reset] }) ∧
      (s.env.status = .ioErr :: st → exec .connReset s =
        .next { s.doneErr .connectionIo .reset 0#32 with
          env := { s.env with status := st }, calls := s.calls ++ [.reset] })) ∧
    (s.arg0 = 0#32 → exec .connBaud s = .next (s.doneErr .operandError .none 0#32)) ∧
    (s.arg0 ≠ 0#32 → ∀ st : List IoStatus,
      (s.env.status = .ok :: st → exec .connBaud s =
        .next { s.doneOk with
          baud := s.arg0, env := { s.env with status := st }, calls := s.calls ++ [.setBaud s.arg0] }) ∧
      (s.env.status = .ioErr :: st → exec .connBaud s =
        .next { s.doneErr .baudRateSwitchFailure .baudSwitch s.arg0 with
          env := { s.env with status := st }, calls := s.calls ++ [.setBaud s.arg0] }))

/-! ### The encoder and the packet buffer -/

/-- R123: the word, the table entry, and the check of the fields. -/
def Obligations.EncLookupResult : Prop :=
  (∀ (w : BitVec 3) (v : BitVec 5),
    decode (0x10#32 ||| (w.setWidth 32 <<< 10) ||| (v.setWidth 32 <<< 13)) = .ok (.encLookup w v)) ∧
  ∀ (w : BitVec 3) (v : BitVec 5) (s : State), s.hostWaits = true →
    exec (.encLookup w v) s =
      .next (if 1 ≤ w.toNat ∧ w.toNat ≤ 5 ∧ v.toNat < 2 ^ w.toNat then
          { s.doneOk with
            res0 := (s.cfg.encCell v.toNat w.toNat).1.setWidth 32
            res1 := BitVec.ofNat 32 (s.cfg.encCell v.toNat w.toNat).2 }
        else s.doneErr .operandError .none s.cmd)

/-- R68, R121, R124: under WF_ENC the encoder is the walker of the rule, unbounded, over the input's bits; it forms no
more groups than there are bits. -/
def Obligations.EncodeBitsIsTheWalker : Prop :=
  ∀ p : Params, p.wfEnc = true →
    (∃ f : List Bool → List Byte, f [] = [] ∧
      (∀ l, l ≠ [] → f l = (p.encCell (bitsVal (l.take 5)) (min 5 l.length)).1 ::
        f (l.drop (p.encCell (bitsVal (l.take 5)) (min 5 l.length)).2)) ∧
      ∀ d, encodeBits p d = f (bitStream d)) ∧
    (∀ l : List Bool, l ≠ [] → bitsVal (l.take 5) < 2 ^ min 5 l.length ∧
      1 ≤ (p.encCell (bitsVal (l.take 5)) (min 5 l.length)).2 ∧
      (p.encCell (bitsVal (l.take 5)) (min 5 l.length)).2 ≤ min 5 l.length) ∧
    (∀ (d : List Byte) k, (bitStream d).getD k false = (d.getD (k / 8) 0#8).getLsbD (k % 8)) ∧
    (∀ d : List Byte, (bitStream d).length = 8 * d.length ∧ (encodeBits p d).length ≤ 8 * d.length)

/-- R125, R126: the word, the range check, the overflow that writes nothing, and the append of the whole output; under
the candidate table (log 2) the output is no longer than a third of the bits, rounded up, and one. That RES1 = 8·n, RES0
and ERRINFO are kept modulo 2^32 is the model's reading (log 18). -/
def Obligations.EncBytesAppendsAllOrNothing : Prop :=
  decode 0x00000011#32 = .ok .encBytes ∧
  (∀ d : List Byte, (encodeBits Config.candidates d).length ≤ (8 * d.length + 2) / 3 + 1) ∧
  ∀ s : State, s.hostWaits = true →
    (s.cfg.imgMemSize < s.arg0.toNat + s.arg1.toNat →
      exec .encBytes s = .next (s.doneErr .operandError .none s.arg0)) ∧
    (s.arg0.toNat + s.arg1.toNat ≤ s.cfg.imgMemSize → ∀ out : List Byte,
      out = encodeBits s.cfg (s.img.read s.arg0.toNat s.arg1.toNat) →
      (s.cfg.pktCapacity.toNat < s.pktlen.toNat + out.length →
        exec .encBytes s = .next (s.doneErr .bufferOverflow .build (BitVec.ofNat 32 out.length))) ∧
      (s.pktlen.toNat + out.length ≤ s.cfg.pktCapacity.toNat →
        ∃ m, Memory.Stored s.pkt m s.pktlen.toNat out ∧ exec .encBytes s =
          .next { s.doneOk with
            pkt := m, pktlen := s.pktlen + BitVec.ofNat 32 out.length,
            res0 := BitVec.ofNat 32 out.length, res1 := BitVec.ofNat 32 (8 * s.arg1.toNat) }))

/-- R62, R128, R129: PKT.CLEAR empties the packet and erases nothing; PKT.PUTB appends ARG0[7:0] or overflows. -/
def Obligations.PktClearAndPutb : Prop :=
  decode 0x00000018#32 = .ok .pktClear ∧ decode 0x00000019#32 = .ok .pktPutb ∧
  ∀ s : State, s.hostWaits = true →
    exec .pktClear s = .next { s.doneOk with pktlen := 0#32 } ∧
    (s.cfg.pktCapacity.toNat < s.pktlen.toNat + 1 →
      exec .pktPutb s = .next (s.doneErr .bufferOverflow .build 1#32)) ∧
    (s.pktlen.toNat + 1 ≤ s.cfg.pktCapacity.toNat →
      ∃ m, Memory.Stored s.pkt m s.pktlen.toNat [s.arg0.setWidth 8] ∧
        exec .pktPutb s = .next { s.doneOk with pkt := m, pktlen := s.pktlen + 1#32 })

/-- R130: the word, the empty packet, and both results of the send. -/
def Obligations.PktSendResult : Prop :=
  decode 0x0000001A#32 = .ok .pktSend ∧
  ∀ s : State, s.hostWaits = true →
    (s.pktlen = 0#32 → exec .pktSend s = .next { s.doneOk with res0 := 0#32 }) ∧
    (s.pktlen ≠ 0#32 → ∀ st : List IoStatus,
      (s.env.status = .ok :: st → exec .pktSend s =
        .next { s.doneOk with
          res0 := s.pktlen, env := { s.env with status := st },
          calls := s.calls ++ [.send (s.pkt.read 0 s.pktlen.toNat)] }) ∧
      (s.env.status = .ioErr :: st → exec .pktSend s =
        .next { s.doneErr .connectionIo .send 0#32 with
          env := { s.env with status := st },
          calls := s.calls ++ [.send (s.pkt.read 0 s.pktlen.toNat)] }))

/-! ### The handshake generator -/

/-- R151, R153, R154: the words, the seed, one step, and k steps after a seed: the register is s_k, and the last step
returned o[k − 1]. -/
def Obligations.LfsrSeedAndStep : Prop :=
  decode 0x00000020#32 = .ok .lfsrSeed ∧ decode 0x00000021#32 = .ok .lfsrStep ∧
  ∀ s : State, s.hostWaits = true →
    exec .lfsrSeed s = .next { s.doneOk with lfsr := 0x50#8 } ∧
    exec .lfsrStep s = .next { s.doneOk with
      res0 := if s.lfsr.getLsbD 0 then 1#32 else 0#32
      lfsr := lfsrNext s.cfg.lfsrTaps s.lfsr
      res1 := (lfsrNext s.cfg.lfsrTaps s.lfsr).setWidth 32 } ∧
    ∀ k : Nat, ∃ t, execList (.lfsrSeed :: List.replicate k .lfsrStep) s = .next t ∧
      t.lfsr = lfsrState s.cfg.lfsrTaps k ∧
      (1 ≤ k → t.res0 = (if streamBit s.cfg.lfsrTaps (k - 1) then 1#32 else 0#32) ∧
        t.res1 = (lfsrState s.cfg.lfsrTaps k).setWidth 32)

/-- R151, R152: the recurrence under the source's taps, its period, its first states and bits, and the alternative's
period. -/
def Obligations.LfsrRecurrence : Prop :=
  (∀ s : Byte, (lfsrNext [0, 1, 4, 7] s).getLsbD 0 =
      (s.getLsbD 0 ^^ s.getLsbD 1 ^^ s.getLsbD 4 ^^ s.getLsbD 7)) ∧
  (∀ (taps : List (Fin 8)) (s : Byte) (j : Nat), j < 7 → (lfsrNext taps s).getLsbD (j + 1) = s.getLsbD j) ∧
  (∀ taps : List (Fin 8), lfsrNext taps 0#8 = 0#8) ∧
  (∀ k, streamBit [0, 1, 4, 7] (k + 63) = streamBit [0, 1, 4, 7] k) ∧
  lfsrState [0, 1, 4, 7] 63 = 0x50#8 ∧ (∀ k, 0 < k → k < 63 → lfsrState [0, 1, 4, 7] k ≠ 0x50#8) ∧
  lfsrState [1, 4, 5, 7] 255 = 0x50#8 ∧ (∀ k, 0 < k → k < 255 → lfsrState [1, 4, 5, 7] k ≠ 0x50#8) ∧
  (List.range 16).map (lfsrState [0, 1, 4, 7]) =
    [0x50, 0xA1, 0x42, 0x85, 0x0A, 0x15, 0x2A, 0x55, 0xAA, 0x54, 0xA9, 0x52, 0xA4, 0x49, 0x93, 0x26] ∧
  (List.range 16).map (streamBit [0, 1, 4, 7]) =
    [false, true, false, true, false, true, false, true, false, false, true, false, false, true, true, false]

/-- R26, R150: no command but LFSR.SEED and LFSR.STEP reads or writes the LFSR register, neither when it is started nor
in a later step, after a wait or a move of the host. -/
def Obligations.CommandsIgnoreTheLfsrRegister : Prop :=
  (∀ (i : Instr) (s t : State) (b : Byte), writesLfsr i = false → exec i s = .next t →
    exec i { s with lfsr := b } = .next { t with lfsr := b } ∧ t.lfsr = s.lfsr) ∧
  ∀ (i : Instr) (r : Word) (todo : List Act) (s t : State) (b : Byte), s.phase = .exec i r todo → s.ownSteps →
    writesLfsr i = false → s.noMoveLands → step s = .next t →
    step { s with lfsr := b } = .next { t with lfsr := b } ∧ t.lfsr = s.lfsr

/-- R159, R162: the words, the range check, the response byte with its stream bits, and the decoded version. -/
def Obligations.HsRxbyteAndVerdec : Prop :=
  decode 0x00000023#32 = .ok .hsRxbyte ∧ decode 0x00000025#32 = .ok .hsVerdec ∧
  ∀ s : State, s.hostWaits = true →
    (125 ≤ s.arg0.toNat → exec .hsRxbyte s = .next (s.doneErr .operandError .none s.arg0)) ∧
    (s.arg0.toNat < 125 → exec .hsRxbyte s = .next { s.doneOk with
      res0 := (rxhByte s.cfg s.arg0.toNat).setWidth 32
      res1 := BitVec.ofNat 32 ((streamBit s.cfg.lfsrTaps (250 + 2 * s.arg0.toNat)).toNat +
        2 * (streamBit s.cfg.lfsrTaps (251 + 2 * s.arg0.toNat)).toNat) }) ∧
    exec .hsVerdec s = .next { s.doneOk with
      res0 := (verDecode [s.arg0.extractLsb' 0 8, s.arg0.extractLsb' 8 8, s.arg0.extractLsb' 16 8,
        s.arg0.extractLsb' 24 8]).setWidth 32 }

/-- R160: the stored response is the formula of the rule at each of its 125 bytes; the version decode takes bits 0 and 5
of each byte. -/
def Obligations.ExpectedResponseAndVersion : Prop :=
  (∀ p : Params, (rxh p).length = 125 ∧ ∀ k, k < 125 → (rxh p)[k]? =
    some (p.rxBase ||| bitByte (streamBit p.lfsrTaps (250 + 2 * k)) |||
      (bitByte (streamBit p.lfsrTaps (251 + 2 * k)) <<< 5))) ∧
  (∀ l : List Byte, l.length = 4 → ∀ k, k < 4 →
    (verDecode l).getLsbD (2 * k) = (l.getD k 0#8).getLsbD 0 ∧
    (verDecode l).getLsbD (2 * k + 1) = (l.getD k 0#8).getLsbD 5)

/-- R161: the word, too few bytes, the first differing byte, a wrong version, and success; VERSION is written once the
compare has passed. -/
def Obligations.HsVerifyResult : Prop :=
  decode 0x00000024#32 = .ok .hsVerify ∧
  ∀ s : State, s.hostWaits = true →
    (s.rxcnt.toNat < 129 →
      exec .hsVerify s = .next (s.doneErr .handshakeMismatch .handshakeRx 0xFFFFFFFF#32)) ∧
    (129 ≤ s.rxcnt.toNat →
      (∀ k, k < 125 → (∀ j, j < k → s.rxb.get j = rxhByte s.cfg j) → s.rxb.get k ≠ rxhByte s.cfg k →
        exec .hsVerify s = .next (s.doneErr .handshakeMismatch .handshakeRx (BitVec.ofNat 32 k))) ∧
      ((∀ j, j < 125 → s.rxb.get j = rxhByte s.cfg j) → ∀ v : Byte,
        v = verDecode [s.rxb.get 125, s.rxb.get 126, s.rxb.get 127, s.rxb.get 128] →
        (v = 1#8 → exec .hsVerify s = .next { s.doneOk with version := 1#8 }) ∧
        (v ≠ 1#8 → exec .hsVerify s =
          .next { s.doneErr .versionMismatch .version (v.setWidth 32) with version := v })))

/-! ### The image -/

/-- R181, R182: the word, the operand check; the checksum byte and the returned sum; afterwards the image's bytes sum to
the target, and a second IMG.CKSUM changes no byte and returns the target. -/
def Obligations.ImgCksumReachesTheTarget : Prop :=
  decode 0x00000030#32 = .ok .imgCksum ∧
  (∀ s : State, s.hostWaits = true →
    (s.imgsize.toNat < 6 ∨ s.cfg.imgMemSize < s.imgsize.toNat →
      exec .imgCksum s = .next (s.doneErr .operandError .none s.imgsize)) ∧
    (6 ≤ s.imgsize.toNat → s.imgsize.toNat ≤ s.cfg.imgMemSize → ∀ all : Byte,
      all = BitVec.ofNat 8 (((s.img.read 0 s.imgsize.toNat).map BitVec.toNat).sum) →
      ∃ m, Memory.Stored s.img m 5 [s.cfg.targetChecksum - (all - s.img.get 5)] ∧
        exec .imgCksum s = .next { s.doneOk with img := m, res0 := all.signExtend 32 })) ∧
  ∀ s : State, s.hostWaits = true → 6 ≤ s.imgsize.toNat → s.imgsize.toNat ≤ s.cfg.imgMemSize →
    ∃ t u, exec .imgCksum s = .next t ∧ sumByte (t.img.read 0 t.imgsize.toNat) = s.cfg.targetChecksum ∧
      exec .imgCksum t = .next u ∧ (∀ x, u.img.get x = t.img.get x) ∧
      u.res0 = s.cfg.targetChecksum.signExtend 32

/-- R66, R180, R183: the word, the field table, the checks, and the little-endian value. -/
def Obligations.ImgRdfResult : Prop :=
  (∀ f : BitVec 3, decode (0x31#32 ||| (f.setWidth 32 <<< 10)) = .ok (.imgRdf f)) ∧
  (List.range 8).map (fun f => imgField (BitVec.ofNat 3 f)) =
    [some (0, 4), some (4, 1), some (5, 1), some (6, 2), some (8, 2), some (10, 2), some (12, 2), none] ∧
  ∀ (f : BitVec 3) (s : State), s.hostWaits = true →
    (imgField f = none → exec (.imgRdf f) s = .next (s.doneErr .operandError .none (f.setWidth 32))) ∧
    ∀ off n, imgField f = some (off, n) →
      (s.imgsize.toNat < off + n ∨ s.cfg.imgMemSize < s.imgsize.toNat →
        exec (.imgRdf f) s = .next (s.doneErr .operandError .none (f.setWidth 32))) ∧
      (off + n ≤ s.imgsize.toNat → s.imgsize.toNat ≤ s.cfg.imgMemSize →
        exec (.imgRdf f) s = .next { s.doneOk with
          res0 := BitVec.ofNat 32
            (((List.range n).map fun k => (s.img.get (off + k)).toNat * 2 ^ (8 * k)).sum) })

/-- R66, R184: the low bytes of ARG0 at the field, lowest first; nothing else of IMG changes. -/
def Obligations.ImgWrfResult : Prop :=
  (∀ f : BitVec 3, decode (0x32#32 ||| (f.setWidth 32 <<< 10)) = .ok (.imgWrf f)) ∧
  ∀ (f : BitVec 3) (s : State), s.hostWaits = true →
    (imgField f = none → exec (.imgWrf f) s = .next (s.doneErr .operandError .none (f.setWidth 32))) ∧
    ∀ off n, imgField f = some (off, n) →
      (s.imgsize.toNat < off + n ∨ s.cfg.imgMemSize < s.imgsize.toNat →
        exec (.imgWrf f) s = .next (s.doneErr .operandError .none (f.setWidth 32))) ∧
      (off + n ≤ s.imgsize.toNat → s.imgsize.toNat ≤ s.cfg.imgMemSize →
        ∃ m, Memory.Stored s.img m off ((List.range n).map fun k => s.arg0.extractLsb' (8 * k) 8) ∧
          exec (.imgWrf f) s = .next { s.doneOk with img := m })

/-! ### The ROM protocol -/

/-- R62, R157, R201, R203: the words; HS.TX appends TXH, ROM.CMD appends CMDK[lt] for every LT, ROM.LEN the length field
of ARG0; or they overflow and write nothing. -/
def Obligations.HsTxRomCmdAndRomLen : Prop :=
  (decode 0x00000022#32 = .ok .hsTx ∧ decode 0x00000041#32 = .ok .romLen ∧
    ∀ lt : LoadType, decode (0x40#32 ||| (lt.code.setWidth 32 <<< 8)) = .ok (.romCmd lt)) ∧
  ∀ s : State, s.hostWaits = true → s.cfg.wf = true →
    (s.cfg.pktCapacity.toNat < s.pktlen.toNat + 209 →
      exec .hsTx s = .next (s.doneErr .bufferOverflow .build 209#32)) ∧
    (s.pktlen.toNat + 209 ≤ s.cfg.pktCapacity.toNat →
      ∃ m, Memory.Stored s.pkt m s.pktlen.toNat s.cfg.txh ∧
        exec .hsTx s = .next { s.doneOk with pkt := m, pktlen := s.pktlen + 209#32, res0 := 209#32 }) ∧
    (s.cfg.pktCapacity.toNat < s.pktlen.toNat + 11 →
      (∀ lt, exec (.romCmd lt) s = .next (s.doneErr .bufferOverflow .build 11#32)) ∧
      exec .romLen s = .next (s.doneErr .bufferOverflow .build 11#32)) ∧
    (s.pktlen.toNat + 11 ≤ s.cfg.pktCapacity.toNat →
      (∀ lt : LoadType, ∃ m, Memory.Stored s.pkt m s.pktlen.toNat (s.cfg.cmdConst lt.code.toNat) ∧
        exec (.romCmd lt) s = .next { s.doneOk with pkt := m, pktlen := s.pktlen + 11#32 }) ∧
      ∃ m, Memory.Stored s.pkt m s.pktlen.toNat (lenField s.cfg s.arg0) ∧
        exec .romLen s = .next { s.doneOk with pkt := m, pktlen := s.pktlen + 11#32 })

/-- R202: the element formula and the bit order of the length field, at each of its 11 bytes. It loses no bit of the
count when the slots are distinct bits that the base and, for the slots of the last element, the final tag leave clear.
-/
def Obligations.LenFieldDeterminesTheCount : Prop :=
  (∀ (p : Params) (s0 s1 s2 : Bool), lenElem p s0 s1 s2 =
    p.lenElemBase ||| (if s0 then 1#8 <<< p.lenSlot0.val else 0#8) |||
      (if s1 then 1#8 <<< p.lenSlot1.val else 0#8) ||| (if s2 then 1#8 <<< p.lenSlot2.val else 0#8)) ∧
  (∀ (p : Params) (c : Word), (lenField p c).length = 11 ∧
    (p.lenOrder = .msbFirst →
      (∀ i, i < 10 → (lenField p c)[i]? =
        some (lenElem p (c.getLsbD (31 - 3 * i)) (c.getLsbD (30 - 3 * i)) (c.getLsbD (29 - 3 * i)))) ∧
      (lenField p c)[10]? = some (lenElem p (c.getLsbD 1) (c.getLsbD 0) false ||| p.lenFinalTag)) ∧
    (p.lenOrder = .lsbFirst →
      (∀ i, i < 10 → (lenField p c)[i]? =
        some (lenElem p (c.getLsbD (3 * i)) (c.getLsbD (3 * i + 1)) (c.getLsbD (3 * i + 2)))) ∧
      (lenField p c)[10]? = some (lenElem p (c.getLsbD 30) (c.getLsbD 31) false ||| p.lenFinalTag))) ∧
  ∀ p : Params, p.lenSlot0 ≠ p.lenSlot1 → p.lenSlot0 ≠ p.lenSlot2 → p.lenSlot1 ≠ p.lenSlot2 →
    (p.lenElemBase.getLsbD p.lenSlot0.val || p.lenElemBase.getLsbD p.lenSlot1.val ||
      p.lenElemBase.getLsbD p.lenSlot2.val || p.lenFinalTag.getLsbD p.lenSlot0.val ||
      p.lenFinalTag.getLsbD p.lenSlot1.val) = false →
    ∀ c d, lenField p c = lenField p d → c = d

/-- R200, R204: the word, the checks, the overflow that leaves an empty packet, and the whole packet. That ERRINFO keeps
the packet's length modulo 2^32 is the model's reading (log 18). -/
def Obligations.RomBuildResult : Prop :=
  (∀ lt : LoadType, decode (0x42#32 ||| (lt.code.setWidth 32 <<< 8)) = .ok (.romBuild lt)) ∧
  ∀ (lt : LoadType) (s : State), s.hostWaits = true →
    (lt = .shutdown → exec (.romBuild lt) s = .next (s.doneErr .operandError .none 0#32)) ∧
    (lt ≠ .shutdown →
      (s.imgsize.toNat % 4 ≠ 0 ∨ s.cfg.imgMemSize < s.imgsize.toNat →
        exec (.romBuild lt) s = .next (s.doneErr .operandError .none s.imgsize)) ∧
      (s.imgsize.toNat % 4 = 0 → s.imgsize.toNat ≤ s.cfg.imgMemSize → ∀ packet : List Byte,
        packet = s.cfg.txh ++ s.cfg.cmdConst lt.code.toNat ++
          lenField s.cfg (BitVec.ofNat 32 (s.imgsize.toNat / 4)) ++
          encodeBits s.cfg (s.img.read 0 s.imgsize.toNat) →
        (s.cfg.pktCapacity.toNat < packet.length →
          exec (.romBuild lt) s =
            .next { s.doneErr .bufferOverflow .build (BitVec.ofNat 32 packet.length) with pktlen := 0#32 }) ∧
        (packet.length ≤ s.cfg.pktCapacity.toNat →
          ∃ m, Memory.Stored s.pkt m 0 packet ∧ exec (.romBuild lt) s =
            .next { s.doneOk with
              pkt := m, pktlen := BitVec.ofNat 32 packet.length, res0 := BitVec.ofNat 32 packet.length })))

/-- R205 to R207: the word, the BAUD check; the acknowledgement at poll i; a wrong byte, a failed receive and a failed
send at poll i; and the budget running out. That RES0, RES1 and ERRINFO keep a poll number modulo 2^32 is the model's
reading (log 18). -/
def Obligations.RomAckResult : Prop :=
  decode 0x00000043#32 = .ok .romAck ∧
  ∀ s : State, s.hostWaits = true →
    (s.baud = 0#32 → exec .romAck s = .next (s.doneErr .operandError .none 0#32)) ∧
    (s.baud ≠ 0#32 → ∀ (polls i : Nat) (st st' : List IoStatus) (rx rx' : List RxAnswer),
      polls = max 1 ((s.arg0.toNat * 10 * 1000 / s.baud.toNat + s.arg1.toNat + 9) / 10) →
      1 ≤ i → i ≤ polls → s.env.status = List.replicate (i - 1) .ok ++ st →
      s.env.rx = List.replicate (i - 1) .timeout ++ rx →
      (st = .ok :: st' → rx = .bytes [0xFE#8] :: rx' →
        ∃ m, Memory.Stored s.rxb m 0 [0xFE#8] ∧ exec .romAck s =
          .next { s.doneOk with
            res0 := BitVec.ofNat 32 i, res1 := BitVec.ofNat 32 polls, rxb := m, rxcnt := 1#32,
            env := { s.env with status := st', rx := rx' }, calls := s.calls ++ pollCalls s.cfg i }) ∧
      (∀ b : Byte, b ≠ 0xFE#8 → st = .ok :: st' → rx = .bytes [b] :: rx' →
        ∃ m, Memory.Stored s.rxb m 0 [b] ∧ exec .romAck s =
          .next { s.doneErr .checksumNak .checksumAck (b.setWidth 32) with
            rxb := m, rxcnt := 1#32, env := { s.env with status := st', rx := rx' },
            calls := s.calls ++ pollCalls s.cfg i }) ∧
      (st = .ok :: st' → rx = .ioErr :: rx' → exec .romAck s =
        .next { s.doneErr .connectionIo .checksumAck (BitVec.ofNat 32 i) with
          rxcnt := 0#32, env := { s.env with status := st', rx := rx' },
          calls := s.calls ++ pollCalls s.cfg i }) ∧
      (st = .ioErr :: st' → exec .romAck s =
        .next { s.doneErr .connectionIo .send (BitVec.ofNat 32 i) with
          rxcnt := if i = 1 then s.rxcnt else 0#32, env := { s.env with status := st', rx := rx },
          calls := s.calls ++ pollCalls s.cfg (i - 1) ++ [.send [0xF9#8]] }) ∧
      (i = polls → st = .ok :: st' → rx = .timeout :: rx' → exec .romAck s =
        .next { s.doneErr .checksumAckTimeout .checksumAck 0xFFFFFFFF#32 with
          rxcnt := 0#32, env := { s.env with status := st', rx := rx' },
          calls := s.calls ++ pollCalls s.cfg i }))

/-- R92, R208 to R211: which LoadTypes program the EEPROM; a slow load that succeeds, with acknowledgements at polls i,
j and k: the trace, the packet, VERSION and SSTATE. -/
def Obligations.RomLoadSucceeds : Prop :=
  (∀ lt, needsEeprom lt = true ↔ lt = .programShutdown ∨ lt = .programRun) ∧
  ∀ (s : State) (lt : LoadType) (packet l : List Byte) (i j k : Nat) (st : List IoStatus) (rx : List RxAnswer),
    s.hostWaits = true → lt ≠ .shutdown → s.imgsize.toNat % 4 = 0 → s.imgsize.toNat ≤ s.cfg.imgMemSize →
    s.baud ≠ 0#32 → packet = romPacket s.cfg lt (s.img.read 0 s.imgsize.toNat) →
    packet.length ≤ s.cfg.pktCapacity.toNat →
    1 ≤ i → i ≤ pollCount packet.length 250 s.baud → 1 ≤ j → j ≤ pollCount 0 5000 s.baud →
    1 ≤ k → k ≤ pollCount 0 2000 s.baud →
    l.length = 129 → (∀ n, n < 125 → l.getD n 0#8 = rxhByte s.cfg n) → verDecode (l.drop 125) = 1#8 →
    s.env.status = List.replicate (2 + i + if needsEeprom lt then j + k else 0) .ok ++ st →
    s.env.rx = .bytes l ::
      (ackAtPoll i ++ (if needsEeprom lt then ackAtPoll j ++ ackAtPoll k else []) ++ rx) →
    ∃ m m₁ m₂, Memory.Stored s.pkt m 0 packet ∧ Memory.Stored s.rxb m₁ 0 l ∧ Memory.Stored m₁ m₂ 0 [0xFE#8] ∧
      exec (.romLoad lt) s = .next { s.doneOk with
        sstate := .done
        version := 1#8
        pkt := m
        pktlen := BitVec.ofNat 32 packet.length
        rxb := m₂
        rxcnt := 1#32
        env := { s.env with status := st, rx := rx }
        calls := s.calls ++ [.reset, .send packet, .recv 129 2000] ++ pollCalls s.cfg i ++
          (if needsEeprom lt then pollCalls s.cfg j ++ pollCalls s.cfg k else []) }

/-- R161, R205, R208, R210, R211: the operand checks, and every way a slow load fails: the packet does not fit,
ConnReset, the send or the receive fails, the response is missing or first differs at byte k, its version is not 1, or
an acknowledgement fails at its poll i, at STAGE 6, or with EEPROM programming (R92) 7 or 8. Code, stage and ERRINFO,
SSTATE = Failed, what the steps before left, and no call after the failing step. A length or poll number in ERRINFO is
kept modulo 2^32 (log 18). -/
def Obligations.RomLoadStopsAtAMismatch : Prop :=
  (∀ lt, needsEeprom lt = true ↔ lt = .programShutdown ∨ lt = .programRun) ∧
  ∀ (s : State) (lt : LoadType), s.hostWaits = true →
    (lt = .shutdown → exec (.romLoad lt) s = .next (s.doneErr .operandError .none 0#32)) ∧
    (lt ≠ .shutdown → s.imgsize.toNat % 4 ≠ 0 ∨ s.cfg.imgMemSize < s.imgsize.toNat →
      exec (.romLoad lt) s = .next (s.doneErr .operandError .none s.imgsize)) ∧
    (lt ≠ .shutdown → s.imgsize.toNat % 4 = 0 → s.imgsize.toNat ≤ s.cfg.imgMemSize →
      (s.baud = 0#32 → exec (.romLoad lt) s = .next (s.doneErr .operandError .none 0#32)) ∧
      (s.baud ≠ 0#32 → ∀ (packet : List Byte) (f : SlowFailure) (st : List IoStatus) (rx : List RxAnswer),
        packet = romPacket s.cfg lt (s.img.read 0 s.imgsize.toNat) → f.possible s.cfg lt packet s.baud →
        s.env.status = f.statuses ++ st → s.env.rx = f.answers ++ rx →
        ∃ m m₁, (f = .overflow → m = s.pkt) ∧ (f ≠ .overflow → Memory.Stored s.pkt m 0 packet) ∧
          Memory.Received s.rxb m₁ f.received ∧ exec (.romLoad lt) s =
            .next { s.doneErr (f.report packet).1 (f.report packet).2.1 (f.report packet).2.2 with
              sstate := .failed
              version := f.version s.version
              pkt := m
              pktlen := f.pktlen packet
              rxb := m₁
              rxcnt := f.count s.rxcnt
              env := { s.env with status := st, rx := rx }
              calls := s.calls ++ f.calls s.cfg packet }))

/-! ### The fast protocol -/

/-- R232, R235: an exchange accepted at attempt a, after a − 1 answers that are not: TAG is the last draw, ATTEMPT and
RES1 are a, RES0 is the result. -/
def Obligations.FastXmitAccepted : Prop :=
  ∀ (s : State) (psel : BitVec 3) (payload l : List Byte) (t : Nat) (bad rx : List RxAnswer)
    (st : List IoStatus) (a : Nat), s.hostWaits = true → psel.toNat ≤ 4 →
    (psel = 0#3 → s.arg1.toNat + s.arg2.toNat ≤ s.cfg.imgMemSize) →
    payload = s.xmitPayload psel → 8 + payload.length ≤ s.cfg.maxDataSize →
    t = (if s.arg3 = 0#32 then s.cfg.tPktMs else s.arg3.toNat) →
    a = bad.length + 1 → a ≤ 3 → noneAccepted s.arg0 s.env bad →
    l.length = 8 → le32 (l.drop 4) = s.env.tagNo (a - 1) → le32 l ≠ s.arg0 →
    s.env.status = List.replicate a .ok ++ st → s.env.rx = bad ++ .bytes l :: rx →
    ∃ m, Memory.Stored s.rxb m 0 l ∧ exec (.fastXmit psel true) s = .next { s.doneOk with
      res0 := le32 l
      res1 := BitVec.ofNat 32 a
      tag := s.env.tagNo (a - 1)
      attempt := BitVec.ofNat 2 a
      rxb := m
      rxcnt := 8#32
      env := { s.env.afterTags a with status := st, rx := rx }
      calls := s.calls ++ xmitCalls s.arg0 payload t s.env a }

/-- R232, R235: three answers that are not accepted end the exchange with PACKET_TIMEOUT after exactly three attempts;
ERRINFO is the last result, or 0xFFFFFFFF after a timeout. An echo of the id with the right tag is not accepted. -/
def Obligations.FastXmitExhausted : Prop :=
  ∀ (s : State) (psel : BitVec 3) (payload : List Byte) (t : Nat) (r₀ r₁ r₂ : RxAnswer) (rx : List RxAnswer)
    (st : List IoStatus), s.hostWaits = true → psel.toNat ≤ 4 →
    (psel = 0#3 → s.arg1.toNat + s.arg2.toNat ≤ s.cfg.imgMemSize) →
    payload = s.xmitPayload psel → 8 + payload.length ≤ s.cfg.maxDataSize →
    t = (if s.arg3 = 0#32 then s.cfg.tPktMs else s.arg3.toNat) →
    noneAccepted s.arg0 s.env [r₀, r₁, r₂] →
    s.env.status = .ok :: .ok :: .ok :: st → s.env.rx = r₀ :: r₁ :: r₂ :: rx →
    ∃ m, Memory.Received s.rxb m (deliveries 8 [r₀, r₁, r₂]) ∧
      exec (.fastXmit psel true) s =
      .next { s.doneErr .packetTimeout .dataChunk (lastResult r₂) with
        tag := s.env.tagNo 2
        attempt := 3#2
        rxb := m
        rxcnt := lastCount r₂
        env := { s.env.afterTags 3 with status := st, rx := rx }
        calls := s.calls ++ xmitCalls s.arg0 payload t s.env 3 }

/-- R91, R232, R235: the payload each selector sends; the operand checks of FAST.XMIT; a failed send or receive at
attempt a, after a − 1 answers that are not accepted: CONNECTION_IO at STAGE 3 or 11 with ERRINFO a; and the packet
without a response, sent once, with both results of the send. -/
def Obligations.FastXmitChecksAndSendOnly : Prop :=
  (∀ s : State, s.xmitPayload 0 = (List.range s.arg2.toNat).map (fun k => s.img.get (s.arg1.toNat + k)) ∧
    s.xmitPayload 1 = s.cfg.ctrlVerifyRam ∧ s.xmitPayload 2 = s.cfg.ctrlProgramVerifyEeprom ∧
    s.xmitPayload 3 = s.cfg.ctrlReadyToLaunch ∧ s.xmitPayload 4 = s.cfg.ctrlLaunchNow) ∧
  ∀ (s : State) (psel : BitVec 3) (r : Bool), s.hostWaits = true →
    (5 ≤ psel.toNat → exec (.fastXmit psel r) s = .next (s.doneErr .operandError .none (psel.setWidth 32))) ∧
    (psel = 0#3 → s.cfg.imgMemSize < s.arg1.toNat + s.arg2.toNat →
      exec (.fastXmit psel r) s = .next (s.doneErr .operandError .none s.arg1)) ∧
    (psel.toNat ≤ 4 → (psel = 0#3 → s.arg1.toNat + s.arg2.toNat ≤ s.cfg.imgMemSize) →
      (s.cfg.maxDataSize < 8 + (s.xmitPayload psel).length → exec (.fastXmit psel r) s =
        .next (s.doneErr .operandError .none (BitVec.ofNat 32 (s.xmitPayload psel).length))) ∧
      (8 + (s.xmitPayload psel).length ≤ s.cfg.maxDataSize →
        (∀ (x : Accepted) (f : ExchangeFailure) (st : List IoStatus) (rx : List RxAnswer),
          x.asked.id = s.arg0 → x.asked.payload = s.xmitPayload psel →
          x.asked.timeout = (if s.arg3 = 0#32 then s.cfg.tPktMs else s.arg3.toNat) → x.asked.stage = .dataChunk →
          f = .sendFails ∨ f = .recvFails → f.possible x s.env →
          s.env.status = f.statuses x.bad ++ st → s.env.rx = f.answers x.bad s.env ++ rx →
          ∃ m, Memory.Received s.rxb m (deliveries 8 (f.answers x.bad s.env)) ∧
            exec (.fastXmit psel true) s =
              .next { s.doneErr (f.report x).1 (f.report x).2.1 (f.report x).2.2 with
                tag := s.env.tagNo x.bad.length
                attempt := BitVec.ofNat 2 (x.bad.length + 1)
                rxb := m
                rxcnt := f.count x.bad s.rxcnt
                env := { s.env.afterTags (x.bad.length + 1) with status := st, rx := rx }
                calls := s.calls ++ f.calls x s.env }) ∧
        ∀ st : List IoStatus,
          (s.env.status = .ok :: st → exec (.fastXmit psel false) s = .next { s.doneOk with
            res1 := 1#32
            tag := s.env.nextTag
            attempt := 1#2
            env := { s.env.afterTag with status := st }
            calls := s.calls ++ [.send (fastPacket s.arg0 s.env.nextTag (s.xmitPayload psel))] }) ∧
          (s.env.status = .ioErr :: st → exec (.fastXmit psel false) s =
            .next { s.doneErr .connectionIo .send 1#32 with
              tag := s.env.nextTag
              attempt := 1#2
              env := { s.env.afterTag with status := st }
              calls := s.calls ++ [.send (fastPacket s.arg0 s.env.nextTag (s.xmitPayload psel))] })))

/-- R240, R241: FAST.BEGIN whose slow load succeeds at attempt k = |fs| + 1 of N_STAGE2_ATTEMPTS, after attempts that
failed in the ways fs: PKTID, the checksum byte, the two baud switches, the readiness response, CKSUM, FSTATE and the
results, RES1 = k. That a failed attempt before leaves nothing but the effects of its steps is the model's reading
(log 15); RES1 is kept modulo 2^32 (log 18). -/
def Obligations.FastBeginSucceeds : Prop :=
  ∀ (s : State) (packet l r : List Byte) (img : Memory) (fs : List SlowFailure) (i : Nat) (st : List IoStatus)
    (rx : List RxAnswer),
    s.hostWaits = true → s.arg1 ≠ 0#32 → s.arg2 ≠ 0#32 → 6 ≤ s.imgsize.toNat → s.imgsize.toNat % 4 = 0 →
    s.imgsize.toNat ≤ s.cfg.imgMemSize → img = s.img.store 5 [s.newCksum] →
    packet = romPacket s.cfg .run (img.read 0 s.imgsize.toNat) → packet.length ≤ s.cfg.pktCapacity.toNat →
    fs = [] ∨ fs.length < s.cfg.nStage2Attempts → (∀ f ∈ fs, f.possible s.cfg .run packet s.arg1) →
    1 ≤ i → i ≤ pollCount packet.length 250 s.arg1 → goodResponse s.cfg l →
    r.length = 8 → le32 r = BitVec.ofNat 32 ((s.arg0.toNat + 1023) / 1024) →
    s.env.status = .ok :: (fs.flatMap SlowFailure.statuses ++ List.replicate (3 + i) .ok ++ st) →
    s.env.rx = fs.flatMap SlowFailure.answers ++ .bytes l :: (ackAtPoll i ++ .bytes r :: rx) →
    Memory.Stored s.img img 5 [s.newCksum] ∧
    ∃ m m₁, Memory.Stored s.pkt m 0 packet ∧
      Memory.Received s.rxb m₁ (fs.flatMap SlowFailure.received ++ [l, [0xFE#8], r]) ∧
      exec .fastBegin s = .next { s.doneOk with
        fstate := .secondStageStarted
        sstate := .done
        version := 1#8
        pktid := BitVec.ofNat 32 ((s.arg0.toNat + 1023) / 1024)
        cksum := 0#32
        baud := s.arg2
        img := img
        pkt := m
        pktlen := BitVec.ofNat 32 packet.length
        rxb := m₁
        rxcnt := 8#32
        res0 := BitVec.ofNat 32 ((s.arg0.toNat + 1023) / 1024)
        res1 := BitVec.ofNat 32 (fs.length + 1)
        env := { s.env with status := st, rx := rx }
        calls := s.calls ++ [.setBaud s.arg1] ++ fs.flatMap (fun f => f.calls s.cfg packet) ++
          [.reset, .send packet, .recv 129 2000] ++ pollCalls s.cfg i ++ [.recv 8 2000, .setBaud s.arg2] }

/-- R241, R282: the operand checks of FAST.BEGIN in their order, and every way it fails after them, each leaving FSTATE
Failed and what the steps before left: a failed first baud switch; all N_STAGE2_ATTEMPTS slow loads, of which the last
one's error is reported; and, after a slow load that succeeded at attempt |fs| + 1, a missing or failed readiness
response, one with another result, and a failed second baud switch, with BAUD = b0. What a failed attempt that is
retried leaves is the model's reading (log 15). -/
def Obligations.FastBeginChecks : Prop :=
  ∀ s : State, s.hostWaits = true →
    (s.arg1 = 0#32 ∨ s.arg2 = 0#32 → exec .fastBegin s = .next (s.doneErr .operandError .none 0#32)) ∧
    (s.arg1 ≠ 0#32 → s.arg2 ≠ 0#32 →
      (s.imgsize.toNat < 6 ∨ s.imgsize.toNat % 4 ≠ 0 ∨ s.cfg.imgMemSize < s.imgsize.toNat →
        exec .fastBegin s = .next (s.doneErr .operandError .none s.imgsize)) ∧
      (6 ≤ s.imgsize.toNat → s.imgsize.toNat % 4 = 0 → s.imgsize.toNat ≤ s.cfg.imgMemSize →
        ∀ (img : Memory) (packet : List Byte) (st : List IoStatus) (rx : List RxAnswer),
        img = s.img.store 5 [s.newCksum] → packet = romPacket s.cfg .run (img.read 0 s.imgsize.toNat) →
        Memory.Stored s.img img 5 [s.newCksum] ∧
        (s.env.status = .ioErr :: st → exec .fastBegin s =
          .next { s.doneErr .baudRateSwitchFailure .baudSwitch s.arg1 with
            fstate := .failed
            pktid := BitVec.ofNat 32 ((s.arg0.toNat + 1023) / 1024)
            img := img
            env := { s.env with status := st }
            calls := s.calls ++ [.setBaud s.arg1] }) ∧
        (∀ (fs : List SlowFailure) (f : SlowFailure), fs.length + 1 = max 1 s.cfg.nStage2Attempts →
          (∀ g ∈ fs ++ [f], g.possible s.cfg .run packet s.arg1) →
          s.env.status = .ok :: ((fs ++ [f]).flatMap SlowFailure.statuses ++ st) →
          s.env.rx = (fs ++ [f]).flatMap SlowFailure.answers ++ rx →
          ∃ m m₁, (f = .overflow → m = s.pkt) ∧ (f ≠ .overflow → Memory.Stored s.pkt m 0 packet) ∧
            Memory.Received s.rxb m₁ ((fs ++ [f]).flatMap SlowFailure.received) ∧ exec .fastBegin s =
              .next { s.doneErr (f.report packet).1 (f.report packet).2.1 (f.report packet).2.2 with
                fstate := .failed
                sstate := .failed
                version := (fs ++ [f]).foldl (fun v g => g.version v) s.version
                pktid := BitVec.ofNat 32 ((s.arg0.toNat + 1023) / 1024)
                baud := s.arg1
                img := img
                pkt := m
                pktlen := f.pktlen packet
                rxb := m₁
                rxcnt := (fs ++ [f]).foldl (fun c g => g.count c) s.rxcnt
                env := { s.env with status := st, rx := rx }
                calls := s.calls ++ [.setBaud s.arg1] ++ (fs ++ [f]).flatMap (fun g => g.calls s.cfg packet) }) ∧
        ∀ (fs : List SlowFailure) (l : List Byte) (i : Nat) (f : ReadyFailure),
          fs = [] ∨ fs.length < s.cfg.nStage2Attempts → (∀ g ∈ fs, g.possible s.cfg .run packet s.arg1) →
          packet.length ≤ s.cfg.pktCapacity.toNat → 1 ≤ i → i ≤ pollCount packet.length 250 s.arg1 →
          goodResponse s.cfg l → f.possible (BitVec.ofNat 32 ((s.arg0.toNat + 1023) / 1024)) →
          s.env.status =
            .ok :: (fs.flatMap SlowFailure.statuses ++ List.replicate (2 + i) .ok ++ f.statuses ++ st) →
          s.env.rx = fs.flatMap SlowFailure.answers ++ .bytes l :: (ackAtPoll i ++ f.answer :: rx) →
          ∃ m m₁, Memory.Stored s.pkt m 0 packet ∧
            Memory.Received s.rxb m₁
              (fs.flatMap SlowFailure.received ++ [l, [0xFE#8]] ++ deliveries 8 [f.answer]) ∧
            exec .fastBegin s =
              .next { s.doneErr (f.report s.arg2).1 (f.report s.arg2).2.1 (f.report s.arg2).2.2 with
                fstate := .failed
                sstate := .done
                version := 1#8
                pktid := BitVec.ofNat 32 ((s.arg0.toNat + 1023) / 1024)
                baud := s.arg1
                img := img
                pkt := m
                pktlen := BitVec.ofNat 32 packet.length
                rxb := m₁
                rxcnt := lastCount f.answer
                env := { s.env with status := st, rx := rx }
                calls := s.calls ++ [.setBaud s.arg1] ++ fs.flatMap (fun g => g.calls s.cfg packet) ++
                  [.reset, .send packet, .recv 129 2000] ++ pollCalls s.cfg i ++ f.calls s.arg2 }))

/-- R232, R244: FAST.DATA of any size to a second stage that accepts every chunk, chunk j at its first, second or third
attempt, after the answers `bads[j]` that are not accepted: the packets, PKTID down by one a chunk, CKSUM up by the
bytes of the chunks, counted once, RES0 the number of chunks. Size 0 sends nothing and leaves FSTATE. -/
def Obligations.FastDataSendsEveryChunk : Prop :=
  ∀ (s : State) (n : Nat) (bads : List (List RxAnswer)) (xs : List Accepted) (st : List IoStatus)
    (rx : List RxAnswer), s.hostWaits = true →
    s.arg0.toNat + s.arg1.toNat ≤ s.cfg.imgMemSize →
    (s.arg1 ≠ 0#32 → 8 + min s.arg1.toNat 1024 ≤ s.cfg.maxDataSize) →
    s.fstate = .secondStageStarted ∨ s.fstate = .transmitting →
    n = (s.arg1.toNat + 1023) / 1024 → bads.length = n → xs = dataChunks s s.arg0.toNat s.arg1.toNat 0 bads →
    allAccepted s.env xs → s.env.status = List.replicate (tagsDrawn xs) .ok ++ st →
    s.env.rx = acceptedAnswers s.env xs ++ rx →
    ∃ m, (n = 0 → m = s.rxb) ∧ Memory.Received s.rxb m (deliveries 8 (acceptedAnswers s.env xs)) ∧
      exec .fastData s = .next { s.doneOk with
        fstate := if n = 0 then s.fstate else .transmitting
        pktid := s.pktid - BitVec.ofNat 32 n
        cksum := s.cksum + BitVec.ofNat 32 (byteSum (s.img.read s.arg0.toNat s.arg1.toNat))
        tag := if n = 0 then s.tag else s.env.tagNo (tagsDrawn xs - 1)
        attempt := lastAttempts s.attempt xs
        rxb := m
        rxcnt := if n = 0 then s.rxcnt else 8#32
        res0 := BitVec.ofNat 32 n
        env := { s.env.afterTags (tagsDrawn xs) with status := st, rx := rx }
        calls := s.calls ++ acceptedCalls s.env xs }

/-- R232, R234, R236, R244: the checks of FAST.DATA, and every way a chunk fails after the chunks before it were
accepted: a failed send (STAGE 3) or receive, a result that is not PKTID − 1, or three answers that are not accepted.
The chunk that fails adds nothing to CKSUM, PKTID is not decremented for it, and FSTATE = Failed. -/
def Obligations.FastDataChecksAndMismatch : Prop :=
  ∀ s : State, s.hostWaits = true →
    (s.cfg.imgMemSize < s.arg0.toNat + s.arg1.toNat →
      exec .fastData s = .next (s.doneErr .operandError .none s.arg0)) ∧
    (s.arg0.toNat + s.arg1.toNat ≤ s.cfg.imgMemSize →
      (s.arg1 ≠ 0#32 → s.cfg.maxDataSize < 8 + min s.arg1.toNat 1024 →
        exec .fastData s = .next (s.doneErr .operandError .none s.arg1)) ∧
      ((s.arg1 ≠ 0#32 → 8 + min s.arg1.toNat 1024 ≤ s.cfg.maxDataSize) →
        (s.fstate ≠ .secondStageStarted → s.fstate ≠ .transmitting →
          exec .fastData s = .next (s.doneErr .sequenceError .none (s.fstate.code.setWidth 32))) ∧
        (s.fstate = .secondStageStarted ∨ s.fstate = .transmitting →
          ∀ (n : Nat) (bads : List (List RxAnswer)) (xs : List Accepted) (x : Accepted) (f : ExchangeFailure)
            (e : Env) (st : List IoStatus) (rx : List RxAnswer),
          bads.length = n → 1024 * n < s.arg1.toNat → xs = dataChunks s s.arg0.toNat s.arg1.toNat 0 bads →
          x.asked = dataChunk s s.arg0.toNat s.arg1.toNat n → allAccepted s.env xs →
          e = s.env.afterTags (tagsDrawn xs) → f.possible x e →
          s.env.status = List.replicate (tagsDrawn xs) .ok ++ f.statuses x.bad ++ st →
          s.env.rx = acceptedAnswers s.env xs ++ f.answers x.bad e ++ rx →
          ∃ m, Memory.Received s.rxb m (deliveries 8 (acceptedAnswers s.env xs ++ f.answers x.bad e)) ∧
            exec .fastData s = .next { s.doneErr (f.report x).1 (f.report x).2.1 (f.report x).2.2 with
              fstate := .failed
              pktid := s.pktid - BitVec.ofNat 32 n
              cksum := s.cksum + BitVec.ofNat 32 (byteSum (s.img.read s.arg0.toNat (1024 * n)))
              tag := e.tagNo (f.attempts x.bad - 1)
              attempt := BitVec.ofNat 2 (f.attempts x.bad)
              rxb := m
              rxcnt := f.count x.bad (if n = 0 then s.rxcnt else 8#32)
              env := { e.afterTags (f.attempts x.bad) with status := st, rx := rx }
              calls := s.calls ++ acceptedCalls s.env xs ++ f.calls x e })))

/-- R92, R232, R233, R247: which LoadTypes program the EEPROM, and the payloads each sends; FAST.END to a second stage
that accepts every exchange, at its first, second or third attempt: −CKSUM, −2·CKSUM when the EEPROM is programmed,
PKTID − 1, and the launch packet sent once. -/
def Obligations.FastEndLaunches : Prop :=
  (∀ lt, needsEeprom lt = true ↔ lt = .programShutdown ∨ lt = .programRun) ∧
  (∀ (s : State) lt, s.endPayloads lt = s.cfg.ctrlVerifyRam ::
    ((if lt = .programShutdown ∨ lt = .programRun then [s.cfg.ctrlProgramVerifyEeprom] else []) ++
      [s.cfg.ctrlReadyToLaunch, s.cfg.ctrlLaunchNow])) ∧
  ∀ (s : State) (lt : LoadType) (sum : Word) (xs : List Accepted) (st : List IoStatus) (rx : List RxAnswer),
    s.hostWaits = true → lt ≠ .shutdown → (∀ p ∈ s.endPayloads lt, 8 + p.length ≤ s.cfg.maxDataSize) →
    s.fstate = .secondStageStarted ∨ s.fstate = .transmitting →
    sum = s.cksum + BitVec.ofNat 32 (byteSum s.cfg.initCallFrame) →
    xs.map (·.asked) = controlExchanges s lt sum → allAccepted s.env xs →
    s.env.status = List.replicate (tagsDrawn xs + 1) .ok ++ st → s.env.rx = acceptedAnswers s.env xs ++ rx →
    ∃ m, Memory.Received s.rxb m (deliveries 8 (acceptedAnswers s.env xs)) ∧
      exec (.fastEnd lt) s = .next { s.doneOk with
        fstate := .launched
        cksum := sum
        tag := s.env.tagNo (tagsDrawn xs)
        attempt := 1#2
        rxb := m
        rxcnt := 8#32
        env := { s.env.afterTags (tagsDrawn xs + 1) with status := st, rx := rx }
        calls := s.calls ++ acceptedCalls s.env xs ++
          [.send (fastPacket s.pktid (s.env.tagNo (tagsDrawn xs)) s.cfg.ctrlLaunchNow)] }

/-- R92, R236, R247: which LoadTypes program the EEPROM, and the payloads each sends; the checks of FAST.END; every way
it fails after them: an exchange fails after those before it were accepted, with a failed send (STAGE 3) or receive,
another result or three answers that are not accepted, at STAGE 12, 13 or 14, or the launch packet's send fails; CKSUM
includes INIT_CALL_FRAME and FSTATE = Failed; and its corner: where the result the application wants of an exchange is
the id itself, the command never ends without an error, in whatever step, after whatever waits, answers and moves of the
host but a reset. The payload named when several are too long is the model's choice (log 16). -/
def Obligations.FastEndChecks : Prop :=
  (∀ lt, needsEeprom lt = true ↔ lt = .programShutdown ∨ lt = .programRun) ∧
  (∀ (s : State) lt, s.endPayloads lt = s.cfg.ctrlVerifyRam ::
    ((if lt = .programShutdown ∨ lt = .programRun then [s.cfg.ctrlProgramVerifyEeprom] else []) ++
      [s.cfg.ctrlReadyToLaunch, s.cfg.ctrlLaunchNow])) ∧
  ∀ (s : State) (lt : LoadType),
    (s.hostWaits = true → lt = .shutdown →
      exec (.fastEnd lt) s = .next (s.doneErr .operandError .none 0#32)) ∧
    (s.hostWaits = true → lt ≠ .shutdown → ∀ p ∈ s.endPayloads lt, s.cfg.maxDataSize < 8 + p.length →
      ∃ p' ∈ s.endPayloads lt, s.cfg.maxDataSize < 8 + p'.length ∧
        exec (.fastEnd lt) s = .next (s.doneErr .operandError .none (BitVec.ofNat 32 p'.length))) ∧
    (s.hostWaits = true → lt ≠ .shutdown → (∀ p ∈ s.endPayloads lt, 8 + p.length ≤ s.cfg.maxDataSize) →
      (s.fstate ≠ .secondStageStarted → s.fstate ≠ .transmitting →
        exec (.fastEnd lt) s = .next (s.doneErr .sequenceError .none (s.fstate.code.setWidth 32))) ∧
      (s.fstate = .secondStageStarted ∨ s.fstate = .transmitting →
        ∀ (sum : Word) (xs : List Accepted) (e : Env) (st : List IoStatus) (rx : List RxAnswer),
        sum = s.cksum + BitVec.ofNat 32 (byteSum s.cfg.initCallFrame) → allAccepted s.env xs →
        e = s.env.afterTags (tagsDrawn xs) →
        (∀ (x : Accepted) (f : ExchangeFailure) (later : List Wanted),
          xs.map (·.asked) ++ x.asked :: later = controlExchanges s lt sum → f.possible x e →
          s.env.status = List.replicate (tagsDrawn xs) .ok ++ f.statuses x.bad ++ st →
          s.env.rx = acceptedAnswers s.env xs ++ f.answers x.bad e ++ rx →
          ∃ m, Memory.Received s.rxb m (deliveries 8 (acceptedAnswers s.env xs ++ f.answers x.bad e)) ∧
            exec (.fastEnd lt) s = .next { s.doneErr (f.report x).1 (f.report x).2.1 (f.report x).2.2 with
              fstate := .failed
              cksum := sum
              tag := e.tagNo (f.attempts x.bad - 1)
              attempt := BitVec.ofNat 2 (f.attempts x.bad)
              rxb := m
              rxcnt := f.count x.bad (if xs = [] then s.rxcnt else 8#32)
              env := { e.afterTags (f.attempts x.bad) with status := st, rx := rx }
              calls := s.calls ++ acceptedCalls s.env xs ++ f.calls x e }) ∧
        (xs.map (·.asked) = controlExchanges s lt sum →
          s.env.status = List.replicate (tagsDrawn xs) .ok ++ .ioErr :: st →
          s.env.rx = acceptedAnswers s.env xs ++ rx →
          ∃ m, Memory.Received s.rxb m (deliveries 8 (acceptedAnswers s.env xs)) ∧
            exec (.fastEnd lt) s = .next { s.doneErr .connectionIo .send 1#32 with
              fstate := .failed
              cksum := sum
              tag := e.nextTag
              attempt := 1#2
              rxb := m
              rxcnt := 8#32
              env := { e.afterTag with status := st, rx := rx }
              calls := s.calls ++ acceptedCalls s.env xs ++
                [.send (fastPacket s.pktid e.nextTag s.cfg.ctrlLaunchNow)] }))) ∧
    (∀ (sum : Word) (u t : State), sum = s.cksum + BitVec.ofNat 32 (byteSum s.cfg.initCallFrame) →
      -sum = s.pktid ∨ ((lt = .programShutdown ∨ lt = .programRun) ∧ -(2#32 * sum) = s.pktid) →
      exec (.fastEnd lt) s = .next u → Follows u t → t.phase = .idle → t.err = true)

/-- R209, R236, R285: a load command that ends with an error after its checks leaves SSTATE or FSTATE Failed, at
whatever step the error came, in whatever step of the machine, after whatever waits, answers and moves of the host but a
reset; one that ends without leaves the state its rule names. -/
def Obligations.LoadsEndInTheNamedState : Prop :=
  (∀ (s u t : State) (lt : LoadType), exec (.romLoad lt) s = .next u → Follows u t → t.phase = .idle →
    (t.err = true → t.ecode ≠ .operandError → t.sstate = .failed) ∧ (t.err = false → t.sstate = .done)) ∧
  ∀ (i : Instr) (s u t : State), movesFState i = true → exec i s = .next u → Follows u t → t.phase = .idle →
    (t.err = true → t.ecode ≠ .operandError → t.ecode ≠ .sequenceError → t.fstate = .failed) ∧
    (t.err = false → (i = .fastBegin → t.fstate = .secondStageStarted ∧ t.sstate = .done) ∧
      (i = .fastData → t.fstate = if s.arg1 = 0#32 then s.fstate else .transmitting) ∧
      (∀ lt, i = .fastEnd lt → t.fstate = .launched))

/-! ### All commands -/

/-- R14: a command ends Done or with an Error that has a code, or it still runs; a parameter that breaks its predicate
is a model fault; while the environment withholds an answer the command does not end. Which predicates count, and that
every step is then the fault, is the model's reading (log 5); that a missing answer leaves the state as it is is its
choice (log 8). -/
def Obligations.OutcomesOfACommand : Prop :=
  (∀ (i : Instr) (s : State), ∃ t, exec i s = .next t ∧
    ((t.phase = .idle ∧ t.done = true ∧ t.err = false ∧ t.ecode = .none) ∨
      (t.phase = .idle ∧ t.done = true ∧ t.err = true ∧ t.ecode ≠ .none) ∨
      (t.phase ≠ .idle ∧ t.done = false ∧ t.err = false))) ∧
  (∀ s : State, s.cfg.wf = false → step s = .fault .badParameter) ∧
  (∀ s : State, s.cfg.wf = true → s.phase ≠ .idle → s.hostWaits = true → s.seqStep = none → step s = .next s)

/-- R281, R91: an OPERAND_ERROR or a SEQUENCE_ERROR leaves every space, every register other than STATUS and ERRINFO,
and the Connection as they were; a field outside its legal range is an OPERAND_ERROR. -/
def Obligations.ChecksComeBeforeAccess : Prop :=
  (∀ (i : Instr) (s t : State), exec i s = .next t → t.ecode = .operandError ∨ t.ecode = .sequenceError →
    t = { s.doneErr t.ecode .none t.errinfo with hostq := t.hostq }) ∧
  ∀ (i : Instr) (s : State), i.wellFormed = false → s.hostWaits = true →
    ∃ info, exec i s = .next (s.doneErr .operandError .none info)

/-- R26, R27, R30 to R33, R37, R39, R60, R281: a command, from its start to its end and over every wait, writes a
register or a space only if it is one of the commands the rule names for it. That the steps still to do are of the
running command is an invariant of every step. -/
def Obligations.CommandsWriteOnlyTheirOwn : Prop :=
  (∀ (i : Instr) (s t : State), exec i s = .next t → t.ownSteps ∧ onlyOwnWrites i s t) ∧
  (∀ (i : Instr) (r : Word) (todo : List Act) (s t : State), s.phase = .exec i r todo → s.ownSteps →
    s.noMoveLands → step s = .next t →
    t.ownSteps ∧ onlyOwnWrites i s t ∧ (t.phase = .idle ∨ ∃ r' todo', t.phase = .exec i r' todo')) ∧
  ∀ s t : State, s.ownSteps → step s = .next t → t.ownSteps

/-- R25, R65, R77: no command writes ARG0 to ARG3, IMGSIZE, CMD or OVR, neither when it is started nor in any step in
which it goes on, and no step changes a parameter. -/
def Obligations.OperandsAndParametersStay : Prop :=
  (∀ (i : Instr) (s t : State), exec i s = .next t →
    t.arg0 = s.arg0 ∧ t.arg1 = s.arg1 ∧ t.arg2 = s.arg2 ∧ t.arg3 = s.arg3 ∧ t.imgsize = s.imgsize ∧
      t.cmd = s.cmd ∧ t.ovr = s.ovr) ∧
  (∀ s t : State, s.phase ≠ .idle → s.noMoveLands → step s = .next t →
    t.arg0 = s.arg0 ∧ t.arg1 = s.arg1 ∧ t.arg2 = s.arg2 ∧ t.arg3 = s.arg3 ∧ t.imgsize = s.imgsize ∧
      t.cmd = s.cmd ∧ t.ovr = s.ovr) ∧
  (∀ s t : State, step s = .next t → t.cfg = s.cfg)

/-- R289: ERRINFO is written only where an error ends a command, and by reset. The premise, which every step keeps
(`CommandsWriteOnlyTheirOwn`), says that a failed check still to do is an OPERAND_ERROR or a SEQUENCE_ERROR. -/
def Obligations.ErrinfoIsWrittenOnlyByErrors : Prop :=
  ∀ s t : State, s.ownSteps → step s = .next t → t.errinfo = s.errinfo ∨
    (t.phase = .idle ∧ t.done = true ∧ t.err = true ∧ t.ecode ≠ .none) ∨
    ∃ wait q, s.hostq = ⟨wait, .reset⟩ :: q

/-- R92, R322: which LoadTypes program the EEPROM; the Connection calls a command makes are bounded, every row of the
rule's table, from its start over all its steps, waits, answers and moves of the host to its end. -/
def Obligations.ConnectionCallsAreBounded : Prop :=
  (∀ lt, needsEeprom lt = true ↔ lt = .programShutdown ∨ lt = .programRun) ∧
  ∀ (i : Instr) (s u t : State), exec i s = .next u → Follows u t →
    (i = .pktSend ∨ i = .connReset ∨ i = .connRecv ∨ i = .connBaud → t.calls.length ≤ s.calls.length + 1) ∧
    (i = .romAck → t.calls.length ≤ s.calls.length + 2 * pollCount s.arg0.toNat s.arg1.toNat s.baud) ∧
    (∀ lt, i = .romLoad lt → t.calls.length ≤ s.calls.length +
      slowLoadBound lt (romPacket s.cfg lt (s.img.read 0 s.imgsize.toNat)) s.baud) ∧
    (∀ psel r, i = .fastXmit psel r → t.calls.length ≤ s.calls.length + 6) ∧
    (i = .fastBegin → t.calls.length ≤ s.calls.length + (2 + max 1 s.cfg.nStage2Attempts *
      slowLoadBound .run (romPacket s.cfg .run ((s.img.store 5 [s.newCksum]).read 0 s.imgsize.toNat)) s.arg1 + 1)) ∧
    (i = .fastData → t.calls.length ≤ s.calls.length + 6 * (packetCount s.arg1).toNat) ∧
    (∀ lt, i = .fastEnd lt → t.calls.length ≤ s.calls.length + 6 * (if needsEeprom lt then 3 else 2) + 1) ∧
    (writesRxb i = false → i ≠ .pktSend → i ≠ .connReset → i ≠ .connBaud → t.calls = s.calls)

/-- R14, R322: when the host waits, a command stops only at its end or at a primitive whose answer is missing. -/
def Obligations.CommandsEndOrWaitForAnAnswer : Prop :=
  ∀ (i : Instr) (s : State), s.hostWaits = true →
    ∃ t, exec i s = .next t ∧ (t.phase = .idle ∨ t.env.status = [] ∨ t.env.rx = []) ∧
      (t.phase = .idle ∨ t.seqStep = none)

/-! ### Invariants of every step -/

/-- R28, R61, R62, R63: every step keeps the three spaces in canonical form, and keeps PKTLEN ≤ PKTCAP, RXCNT ≤ RXB_SIZE
and everything listed inside its space. -/
def Obligations.StepKeepsTheSpaces : Prop :=
  (∀ s t : State, s.canonical → step s = .next t → t.canonical) ∧
  ∀ s t : State, s.inSpaces → step s = .next t → t.inSpaces

/-- R24: every step keeps STATUS consistent. -/
def Obligations.StepKeepsStatusConsistent : Prop :=
  ∀ s t : State, s.statusConsistent → step s = .next t → t.statusConsistent

/-- R14, R64, R72, R317: with sound parameters the machine stops only at a move the host does not have. -/
def Obligations.StepStopsOnlyAtIllegalMoves : Prop :=
  ∀ s : State, s.cfg.wf = true → (∀ m q, s.hostq = m :: q → m.move.legal s = true) → ∃ t, step s = .next t

/-! ### The wire format -/

/-- R67, R231: the wire format of the fast protocol, byte by byte: id before tag and result before tag, each lowest byte
first, then the payload; and what a receiver reads from eight bytes. -/
def Obligations.WireFormatIsLittleEndian : Prop :=
  (∀ (id tag : Word) (payload : List Byte), fastPacket id tag payload =
    [id.extractLsb' 0 8, id.extractLsb' 8 8, id.extractLsb' 16 8, id.extractLsb' 24 8,
      tag.extractLsb' 0 8, tag.extractLsb' 8 8, tag.extractLsb' 16 8, tag.extractLsb' 24 8] ++ payload) ∧
  (∀ b0 b1 b2 b3 b4 b5 b6 b7 : Byte,
    le32 [b0, b1, b2, b3, b4, b5, b6, b7] = b3 ++ b2 ++ b1 ++ b0 ∧
    le32 ([b0, b1, b2, b3, b4, b5, b6, b7].drop 4) = b7 ++ b6 ++ b5 ++ b4) ∧
  ∀ result tag : Word, le32 (response result tag) = result ∧ le32 ((response result tag).drop 4) = tag ∧
    response result tag = fastPacket result tag []

end Slice0Obligations
end

