-- ==== Sys2Proof/Laws/Memory.lean ====
section
/-! SUPPORT. The laws of a byte space: a read after a write, and that every write keeps the canonical form. -/

namespace Sys2Proof.Machine.Memory

@[simp] theorem get_nil (a : Nat) : get [] a = blank := rfl

theorem get_cons (x : Nat) (b : Byte) (m : Memory) (a : Nat) :
    get ((x, b) :: m) a = if x = a then b else get m a := rfl

/-- Dropping cells by a test on addresses leaves the addresses that pass the test alone. -/
theorem get_filter (m : Memory) (p : Nat → Bool) (a : Nat) (h : p a = true) :
    get (m.filter fun c => p c.1) a = get m a := by
  induction m with
  | nil => rfl
  | cons c m ih =>
    obtain ⟨x, b⟩ := c
    by_cases hx : x = a
    · subst hx; simp [h, get_cons]
    · by_cases hp : p x = true <;> simp [hp, get_cons, hx, ih]

theorem get_filter_neg (m : Memory) (p : Nat → Bool) (a : Nat) (h : p a = false) :
    get (m.filter fun c => p c.1) a = blank := by
  induction m with
  | nil => rfl
  | cons c m ih =>
    obtain ⟨x, b⟩ := c
    by_cases hp : p x = true
    · have hx : x ≠ a := by rintro rfl; simp [h] at hp
      simp [hp, get_cons, hx, ih]
    · simp [hp, ih]

/-- What a first list does not hold, the second gives. -/
theorem get_append_of_not_mem (m₁ m₂ : Memory) (a : Nat) (h : ∀ c ∈ m₁, c.1 ≠ a) :
    get (m₁ ++ m₂) a = get m₂ a := by
  induction m₁ with
  | nil => rfl
  | cons c m ih =>
    obtain ⟨x, b⟩ := c
    have hx : x ≠ a := h _ (List.mem_cons_self ..)
    simp [get_cons, hx, ih fun c hc => h c (List.mem_cons_of_mem _ hc)]

/-- What the second list reads as blank, the first gives. -/
theorem get_append_of_blank (m₁ m₂ : Memory) (a : Nat) (h : get m₂ a = blank) :
    get (m₁ ++ m₂) a = get m₁ a := by
  induction m₁ with
  | nil => simpa using h
  | cons c m ih => obtain ⟨x, b⟩ := c; simp [get_cons, ih]

theorem mem_cells_bounds {a : Nat} {l : List Byte} {c : Host.Cell} (h : c ∈ cells a l) :
    a ≤ c.1 ∧ c.1 < a + l.length := by
  induction l generalizing a with
  | nil => simp [cells] at h
  | cons b bs ih =>
    simp only [cells] at h
    split at h
    · have := ih h; simp only [List.length_cons]; omega
    · rcases List.mem_cons.1 h with rfl | h
      · simp
      · have := ih h; simp only [List.length_cons]; omega

theorem get_cells (a : Nat) (l : List Byte) (x : Nat) :
    get (cells a l) x = if a ≤ x ∧ x < a + l.length then l.getD (x - a) blank else blank := by
  induction l generalizing a with
  | nil => simp only [cells, get_nil, List.length_nil]; split <;> simp_all
  | cons b bs ih =>
    have key : get (cells (a + 1) bs) x =
        if a + 1 ≤ x ∧ x < a + 1 + bs.length then bs.getD (x - (a + 1)) blank else blank := ih (a + 1)
    by_cases hx : x = a
    · subst hx
      have h0 : get (cells (x + 1) bs) x = blank := by rw [key]; simp
      simp only [cells]
      split
      · rename_i hb; simp [h0, hb]
      · simp [get_cons]
    · have h1 : (x - a) = (x - (a + 1)) + 1 ∨ x < a := by omega
      have h2 : get (cells a (b :: bs)) x = get (cells (a + 1) bs) x := by
        simp only [cells]
        split
        · rfl
        · simp [get_cons, Ne.symm hx]
      rw [h2, key]
      rcases h1 with h1 | h1
      · rw [h1]
        simp only [List.length_cons, List.getD_cons_succ]
        by_cases h3 : a + 1 ≤ x ∧ x < a + 1 + bs.length
        · rw [if_pos h3, if_pos (by omega)]
        · rw [if_neg h3, if_neg (by omega)]
      · rw [if_neg (by omega), if_neg (by omega)]

/-- A read after a write: inside the written bytes the value written, outside them what was there. -/
theorem get_store (m : Memory) (a : Nat) (l : List Byte) (x : Nat) :
    get (store m a l) x =
      if a ≤ x ∧ x < a + l.length then l.getD (x - a) blank else get m x := by
  unfold store
  by_cases hlo : x < a
  · rw [if_neg (by omega), get_append_of_blank, get_filter m (fun y => decide (y < a)) x (by simpa using hlo)]
    rw [get_append_of_not_mem _ _ _ fun c hc => by have := mem_cells_bounds hc; omega]
    exact get_filter_neg m (fun y => decide (a + l.length ≤ y)) x (by simp; omega)
  · rw [get_append_of_not_mem _ _ _ fun c hc => by have := List.of_mem_filter hc; simp at this; omega]
    by_cases hhi : x < a + l.length
    · rw [if_pos (by omega), get_append_of_blank, get_cells, if_pos (by omega)]
      exact get_filter_neg m (fun y => decide (a + l.length ≤ y)) x (by simp; omega)
    · rw [if_neg (by omega), get_append_of_not_mem _ _ _ fun c hc => by have := mem_cells_bounds hc; omega]
      exact get_filter m (fun y => decide (a + l.length ≤ y)) x (by simp; omega)

theorem get_store_outside {m : Memory} {a : Nat} {l : List Byte} {x : Nat} (h : x < a ∨ a + l.length ≤ x) :
    get (store m a l) x = get m x := by
  rw [get_store, if_neg (by omega)]

theorem get_store_inside {m : Memory} {a : Nat} {l : List Byte} {k : Nat} (h : k < l.length) :
    get (store m a l) (a + k) = l.getD k blank := by
  rw [get_store, if_pos (by omega)]; simp

/-! ### Reading lists of bytes -/

@[simp] theorem read_length (m : Memory) (a n : Nat) : (read m a n).length = n := by
  induction n generalizing a with
  | zero => rfl
  | succ n ih => simp [read, ih]

theorem getD_read (m : Memory) (a n k : Nat) (h : k < n) : (read m a n).getD k blank = get m (a + k) := by
  induction n generalizing a k with
  | zero => omega
  | succ n ih =>
    cases k with
    | zero => simp [read]
    | succ k => simp only [read, List.getD_cons_succ]; rw [ih _ _ (by omega)]; congr 1; omega

theorem read_congr {m m' : Memory} {a n : Nat} (h : ∀ k < n, get m (a + k) = get m' (a + k)) :
    read m a n = read m' a n := by
  induction n generalizing a with
  | zero => rfl
  | succ n ih =>
    simp only [read]
    congr 1
    · exact h 0 (by omega)
    · exact ih fun k hk => by have := h (k + 1) (by omega); rwa [show a + 1 + k = a + (k + 1) by omega]

theorem read_append (m : Memory) (a n k : Nat) : read m a (n + k) = read m a n ++ read m (a + n) k := by
  induction n generalizing a with
  | zero => simp [read]
  | succ n ih => rw [show n + 1 + k = (n + k) + 1 by omega]; simp [read, ih, Nat.add_assoc, Nat.add_comm 1 n]

/-- The bytes just written are the bytes read. -/
theorem read_store_same (m : Memory) (a : Nat) (l : List Byte) : read (store m a l) a l.length = l := by
  suffices h : ∀ (m' : Memory), (∀ k < l.length, get m' (a + k) = l.getD k blank) → read m' a l.length = l from
    h _ fun k hk => get_store_inside hk
  intro m' h
  induction l generalizing a with
  | nil => rfl
  | cons b bs ih =>
    simp only [List.length_cons, read]
    congr 1
    · simpa using h 0 (by simp)
    · apply ih
      intro k hk
      have := h (k + 1) (by simp; omega)
      rw [show a + 1 + k = a + (k + 1) by omega, this]
      simp

theorem read_store_outside {m : Memory} {a n b : Nat} {l : List Byte} (h : a + n ≤ b ∨ b + l.length ≤ a) :
    read (store m b l) a n = read m a n :=
  read_congr fun _ _ => get_store_outside (by omega)

/-! ### The canonical form -/

theorem wfFrom_mono {lo lo' : Nat} {m : Memory} (h : wfFrom lo m = true) (hl : lo' ≤ lo) : wfFrom lo' m = true := by
  cases m with
  | nil => rfl
  | cons c m =>
    obtain ⟨x, b⟩ := c
    simp only [wfFrom, Bool.and_eq_true, decide_eq_true_eq] at h ⊢
    exact ⟨⟨by omega, h.1.2⟩, h.2⟩

theorem wfFrom_filter {lo : Nat} {m : Memory} (p : Host.Cell → Bool) (h : wfFrom lo m = true) :
    wfFrom lo (m.filter p) = true := by
  induction m generalizing lo with
  | nil => rfl
  | cons c m ih =>
    obtain ⟨x, b⟩ := c
    simp only [wfFrom, Bool.and_eq_true, decide_eq_true_eq] at h
    rw [List.filter_cons]
    split
    · simp only [wfFrom, Bool.and_eq_true, decide_eq_true_eq]
      exact ⟨⟨h.1.1, h.1.2⟩, ih h.2⟩
    · exact wfFrom_mono (ih h.2) (by omega)

theorem wfFrom_cells (a : Nat) (l : List Byte) : wfFrom a (cells a l) = true := by
  induction l generalizing a with
  | nil => rfl
  | cons b bs ih =>
    simp only [cells]
    split
    · exact wfFrom_mono (ih (a + 1)) (by omega)
    · rename_i hb
      simp [wfFrom, hb, ih (a + 1)]

theorem wfFrom_of_forall {lo hi : Nat} {m : Memory} (h : wfFrom lo m = true) (hh : ∀ c ∈ m, hi ≤ c.1) :
    wfFrom hi m = true := by
  cases m with
  | nil => rfl
  | cons c m =>
    obtain ⟨x, b⟩ := c
    simp only [wfFrom, Bool.and_eq_true, decide_eq_true_eq] at h ⊢
    exact ⟨⟨hh _ (List.mem_cons_self ..), h.1.2⟩, h.2⟩

theorem wfFrom_append {lo mid : Nat} {m₁ m₂ : Memory} (h₁ : wfFrom lo m₁ = true) (hlt : ∀ c ∈ m₁, c.1 < mid)
    (hlo : lo ≤ mid) (h₂ : wfFrom mid m₂ = true) : wfFrom lo (m₁ ++ m₂) = true := by
  induction m₁ generalizing lo with
  | nil => exact wfFrom_mono h₂ hlo
  | cons c m ih =>
    obtain ⟨x, b⟩ := c
    simp only [wfFrom, Bool.and_eq_true, decide_eq_true_eq] at h₁
    simp only [List.cons_append, wfFrom, Bool.and_eq_true, decide_eq_true_eq]
    have hx : x < mid := hlt _ (List.mem_cons_self ..)
    exact ⟨⟨h₁.1.1, h₁.1.2⟩, ih h₁.2 (fun c hc => hlt c (List.mem_cons_of_mem _ hc)) (by omega)⟩

/-- Every write keeps the canonical form. -/
theorem wf_store {m : Memory} (h : wf m = true) (a : Nat) (l : List Byte) : wf (store m a l) = true := by
  unfold wf store
  refine wfFrom_append (mid := a) (wfFrom_filter _ h) (fun c hc => by simpa using List.of_mem_filter hc) (by omega) ?_
  refine wfFrom_append (mid := a + l.length) (wfFrom_cells a l) (fun c hc => (mem_cells_bounds hc).2) (by omega) ?_
  exact wfFrom_of_forall (wfFrom_filter _ h) fun c hc => by simpa using List.of_mem_filter hc

@[simp] theorem wf_nil : wf [] = true := rfl

theorem get_of_wfFrom {lo x : Nat} {m : Memory} (h : wfFrom lo m = true) (hx : x < lo) : get m x = blank := by
  induction m generalizing lo with
  | nil => rfl
  | cons c m ih =>
    obtain ⟨y, b⟩ := c
    simp only [wfFrom, Bool.and_eq_true, decide_eq_true_eq] at h
    rw [get_cons, if_neg (by omega)]
    exact ih h.2 (by omega)

/-- Canonical spaces that read the same are equal. -/
theorem eq_of_get {lo : Nat} {m m' : Memory} (h : wfFrom lo m = true) (h' : wfFrom lo m' = true)
    (hg : ∀ x, get m x = get m' x) : m = m' := by
  induction m generalizing lo m' with
  | nil =>
    cases m' with
    | nil => rfl
    | cons c m' =>
      obtain ⟨y, b⟩ := c
      simp only [wfFrom, Bool.and_eq_true, decide_eq_true_eq] at h'
      have := hg y
      simp [get_cons] at this
      exact absurd this.symm h'.1.2
  | cons c m ih =>
    obtain ⟨x, b⟩ := c
    simp only [wfFrom, Bool.and_eq_true, decide_eq_true_eq] at h
    have hbx := hg x
    simp only [get_cons, if_true] at hbx
    cases m' with
    | nil => exact absurd hbx h.1.2
    | cons c' m' =>
      obtain ⟨y, b'⟩ := c'
      simp only [wfFrom, Bool.and_eq_true, decide_eq_true_eq] at h'
      have hxy : x = y := by
        by_contra hne
        rcases Nat.lt_or_gt_of_ne hne with hlt | hgt
        · rw [get_cons, if_neg (by omega), get_of_wfFrom h'.2 (by omega)] at hbx
          exact h.1.2 hbx
        · have hby := hg y
          rw [get_cons, if_neg (by omega), get_of_wfFrom h.2 (by omega), get_cons, if_pos rfl] at hby
          exact h'.1.2 hby.symm
      subst hxy
      have hb : b = b' := by simpa [get_cons] using hbx
      subst hb
      congr 1
      refine ih h.2 h'.2 fun z => ?_
      by_cases hz : x = z
      · subst hz; rw [get_of_wfFrom h.2 (by omega), get_of_wfFrom h'.2 (by omega)]
      · have := hg z; simpa [get_cons, hz] using this

end Sys2Proof.Machine.Memory
end

