-- ==== Sys2Proof/Laws/State.lean ====
section
/-! SUPPORT. What each update of the state leaves alone and what it sets: one lemma per field and update, so that no proof
unfolds a record update. -/

namespace Sys2Proof.Machine.State

variable (s : State)

/-! ### setPhase -/

@[simp] theorem setPhase_cfg (p : Phase) : (s.setPhase p).cfg = s.cfg := rfl
@[simp] theorem setPhase_cmd (p : Phase) : (s.setPhase p).cmd = s.cmd := rfl
@[simp] theorem setPhase_done (p : Phase) : (s.setPhase p).done = s.done := rfl
@[simp] theorem setPhase_err (p : Phase) : (s.setPhase p).err = s.err := rfl
@[simp] theorem setPhase_ovr (p : Phase) : (s.setPhase p).ovr = s.ovr := rfl
@[simp] theorem setPhase_ecode (p : Phase) : (s.setPhase p).ecode = s.ecode := rfl
@[simp] theorem setPhase_stage (p : Phase) : (s.setPhase p).stage = s.stage := rfl
@[simp] theorem setPhase_sstate (p : Phase) : (s.setPhase p).sstate = s.sstate := rfl
@[simp] theorem setPhase_fstate (p : Phase) : (s.setPhase p).fstate = s.fstate := rfl
@[simp] theorem setPhase_attempt (p : Phase) : (s.setPhase p).attempt = s.attempt := rfl
@[simp] theorem setPhase_arg0 (p : Phase) : (s.setPhase p).arg0 = s.arg0 := rfl
@[simp] theorem setPhase_arg1 (p : Phase) : (s.setPhase p).arg1 = s.arg1 := rfl
@[simp] theorem setPhase_arg2 (p : Phase) : (s.setPhase p).arg2 = s.arg2 := rfl
@[simp] theorem setPhase_arg3 (p : Phase) : (s.setPhase p).arg3 = s.arg3 := rfl
@[simp] theorem setPhase_res0 (p : Phase) : (s.setPhase p).res0 = s.res0 := rfl
@[simp] theorem setPhase_res1 (p : Phase) : (s.setPhase p).res1 = s.res1 := rfl
@[simp] theorem setPhase_lfsr (p : Phase) : (s.setPhase p).lfsr = s.lfsr := rfl
@[simp] theorem setPhase_version (p : Phase) : (s.setPhase p).version = s.version := rfl
@[simp] theorem setPhase_pktlen (p : Phase) : (s.setPhase p).pktlen = s.pktlen := rfl
@[simp] theorem setPhase_pktid (p : Phase) : (s.setPhase p).pktid = s.pktid := rfl
@[simp] theorem setPhase_cksum (p : Phase) : (s.setPhase p).cksum = s.cksum := rfl
@[simp] theorem setPhase_tag (p : Phase) : (s.setPhase p).tag = s.tag := rfl
@[simp] theorem setPhase_baud (p : Phase) : (s.setPhase p).baud = s.baud := rfl
@[simp] theorem setPhase_imgsize (p : Phase) : (s.setPhase p).imgsize = s.imgsize := rfl
@[simp] theorem setPhase_errinfo (p : Phase) : (s.setPhase p).errinfo = s.errinfo := rfl
@[simp] theorem setPhase_rxcnt (p : Phase) : (s.setPhase p).rxcnt = s.rxcnt := rfl
@[simp] theorem setPhase_phase (p : Phase) : (s.setPhase p).phase = p := rfl
@[simp] theorem setPhase_img (p : Phase) : (s.setPhase p).img = s.img := rfl
@[simp] theorem setPhase_pkt (p : Phase) : (s.setPhase p).pkt = s.pkt := rfl
@[simp] theorem setPhase_rxb (p : Phase) : (s.setPhase p).rxb = s.rxb := rfl
@[simp] theorem setPhase_env (p : Phase) : (s.setPhase p).env = s.env := rfl
@[simp] theorem setPhase_calls (p : Phase) : (s.setPhase p).calls = s.calls := rfl
@[simp] theorem setPhase_hostq (p : Phase) : (s.setPhase p).hostq = s.hostq := rfl
@[simp] theorem setPhase_rdata (p : Phase) : (s.setPhase p).rdata = s.rdata := rfl

/-! ### setStatus -/

@[simp] theorem setStatus_cfg (l : List IoStatus) : (s.setStatus l).cfg = s.cfg := rfl
@[simp] theorem setStatus_cmd (l : List IoStatus) : (s.setStatus l).cmd = s.cmd := rfl
@[simp] theorem setStatus_done (l : List IoStatus) : (s.setStatus l).done = s.done := rfl
@[simp] theorem setStatus_err (l : List IoStatus) : (s.setStatus l).err = s.err := rfl
@[simp] theorem setStatus_ovr (l : List IoStatus) : (s.setStatus l).ovr = s.ovr := rfl
@[simp] theorem setStatus_ecode (l : List IoStatus) : (s.setStatus l).ecode = s.ecode := rfl
@[simp] theorem setStatus_stage (l : List IoStatus) : (s.setStatus l).stage = s.stage := rfl
@[simp] theorem setStatus_sstate (l : List IoStatus) : (s.setStatus l).sstate = s.sstate := rfl
@[simp] theorem setStatus_fstate (l : List IoStatus) : (s.setStatus l).fstate = s.fstate := rfl
@[simp] theorem setStatus_attempt (l : List IoStatus) : (s.setStatus l).attempt = s.attempt := rfl
@[simp] theorem setStatus_arg0 (l : List IoStatus) : (s.setStatus l).arg0 = s.arg0 := rfl
@[simp] theorem setStatus_arg1 (l : List IoStatus) : (s.setStatus l).arg1 = s.arg1 := rfl
@[simp] theorem setStatus_arg2 (l : List IoStatus) : (s.setStatus l).arg2 = s.arg2 := rfl
@[simp] theorem setStatus_arg3 (l : List IoStatus) : (s.setStatus l).arg3 = s.arg3 := rfl
@[simp] theorem setStatus_res0 (l : List IoStatus) : (s.setStatus l).res0 = s.res0 := rfl
@[simp] theorem setStatus_res1 (l : List IoStatus) : (s.setStatus l).res1 = s.res1 := rfl
@[simp] theorem setStatus_lfsr (l : List IoStatus) : (s.setStatus l).lfsr = s.lfsr := rfl
@[simp] theorem setStatus_version (l : List IoStatus) : (s.setStatus l).version = s.version := rfl
@[simp] theorem setStatus_pktlen (l : List IoStatus) : (s.setStatus l).pktlen = s.pktlen := rfl
@[simp] theorem setStatus_pktid (l : List IoStatus) : (s.setStatus l).pktid = s.pktid := rfl
@[simp] theorem setStatus_cksum (l : List IoStatus) : (s.setStatus l).cksum = s.cksum := rfl
@[simp] theorem setStatus_tag (l : List IoStatus) : (s.setStatus l).tag = s.tag := rfl
@[simp] theorem setStatus_baud (l : List IoStatus) : (s.setStatus l).baud = s.baud := rfl
@[simp] theorem setStatus_imgsize (l : List IoStatus) : (s.setStatus l).imgsize = s.imgsize := rfl
@[simp] theorem setStatus_errinfo (l : List IoStatus) : (s.setStatus l).errinfo = s.errinfo := rfl
@[simp] theorem setStatus_rxcnt (l : List IoStatus) : (s.setStatus l).rxcnt = s.rxcnt := rfl
@[simp] theorem setStatus_phase (l : List IoStatus) : (s.setStatus l).phase = s.phase := rfl
@[simp] theorem setStatus_img (l : List IoStatus) : (s.setStatus l).img = s.img := rfl
@[simp] theorem setStatus_pkt (l : List IoStatus) : (s.setStatus l).pkt = s.pkt := rfl
@[simp] theorem setStatus_rxb (l : List IoStatus) : (s.setStatus l).rxb = s.rxb := rfl
@[simp] theorem setStatus_env (l : List IoStatus) : (s.setStatus l).env = { s.env with status := l } := rfl
@[simp] theorem setStatus_calls (l : List IoStatus) : (s.setStatus l).calls = s.calls := rfl
@[simp] theorem setStatus_hostq (l : List IoStatus) : (s.setStatus l).hostq = s.hostq := rfl
@[simp] theorem setStatus_rdata (l : List IoStatus) : (s.setStatus l).rdata = s.rdata := rfl

/-! ### setRx -/

@[simp] theorem setRx_cfg (l : List RxAnswer) : (s.setRx l).cfg = s.cfg := rfl
@[simp] theorem setRx_cmd (l : List RxAnswer) : (s.setRx l).cmd = s.cmd := rfl
@[simp] theorem setRx_done (l : List RxAnswer) : (s.setRx l).done = s.done := rfl
@[simp] theorem setRx_err (l : List RxAnswer) : (s.setRx l).err = s.err := rfl
@[simp] theorem setRx_ovr (l : List RxAnswer) : (s.setRx l).ovr = s.ovr := rfl
@[simp] theorem setRx_ecode (l : List RxAnswer) : (s.setRx l).ecode = s.ecode := rfl
@[simp] theorem setRx_stage (l : List RxAnswer) : (s.setRx l).stage = s.stage := rfl
@[simp] theorem setRx_sstate (l : List RxAnswer) : (s.setRx l).sstate = s.sstate := rfl
@[simp] theorem setRx_fstate (l : List RxAnswer) : (s.setRx l).fstate = s.fstate := rfl
@[simp] theorem setRx_attempt (l : List RxAnswer) : (s.setRx l).attempt = s.attempt := rfl
@[simp] theorem setRx_arg0 (l : List RxAnswer) : (s.setRx l).arg0 = s.arg0 := rfl
@[simp] theorem setRx_arg1 (l : List RxAnswer) : (s.setRx l).arg1 = s.arg1 := rfl
@[simp] theorem setRx_arg2 (l : List RxAnswer) : (s.setRx l).arg2 = s.arg2 := rfl
@[simp] theorem setRx_arg3 (l : List RxAnswer) : (s.setRx l).arg3 = s.arg3 := rfl
@[simp] theorem setRx_res0 (l : List RxAnswer) : (s.setRx l).res0 = s.res0 := rfl
@[simp] theorem setRx_res1 (l : List RxAnswer) : (s.setRx l).res1 = s.res1 := rfl
@[simp] theorem setRx_lfsr (l : List RxAnswer) : (s.setRx l).lfsr = s.lfsr := rfl
@[simp] theorem setRx_version (l : List RxAnswer) : (s.setRx l).version = s.version := rfl
@[simp] theorem setRx_pktlen (l : List RxAnswer) : (s.setRx l).pktlen = s.pktlen := rfl
@[simp] theorem setRx_pktid (l : List RxAnswer) : (s.setRx l).pktid = s.pktid := rfl
@[simp] theorem setRx_cksum (l : List RxAnswer) : (s.setRx l).cksum = s.cksum := rfl
@[simp] theorem setRx_tag (l : List RxAnswer) : (s.setRx l).tag = s.tag := rfl
@[simp] theorem setRx_baud (l : List RxAnswer) : (s.setRx l).baud = s.baud := rfl
@[simp] theorem setRx_imgsize (l : List RxAnswer) : (s.setRx l).imgsize = s.imgsize := rfl
@[simp] theorem setRx_errinfo (l : List RxAnswer) : (s.setRx l).errinfo = s.errinfo := rfl
@[simp] theorem setRx_rxcnt (l : List RxAnswer) : (s.setRx l).rxcnt = s.rxcnt := rfl
@[simp] theorem setRx_phase (l : List RxAnswer) : (s.setRx l).phase = s.phase := rfl
@[simp] theorem setRx_img (l : List RxAnswer) : (s.setRx l).img = s.img := rfl
@[simp] theorem setRx_pkt (l : List RxAnswer) : (s.setRx l).pkt = s.pkt := rfl
@[simp] theorem setRx_rxb (l : List RxAnswer) : (s.setRx l).rxb = s.rxb := rfl
@[simp] theorem setRx_env (l : List RxAnswer) : (s.setRx l).env = { s.env with rx := l } := rfl
@[simp] theorem setRx_calls (l : List RxAnswer) : (s.setRx l).calls = s.calls := rfl
@[simp] theorem setRx_hostq (l : List RxAnswer) : (s.setRx l).hostq = s.hostq := rfl
@[simp] theorem setRx_rdata (l : List RxAnswer) : (s.setRx l).rdata = s.rdata := rfl

/-! ### setSState -/

@[simp] theorem setSState_cfg (q : SState) : (s.setSState q).cfg = s.cfg := rfl
@[simp] theorem setSState_cmd (q : SState) : (s.setSState q).cmd = s.cmd := rfl
@[simp] theorem setSState_done (q : SState) : (s.setSState q).done = s.done := rfl
@[simp] theorem setSState_err (q : SState) : (s.setSState q).err = s.err := rfl
@[simp] theorem setSState_ovr (q : SState) : (s.setSState q).ovr = s.ovr := rfl
@[simp] theorem setSState_ecode (q : SState) : (s.setSState q).ecode = s.ecode := rfl
@[simp] theorem setSState_stage (q : SState) : (s.setSState q).stage = s.stage := rfl
@[simp] theorem setSState_sstate (q : SState) : (s.setSState q).sstate = q := rfl
@[simp] theorem setSState_fstate (q : SState) : (s.setSState q).fstate = s.fstate := rfl
@[simp] theorem setSState_attempt (q : SState) : (s.setSState q).attempt = s.attempt := rfl
@[simp] theorem setSState_arg0 (q : SState) : (s.setSState q).arg0 = s.arg0 := rfl
@[simp] theorem setSState_arg1 (q : SState) : (s.setSState q).arg1 = s.arg1 := rfl
@[simp] theorem setSState_arg2 (q : SState) : (s.setSState q).arg2 = s.arg2 := rfl
@[simp] theorem setSState_arg3 (q : SState) : (s.setSState q).arg3 = s.arg3 := rfl
@[simp] theorem setSState_res0 (q : SState) : (s.setSState q).res0 = s.res0 := rfl
@[simp] theorem setSState_res1 (q : SState) : (s.setSState q).res1 = s.res1 := rfl
@[simp] theorem setSState_lfsr (q : SState) : (s.setSState q).lfsr = s.lfsr := rfl
@[simp] theorem setSState_version (q : SState) : (s.setSState q).version = s.version := rfl
@[simp] theorem setSState_pktlen (q : SState) : (s.setSState q).pktlen = s.pktlen := rfl
@[simp] theorem setSState_pktid (q : SState) : (s.setSState q).pktid = s.pktid := rfl
@[simp] theorem setSState_cksum (q : SState) : (s.setSState q).cksum = s.cksum := rfl
@[simp] theorem setSState_tag (q : SState) : (s.setSState q).tag = s.tag := rfl
@[simp] theorem setSState_baud (q : SState) : (s.setSState q).baud = s.baud := rfl
@[simp] theorem setSState_imgsize (q : SState) : (s.setSState q).imgsize = s.imgsize := rfl
@[simp] theorem setSState_errinfo (q : SState) : (s.setSState q).errinfo = s.errinfo := rfl
@[simp] theorem setSState_rxcnt (q : SState) : (s.setSState q).rxcnt = s.rxcnt := rfl
@[simp] theorem setSState_phase (q : SState) : (s.setSState q).phase = s.phase := rfl
@[simp] theorem setSState_img (q : SState) : (s.setSState q).img = s.img := rfl
@[simp] theorem setSState_pkt (q : SState) : (s.setSState q).pkt = s.pkt := rfl
@[simp] theorem setSState_rxb (q : SState) : (s.setSState q).rxb = s.rxb := rfl
@[simp] theorem setSState_env (q : SState) : (s.setSState q).env = s.env := rfl
@[simp] theorem setSState_calls (q : SState) : (s.setSState q).calls = s.calls := rfl
@[simp] theorem setSState_hostq (q : SState) : (s.setSState q).hostq = s.hostq := rfl
@[simp] theorem setSState_rdata (q : SState) : (s.setSState q).rdata = s.rdata := rfl

/-! ### setFState -/

@[simp] theorem setFState_cfg (q : FState) : (s.setFState q).cfg = s.cfg := rfl
@[simp] theorem setFState_cmd (q : FState) : (s.setFState q).cmd = s.cmd := rfl
@[simp] theorem setFState_done (q : FState) : (s.setFState q).done = s.done := rfl
@[simp] theorem setFState_err (q : FState) : (s.setFState q).err = s.err := rfl
@[simp] theorem setFState_ovr (q : FState) : (s.setFState q).ovr = s.ovr := rfl
@[simp] theorem setFState_ecode (q : FState) : (s.setFState q).ecode = s.ecode := rfl
@[simp] theorem setFState_stage (q : FState) : (s.setFState q).stage = s.stage := rfl
@[simp] theorem setFState_sstate (q : FState) : (s.setFState q).sstate = s.sstate := rfl
@[simp] theorem setFState_fstate (q : FState) : (s.setFState q).fstate = q := rfl
@[simp] theorem setFState_attempt (q : FState) : (s.setFState q).attempt = s.attempt := rfl
@[simp] theorem setFState_arg0 (q : FState) : (s.setFState q).arg0 = s.arg0 := rfl
@[simp] theorem setFState_arg1 (q : FState) : (s.setFState q).arg1 = s.arg1 := rfl
@[simp] theorem setFState_arg2 (q : FState) : (s.setFState q).arg2 = s.arg2 := rfl
@[simp] theorem setFState_arg3 (q : FState) : (s.setFState q).arg3 = s.arg3 := rfl
@[simp] theorem setFState_res0 (q : FState) : (s.setFState q).res0 = s.res0 := rfl
@[simp] theorem setFState_res1 (q : FState) : (s.setFState q).res1 = s.res1 := rfl
@[simp] theorem setFState_lfsr (q : FState) : (s.setFState q).lfsr = s.lfsr := rfl
@[simp] theorem setFState_version (q : FState) : (s.setFState q).version = s.version := rfl
@[simp] theorem setFState_pktlen (q : FState) : (s.setFState q).pktlen = s.pktlen := rfl
@[simp] theorem setFState_pktid (q : FState) : (s.setFState q).pktid = s.pktid := rfl
@[simp] theorem setFState_cksum (q : FState) : (s.setFState q).cksum = s.cksum := rfl
@[simp] theorem setFState_tag (q : FState) : (s.setFState q).tag = s.tag := rfl
@[simp] theorem setFState_baud (q : FState) : (s.setFState q).baud = s.baud := rfl
@[simp] theorem setFState_imgsize (q : FState) : (s.setFState q).imgsize = s.imgsize := rfl
@[simp] theorem setFState_errinfo (q : FState) : (s.setFState q).errinfo = s.errinfo := rfl
@[simp] theorem setFState_rxcnt (q : FState) : (s.setFState q).rxcnt = s.rxcnt := rfl
@[simp] theorem setFState_phase (q : FState) : (s.setFState q).phase = s.phase := rfl
@[simp] theorem setFState_img (q : FState) : (s.setFState q).img = s.img := rfl
@[simp] theorem setFState_pkt (q : FState) : (s.setFState q).pkt = s.pkt := rfl
@[simp] theorem setFState_rxb (q : FState) : (s.setFState q).rxb = s.rxb := rfl
@[simp] theorem setFState_env (q : FState) : (s.setFState q).env = s.env := rfl
@[simp] theorem setFState_calls (q : FState) : (s.setFState q).calls = s.calls := rfl
@[simp] theorem setFState_hostq (q : FState) : (s.setFState q).hostq = s.hostq := rfl
@[simp] theorem setFState_rdata (q : FState) : (s.setFState q).rdata = s.rdata := rfl

/-! ### setImgByte -/

@[simp] theorem setImgByte_cfg (off : Nat) (b : Byte) : (s.setImgByte off b).cfg = s.cfg := rfl
@[simp] theorem setImgByte_cmd (off : Nat) (b : Byte) : (s.setImgByte off b).cmd = s.cmd := rfl
@[simp] theorem setImgByte_done (off : Nat) (b : Byte) : (s.setImgByte off b).done = s.done := rfl
@[simp] theorem setImgByte_err (off : Nat) (b : Byte) : (s.setImgByte off b).err = s.err := rfl
@[simp] theorem setImgByte_ovr (off : Nat) (b : Byte) : (s.setImgByte off b).ovr = s.ovr := rfl
@[simp] theorem setImgByte_ecode (off : Nat) (b : Byte) : (s.setImgByte off b).ecode = s.ecode := rfl
@[simp] theorem setImgByte_stage (off : Nat) (b : Byte) : (s.setImgByte off b).stage = s.stage := rfl
@[simp] theorem setImgByte_sstate (off : Nat) (b : Byte) : (s.setImgByte off b).sstate = s.sstate := rfl
@[simp] theorem setImgByte_fstate (off : Nat) (b : Byte) : (s.setImgByte off b).fstate = s.fstate := rfl
@[simp] theorem setImgByte_attempt (off : Nat) (b : Byte) : (s.setImgByte off b).attempt = s.attempt := rfl
@[simp] theorem setImgByte_arg0 (off : Nat) (b : Byte) : (s.setImgByte off b).arg0 = s.arg0 := rfl
@[simp] theorem setImgByte_arg1 (off : Nat) (b : Byte) : (s.setImgByte off b).arg1 = s.arg1 := rfl
@[simp] theorem setImgByte_arg2 (off : Nat) (b : Byte) : (s.setImgByte off b).arg2 = s.arg2 := rfl
@[simp] theorem setImgByte_arg3 (off : Nat) (b : Byte) : (s.setImgByte off b).arg3 = s.arg3 := rfl
@[simp] theorem setImgByte_res0 (off : Nat) (b : Byte) : (s.setImgByte off b).res0 = s.res0 := rfl
@[simp] theorem setImgByte_res1 (off : Nat) (b : Byte) : (s.setImgByte off b).res1 = s.res1 := rfl
@[simp] theorem setImgByte_lfsr (off : Nat) (b : Byte) : (s.setImgByte off b).lfsr = s.lfsr := rfl
@[simp] theorem setImgByte_version (off : Nat) (b : Byte) : (s.setImgByte off b).version = s.version := rfl
@[simp] theorem setImgByte_pktlen (off : Nat) (b : Byte) : (s.setImgByte off b).pktlen = s.pktlen := rfl
@[simp] theorem setImgByte_pktid (off : Nat) (b : Byte) : (s.setImgByte off b).pktid = s.pktid := rfl
@[simp] theorem setImgByte_cksum (off : Nat) (b : Byte) : (s.setImgByte off b).cksum = s.cksum := rfl
@[simp] theorem setImgByte_tag (off : Nat) (b : Byte) : (s.setImgByte off b).tag = s.tag := rfl
@[simp] theorem setImgByte_baud (off : Nat) (b : Byte) : (s.setImgByte off b).baud = s.baud := rfl
@[simp] theorem setImgByte_imgsize (off : Nat) (b : Byte) : (s.setImgByte off b).imgsize = s.imgsize := rfl
@[simp] theorem setImgByte_errinfo (off : Nat) (b : Byte) : (s.setImgByte off b).errinfo = s.errinfo := rfl
@[simp] theorem setImgByte_rxcnt (off : Nat) (b : Byte) : (s.setImgByte off b).rxcnt = s.rxcnt := rfl
@[simp] theorem setImgByte_phase (off : Nat) (b : Byte) : (s.setImgByte off b).phase = s.phase := rfl
@[simp] theorem setImgByte_img (off : Nat) (b : Byte) : (s.setImgByte off b).img = s.img.store off [b] := rfl
@[simp] theorem setImgByte_pkt (off : Nat) (b : Byte) : (s.setImgByte off b).pkt = s.pkt := rfl
@[simp] theorem setImgByte_rxb (off : Nat) (b : Byte) : (s.setImgByte off b).rxb = s.rxb := rfl
@[simp] theorem setImgByte_env (off : Nat) (b : Byte) : (s.setImgByte off b).env = s.env := rfl
@[simp] theorem setImgByte_calls (off : Nat) (b : Byte) : (s.setImgByte off b).calls = s.calls := rfl
@[simp] theorem setImgByte_hostq (off : Nat) (b : Byte) : (s.setImgByte off b).hostq = s.hostq := rfl
@[simp] theorem setImgByte_rdata (off : Nat) (b : Byte) : (s.setImgByte off b).rdata = s.rdata := rfl

/-! ### clearPkt -/

@[simp] theorem clearPkt_cfg : s.clearPkt.cfg = s.cfg := rfl
@[simp] theorem clearPkt_cmd : s.clearPkt.cmd = s.cmd := rfl
@[simp] theorem clearPkt_done : s.clearPkt.done = s.done := rfl
@[simp] theorem clearPkt_err : s.clearPkt.err = s.err := rfl
@[simp] theorem clearPkt_ovr : s.clearPkt.ovr = s.ovr := rfl
@[simp] theorem clearPkt_ecode : s.clearPkt.ecode = s.ecode := rfl
@[simp] theorem clearPkt_stage : s.clearPkt.stage = s.stage := rfl
@[simp] theorem clearPkt_sstate : s.clearPkt.sstate = s.sstate := rfl
@[simp] theorem clearPkt_fstate : s.clearPkt.fstate = s.fstate := rfl
@[simp] theorem clearPkt_attempt : s.clearPkt.attempt = s.attempt := rfl
@[simp] theorem clearPkt_arg0 : s.clearPkt.arg0 = s.arg0 := rfl
@[simp] theorem clearPkt_arg1 : s.clearPkt.arg1 = s.arg1 := rfl
@[simp] theorem clearPkt_arg2 : s.clearPkt.arg2 = s.arg2 := rfl
@[simp] theorem clearPkt_arg3 : s.clearPkt.arg3 = s.arg3 := rfl
@[simp] theorem clearPkt_res0 : s.clearPkt.res0 = s.res0 := rfl
@[simp] theorem clearPkt_res1 : s.clearPkt.res1 = s.res1 := rfl
@[simp] theorem clearPkt_lfsr : s.clearPkt.lfsr = s.lfsr := rfl
@[simp] theorem clearPkt_version : s.clearPkt.version = s.version := rfl
@[simp] theorem clearPkt_pktlen : s.clearPkt.pktlen = 0#32 := rfl
@[simp] theorem clearPkt_pktid : s.clearPkt.pktid = s.pktid := rfl
@[simp] theorem clearPkt_cksum : s.clearPkt.cksum = s.cksum := rfl
@[simp] theorem clearPkt_tag : s.clearPkt.tag = s.tag := rfl
@[simp] theorem clearPkt_baud : s.clearPkt.baud = s.baud := rfl
@[simp] theorem clearPkt_imgsize : s.clearPkt.imgsize = s.imgsize := rfl
@[simp] theorem clearPkt_errinfo : s.clearPkt.errinfo = s.errinfo := rfl
@[simp] theorem clearPkt_rxcnt : s.clearPkt.rxcnt = s.rxcnt := rfl
@[simp] theorem clearPkt_phase : s.clearPkt.phase = s.phase := rfl
@[simp] theorem clearPkt_img : s.clearPkt.img = s.img := rfl
@[simp] theorem clearPkt_pkt : s.clearPkt.pkt = s.pkt := rfl
@[simp] theorem clearPkt_rxb : s.clearPkt.rxb = s.rxb := rfl
@[simp] theorem clearPkt_env : s.clearPkt.env = s.env := rfl
@[simp] theorem clearPkt_calls : s.clearPkt.calls = s.calls := rfl
@[simp] theorem clearPkt_hostq : s.clearPkt.hostq = s.hostq := rfl
@[simp] theorem clearPkt_rdata : s.clearPkt.rdata = s.rdata := rfl

/-! ### setRxByte -/

@[simp] theorem setRxByte_cfg (off : Nat) (b : Byte) : (s.setRxByte off b).cfg = s.cfg := rfl
@[simp] theorem setRxByte_cmd (off : Nat) (b : Byte) : (s.setRxByte off b).cmd = s.cmd := rfl
@[simp] theorem setRxByte_done (off : Nat) (b : Byte) : (s.setRxByte off b).done = s.done := rfl
@[simp] theorem setRxByte_err (off : Nat) (b : Byte) : (s.setRxByte off b).err = s.err := rfl
@[simp] theorem setRxByte_ovr (off : Nat) (b : Byte) : (s.setRxByte off b).ovr = s.ovr := rfl
@[simp] theorem setRxByte_ecode (off : Nat) (b : Byte) : (s.setRxByte off b).ecode = s.ecode := rfl
@[simp] theorem setRxByte_stage (off : Nat) (b : Byte) : (s.setRxByte off b).stage = s.stage := rfl
@[simp] theorem setRxByte_sstate (off : Nat) (b : Byte) : (s.setRxByte off b).sstate = s.sstate := rfl
@[simp] theorem setRxByte_fstate (off : Nat) (b : Byte) : (s.setRxByte off b).fstate = s.fstate := rfl
@[simp] theorem setRxByte_attempt (off : Nat) (b : Byte) : (s.setRxByte off b).attempt = s.attempt := rfl
@[simp] theorem setRxByte_arg0 (off : Nat) (b : Byte) : (s.setRxByte off b).arg0 = s.arg0 := rfl
@[simp] theorem setRxByte_arg1 (off : Nat) (b : Byte) : (s.setRxByte off b).arg1 = s.arg1 := rfl
@[simp] theorem setRxByte_arg2 (off : Nat) (b : Byte) : (s.setRxByte off b).arg2 = s.arg2 := rfl
@[simp] theorem setRxByte_arg3 (off : Nat) (b : Byte) : (s.setRxByte off b).arg3 = s.arg3 := rfl
@[simp] theorem setRxByte_res0 (off : Nat) (b : Byte) : (s.setRxByte off b).res0 = s.res0 := rfl
@[simp] theorem setRxByte_res1 (off : Nat) (b : Byte) : (s.setRxByte off b).res1 = s.res1 := rfl
@[simp] theorem setRxByte_lfsr (off : Nat) (b : Byte) : (s.setRxByte off b).lfsr = s.lfsr := rfl
@[simp] theorem setRxByte_version (off : Nat) (b : Byte) : (s.setRxByte off b).version = s.version := rfl
@[simp] theorem setRxByte_pktlen (off : Nat) (b : Byte) : (s.setRxByte off b).pktlen = s.pktlen := rfl
@[simp] theorem setRxByte_pktid (off : Nat) (b : Byte) : (s.setRxByte off b).pktid = s.pktid := rfl
@[simp] theorem setRxByte_cksum (off : Nat) (b : Byte) : (s.setRxByte off b).cksum = s.cksum := rfl
@[simp] theorem setRxByte_tag (off : Nat) (b : Byte) : (s.setRxByte off b).tag = s.tag := rfl
@[simp] theorem setRxByte_baud (off : Nat) (b : Byte) : (s.setRxByte off b).baud = s.baud := rfl
@[simp] theorem setRxByte_imgsize (off : Nat) (b : Byte) : (s.setRxByte off b).imgsize = s.imgsize := rfl
@[simp] theorem setRxByte_errinfo (off : Nat) (b : Byte) : (s.setRxByte off b).errinfo = s.errinfo := rfl
@[simp] theorem setRxByte_rxcnt (off : Nat) (b : Byte) : (s.setRxByte off b).rxcnt = s.rxcnt := rfl
@[simp] theorem setRxByte_phase (off : Nat) (b : Byte) : (s.setRxByte off b).phase = s.phase := rfl
@[simp] theorem setRxByte_img (off : Nat) (b : Byte) : (s.setRxByte off b).img = s.img := rfl
@[simp] theorem setRxByte_pkt (off : Nat) (b : Byte) : (s.setRxByte off b).pkt = s.pkt := rfl
@[simp] theorem setRxByte_rxb (off : Nat) (b : Byte) : (s.setRxByte off b).rxb = s.rxb.store off [b] := rfl
@[simp] theorem setRxByte_env (off : Nat) (b : Byte) : (s.setRxByte off b).env = s.env := rfl
@[simp] theorem setRxByte_calls (off : Nat) (b : Byte) : (s.setRxByte off b).calls = s.calls := rfl
@[simp] theorem setRxByte_hostq (off : Nat) (b : Byte) : (s.setRxByte off b).hostq = s.hostq := rfl
@[simp] theorem setRxByte_rdata (off : Nat) (b : Byte) : (s.setRxByte off b).rdata = s.rdata := rfl

/-! ### setRxCount -/

@[simp] theorem setRxCount_cfg (n : Nat) : (s.setRxCount n).cfg = s.cfg := rfl
@[simp] theorem setRxCount_cmd (n : Nat) : (s.setRxCount n).cmd = s.cmd := rfl
@[simp] theorem setRxCount_done (n : Nat) : (s.setRxCount n).done = s.done := rfl
@[simp] theorem setRxCount_err (n : Nat) : (s.setRxCount n).err = s.err := rfl
@[simp] theorem setRxCount_ovr (n : Nat) : (s.setRxCount n).ovr = s.ovr := rfl
@[simp] theorem setRxCount_ecode (n : Nat) : (s.setRxCount n).ecode = s.ecode := rfl
@[simp] theorem setRxCount_stage (n : Nat) : (s.setRxCount n).stage = s.stage := rfl
@[simp] theorem setRxCount_sstate (n : Nat) : (s.setRxCount n).sstate = s.sstate := rfl
@[simp] theorem setRxCount_fstate (n : Nat) : (s.setRxCount n).fstate = s.fstate := rfl
@[simp] theorem setRxCount_attempt (n : Nat) : (s.setRxCount n).attempt = s.attempt := rfl
@[simp] theorem setRxCount_arg0 (n : Nat) : (s.setRxCount n).arg0 = s.arg0 := rfl
@[simp] theorem setRxCount_arg1 (n : Nat) : (s.setRxCount n).arg1 = s.arg1 := rfl
@[simp] theorem setRxCount_arg2 (n : Nat) : (s.setRxCount n).arg2 = s.arg2 := rfl
@[simp] theorem setRxCount_arg3 (n : Nat) : (s.setRxCount n).arg3 = s.arg3 := rfl
@[simp] theorem setRxCount_res0 (n : Nat) : (s.setRxCount n).res0 = s.res0 := rfl
@[simp] theorem setRxCount_res1 (n : Nat) : (s.setRxCount n).res1 = s.res1 := rfl
@[simp] theorem setRxCount_lfsr (n : Nat) : (s.setRxCount n).lfsr = s.lfsr := rfl
@[simp] theorem setRxCount_version (n : Nat) : (s.setRxCount n).version = s.version := rfl
@[simp] theorem setRxCount_pktlen (n : Nat) : (s.setRxCount n).pktlen = s.pktlen := rfl
@[simp] theorem setRxCount_pktid (n : Nat) : (s.setRxCount n).pktid = s.pktid := rfl
@[simp] theorem setRxCount_cksum (n : Nat) : (s.setRxCount n).cksum = s.cksum := rfl
@[simp] theorem setRxCount_tag (n : Nat) : (s.setRxCount n).tag = s.tag := rfl
@[simp] theorem setRxCount_baud (n : Nat) : (s.setRxCount n).baud = s.baud := rfl
@[simp] theorem setRxCount_imgsize (n : Nat) : (s.setRxCount n).imgsize = s.imgsize := rfl
@[simp] theorem setRxCount_errinfo (n : Nat) : (s.setRxCount n).errinfo = s.errinfo := rfl
@[simp] theorem setRxCount_rxcnt (n : Nat) : (s.setRxCount n).rxcnt = BitVec.ofNat 32 n := rfl
@[simp] theorem setRxCount_phase (n : Nat) : (s.setRxCount n).phase = s.phase := rfl
@[simp] theorem setRxCount_img (n : Nat) : (s.setRxCount n).img = s.img := rfl
@[simp] theorem setRxCount_pkt (n : Nat) : (s.setRxCount n).pkt = s.pkt := rfl
@[simp] theorem setRxCount_rxb (n : Nat) : (s.setRxCount n).rxb = s.rxb := rfl
@[simp] theorem setRxCount_env (n : Nat) : (s.setRxCount n).env = s.env := rfl
@[simp] theorem setRxCount_calls (n : Nat) : (s.setRxCount n).calls = s.calls := rfl
@[simp] theorem setRxCount_hostq (n : Nat) : (s.setRxCount n).hostq = s.hostq := rfl
@[simp] theorem setRxCount_rdata (n : Nat) : (s.setRxCount n).rdata = s.rdata := rfl

/-! ### setAttempt -/

@[simp] theorem setAttempt_cfg (a : Nat) : (s.setAttempt a).cfg = s.cfg := rfl
@[simp] theorem setAttempt_cmd (a : Nat) : (s.setAttempt a).cmd = s.cmd := rfl
@[simp] theorem setAttempt_done (a : Nat) : (s.setAttempt a).done = s.done := rfl
@[simp] theorem setAttempt_err (a : Nat) : (s.setAttempt a).err = s.err := rfl
@[simp] theorem setAttempt_ovr (a : Nat) : (s.setAttempt a).ovr = s.ovr := rfl
@[simp] theorem setAttempt_ecode (a : Nat) : (s.setAttempt a).ecode = s.ecode := rfl
@[simp] theorem setAttempt_stage (a : Nat) : (s.setAttempt a).stage = s.stage := rfl
@[simp] theorem setAttempt_sstate (a : Nat) : (s.setAttempt a).sstate = s.sstate := rfl
@[simp] theorem setAttempt_fstate (a : Nat) : (s.setAttempt a).fstate = s.fstate := rfl
@[simp] theorem setAttempt_attempt (a : Nat) : (s.setAttempt a).attempt = BitVec.ofNat 2 a := rfl
@[simp] theorem setAttempt_arg0 (a : Nat) : (s.setAttempt a).arg0 = s.arg0 := rfl
@[simp] theorem setAttempt_arg1 (a : Nat) : (s.setAttempt a).arg1 = s.arg1 := rfl
@[simp] theorem setAttempt_arg2 (a : Nat) : (s.setAttempt a).arg2 = s.arg2 := rfl
@[simp] theorem setAttempt_arg3 (a : Nat) : (s.setAttempt a).arg3 = s.arg3 := rfl
@[simp] theorem setAttempt_res0 (a : Nat) : (s.setAttempt a).res0 = s.res0 := rfl
@[simp] theorem setAttempt_res1 (a : Nat) : (s.setAttempt a).res1 = s.res1 := rfl
@[simp] theorem setAttempt_lfsr (a : Nat) : (s.setAttempt a).lfsr = s.lfsr := rfl
@[simp] theorem setAttempt_version (a : Nat) : (s.setAttempt a).version = s.version := rfl
@[simp] theorem setAttempt_pktlen (a : Nat) : (s.setAttempt a).pktlen = s.pktlen := rfl
@[simp] theorem setAttempt_pktid (a : Nat) : (s.setAttempt a).pktid = s.pktid := rfl
@[simp] theorem setAttempt_cksum (a : Nat) : (s.setAttempt a).cksum = s.cksum := rfl
@[simp] theorem setAttempt_tag (a : Nat) : (s.setAttempt a).tag = s.tag := rfl
@[simp] theorem setAttempt_baud (a : Nat) : (s.setAttempt a).baud = s.baud := rfl
@[simp] theorem setAttempt_imgsize (a : Nat) : (s.setAttempt a).imgsize = s.imgsize := rfl
@[simp] theorem setAttempt_errinfo (a : Nat) : (s.setAttempt a).errinfo = s.errinfo := rfl
@[simp] theorem setAttempt_rxcnt (a : Nat) : (s.setAttempt a).rxcnt = s.rxcnt := rfl
@[simp] theorem setAttempt_phase (a : Nat) : (s.setAttempt a).phase = s.phase := rfl
@[simp] theorem setAttempt_img (a : Nat) : (s.setAttempt a).img = s.img := rfl
@[simp] theorem setAttempt_pkt (a : Nat) : (s.setAttempt a).pkt = s.pkt := rfl
@[simp] theorem setAttempt_rxb (a : Nat) : (s.setAttempt a).rxb = s.rxb := rfl
@[simp] theorem setAttempt_env (a : Nat) : (s.setAttempt a).env = s.env := rfl
@[simp] theorem setAttempt_calls (a : Nat) : (s.setAttempt a).calls = s.calls := rfl
@[simp] theorem setAttempt_hostq (a : Nat) : (s.setAttempt a).hostq = s.hostq := rfl
@[simp] theorem setAttempt_rdata (a : Nat) : (s.setAttempt a).rdata = s.rdata := rfl

/-! ### setVersion -/

@[simp] theorem setVersion_cfg (v : Byte) : (s.setVersion v).cfg = s.cfg := rfl
@[simp] theorem setVersion_cmd (v : Byte) : (s.setVersion v).cmd = s.cmd := rfl
@[simp] theorem setVersion_done (v : Byte) : (s.setVersion v).done = s.done := rfl
@[simp] theorem setVersion_err (v : Byte) : (s.setVersion v).err = s.err := rfl
@[simp] theorem setVersion_ovr (v : Byte) : (s.setVersion v).ovr = s.ovr := rfl
@[simp] theorem setVersion_ecode (v : Byte) : (s.setVersion v).ecode = s.ecode := rfl
@[simp] theorem setVersion_stage (v : Byte) : (s.setVersion v).stage = s.stage := rfl
@[simp] theorem setVersion_sstate (v : Byte) : (s.setVersion v).sstate = s.sstate := rfl
@[simp] theorem setVersion_fstate (v : Byte) : (s.setVersion v).fstate = s.fstate := rfl
@[simp] theorem setVersion_attempt (v : Byte) : (s.setVersion v).attempt = s.attempt := rfl
@[simp] theorem setVersion_arg0 (v : Byte) : (s.setVersion v).arg0 = s.arg0 := rfl
@[simp] theorem setVersion_arg1 (v : Byte) : (s.setVersion v).arg1 = s.arg1 := rfl
@[simp] theorem setVersion_arg2 (v : Byte) : (s.setVersion v).arg2 = s.arg2 := rfl
@[simp] theorem setVersion_arg3 (v : Byte) : (s.setVersion v).arg3 = s.arg3 := rfl
@[simp] theorem setVersion_res0 (v : Byte) : (s.setVersion v).res0 = s.res0 := rfl
@[simp] theorem setVersion_res1 (v : Byte) : (s.setVersion v).res1 = s.res1 := rfl
@[simp] theorem setVersion_lfsr (v : Byte) : (s.setVersion v).lfsr = s.lfsr := rfl
@[simp] theorem setVersion_version (v : Byte) : (s.setVersion v).version = v := rfl
@[simp] theorem setVersion_pktlen (v : Byte) : (s.setVersion v).pktlen = s.pktlen := rfl
@[simp] theorem setVersion_pktid (v : Byte) : (s.setVersion v).pktid = s.pktid := rfl
@[simp] theorem setVersion_cksum (v : Byte) : (s.setVersion v).cksum = s.cksum := rfl
@[simp] theorem setVersion_tag (v : Byte) : (s.setVersion v).tag = s.tag := rfl
@[simp] theorem setVersion_baud (v : Byte) : (s.setVersion v).baud = s.baud := rfl
@[simp] theorem setVersion_imgsize (v : Byte) : (s.setVersion v).imgsize = s.imgsize := rfl
@[simp] theorem setVersion_errinfo (v : Byte) : (s.setVersion v).errinfo = s.errinfo := rfl
@[simp] theorem setVersion_rxcnt (v : Byte) : (s.setVersion v).rxcnt = s.rxcnt := rfl
@[simp] theorem setVersion_phase (v : Byte) : (s.setVersion v).phase = s.phase := rfl
@[simp] theorem setVersion_img (v : Byte) : (s.setVersion v).img = s.img := rfl
@[simp] theorem setVersion_pkt (v : Byte) : (s.setVersion v).pkt = s.pkt := rfl
@[simp] theorem setVersion_rxb (v : Byte) : (s.setVersion v).rxb = s.rxb := rfl
@[simp] theorem setVersion_env (v : Byte) : (s.setVersion v).env = s.env := rfl
@[simp] theorem setVersion_calls (v : Byte) : (s.setVersion v).calls = s.calls := rfl
@[simp] theorem setVersion_hostq (v : Byte) : (s.setVersion v).hostq = s.hostq := rfl
@[simp] theorem setVersion_rdata (v : Byte) : (s.setVersion v).rdata = s.rdata := rfl

/-! ### drawTag -/

@[simp] theorem drawTag_cfg : s.drawTag.cfg = s.cfg := rfl
@[simp] theorem drawTag_cmd : s.drawTag.cmd = s.cmd := rfl
@[simp] theorem drawTag_done : s.drawTag.done = s.done := rfl
@[simp] theorem drawTag_err : s.drawTag.err = s.err := rfl
@[simp] theorem drawTag_ovr : s.drawTag.ovr = s.ovr := rfl
@[simp] theorem drawTag_ecode : s.drawTag.ecode = s.ecode := rfl
@[simp] theorem drawTag_stage : s.drawTag.stage = s.stage := rfl
@[simp] theorem drawTag_sstate : s.drawTag.sstate = s.sstate := rfl
@[simp] theorem drawTag_fstate : s.drawTag.fstate = s.fstate := rfl
@[simp] theorem drawTag_attempt : s.drawTag.attempt = s.attempt := rfl
@[simp] theorem drawTag_arg0 : s.drawTag.arg0 = s.arg0 := rfl
@[simp] theorem drawTag_arg1 : s.drawTag.arg1 = s.arg1 := rfl
@[simp] theorem drawTag_arg2 : s.drawTag.arg2 = s.arg2 := rfl
@[simp] theorem drawTag_arg3 : s.drawTag.arg3 = s.arg3 := rfl
@[simp] theorem drawTag_res0 : s.drawTag.res0 = s.res0 := rfl
@[simp] theorem drawTag_res1 : s.drawTag.res1 = s.res1 := rfl
@[simp] theorem drawTag_lfsr : s.drawTag.lfsr = s.lfsr := rfl
@[simp] theorem drawTag_version : s.drawTag.version = s.version := rfl
@[simp] theorem drawTag_pktlen : s.drawTag.pktlen = s.pktlen := rfl
@[simp] theorem drawTag_pktid : s.drawTag.pktid = s.pktid := rfl
@[simp] theorem drawTag_cksum : s.drawTag.cksum = s.cksum := rfl
@[simp] theorem drawTag_tag : s.drawTag.tag = s.env.nextTag := rfl
@[simp] theorem drawTag_baud : s.drawTag.baud = s.baud := rfl
@[simp] theorem drawTag_imgsize : s.drawTag.imgsize = s.imgsize := rfl
@[simp] theorem drawTag_errinfo : s.drawTag.errinfo = s.errinfo := rfl
@[simp] theorem drawTag_rxcnt : s.drawTag.rxcnt = s.rxcnt := rfl
@[simp] theorem drawTag_phase : s.drawTag.phase = s.phase := rfl
@[simp] theorem drawTag_img : s.drawTag.img = s.img := rfl
@[simp] theorem drawTag_pkt : s.drawTag.pkt = s.pkt := rfl
@[simp] theorem drawTag_rxb : s.drawTag.rxb = s.rxb := rfl
@[simp] theorem drawTag_env : s.drawTag.env = s.env.afterTag := rfl
@[simp] theorem drawTag_calls : s.drawTag.calls = s.calls := rfl
@[simp] theorem drawTag_hostq : s.drawTag.hostq = s.hostq := rfl
@[simp] theorem drawTag_rdata : s.drawTag.rdata = s.rdata := rfl

/-! ### putPkt -/

@[simp] theorem putPkt_cfg (l : List Byte) : (s.putPkt l).cfg = s.cfg := rfl
@[simp] theorem putPkt_cmd (l : List Byte) : (s.putPkt l).cmd = s.cmd := rfl
@[simp] theorem putPkt_done (l : List Byte) : (s.putPkt l).done = s.done := rfl
@[simp] theorem putPkt_err (l : List Byte) : (s.putPkt l).err = s.err := rfl
@[simp] theorem putPkt_ovr (l : List Byte) : (s.putPkt l).ovr = s.ovr := rfl
@[simp] theorem putPkt_ecode (l : List Byte) : (s.putPkt l).ecode = s.ecode := rfl
@[simp] theorem putPkt_stage (l : List Byte) : (s.putPkt l).stage = s.stage := rfl
@[simp] theorem putPkt_sstate (l : List Byte) : (s.putPkt l).sstate = s.sstate := rfl
@[simp] theorem putPkt_fstate (l : List Byte) : (s.putPkt l).fstate = s.fstate := rfl
@[simp] theorem putPkt_attempt (l : List Byte) : (s.putPkt l).attempt = s.attempt := rfl
@[simp] theorem putPkt_arg0 (l : List Byte) : (s.putPkt l).arg0 = s.arg0 := rfl
@[simp] theorem putPkt_arg1 (l : List Byte) : (s.putPkt l).arg1 = s.arg1 := rfl
@[simp] theorem putPkt_arg2 (l : List Byte) : (s.putPkt l).arg2 = s.arg2 := rfl
@[simp] theorem putPkt_arg3 (l : List Byte) : (s.putPkt l).arg3 = s.arg3 := rfl
@[simp] theorem putPkt_res0 (l : List Byte) : (s.putPkt l).res0 = s.res0 := rfl
@[simp] theorem putPkt_res1 (l : List Byte) : (s.putPkt l).res1 = s.res1 := rfl
@[simp] theorem putPkt_lfsr (l : List Byte) : (s.putPkt l).lfsr = s.lfsr := rfl
@[simp] theorem putPkt_version (l : List Byte) : (s.putPkt l).version = s.version := rfl
@[simp] theorem putPkt_pktlen (l : List Byte) : (s.putPkt l).pktlen = s.pktlen + BitVec.ofNat 32 l.length := rfl
@[simp] theorem putPkt_pktid (l : List Byte) : (s.putPkt l).pktid = s.pktid := rfl
@[simp] theorem putPkt_cksum (l : List Byte) : (s.putPkt l).cksum = s.cksum := rfl
@[simp] theorem putPkt_tag (l : List Byte) : (s.putPkt l).tag = s.tag := rfl
@[simp] theorem putPkt_baud (l : List Byte) : (s.putPkt l).baud = s.baud := rfl
@[simp] theorem putPkt_imgsize (l : List Byte) : (s.putPkt l).imgsize = s.imgsize := rfl
@[simp] theorem putPkt_errinfo (l : List Byte) : (s.putPkt l).errinfo = s.errinfo := rfl
@[simp] theorem putPkt_rxcnt (l : List Byte) : (s.putPkt l).rxcnt = s.rxcnt := rfl
@[simp] theorem putPkt_phase (l : List Byte) : (s.putPkt l).phase = s.phase := rfl
@[simp] theorem putPkt_img (l : List Byte) : (s.putPkt l).img = s.img := rfl
@[simp] theorem putPkt_pkt (l : List Byte) : (s.putPkt l).pkt = s.pkt.store s.pktlen.toNat l := rfl
@[simp] theorem putPkt_rxb (l : List Byte) : (s.putPkt l).rxb = s.rxb := rfl
@[simp] theorem putPkt_env (l : List Byte) : (s.putPkt l).env = s.env := rfl
@[simp] theorem putPkt_calls (l : List Byte) : (s.putPkt l).calls = s.calls := rfl
@[simp] theorem putPkt_hostq (l : List Byte) : (s.putPkt l).hostq = s.hostq := rfl
@[simp] theorem putPkt_rdata (l : List Byte) : (s.putPkt l).rdata = s.rdata := rfl

/-! ### push -/

@[simp] theorem push_cfg (l : List Act) : (s.push l).cfg = s.cfg := rfl
@[simp] theorem push_cmd (l : List Act) : (s.push l).cmd = s.cmd := rfl
@[simp] theorem push_done (l : List Act) : (s.push l).done = s.done := rfl
@[simp] theorem push_err (l : List Act) : (s.push l).err = s.err := rfl
@[simp] theorem push_ovr (l : List Act) : (s.push l).ovr = s.ovr := rfl
@[simp] theorem push_ecode (l : List Act) : (s.push l).ecode = s.ecode := rfl
@[simp] theorem push_stage (l : List Act) : (s.push l).stage = s.stage := rfl
@[simp] theorem push_sstate (l : List Act) : (s.push l).sstate = s.sstate := rfl
@[simp] theorem push_fstate (l : List Act) : (s.push l).fstate = s.fstate := rfl
@[simp] theorem push_attempt (l : List Act) : (s.push l).attempt = s.attempt := rfl
@[simp] theorem push_arg0 (l : List Act) : (s.push l).arg0 = s.arg0 := rfl
@[simp] theorem push_arg1 (l : List Act) : (s.push l).arg1 = s.arg1 := rfl
@[simp] theorem push_arg2 (l : List Act) : (s.push l).arg2 = s.arg2 := rfl
@[simp] theorem push_arg3 (l : List Act) : (s.push l).arg3 = s.arg3 := rfl
@[simp] theorem push_res0 (l : List Act) : (s.push l).res0 = s.res0 := rfl
@[simp] theorem push_res1 (l : List Act) : (s.push l).res1 = s.res1 := rfl
@[simp] theorem push_lfsr (l : List Act) : (s.push l).lfsr = s.lfsr := rfl
@[simp] theorem push_version (l : List Act) : (s.push l).version = s.version := rfl
@[simp] theorem push_pktlen (l : List Act) : (s.push l).pktlen = s.pktlen := rfl
@[simp] theorem push_pktid (l : List Act) : (s.push l).pktid = s.pktid := rfl
@[simp] theorem push_cksum (l : List Act) : (s.push l).cksum = s.cksum := rfl
@[simp] theorem push_tag (l : List Act) : (s.push l).tag = s.tag := rfl
@[simp] theorem push_baud (l : List Act) : (s.push l).baud = s.baud := rfl
@[simp] theorem push_imgsize (l : List Act) : (s.push l).imgsize = s.imgsize := rfl
@[simp] theorem push_errinfo (l : List Act) : (s.push l).errinfo = s.errinfo := rfl
@[simp] theorem push_rxcnt (l : List Act) : (s.push l).rxcnt = s.rxcnt := rfl
@[simp] theorem push_img (l : List Act) : (s.push l).img = s.img := rfl
@[simp] theorem push_pkt (l : List Act) : (s.push l).pkt = s.pkt := rfl
@[simp] theorem push_rxb (l : List Act) : (s.push l).rxb = s.rxb := rfl
@[simp] theorem push_env (l : List Act) : (s.push l).env = s.env := rfl
@[simp] theorem push_calls (l : List Act) : (s.push l).calls = s.calls := rfl
@[simp] theorem push_hostq (l : List Act) : (s.push l).hostq = s.hostq := rfl
@[simp] theorem push_rdata (l : List Act) : (s.push l).rdata = s.rdata := rfl

/-! ### setRet -/

@[simp] theorem setRet_cfg (v : Word) : (s.setRet v).cfg = s.cfg := rfl
@[simp] theorem setRet_cmd (v : Word) : (s.setRet v).cmd = s.cmd := rfl
@[simp] theorem setRet_done (v : Word) : (s.setRet v).done = s.done := rfl
@[simp] theorem setRet_err (v : Word) : (s.setRet v).err = s.err := rfl
@[simp] theorem setRet_ovr (v : Word) : (s.setRet v).ovr = s.ovr := rfl
@[simp] theorem setRet_ecode (v : Word) : (s.setRet v).ecode = s.ecode := rfl
@[simp] theorem setRet_stage (v : Word) : (s.setRet v).stage = s.stage := rfl
@[simp] theorem setRet_sstate (v : Word) : (s.setRet v).sstate = s.sstate := rfl
@[simp] theorem setRet_fstate (v : Word) : (s.setRet v).fstate = s.fstate := rfl
@[simp] theorem setRet_attempt (v : Word) : (s.setRet v).attempt = s.attempt := rfl
@[simp] theorem setRet_arg0 (v : Word) : (s.setRet v).arg0 = s.arg0 := rfl
@[simp] theorem setRet_arg1 (v : Word) : (s.setRet v).arg1 = s.arg1 := rfl
@[simp] theorem setRet_arg2 (v : Word) : (s.setRet v).arg2 = s.arg2 := rfl
@[simp] theorem setRet_arg3 (v : Word) : (s.setRet v).arg3 = s.arg3 := rfl
@[simp] theorem setRet_res0 (v : Word) : (s.setRet v).res0 = s.res0 := rfl
@[simp] theorem setRet_res1 (v : Word) : (s.setRet v).res1 = s.res1 := rfl
@[simp] theorem setRet_lfsr (v : Word) : (s.setRet v).lfsr = s.lfsr := rfl
@[simp] theorem setRet_version (v : Word) : (s.setRet v).version = s.version := rfl
@[simp] theorem setRet_pktlen (v : Word) : (s.setRet v).pktlen = s.pktlen := rfl
@[simp] theorem setRet_pktid (v : Word) : (s.setRet v).pktid = s.pktid := rfl
@[simp] theorem setRet_cksum (v : Word) : (s.setRet v).cksum = s.cksum := rfl
@[simp] theorem setRet_tag (v : Word) : (s.setRet v).tag = s.tag := rfl
@[simp] theorem setRet_baud (v : Word) : (s.setRet v).baud = s.baud := rfl
@[simp] theorem setRet_imgsize (v : Word) : (s.setRet v).imgsize = s.imgsize := rfl
@[simp] theorem setRet_errinfo (v : Word) : (s.setRet v).errinfo = s.errinfo := rfl
@[simp] theorem setRet_rxcnt (v : Word) : (s.setRet v).rxcnt = s.rxcnt := rfl
@[simp] theorem setRet_img (v : Word) : (s.setRet v).img = s.img := rfl
@[simp] theorem setRet_pkt (v : Word) : (s.setRet v).pkt = s.pkt := rfl
@[simp] theorem setRet_rxb (v : Word) : (s.setRet v).rxb = s.rxb := rfl
@[simp] theorem setRet_env (v : Word) : (s.setRet v).env = s.env := rfl
@[simp] theorem setRet_calls (v : Word) : (s.setRet v).calls = s.calls := rfl
@[simp] theorem setRet_hostq (v : Word) : (s.setRet v).hostq = s.hostq := rfl
@[simp] theorem setRet_rdata (v : Word) : (s.setRet v).rdata = s.rdata := rfl

/-! ### start -/

@[simp] theorem start_cfg (i : Instr) (l : List Act) : (s.start i l).cfg = s.cfg := rfl
@[simp] theorem start_cmd (i : Instr) (l : List Act) : (s.start i l).cmd = s.cmd := rfl
@[simp] theorem start_ovr (i : Instr) (l : List Act) : (s.start i l).ovr = s.ovr := rfl
@[simp] theorem start_sstate (i : Instr) (l : List Act) : (s.start i l).sstate = s.sstate := rfl
@[simp] theorem start_fstate (i : Instr) (l : List Act) : (s.start i l).fstate = s.fstate := rfl
@[simp] theorem start_attempt (i : Instr) (l : List Act) : (s.start i l).attempt = s.attempt := rfl
@[simp] theorem start_arg0 (i : Instr) (l : List Act) : (s.start i l).arg0 = s.arg0 := rfl
@[simp] theorem start_arg1 (i : Instr) (l : List Act) : (s.start i l).arg1 = s.arg1 := rfl
@[simp] theorem start_arg2 (i : Instr) (l : List Act) : (s.start i l).arg2 = s.arg2 := rfl
@[simp] theorem start_arg3 (i : Instr) (l : List Act) : (s.start i l).arg3 = s.arg3 := rfl
@[simp] theorem start_res0 (i : Instr) (l : List Act) : (s.start i l).res0 = s.res0 := rfl
@[simp] theorem start_res1 (i : Instr) (l : List Act) : (s.start i l).res1 = s.res1 := rfl
@[simp] theorem start_lfsr (i : Instr) (l : List Act) : (s.start i l).lfsr = s.lfsr := rfl
@[simp] theorem start_version (i : Instr) (l : List Act) : (s.start i l).version = s.version := rfl
@[simp] theorem start_pktlen (i : Instr) (l : List Act) : (s.start i l).pktlen = s.pktlen := rfl
@[simp] theorem start_pktid (i : Instr) (l : List Act) : (s.start i l).pktid = s.pktid := rfl
@[simp] theorem start_cksum (i : Instr) (l : List Act) : (s.start i l).cksum = s.cksum := rfl
@[simp] theorem start_tag (i : Instr) (l : List Act) : (s.start i l).tag = s.tag := rfl
@[simp] theorem start_baud (i : Instr) (l : List Act) : (s.start i l).baud = s.baud := rfl
@[simp] theorem start_imgsize (i : Instr) (l : List Act) : (s.start i l).imgsize = s.imgsize := rfl
@[simp] theorem start_errinfo (i : Instr) (l : List Act) : (s.start i l).errinfo = s.errinfo := rfl
@[simp] theorem start_rxcnt (i : Instr) (l : List Act) : (s.start i l).rxcnt = s.rxcnt := rfl
@[simp] theorem start_img (i : Instr) (l : List Act) : (s.start i l).img = s.img := rfl
@[simp] theorem start_pkt (i : Instr) (l : List Act) : (s.start i l).pkt = s.pkt := rfl
@[simp] theorem start_rxb (i : Instr) (l : List Act) : (s.start i l).rxb = s.rxb := rfl
@[simp] theorem start_env (i : Instr) (l : List Act) : (s.start i l).env = s.env := rfl
@[simp] theorem start_calls (i : Instr) (l : List Act) : (s.start i l).calls = s.calls := rfl
@[simp] theorem start_hostq (i : Instr) (l : List Act) : (s.start i l).hostq = s.hostq := rfl
@[simp] theorem start_rdata (i : Instr) (l : List Act) : (s.start i l).rdata = s.rdata := rfl

/-! ### finish -/

@[simp] theorem finish_cfg : (s.finish).cfg = s.cfg := rfl
@[simp] theorem finish_cmd : (s.finish).cmd = s.cmd := rfl
@[simp] theorem finish_err : (s.finish).err = s.err := rfl
@[simp] theorem finish_ovr : (s.finish).ovr = s.ovr := rfl
@[simp] theorem finish_ecode : (s.finish).ecode = s.ecode := rfl
@[simp] theorem finish_stage : (s.finish).stage = s.stage := rfl
@[simp] theorem finish_sstate : (s.finish).sstate = s.sstate := rfl
@[simp] theorem finish_fstate : (s.finish).fstate = s.fstate := rfl
@[simp] theorem finish_attempt : (s.finish).attempt = s.attempt := rfl
@[simp] theorem finish_arg0 : (s.finish).arg0 = s.arg0 := rfl
@[simp] theorem finish_arg1 : (s.finish).arg1 = s.arg1 := rfl
@[simp] theorem finish_arg2 : (s.finish).arg2 = s.arg2 := rfl
@[simp] theorem finish_arg3 : (s.finish).arg3 = s.arg3 := rfl
@[simp] theorem finish_res0 : (s.finish).res0 = s.res0 := rfl
@[simp] theorem finish_res1 : (s.finish).res1 = s.res1 := rfl
@[simp] theorem finish_lfsr : (s.finish).lfsr = s.lfsr := rfl
@[simp] theorem finish_version : (s.finish).version = s.version := rfl
@[simp] theorem finish_pktlen : (s.finish).pktlen = s.pktlen := rfl
@[simp] theorem finish_pktid : (s.finish).pktid = s.pktid := rfl
@[simp] theorem finish_cksum : (s.finish).cksum = s.cksum := rfl
@[simp] theorem finish_tag : (s.finish).tag = s.tag := rfl
@[simp] theorem finish_baud : (s.finish).baud = s.baud := rfl
@[simp] theorem finish_imgsize : (s.finish).imgsize = s.imgsize := rfl
@[simp] theorem finish_errinfo : (s.finish).errinfo = s.errinfo := rfl
@[simp] theorem finish_rxcnt : (s.finish).rxcnt = s.rxcnt := rfl
@[simp] theorem finish_img : (s.finish).img = s.img := rfl
@[simp] theorem finish_pkt : (s.finish).pkt = s.pkt := rfl
@[simp] theorem finish_rxb : (s.finish).rxb = s.rxb := rfl
@[simp] theorem finish_env : (s.finish).env = s.env := rfl
@[simp] theorem finish_calls : (s.finish).calls = s.calls := rfl
@[simp] theorem finish_hostq : (s.finish).hostq = s.hostq := rfl
@[simp] theorem finish_rdata : (s.finish).rdata = s.rdata := rfl

/-! ### report -/

@[simp] theorem report_cfg (c : ErrCode) (st : Stage) (info : Word) : (s.report c st info).cfg = s.cfg := rfl
@[simp] theorem report_cmd (c : ErrCode) (st : Stage) (info : Word) : (s.report c st info).cmd = s.cmd := rfl
@[simp] theorem report_ovr (c : ErrCode) (st : Stage) (info : Word) : (s.report c st info).ovr = s.ovr := rfl
@[simp] theorem report_sstate (c : ErrCode) (st : Stage) (info : Word) : (s.report c st info).sstate = s.sstate := rfl
@[simp] theorem report_fstate (c : ErrCode) (st : Stage) (info : Word) : (s.report c st info).fstate = s.fstate := rfl
@[simp] theorem report_attempt (c : ErrCode) (st : Stage) (info : Word) : (s.report c st info).attempt = s.attempt := rfl
@[simp] theorem report_arg0 (c : ErrCode) (st : Stage) (info : Word) : (s.report c st info).arg0 = s.arg0 := rfl
@[simp] theorem report_arg1 (c : ErrCode) (st : Stage) (info : Word) : (s.report c st info).arg1 = s.arg1 := rfl
@[simp] theorem report_arg2 (c : ErrCode) (st : Stage) (info : Word) : (s.report c st info).arg2 = s.arg2 := rfl
@[simp] theorem report_arg3 (c : ErrCode) (st : Stage) (info : Word) : (s.report c st info).arg3 = s.arg3 := rfl
@[simp] theorem report_res0 (c : ErrCode) (st : Stage) (info : Word) : (s.report c st info).res0 = s.res0 := rfl
@[simp] theorem report_res1 (c : ErrCode) (st : Stage) (info : Word) : (s.report c st info).res1 = s.res1 := rfl
@[simp] theorem report_lfsr (c : ErrCode) (st : Stage) (info : Word) : (s.report c st info).lfsr = s.lfsr := rfl
@[simp] theorem report_version (c : ErrCode) (st : Stage) (info : Word) : (s.report c st info).version = s.version := rfl
@[simp] theorem report_pktlen (c : ErrCode) (st : Stage) (info : Word) : (s.report c st info).pktlen = s.pktlen := rfl
@[simp] theorem report_pktid (c : ErrCode) (st : Stage) (info : Word) : (s.report c st info).pktid = s.pktid := rfl
@[simp] theorem report_cksum (c : ErrCode) (st : Stage) (info : Word) : (s.report c st info).cksum = s.cksum := rfl
@[simp] theorem report_tag (c : ErrCode) (st : Stage) (info : Word) : (s.report c st info).tag = s.tag := rfl
@[simp] theorem report_baud (c : ErrCode) (st : Stage) (info : Word) : (s.report c st info).baud = s.baud := rfl
@[simp] theorem report_imgsize (c : ErrCode) (st : Stage) (info : Word) : (s.report c st info).imgsize = s.imgsize := rfl
@[simp] theorem report_rxcnt (c : ErrCode) (st : Stage) (info : Word) : (s.report c st info).rxcnt = s.rxcnt := rfl
@[simp] theorem report_img (c : ErrCode) (st : Stage) (info : Word) : (s.report c st info).img = s.img := rfl
@[simp] theorem report_pkt (c : ErrCode) (st : Stage) (info : Word) : (s.report c st info).pkt = s.pkt := rfl
@[simp] theorem report_rxb (c : ErrCode) (st : Stage) (info : Word) : (s.report c st info).rxb = s.rxb := rfl
@[simp] theorem report_env (c : ErrCode) (st : Stage) (info : Word) : (s.report c st info).env = s.env := rfl
@[simp] theorem report_calls (c : ErrCode) (st : Stage) (info : Word) : (s.report c st info).calls = s.calls := rfl
@[simp] theorem report_hostq (c : ErrCode) (st : Stage) (info : Word) : (s.report c st info).hostq = s.hostq := rfl
@[simp] theorem report_rdata (c : ErrCode) (st : Stage) (info : Word) : (s.report c st info).rdata = s.rdata := rfl

/-! ### call -/

@[simp] theorem call_cfg (c : ConnCall) : (s.call c).cfg = s.cfg := rfl
@[simp] theorem call_cmd (c : ConnCall) : (s.call c).cmd = s.cmd := rfl
@[simp] theorem call_done (c : ConnCall) : (s.call c).done = s.done := rfl
@[simp] theorem call_err (c : ConnCall) : (s.call c).err = s.err := rfl
@[simp] theorem call_ovr (c : ConnCall) : (s.call c).ovr = s.ovr := rfl
@[simp] theorem call_ecode (c : ConnCall) : (s.call c).ecode = s.ecode := rfl
@[simp] theorem call_stage (c : ConnCall) : (s.call c).stage = s.stage := rfl
@[simp] theorem call_sstate (c : ConnCall) : (s.call c).sstate = s.sstate := rfl
@[simp] theorem call_fstate (c : ConnCall) : (s.call c).fstate = s.fstate := rfl
@[simp] theorem call_attempt (c : ConnCall) : (s.call c).attempt = s.attempt := rfl
@[simp] theorem call_arg0 (c : ConnCall) : (s.call c).arg0 = s.arg0 := rfl
@[simp] theorem call_arg1 (c : ConnCall) : (s.call c).arg1 = s.arg1 := rfl
@[simp] theorem call_arg2 (c : ConnCall) : (s.call c).arg2 = s.arg2 := rfl
@[simp] theorem call_arg3 (c : ConnCall) : (s.call c).arg3 = s.arg3 := rfl
@[simp] theorem call_res0 (c : ConnCall) : (s.call c).res0 = s.res0 := rfl
@[simp] theorem call_res1 (c : ConnCall) : (s.call c).res1 = s.res1 := rfl
@[simp] theorem call_lfsr (c : ConnCall) : (s.call c).lfsr = s.lfsr := rfl
@[simp] theorem call_version (c : ConnCall) : (s.call c).version = s.version := rfl
@[simp] theorem call_pktlen (c : ConnCall) : (s.call c).pktlen = s.pktlen := rfl
@[simp] theorem call_pktid (c : ConnCall) : (s.call c).pktid = s.pktid := rfl
@[simp] theorem call_cksum (c : ConnCall) : (s.call c).cksum = s.cksum := rfl
@[simp] theorem call_tag (c : ConnCall) : (s.call c).tag = s.tag := rfl
@[simp] theorem call_baud (c : ConnCall) : (s.call c).baud = s.baud := rfl
@[simp] theorem call_imgsize (c : ConnCall) : (s.call c).imgsize = s.imgsize := rfl
@[simp] theorem call_errinfo (c : ConnCall) : (s.call c).errinfo = s.errinfo := rfl
@[simp] theorem call_rxcnt (c : ConnCall) : (s.call c).rxcnt = s.rxcnt := rfl
@[simp] theorem call_phase (c : ConnCall) : (s.call c).phase = s.phase := rfl
@[simp] theorem call_img (c : ConnCall) : (s.call c).img = s.img := rfl
@[simp] theorem call_pkt (c : ConnCall) : (s.call c).pkt = s.pkt := rfl
@[simp] theorem call_rxb (c : ConnCall) : (s.call c).rxb = s.rxb := rfl
@[simp] theorem call_env (c : ConnCall) : (s.call c).env = s.env := rfl
@[simp] theorem call_hostq (c : ConnCall) : (s.call c).hostq = s.hostq := rfl
@[simp] theorem call_rdata (c : ConnCall) : (s.call c).rdata = s.rdata := rfl

/-! ### tick -/

@[simp] theorem tick_cfg : (s.tick).cfg = s.cfg := rfl
@[simp] theorem tick_cmd : (s.tick).cmd = s.cmd := rfl
@[simp] theorem tick_done : (s.tick).done = s.done := rfl
@[simp] theorem tick_err : (s.tick).err = s.err := rfl
@[simp] theorem tick_ovr : (s.tick).ovr = s.ovr := rfl
@[simp] theorem tick_ecode : (s.tick).ecode = s.ecode := rfl
@[simp] theorem tick_stage : (s.tick).stage = s.stage := rfl
@[simp] theorem tick_sstate : (s.tick).sstate = s.sstate := rfl
@[simp] theorem tick_fstate : (s.tick).fstate = s.fstate := rfl
@[simp] theorem tick_attempt : (s.tick).attempt = s.attempt := rfl
@[simp] theorem tick_arg0 : (s.tick).arg0 = s.arg0 := rfl
@[simp] theorem tick_arg1 : (s.tick).arg1 = s.arg1 := rfl
@[simp] theorem tick_arg2 : (s.tick).arg2 = s.arg2 := rfl
@[simp] theorem tick_arg3 : (s.tick).arg3 = s.arg3 := rfl
@[simp] theorem tick_res0 : (s.tick).res0 = s.res0 := rfl
@[simp] theorem tick_res1 : (s.tick).res1 = s.res1 := rfl
@[simp] theorem tick_lfsr : (s.tick).lfsr = s.lfsr := rfl
@[simp] theorem tick_version : (s.tick).version = s.version := rfl
@[simp] theorem tick_pktlen : (s.tick).pktlen = s.pktlen := rfl
@[simp] theorem tick_pktid : (s.tick).pktid = s.pktid := rfl
@[simp] theorem tick_cksum : (s.tick).cksum = s.cksum := rfl
@[simp] theorem tick_tag : (s.tick).tag = s.tag := rfl
@[simp] theorem tick_baud : (s.tick).baud = s.baud := rfl
@[simp] theorem tick_imgsize : (s.tick).imgsize = s.imgsize := rfl
@[simp] theorem tick_errinfo : (s.tick).errinfo = s.errinfo := rfl
@[simp] theorem tick_rxcnt : (s.tick).rxcnt = s.rxcnt := rfl
@[simp] theorem tick_phase : (s.tick).phase = s.phase := rfl
@[simp] theorem tick_img : (s.tick).img = s.img := rfl
@[simp] theorem tick_pkt : (s.tick).pkt = s.pkt := rfl
@[simp] theorem tick_rxb : (s.tick).rxb = s.rxb := rfl
@[simp] theorem tick_env : (s.tick).env = s.env := rfl
@[simp] theorem tick_calls : (s.tick).calls = s.calls := rfl
@[simp] theorem tick_rdata : (s.tick).rdata = s.rdata := rfl

/-! ### What they set -/

@[simp] theorem start_phase (i : Instr) (l : List Act) : (s.start i l).phase = .exec i 0#32 l := rfl
@[simp] theorem start_done (i : Instr) (l : List Act) : (s.start i l).done = false := rfl
@[simp] theorem start_err (i : Instr) (l : List Act) : (s.start i l).err = false := rfl
@[simp] theorem start_ecode (i : Instr) (l : List Act) : (s.start i l).ecode = .none := rfl
@[simp] theorem start_stage (i : Instr) (l : List Act) : (s.start i l).stage = .none := rfl
@[simp] theorem finish_phase : s.finish.phase = .idle := rfl
@[simp] theorem finish_done : s.finish.done = true := rfl
@[simp] theorem report_phase (c : ErrCode) (st : Stage) (v : Word) : (s.report c st v).phase = .idle := rfl
@[simp] theorem report_done (c : ErrCode) (st : Stage) (v : Word) : (s.report c st v).done = true := rfl
@[simp] theorem report_err (c : ErrCode) (st : Stage) (v : Word) : (s.report c st v).err = true := rfl
@[simp] theorem report_ecode (c : ErrCode) (st : Stage) (v : Word) : (s.report c st v).ecode = c := rfl
@[simp] theorem report_stage (c : ErrCode) (st : Stage) (v : Word) : (s.report c st v).stage = st := rfl
@[simp] theorem report_errinfo (c : ErrCode) (st : Stage) (v : Word) : (s.report c st v).errinfo = v := rfl
@[simp] theorem call_calls (c : ConnCall) : (s.call c).calls = s.calls ++ [c] := rfl

/-! ### raise: only STATUS, ERRINFO and the phase change (R285) -/

theorem markFast_eq (i : Instr) :
    s.markFast i = s ∨ s.markFast i = s.setFState .failed := by
  unfold markFast; split <;> simp

/-- What `raise` can do: report the error with SSTATE and FSTATE as they were or Failed, or restart SlowLoad. -/
theorem raise_cases (c : ErrCode) (st : Stage) (info : Word) :
    (∃ q f, s.raise c st info = ((s.setSState q).setFState f).report c st info ∧
      (q = s.sstate ∨ q = .failed) ∧ (f = s.fstate ∨ f = .failed)) ∨
    (∃ ret todo a after, s.phase = .exec .fastBegin ret todo ∧ enclosingSlow todo = some (a, after) ∧
      a < s.cfg.nStage2Attempts ∧
      s.raise c st info =
        (s.setSState .failed).setPhase (.exec .fastBegin ret (.slowLoad .run (a + 1) :: after))) := by
  unfold raise
  split
  · exact .inl ⟨s.sstate, s.fstate, rfl, .inl rfl, .inl rfl⟩
  · rename_i i ret todo hp
    split
    · left
      rcases s.markFast_eq i with h | h <;> rw [h]
      · exact ⟨s.sstate, s.fstate, rfl, .inl rfl, .inl rfl⟩
      · exact ⟨s.sstate, .failed, rfl, .inl rfl, .inr rfl⟩
    · rename_i a after hs
      split
      · rename_i h
        obtain ⟨rfl, ha⟩ := h
        exact .inr ⟨ret, todo, a, after, hp, hs, ha, rfl⟩
      · left
        rcases markFast_eq (s.setSState .failed) i with h | h <;> rw [h]
        · exact ⟨.failed, s.fstate, rfl, .inr rfl, .inl rfl⟩
        · exact ⟨.failed, .failed, rfl, .inr rfl, .inr rfl⟩

@[simp] theorem raise_cfg (c : ErrCode) (st : Stage) (v : Word) : (s.raise c st v).cfg = s.cfg := by
  rcases s.raise_cases c st v with ⟨_, _, h, _⟩ | ⟨_, _, _, _, _, _, _, h⟩ <;> simp [h]
@[simp] theorem raise_cmd (c : ErrCode) (st : Stage) (v : Word) : (s.raise c st v).cmd = s.cmd := by
  rcases s.raise_cases c st v with ⟨_, _, h, _⟩ | ⟨_, _, _, _, _, _, _, h⟩ <;> simp [h]
@[simp] theorem raise_ovr (c : ErrCode) (st : Stage) (v : Word) : (s.raise c st v).ovr = s.ovr := by
  rcases s.raise_cases c st v with ⟨_, _, h, _⟩ | ⟨_, _, _, _, _, _, _, h⟩ <;> simp [h]
@[simp] theorem raise_attempt (c : ErrCode) (st : Stage) (v : Word) : (s.raise c st v).attempt = s.attempt := by
  rcases s.raise_cases c st v with ⟨_, _, h, _⟩ | ⟨_, _, _, _, _, _, _, h⟩ <;> simp [h]
@[simp] theorem raise_arg0 (c : ErrCode) (st : Stage) (v : Word) : (s.raise c st v).arg0 = s.arg0 := by
  rcases s.raise_cases c st v with ⟨_, _, h, _⟩ | ⟨_, _, _, _, _, _, _, h⟩ <;> simp [h]
@[simp] theorem raise_arg1 (c : ErrCode) (st : Stage) (v : Word) : (s.raise c st v).arg1 = s.arg1 := by
  rcases s.raise_cases c st v with ⟨_, _, h, _⟩ | ⟨_, _, _, _, _, _, _, h⟩ <;> simp [h]
@[simp] theorem raise_arg2 (c : ErrCode) (st : Stage) (v : Word) : (s.raise c st v).arg2 = s.arg2 := by
  rcases s.raise_cases c st v with ⟨_, _, h, _⟩ | ⟨_, _, _, _, _, _, _, h⟩ <;> simp [h]
@[simp] theorem raise_arg3 (c : ErrCode) (st : Stage) (v : Word) : (s.raise c st v).arg3 = s.arg3 := by
  rcases s.raise_cases c st v with ⟨_, _, h, _⟩ | ⟨_, _, _, _, _, _, _, h⟩ <;> simp [h]
@[simp] theorem raise_res0 (c : ErrCode) (st : Stage) (v : Word) : (s.raise c st v).res0 = s.res0 := by
  rcases s.raise_cases c st v with ⟨_, _, h, _⟩ | ⟨_, _, _, _, _, _, _, h⟩ <;> simp [h]
@[simp] theorem raise_res1 (c : ErrCode) (st : Stage) (v : Word) : (s.raise c st v).res1 = s.res1 := by
  rcases s.raise_cases c st v with ⟨_, _, h, _⟩ | ⟨_, _, _, _, _, _, _, h⟩ <;> simp [h]
@[simp] theorem raise_lfsr (c : ErrCode) (st : Stage) (v : Word) : (s.raise c st v).lfsr = s.lfsr := by
  rcases s.raise_cases c st v with ⟨_, _, h, _⟩ | ⟨_, _, _, _, _, _, _, h⟩ <;> simp [h]
@[simp] theorem raise_version (c : ErrCode) (st : Stage) (v : Word) : (s.raise c st v).version = s.version := by
  rcases s.raise_cases c st v with ⟨_, _, h, _⟩ | ⟨_, _, _, _, _, _, _, h⟩ <;> simp [h]
@[simp] theorem raise_pktlen (c : ErrCode) (st : Stage) (v : Word) : (s.raise c st v).pktlen = s.pktlen := by
  rcases s.raise_cases c st v with ⟨_, _, h, _⟩ | ⟨_, _, _, _, _, _, _, h⟩ <;> simp [h]
@[simp] theorem raise_pktid (c : ErrCode) (st : Stage) (v : Word) : (s.raise c st v).pktid = s.pktid := by
  rcases s.raise_cases c st v with ⟨_, _, h, _⟩ | ⟨_, _, _, _, _, _, _, h⟩ <;> simp [h]
@[simp] theorem raise_cksum (c : ErrCode) (st : Stage) (v : Word) : (s.raise c st v).cksum = s.cksum := by
  rcases s.raise_cases c st v with ⟨_, _, h, _⟩ | ⟨_, _, _, _, _, _, _, h⟩ <;> simp [h]
@[simp] theorem raise_tag (c : ErrCode) (st : Stage) (v : Word) : (s.raise c st v).tag = s.tag := by
  rcases s.raise_cases c st v with ⟨_, _, h, _⟩ | ⟨_, _, _, _, _, _, _, h⟩ <;> simp [h]
@[simp] theorem raise_baud (c : ErrCode) (st : Stage) (v : Word) : (s.raise c st v).baud = s.baud := by
  rcases s.raise_cases c st v with ⟨_, _, h, _⟩ | ⟨_, _, _, _, _, _, _, h⟩ <;> simp [h]
@[simp] theorem raise_imgsize (c : ErrCode) (st : Stage) (v : Word) : (s.raise c st v).imgsize = s.imgsize := by
  rcases s.raise_cases c st v with ⟨_, _, h, _⟩ | ⟨_, _, _, _, _, _, _, h⟩ <;> simp [h]
@[simp] theorem raise_rxcnt (c : ErrCode) (st : Stage) (v : Word) : (s.raise c st v).rxcnt = s.rxcnt := by
  rcases s.raise_cases c st v with ⟨_, _, h, _⟩ | ⟨_, _, _, _, _, _, _, h⟩ <;> simp [h]
@[simp] theorem raise_img (c : ErrCode) (st : Stage) (v : Word) : (s.raise c st v).img = s.img := by
  rcases s.raise_cases c st v with ⟨_, _, h, _⟩ | ⟨_, _, _, _, _, _, _, h⟩ <;> simp [h]
@[simp] theorem raise_pkt (c : ErrCode) (st : Stage) (v : Word) : (s.raise c st v).pkt = s.pkt := by
  rcases s.raise_cases c st v with ⟨_, _, h, _⟩ | ⟨_, _, _, _, _, _, _, h⟩ <;> simp [h]
@[simp] theorem raise_rxb (c : ErrCode) (st : Stage) (v : Word) : (s.raise c st v).rxb = s.rxb := by
  rcases s.raise_cases c st v with ⟨_, _, h, _⟩ | ⟨_, _, _, _, _, _, _, h⟩ <;> simp [h]
@[simp] theorem raise_env (c : ErrCode) (st : Stage) (v : Word) : (s.raise c st v).env = s.env := by
  rcases s.raise_cases c st v with ⟨_, _, h, _⟩ | ⟨_, _, _, _, _, _, _, h⟩ <;> simp [h]
@[simp] theorem raise_calls (c : ErrCode) (st : Stage) (v : Word) : (s.raise c st v).calls = s.calls := by
  rcases s.raise_cases c st v with ⟨_, _, h, _⟩ | ⟨_, _, _, _, _, _, _, h⟩ <;> simp [h]
@[simp] theorem raise_hostq (c : ErrCode) (st : Stage) (v : Word) : (s.raise c st v).hostq = s.hostq := by
  rcases s.raise_cases c st v with ⟨_, _, h, _⟩ | ⟨_, _, _, _, _, _, _, h⟩ <;> simp [h]
@[simp] theorem raise_rdata (c : ErrCode) (st : Stage) (v : Word) : (s.raise c st v).rdata = s.rdata := by
  rcases s.raise_cases c st v with ⟨_, _, h, _⟩ | ⟨_, _, _, _, _, _, _, h⟩ <;> simp [h]

/-! ### appendPkt -/

/-- What `appendPkt` can do (R62). -/
theorem appendPkt_cases (l : List Byte) :
    (s.cfg.pktCapacity.toNat < s.pktlen.toNat + l.length ∧
      s.appendPkt l = s.raise .bufferOverflow .build (BitVec.ofNat 32 l.length)) ∨
    (s.pktlen.toNat + l.length ≤ s.cfg.pktCapacity.toNat ∧
      s.appendPkt l = s.putPkt l) := by
  unfold appendPkt
  split
  · exact .inl ⟨by omega, rfl⟩
  · exact .inr ⟨by omega, rfl⟩

/-- An append that fits. -/
theorem appendPkt_fit {l : List Byte} (h : s.pktlen.toNat + l.length ≤ s.cfg.pktCapacity.toNat) :
    s.appendPkt l = s.putPkt l := by
  unfold appendPkt; rw [if_neg (by omega)]

/-- An append that does not fit. -/
theorem appendPkt_over {l : List Byte} (h : s.cfg.pktCapacity.toNat < s.pktlen.toNat + l.length) :
    s.appendPkt l = s.raise .bufferOverflow .build (BitVec.ofNat 32 l.length) := by
  unfold appendPkt; rw [if_pos (by omega)]

@[simp] theorem appendPkt_cfg (l : List Byte) : (s.appendPkt l).cfg = s.cfg := by
  rcases s.appendPkt_cases l with ⟨_, h⟩ | ⟨_, h⟩ <;> (rw [h]; try simp)
@[simp] theorem appendPkt_cmd (l : List Byte) : (s.appendPkt l).cmd = s.cmd := by
  rcases s.appendPkt_cases l with ⟨_, h⟩ | ⟨_, h⟩ <;> (rw [h]; try simp)
@[simp] theorem appendPkt_ovr (l : List Byte) : (s.appendPkt l).ovr = s.ovr := by
  rcases s.appendPkt_cases l with ⟨_, h⟩ | ⟨_, h⟩ <;> (rw [h]; try simp)
@[simp] theorem appendPkt_attempt (l : List Byte) : (s.appendPkt l).attempt = s.attempt := by
  rcases s.appendPkt_cases l with ⟨_, h⟩ | ⟨_, h⟩ <;> (rw [h]; try simp)
@[simp] theorem appendPkt_arg0 (l : List Byte) : (s.appendPkt l).arg0 = s.arg0 := by
  rcases s.appendPkt_cases l with ⟨_, h⟩ | ⟨_, h⟩ <;> (rw [h]; try simp)
@[simp] theorem appendPkt_arg1 (l : List Byte) : (s.appendPkt l).arg1 = s.arg1 := by
  rcases s.appendPkt_cases l with ⟨_, h⟩ | ⟨_, h⟩ <;> (rw [h]; try simp)
@[simp] theorem appendPkt_arg2 (l : List Byte) : (s.appendPkt l).arg2 = s.arg2 := by
  rcases s.appendPkt_cases l with ⟨_, h⟩ | ⟨_, h⟩ <;> (rw [h]; try simp)
@[simp] theorem appendPkt_arg3 (l : List Byte) : (s.appendPkt l).arg3 = s.arg3 := by
  rcases s.appendPkt_cases l with ⟨_, h⟩ | ⟨_, h⟩ <;> (rw [h]; try simp)
@[simp] theorem appendPkt_res0 (l : List Byte) : (s.appendPkt l).res0 = s.res0 := by
  rcases s.appendPkt_cases l with ⟨_, h⟩ | ⟨_, h⟩ <;> (rw [h]; try simp)
@[simp] theorem appendPkt_res1 (l : List Byte) : (s.appendPkt l).res1 = s.res1 := by
  rcases s.appendPkt_cases l with ⟨_, h⟩ | ⟨_, h⟩ <;> (rw [h]; try simp)
@[simp] theorem appendPkt_lfsr (l : List Byte) : (s.appendPkt l).lfsr = s.lfsr := by
  rcases s.appendPkt_cases l with ⟨_, h⟩ | ⟨_, h⟩ <;> (rw [h]; try simp)
@[simp] theorem appendPkt_version (l : List Byte) : (s.appendPkt l).version = s.version := by
  rcases s.appendPkt_cases l with ⟨_, h⟩ | ⟨_, h⟩ <;> (rw [h]; try simp)
@[simp] theorem appendPkt_pktid (l : List Byte) : (s.appendPkt l).pktid = s.pktid := by
  rcases s.appendPkt_cases l with ⟨_, h⟩ | ⟨_, h⟩ <;> (rw [h]; try simp)
@[simp] theorem appendPkt_cksum (l : List Byte) : (s.appendPkt l).cksum = s.cksum := by
  rcases s.appendPkt_cases l with ⟨_, h⟩ | ⟨_, h⟩ <;> (rw [h]; try simp)
@[simp] theorem appendPkt_tag (l : List Byte) : (s.appendPkt l).tag = s.tag := by
  rcases s.appendPkt_cases l with ⟨_, h⟩ | ⟨_, h⟩ <;> (rw [h]; try simp)
@[simp] theorem appendPkt_baud (l : List Byte) : (s.appendPkt l).baud = s.baud := by
  rcases s.appendPkt_cases l with ⟨_, h⟩ | ⟨_, h⟩ <;> (rw [h]; try simp)
@[simp] theorem appendPkt_imgsize (l : List Byte) : (s.appendPkt l).imgsize = s.imgsize := by
  rcases s.appendPkt_cases l with ⟨_, h⟩ | ⟨_, h⟩ <;> (rw [h]; try simp)
@[simp] theorem appendPkt_rxcnt (l : List Byte) : (s.appendPkt l).rxcnt = s.rxcnt := by
  rcases s.appendPkt_cases l with ⟨_, h⟩ | ⟨_, h⟩ <;> (rw [h]; try simp)
@[simp] theorem appendPkt_img (l : List Byte) : (s.appendPkt l).img = s.img := by
  rcases s.appendPkt_cases l with ⟨_, h⟩ | ⟨_, h⟩ <;> (rw [h]; try simp)
@[simp] theorem appendPkt_rxb (l : List Byte) : (s.appendPkt l).rxb = s.rxb := by
  rcases s.appendPkt_cases l with ⟨_, h⟩ | ⟨_, h⟩ <;> (rw [h]; try simp)
@[simp] theorem appendPkt_env (l : List Byte) : (s.appendPkt l).env = s.env := by
  rcases s.appendPkt_cases l with ⟨_, h⟩ | ⟨_, h⟩ <;> (rw [h]; try simp)
@[simp] theorem appendPkt_calls (l : List Byte) : (s.appendPkt l).calls = s.calls := by
  rcases s.appendPkt_cases l with ⟨_, h⟩ | ⟨_, h⟩ <;> (rw [h]; try simp)
@[simp] theorem appendPkt_hostq (l : List Byte) : (s.appendPkt l).hostq = s.hostq := by
  rcases s.appendPkt_cases l with ⟨_, h⟩ | ⟨_, h⟩ <;> (rw [h]; try simp)
@[simp] theorem appendPkt_rdata (l : List Byte) : (s.appendPkt l).rdata = s.rdata := by
  rcases s.appendPkt_cases l with ⟨_, h⟩ | ⟨_, h⟩ <;> (rw [h]; try simp)

/-! ### assign -/

@[simp] theorem assign_cfg (r : SeqReg) (v : Word) : (s.assign r v).cfg = s.cfg := by cases r <;> rfl
@[simp] theorem assign_cmd (r : SeqReg) (v : Word) : (s.assign r v).cmd = s.cmd := by cases r <;> rfl
@[simp] theorem assign_done (r : SeqReg) (v : Word) : (s.assign r v).done = s.done := by cases r <;> rfl
@[simp] theorem assign_err (r : SeqReg) (v : Word) : (s.assign r v).err = s.err := by cases r <;> rfl
@[simp] theorem assign_ovr (r : SeqReg) (v : Word) : (s.assign r v).ovr = s.ovr := by cases r <;> rfl
@[simp] theorem assign_ecode (r : SeqReg) (v : Word) : (s.assign r v).ecode = s.ecode := by cases r <;> rfl
@[simp] theorem assign_stage (r : SeqReg) (v : Word) : (s.assign r v).stage = s.stage := by cases r <;> rfl
@[simp] theorem assign_sstate (r : SeqReg) (v : Word) : (s.assign r v).sstate = s.sstate := by cases r <;> rfl
@[simp] theorem assign_fstate (r : SeqReg) (v : Word) : (s.assign r v).fstate = s.fstate := by cases r <;> rfl
@[simp] theorem assign_attempt (r : SeqReg) (v : Word) : (s.assign r v).attempt = s.attempt := by cases r <;> rfl
@[simp] theorem assign_arg0 (r : SeqReg) (v : Word) : (s.assign r v).arg0 = s.arg0 := by cases r <;> rfl
@[simp] theorem assign_arg1 (r : SeqReg) (v : Word) : (s.assign r v).arg1 = s.arg1 := by cases r <;> rfl
@[simp] theorem assign_arg2 (r : SeqReg) (v : Word) : (s.assign r v).arg2 = s.arg2 := by cases r <;> rfl
@[simp] theorem assign_arg3 (r : SeqReg) (v : Word) : (s.assign r v).arg3 = s.arg3 := by cases r <;> rfl
@[simp] theorem assign_version (r : SeqReg) (v : Word) : (s.assign r v).version = s.version := by cases r <;> rfl
@[simp] theorem assign_pktlen (r : SeqReg) (v : Word) : (s.assign r v).pktlen = s.pktlen := by cases r <;> rfl
@[simp] theorem assign_tag (r : SeqReg) (v : Word) : (s.assign r v).tag = s.tag := by cases r <;> rfl
@[simp] theorem assign_imgsize (r : SeqReg) (v : Word) : (s.assign r v).imgsize = s.imgsize := by cases r <;> rfl
@[simp] theorem assign_errinfo (r : SeqReg) (v : Word) : (s.assign r v).errinfo = s.errinfo := by cases r <;> rfl
@[simp] theorem assign_rxcnt (r : SeqReg) (v : Word) : (s.assign r v).rxcnt = s.rxcnt := by cases r <;> rfl
@[simp] theorem assign_phase (r : SeqReg) (v : Word) : (s.assign r v).phase = s.phase := by cases r <;> rfl
@[simp] theorem assign_img (r : SeqReg) (v : Word) : (s.assign r v).img = s.img := by cases r <;> rfl
@[simp] theorem assign_pkt (r : SeqReg) (v : Word) : (s.assign r v).pkt = s.pkt := by cases r <;> rfl
@[simp] theorem assign_rxb (r : SeqReg) (v : Word) : (s.assign r v).rxb = s.rxb := by cases r <;> rfl
@[simp] theorem assign_env (r : SeqReg) (v : Word) : (s.assign r v).env = s.env := by cases r <;> rfl
@[simp] theorem assign_calls (r : SeqReg) (v : Word) : (s.assign r v).calls = s.calls := by cases r <;> rfl
@[simp] theorem assign_hostq (r : SeqReg) (v : Word) : (s.assign r v).hostq = s.hostq := by cases r <;> rfl
@[simp] theorem assign_rdata (r : SeqReg) (v : Word) : (s.assign r v).rdata = s.rdata := by cases r <;> rfl

end Sys2Proof.Machine.State
end

