-- ==== Sys2Proof/Laws/Codec.lean ====
section
/-! SUPPORT. The laws of the protocol arithmetic: the expected response, the encoder's walker, little-endian values, the
checksum, and the lengths of the packet's parts. -/

namespace Sys2Proof.Machine

/-- RXH_LEN is 125 (R7). -/
theorem rxhLen_eq : Config.rxhLen = 125 := rfl

/-- HS_RX_LEN is 129 (R7). -/
theorem hsRxLen_eq : Config.hsRxLen = 129 := rfl

/-- The one-pass response is the formula of R160 at each byte, from any state of the generator on. -/
theorem rxhFrom_spec (p : Params) (n j) : (rxhFrom p n (lfsrState p.lfsrTaps j)).length = n ∧ ∀ k, k < n →
   (rxhFrom p n (lfsrState p.lfsrTaps j))[k]? =
     some (rxByte p.rxBase (streamBit p.lfsrTaps (j + 2 * k)) (streamBit p.lfsrTaps (j + 1 + 2 * k))) := by
  induction n generalizing j with
  | zero => simp [rxhFrom]
  | succ n ih =>
    have := ih (j+2)
    refine ⟨by simp [rxhFrom]; exact this.1, ?_⟩
    intro k hk
    cases k with
    | zero => simp [rxhFrom, streamBit, lfsrState]
    | succ k =>
      have := this.2 k (by omega)
      simp only [rxhFrom, List.getElem?_cons_succ]
      rw [show j + 2 * (k+1) = j + 2 + 2*k by omega, show j + 1 + 2 * (k+1) = j + 2 + 1 + 2*k by omega, ← this]
      rfl

/-- The expected response has 125 bytes (R160). -/
theorem rxh_length (p : Params) : (rxh p).length = 125 := (rxhFrom_spec p 125 250).1

/-- Byte k of the expected response is the formula of R160. -/
theorem rxh_getD (p : Params) {k} (hk : k < 125) : (rxh p).getD k 0#8 = rxhByte p k := by
  have := (rxhFrom_spec p 125 250).2 k hk
  simp [List.getD, rxh, rxhLen_eq, Config.nTxLfsrBits, this, rxhByte]

/-- Lists of one length that nowhere differ. -/
theorem firstDiff_none : ∀ {l m : List Byte}, l.length = m.length →
    (firstDiff l m = none ↔ ∀ k, k < l.length → l.getD k 0#8 = m.getD k 0#8) := by
  intro l
  induction l with
  | nil => intro m h; simp [firstDiff]
  | cons a l ih =>
    intro m h
    cases m with
    | nil => simp at h
    | cons b m =>
      simp only [List.length_cons, Nat.add_right_cancel_iff] at h
      by_cases hab : a = b
      · simp only [firstDiff, hab, if_true, Option.map_eq_none_iff, ih h]
        constructor
        · intro hh k hk; cases k with
          | zero => simp
          | succ k => simpa using hh k (by simpa using hk)
        · intro hh k hk; simpa using hh (k+1) (by simpa using hk)
      · simp only [firstDiff, hab, if_false]
        constructor
        · simp
        · intro hh; exact absurd (by simpa using hh 0 (by simp)) hab

/-- The first index at which lists of one length differ. -/
theorem firstDiff_some : ∀ {l m : List Byte} {n}, l.length = m.length → n < l.length →
    (∀ k, k < n → l.getD k 0#8 = m.getD k 0#8) →
    l.getD n 0#8 ≠ m.getD n 0#8 → firstDiff l m = some n := by
  intro l
  induction l with
  | nil => intro m n h hn; simp at hn
  | cons a l ih =>
    intro m n h hn h1 h2
    cases m with
    | nil => simp at h
    | cons b m =>
      cases n with
      | zero => have : a ≠ b := by simpa using h2
                simp [firstDiff, this]
      | succ n =>
        have hab : a = b := by simpa using h1 0 (by omega)
        simp only [firstDiff, hab, if_true]
        rw [ih (by simpa using h) (by simpa using hn) (fun k hk => by simpa using h1 (k + 1) (by omega))
          (by simpa using h2)]
        rfl

/-- A group's value fits its width (R124). -/
theorem bitsVal_lt (l : List Bool) : bitsVal l < 2 ^ l.length := by
  induction l with
  | nil => simp [bitsVal]
  | cons b l ih => simp [bitsVal, pow_succ]; cases b <;> simp <;> omega

/-- What WF_ENC says of a cell that is read (R121). -/
theorem wfEnc_cell {p : Params} (h : p.wfEnc = true) {w v} (h1 : 1 ≤ w) (h5 : w ≤ 5) (hv : v < 2 ^ w) :
    1 ≤ (p.encCell v w).2 ∧ (p.encCell v w).2 ≤ w := by
  simp only [Params.wfEnc, Params.wfEncWidth, List.all_eq_true, Bool.and_eq_true, decide_eq_true_eq, List.mem_range] at h
  have := h (w - 1) (by simp only [Config.encMaxW]; omega) v
  rw [Nat.sub_add_cancel h1] at this
  exact this hv

/-- The walker's bound does not matter once it covers the bits (R124). -/
theorem encWalk_mono {p : Params} (h : p.wfEnc = true) : ∀ (n m : Nat) (l : List Bool),
    l.length ≤ n → l.length ≤ m → encWalk p n l = encWalk p m l := by
  intro n
  induction n with
  | zero => intro m l hl _; have : l = [] := by simpa using hl
            subst this; cases m <;> rfl
  | succ n ih =>
    intro m l hn hm
    cases l with
    | nil => cases m <;> rfl
    | cons b l =>
      cases m with
      | zero => simp at hm
      | succ m =>
        simp only [encWalk, Config.encMaxW]
        have := wfEnc_cell h (w := ((b :: l).take 5).length) (v := bitsVal ((b :: l).take 5))
          (by simp) (by simp) (bitsVal_lt _)
        rw [ih m]
        · simp only [List.length_drop]; simp only [List.length_cons] at hn ⊢; omega
        · simp only [List.length_drop]; simp only [List.length_cons] at hm ⊢; omega

/-- The walker emits at most one byte a step. -/
theorem encWalk_length {p : Params} : ∀ (n : Nat) (l : List Bool), (encWalk p n l).length ≤ n := by
  intro n; induction n with
  | zero => intro l; simp [encWalk]
  | succ n ih => intro l; cases l with
    | nil => simp [encWalk]
    | cons b l => simp [encWalk]; apply ih

/-- A byte has 8 bits (R68). -/
theorem bitStream_length (d) : (bitStream d).length = 8 * d.length := by
  induction d with
  | nil => rfl
  | cons a d ih => simp [bitStream, List.flatMap_cons, byteBits] at ih ⊢; omega

/-- The little-endian value as the sum of R66. -/
theorem leValue_eq (l : List Byte) :
    leValue l = ((List.range l.length).map fun k => (l.getD k 0#8).toNat * 2 ^ (8 * k)).sum := by
  induction l with
  | nil => rfl
  | cons b l ih =>
    rw [leValue, ih, List.length_cons, List.range_succ_eq_map]
    simp only [List.map_cons, List.map_map, List.sum_cons, ← List.sum_map_mul_left]
    simp [Function.comp_def, pow_succ, mul_add]
    congr 1; congr 1; funext k; ring

/-- The sum after one byte is replaced (R181). -/
theorem sum_set {l : List Byte} {k : Nat} {b : Byte} (hk : k < l.length) :
    sumByte (l.set k b) = sumByte l - l.getD k 0#8 + b := by
  have : ∀ l : List Byte, sumByte l = l.foldr (· + ·) 0#8 := by
    intro l; induction l with
    | nil => rfl
    | cons a l ih => simp only [List.foldr_cons, ← ih]; simp [sumByte, byteSum, BitVec.ofNat_add]
  rw [this, this]; clear this
  induction l generalizing k with
  | nil => simp at hk
  | cons a l ih =>
    cases k with
    | zero => simp; bv_omega
    | succ k => simp at hk ⊢; rw [ih hk]; simp; bv_omega

/-- Reading a range after one of its bytes is written. -/
theorem read_store_byte {m : Memory} {a n k : Nat} {b : Byte} (hk : k < n) :
    (m.store (a + k) [b]).read a n = (m.read a n).set k b := by
  apply List.ext_getElem
  · simp
  · intro i h1 h2
    have e1 : ∀ (l : List Byte) (h : i < l.length), l[i] = l.getD i Memory.blank := by intro l h; simp [List.getD, h]
    have hi : i < n := by simpa using h1
    rw [e1, Memory.getD_read _ _ _ _ hi]
    rw [List.getElem_set]
    split
    · subst_vars; exact Memory.get_store_inside (l := [b]) (k := 0) (by simp)
    · rw [e1, Memory.getD_read _ _ _ _ hi, Memory.get_store_outside (by simp; omega)]

/-- The length field has 11 elements (R202). -/
theorem lenField_length (p c) : (lenField p c).length = 11 := by simp [lenField, Config.lenElems]

/-- A command constant has 11 bytes (R201). -/
theorem cmdConst_length {p : Params} (h : p.wf = true) (lt : LoadType) : (p.cmdConst lt.code.toNat).length = 11 := by
  simp [Params.wf] at h
  obtain ⟨⟨⟨⟨⟨⟨⟨_, _⟩, _⟩, _⟩, h4⟩, h5⟩, _⟩, _⟩ := h
  unfold Params.cmdConst
  have : lt.code.toNat < p.cmdk.length := by rw [h4]; cases lt <;> decide
  simp only [List.getD, List.getElem?_eq_getElem this, Option.getD_some]
  exact h5 _ (List.getElem_mem _)

/-- TXH has 209 bytes (R156). -/
theorem txh_length {p : Params} (h : p.wf = true) : p.txh.length = 209 := by
  simp [Params.wf] at h
  obtain ⟨⟨⟨⟨⟨⟨⟨⟨_, h⟩, _⟩, _⟩, h4⟩, h5⟩, _⟩, _⟩, _⟩ := h
  exact h

/-- Byte j of what HsCompare reads of RXB. -/
theorem getD_rxb {s : State} {j : Nat} (hj : j < 125) : (s.rxb.read 0 Config.rxhLen).getD j 0#8 = s.rxb.get j := by
  rw [show (0#8) = Memory.blank from rfl, Memory.getD_read _ _ _ _ (by simpa [rxhLen_eq] using hj), Nat.zero_add]

/-- HsCompare with too few bytes (R161). -/
theorem hsCompare_few {s : State} (h : s.rxcnt.toNat < 129) :
    hsCompare s = s.raise .handshakeMismatch .handshakeRx noAnswer := by
  unfold hsCompare; rw [if_pos (by exact h)]

/-- HsCompare at the first byte that differs (R161). -/
theorem hsCompare_diff {s : State} (h : 129 ≤ s.rxcnt.toNat) {k} (hk : k < 125)
    (h1 : ∀ j, j < k → s.rxb.get j = rxhByte s.cfg j) (h2 : s.rxb.get k ≠ rxhByte s.cfg k) :
    hsCompare s = s.raise .handshakeMismatch .handshakeRx (BitVec.ofNat 32 k) := by
  have e := firstDiff_some (l := s.rxb.read 0 Config.rxhLen) (m := rxh s.cfg) (n := k)
    (by simp [rxh_length, rxhLen_eq]) (by simpa [rxhLen_eq] using hk)
    (fun j hj => by rw [getD_rxb (by omega), h1 j hj, rxh_getD _ (by omega)])
    (by rw [getD_rxb hk, rxh_getD _ hk]; exact h2)
  unfold hsCompare; rw [if_neg (by simp [hsRxLen_eq]; omega), e]

/-- HsCompare on the expected response (R161). -/
theorem hsCompare_eq {s : State} (h : 129 ≤ s.rxcnt.toNat) (h1 : ∀ j, j < 125 → s.rxb.get j = rxhByte s.cfg j) :
    hsCompare s = s := by
  have e := (firstDiff_none (l := s.rxb.read 0 Config.rxhLen) (m := rxh s.cfg) (by simp [rxh_length, rxhLen_eq])).2
    (fun j hj => by
      have hj : j < 125 := by simpa [rxhLen_eq] using hj
      rw [getD_rxb hj, h1 j hj, rxh_getD _ hj])
  unfold hsCompare; rw [if_neg (by simp [hsRxLen_eq]; omega), e]

end Sys2Proof.Machine
end

