-- ==== Sys2Proof/Laws/Sequencer.lean ====
section
/-! SUPPORT. Running a command: what a sequencer step never changes, how a run unfolds, and that a run of a command the
host does not disturb is its steps one after another. -/

namespace Sys2Proof.Machine

namespace State

/-! ### Waiting hosts -/

theorem tick_of_waits {s : State} (h : s.hostWaits = true) : s.tick = s := by
  obtain ⟨⟩ := s
  rename_i q _
  unfold hostWaits at h
  cases q with
  | nil => rfl
  | cons t q =>
    obtain ⟨w, m⟩ := t
    cases w with
    | none => rfl
    | some k => simp at h

theorem hostDue_of_waits {s : State} (h : s.hostWaits = true) : s.hostDue = false := by
  unfold hostWaits at h
  unfold hostDue
  cases hq : s.hostq with
  | nil => rfl
  | cons t q =>
    obtain ⟨w, m⟩ := t
    cases w with
    | none => rfl
    | some k => simp [hq] at h

/-- Whether the host waits depends on its queue only. -/
theorem hostWaits_congr {s t : State} (h : t.hostq = s.hostq) : t.hostWaits = s.hostWaits := by
  unfold hostWaits; rw [h]

/-! ### One sequencer step -/

@[simp] theorem seqStep_idle {s : State} (h : s.phase = .idle) : s.seqStep = none := by
  unfold seqStep; rw [h]

theorem seqStep_nil {s : State} {i : Instr} {r : Word} (h : s.phase = .exec i r []) : s.seqStep = some s.finish := by
  unfold seqStep; rw [h]

theorem seqStep_cons {s : State} {i : Instr} {r : Word} {a : Act} {todo : List Act}
    (h : s.phase = .exec i r (a :: todo)) : s.seqStep = a.run (s.setPhase (.exec i r todo)) := by
  unfold seqStep; rw [h]

end State

/-- The fields no sequencer step changes: the parameters, CMD, OVR, the operands, the host's queue and read data
(R25, R65). -/
structure SameOperands (s t : State) : Prop where
  cfg : t.cfg = s.cfg
  cmd : t.cmd = s.cmd
  ovr : t.ovr = s.ovr
  arg0 : t.arg0 = s.arg0
  arg1 : t.arg1 = s.arg1
  arg2 : t.arg2 = s.arg2
  arg3 : t.arg3 = s.arg3
  imgsize : t.imgsize = s.imgsize
  hostq : t.hostq = s.hostq
  rdata : t.rdata = s.rdata

namespace SameOperands

theorem refl (s : State) : SameOperands s s := ⟨rfl, rfl, rfl, rfl, rfl, rfl, rfl, rfl, rfl, rfl⟩

theorem trans {s t u : State} (h : SameOperands s t) (h' : SameOperands t u) : SameOperands s u :=
  ⟨h'.cfg.trans h.cfg, h'.cmd.trans h.cmd, h'.ovr.trans h.ovr, h'.arg0.trans h.arg0, h'.arg1.trans h.arg1,
    h'.arg2.trans h.arg2, h'.arg3.trans h.arg3, h'.imgsize.trans h.imgsize, h'.hostq.trans h.hostq,
    h'.rdata.trans h.rdata⟩

/-- `trans` with the second part first, so that the state between is read off it. -/
theorem trans' {s t u : State} (h' : SameOperands t u) (h : SameOperands s t) : SameOperands s u := h.trans h'

theorem raise (c : ErrCode) (st : Stage) (v : Word) (s : State) : SameOperands s (s.raise c st v) := by
  constructor <;> simp

theorem report (c : ErrCode) (st : Stage) (v : Word) (s : State) : SameOperands s (s.report c st v) := by
  constructor <;> simp

theorem push (l : List Act) (s : State) : SameOperands s (s.push l) := by constructor <;> simp

theorem setRet (v : Word) (s : State) : SameOperands s (s.setRet v) := by constructor <;> simp

theorem call (c : ConnCall) (s : State) : SameOperands s (s.call c) := by constructor <;> simp

theorem appendPkt (l : List Byte) (s : State) : SameOperands s (s.appendPkt l) := by constructor <;> simp

theorem assign (r : SeqReg) (v : Word) (s : State) : SameOperands s (s.assign r v) := by constructor <;> simp

theorem xmitRetry (x : Exchange) (a : Nat) (v : Word) (s : State) : SameOperands s (xmitRetry x a v s) := by
  unfold Machine.xmitRetry; split
  · exact push ..
  · exact raise ..

theorem rxUse (k : RxUse) (r : RxAnswer) (s : State) : SameOperands s (k.act r s) := by
  unfold RxUse.act
  cases k <;> cases r <;> dsimp only <;>
    first
      | exact refl s
      | exact raise ..
      | exact xmitRetry ..
      | (split <;> first | exact refl s | exact raise .. | exact push .. | exact setRet .. | exact xmitRetry ..)

theorem takeStatus {f g : State → State} (hf : ∀ s, SameOperands s (f s)) (hg : ∀ s, SameOperands s (g s))
    {s t : State} (h : takeStatus f g s = some t) : SameOperands s t := by
  unfold Machine.takeStatus at h
  split at h
  · cases h
  · cases h
    exact trans' (hf _) ⟨rfl, rfl, rfl, rfl, rfl, rfl, rfl, rfl, rfl, rfl⟩
  · cases h
    exact trans' (hg _) ⟨rfl, rfl, rfl, rfl, rfl, rfl, rfl, rfl, rfl, rfl⟩

theorem takeRx {n : Nat} {k : RxUse} {s t : State} (h : takeRx n k s = some t) : SameOperands s t := by
  unfold Machine.takeRx at h
  split at h
  · cases h
  · cases h
    exact trans' (push ..) ⟨rfl, rfl, rfl, rfl, rfl, rfl, rfl, rfl, rfl, rfl⟩

/-- No step of a command changes an operand, CMD, OVR, the parameters or the host's queue. -/
theorem act {a : Act} {s t : State} (h : a.run s = some t) : SameOperands s t := by
  cases a with
  | set r v => cases h; exact assign ..
  | append l => cases h; exact appendPkt ..
  | send l info => cases h; exact (call ..).trans (push ..)
  | sendPkt => cases h; exact (call ..).trans (push ..)
  | sent info => exact takeStatus (fun s => refl s) (fun s => raise ..) h
  | connReset => cases h; exact (call ..).trans (push ..)
  | wasReset => exact takeStatus (fun s => refl s) (fun s => raise ..) h
  | setBaud r => cases h; exact (call ..).trans (push ..)
  | baudSet r =>
    exact takeStatus (fun s => push ..) (fun s => raise ..) h
  | recv n t k => cases h; exact (call ..).trans (push ..)
  | heard n k => exact takeRx h
  | rxByte off b => cases h; exact ⟨rfl, rfl, rfl, rfl, rfl, rfl, rfl, rfl, rfl, rfl⟩
  | rxCount n => cases h; exact ⟨rfl, rfl, rfl, rfl, rfl, rfl, rfl, rfl, rfl, rfl⟩
  | answered r k => cases h; exact rxUse ..
  | hsCompare =>
    cases h; unfold Machine.hsCompare
    split
    · exact raise ..
    · split
      · exact refl s
      · exact raise ..
  | hsVersion =>
    cases h; exact ⟨rfl, rfl, rfl, rfl, rfl, rfl, rfl, rfl, rfl, rfl⟩
  | hsAccept =>
    cases h; unfold Machine.hsAccept
    split
    · exact refl s
    · exact raise ..
  | attempt a => cases h; exact ⟨rfl, rfl, rfl, rfl, rfl, rfl, rfl, rfl, rfl, rfl⟩
  | ackPoll bc extra st => cases h; exact push ..
  | slowLoad lt a =>
    cases h
    exact trans' (push ..) ⟨rfl, rfl, rfl, rfl, rfl, rfl, rfl, rfl, rfl, rfl⟩
  | slowEnd a => cases h; exact setRet ..
  | xmit x a =>
    cases h; unfold Machine.xmitAttempt
    exact trans' (push ..) ⟨rfl, rfl, rfl, rfl, rfl, rfl, rfl, rfl, rfl, rfl⟩
  | expect want st =>
    cases h; split
    · exact refl s
    · exact raise ..
  | chunk off size pos n =>
    cases h; unfold Machine.chunkStep
    split
    · exact trans' (push ..) ⟨rfl, rfl, rfl, rfl, rfl, rfl, rfl, rfl, rfl, rfl⟩
    · exact push ..
  | reject c info => cases h; exact report ..
  | sstate q => cases h; exact ⟨rfl, rfl, rfl, rfl, rfl, rfl, rfl, rfl, rfl, rfl⟩
  | fstate q => cases h; exact ⟨rfl, rfl, rfl, rfl, rfl, rfl, rfl, rfl, rfl, rfl⟩
  | imgByte off b => cases h; exact ⟨rfl, rfl, rfl, rfl, rfl, rfl, rfl, rfl, rfl, rfl⟩
  | clearPkt => cases h; exact ⟨rfl, rfl, rfl, rfl, rfl, rfl, rfl, rfl, rfl, rfl⟩

end SameOperands

namespace State

theorem seqStep_sameOperands {s t : State} (h : s.seqStep = some t) : SameOperands s t := by
  unfold seqStep at h
  split at h
  · cases h
  · cases h; constructor <;> simp
  · exact (SameOperands.act h).trans' ⟨rfl, rfl, rfl, rfl, rfl, rfl, rfl, rfl, rfl, rfl⟩

/-! ### The answers of the Connection -/

theorem takeStatus_ok {f g : State → State} {s : State} {rest : List IoStatus} (h : s.env.status = .ok :: rest) :
    takeStatus f g s = some (f (s.setStatus rest)) := by
  unfold takeStatus; rw [h]

theorem takeStatus_ioErr {f g : State → State} {s : State} {rest : List IoStatus} (h : s.env.status = .ioErr :: rest) :
    takeStatus f g s = some (g (s.setStatus rest)) := by
  unfold takeStatus; rw [h]

theorem takeStatus_nil {f g : State → State} {s : State} (h : s.env.status = []) : takeStatus f g s = none := by
  unfold takeStatus; rw [h]

theorem takeRx_cons {n : Nat} {k : RxUse} {s : State} {r : RxAnswer} {rest : List RxAnswer}
    (h : s.env.rx = r :: rest) :
    takeRx n k s = some ((s.setRx rest).push (receiveActs (deliver n r) k)) := by
  unfold takeRx; rw [h]

theorem takeRx_nil {n : Nat} {k : RxUse} {s : State} (h : s.env.rx = []) : takeRx n k s = none := by
  unfold takeRx; rw [h]

/-- An answer of exactly n bytes is delivered as it is. -/
theorem deliver_bytes {n : Nat} {l : List Byte} (h : l.length = n) : deliver n (.bytes l) = .bytes l := by
  subst h; simp [deliver]

/-- A short answer is a timeout (R232, D45). -/
theorem deliver_short {n : Nat} {l : List Byte} (h : l.length < n) : deliver n (.bytes l) = .timeout := by
  simp [deliver, h]

@[simp] theorem deliver_timeout (n : Nat) : deliver n .timeout = .timeout := rfl
@[simp] theorem deliver_ioErr (n : Nat) : deliver n .ioErr = .ioErr := rfl

/-! ### Runs -/

@[simp] theorem run_zero (s : State) : s.run 0 = s := rfl

theorem run_succ (n : Nat) (s : State) :
    run (n + 1) s = if s.hostDue then s else match s.seqStep with
      | none => s
      | some s' => run n s'.tick := rfl

/-- A run that can make no step stays where it is. -/
theorem run_of_blocked {s : State} (h : s.hostDue = true ∨ s.seqStep = none) (n : Nat) : run n s = s := by
  cases n with
  | zero => rfl
  | succ n =>
    rw [run_succ]
    rcases h with h | h
    · rw [if_pos h]
    · rw [h]; split <;> rfl

@[simp] theorem run_idle {s : State} (h : s.phase = .idle) (n : Nat) : run n s = s :=
  run_of_blocked (.inr (seqStep_idle h)) n

/-- A run of m + n steps is a run of n steps after a run of m. -/
theorem run_add (m n : Nat) (s : State) : run (m + n) s = run n (run m s) := by
  induction m generalizing s with
  | zero => simp
  | succ m ih =>
    rw [show m + 1 + n = (m + n) + 1 by omega, run_succ, run_succ]
    split
    · rename_i h; exact (run_of_blocked (.inl h) n).symm
    · split
      · rename_i h; exact (run_of_blocked (.inr h) n).symm
      · exact ih _

/-- With a waiting host a run takes the next step. -/
theorem run_step {s t : State} (hw : s.hostWaits = true) (h : s.seqStep = some t) (n : Nat) :
    run (n + 1) s = run n t := by
  rw [run_succ, hostDue_of_waits hw, h]
  have ht : t.hostWaits = true := by rw [hostWaits_congr (seqStep_sameOperands h).hostq]; exact hw
  simp [tick_of_waits ht]

/-- With a waiting host a run takes a step of the command. -/
theorem run_act {s t : State} {i : Instr} {r : Word} {a : Act} {todo : List Act} (n : Nat)
    (hp : s.phase = .exec i r (a :: todo)) (h : a.run (s.setPhase (.exec i r todo)) = some t)
    (hw : s.hostWaits = true) : run (n + 1) s = run n t :=
  run_step hw (by rw [seqStep_cons hp]; exact h) n

/-- With a waiting host a run ends a command that has no step left. -/
theorem run_nil {s : State} {i : Instr} {r : Word} (n : Nat) (hp : s.phase = .exec i r []) (hw : s.hostWaits = true) :
    run (n + 1) s = s.finish := by
  rw [run_step hw (seqStep_nil hp)]; exact run_idle rfl n

/-- A property that every sequencer step and every tick keep holds after a run. -/
theorem run_induct {P : State → Prop} (hstep : ∀ s t, P s → s.seqStep = some t → P t) (htick : ∀ s, P s → P s.tick)
    (n : Nat) (s : State) (h : P s) : P (run n s) := by
  induction n generalizing s with
  | zero => exact h
  | succ n ih =>
    rw [run_succ]
    split
    · exact h
    · split
      · exact h
      · rename_i t ht; exact ih _ (htick _ (hstep _ _ h ht))

/-- The fields a run never changes; the host's queue only counts down (log 11). -/
theorem run_frame (n : Nat) (s : State) :
    (run n s).cfg = s.cfg ∧ (run n s).cmd = s.cmd ∧ (run n s).ovr = s.ovr ∧ (run n s).arg0 = s.arg0 ∧
      (run n s).arg1 = s.arg1 ∧ (run n s).arg2 = s.arg2 ∧ (run n s).arg3 = s.arg3 ∧
      (run n s).imgsize = s.imgsize ∧ (run n s).rdata = s.rdata := by
  refine run_induct (P := fun t => t.cfg = s.cfg ∧ t.cmd = s.cmd ∧ t.ovr = s.ovr ∧ t.arg0 = s.arg0 ∧
      t.arg1 = s.arg1 ∧ t.arg2 = s.arg2 ∧ t.arg3 = s.arg3 ∧ t.imgsize = s.imgsize ∧ t.rdata = s.rdata)
    (fun u t hu ht => ?_) (fun u hu => by simpa using hu) n s ⟨rfl, rfl, rfl, rfl, rfl, rfl, rfl, rfl, rfl⟩
  obtain ⟨h1, h2, h3, h4, h5, h6, h7, h8, h9⟩ := hu
  have k := seqStep_sameOperands ht
  exact ⟨k.cfg.trans h1, k.cmd.trans h2, k.ovr.trans h3, k.arg0.trans h4, k.arg1.trans h5, k.arg2.trans h6,
    k.arg3.trans h7, k.imgsize.trans h8, k.rdata.trans h9⟩

/-- The bound leaves room for k steps, k ≤ 256. -/
theorem le_fuel (s : State) (k : Nat) (hk : k ≤ 256) : ∃ n, s.fuel = n + k := by
  have : 256 * 1 ≤ s.fuel := Nat.mul_le_mul (by omega) (by omega)
  exact ⟨s.fuel - k, by omega⟩

/-- A run that is idle after k steps, k ≤ 256, is what resuming gives. -/
theorem resume_of_run {s t : State} (k : Nat) (hk : k ≤ 256) (h : run k s = t) (ht : t.phase = .idle) :
    s.resume = t := by
  obtain ⟨n, hn⟩ := s.le_fuel k hk
  rw [resume, hn, Nat.add_comm, run_add, h, run_idle ht]

end State

/-- `launch` in terms of a run that is idle after k steps. -/
theorem launch_of_run {i : Instr} {todo : List Act} {s t : State} (k : Nat) (hk : k ≤ 256)
    (h : State.run k (s.start i todo) = t) (ht : t.phase = .idle) : launch i todo s = .next t := by
  unfold launch; rw [State.resume_of_run k hk h ht]

end Sys2Proof.Machine
end

