-- ==== Sys2Proof/Laws/Host.lean ====
section
/-! SUPPORT. Which move a step makes, what the registers of the map are, and the one shape every command has. -/

namespace Sys2Proof.Machine

open State

/-- A move of the host that lands is what the step does (log 11). -/
theorem step_lands {s : State} {w : Option Nat} {m : HostMove} {q} (hf : s.cfg.wf = true)
    (hq : s.hostq = ⟨w, m⟩ :: q) (h : s.phase = .idle ∨ w = some 0) :
    step s = hostMove m { s with hostq := q } := by
  unfold step; rw [hq]; dsimp only [guarded]; rw [if_pos hf]
  rcases h with h | h
  · simp [busy, h]
  · subst h; simp [landsNow]

/-- A step that goes on has sound parameters. -/
theorem guarded_next {s : State} {o t} (h : s.guarded o = .next t) : s.cfg.wf = true ∧ o = .next t := by
  unfold guarded at h; split at h; · exact ⟨‹_›, h⟩
  · cases h

/-- A step that answers a next state started with sound parameters (R14). -/
theorem step_wf {s t : State} (h : step s = .next t) : s.cfg.wf = true := by
  unfold step at h; split at h <;> exact (guarded_next h).1

/-- No register lies past RXCNT (R22). -/
theorem hostReg_big {off} (h : 0x48 < off) : hostReg off = none := by
  unfold hostReg; split <;> first | rfl | omega

/-- Every command is launched with some list of steps; it never faults and is never refused. -/
theorem exec_next (i : Instr) (s : State) : ∃ todo, exec i s = .next (s.start i todo).resume := by
  cases i <;> exact ⟨_, rfl⟩

end Sys2Proof.Machine
end

