-- ==== Sys2Proof/Laws/PerInstr.lean ====
section
/-! SUPPORT. One lemma per command about its encoding: its word selects the command's own row of R94. -/

namespace Sys2Proof.Laws.EncodedWordMatchesRow

/-- The word of the command selects the command's own row of R94. -/
def Statement (i : Instr) : Prop := encode i &&& (rowOf i).2 = (rowOf i).1

theorem nop : Statement .nop := by unfold Statement; decide

theorem encLookup (w : BitVec 3) (v : BitVec 5) : Statement (.encLookup w v) := by
  unfold Statement; revert w v; decide +kernel

theorem encBytes : Statement .encBytes := by unfold Statement; decide

theorem pktClear : Statement .pktClear := by unfold Statement; decide

theorem pktPutb : Statement .pktPutb := by unfold Statement; decide

theorem pktSend : Statement .pktSend := by unfold Statement; decide

theorem lfsrSeed : Statement .lfsrSeed := by unfold Statement; decide

theorem lfsrStep : Statement .lfsrStep := by unfold Statement; decide

theorem hsTx : Statement .hsTx := by unfold Statement; decide

theorem hsRxbyte : Statement .hsRxbyte := by unfold Statement; decide

theorem hsVerify : Statement .hsVerify := by unfold Statement; decide

theorem hsVerdec : Statement .hsVerdec := by unfold Statement; decide

theorem imgCksum : Statement .imgCksum := by unfold Statement; decide

theorem imgRdf (f : BitVec 3) : Statement (.imgRdf f) := by
  unfold Statement; revert f; decide +kernel

theorem imgWrf (f : BitVec 3) : Statement (.imgWrf f) := by
  unfold Statement; revert f; decide +kernel

theorem romCmd (lt : LoadType) : Statement (.romCmd lt) := by
  cases lt <;> (unfold Statement; decide)

theorem romLen : Statement .romLen := by unfold Statement; decide

theorem romBuild (lt : LoadType) : Statement (.romBuild lt) := by
  cases lt <;> (unfold Statement; decide)

theorem romAck : Statement .romAck := by unfold Statement; decide

theorem romLoad (lt : LoadType) : Statement (.romLoad lt) := by
  cases lt <;> (unfold Statement; decide)

theorem fastXmit (psel : BitVec 3) (r : Bool) : Statement (.fastXmit psel r) := by
  unfold Statement; revert psel r; decide +kernel

theorem fastBegin : Statement .fastBegin := by unfold Statement; decide

theorem fastData : Statement .fastData := by unfold Statement; decide

theorem fastEnd (lt : LoadType) : Statement (.fastEnd lt) := by
  cases lt <;> (unfold Statement; decide)

theorem connReset : Statement .connReset := by unfold Statement; decide

theorem connRecv : Statement .connRecv := by unfold Statement; decide

theorem connBaud : Statement .connBaud := by unfold Statement; decide

end Sys2Proof.Laws.EncodedWordMatchesRow
end

