-- ==== Sys2Proof/Laws/Protocol.lean ====
section
/-! SUPPORT. Whole pieces of a protocol as one law each: a Connection primitive with its answer, the polls of AckPoll, and
what a write of a space does to its bytes. -/

namespace Sys2Proof.Machine

/-- A write stores its bytes and no other. -/
theorem Memory.stored_store (m : Memory) (a : Nat) (l : List Byte) : Memory.Stored m (m.store a l) a l :=
  ⟨fun _ hk => Memory.get_store_inside hk, fun _ hx => Memory.get_store_outside hx⟩

/-- The bytes l stored one after another from address a on (R73). -/
def Memory.storeEach (m : Memory) (a : Nat) : List Byte → Memory
  | [] => m
  | b :: bs => Memory.storeEach (m.store a [b]) (a + 1) bs

/-- Bytes stored one after another are read back as if stored at once. -/
theorem Memory.get_storeEach (l : List Byte) : ∀ (m : Memory) (a x : Nat),
    (m.storeEach a l).get x = (m.store a l).get x := by
  induction l with
  | nil => intro m a x; exact (Memory.get_store_outside (by simp; omega)).symm
  | cons b bs ih =>
    intro m a x
    rw [Memory.storeEach, ih]
    by_cases h : x < a + 1 ∨ a + 1 + bs.length ≤ x
    · rw [Memory.get_store_outside h]
      by_cases hx : x = a
      · subst hx
        exact (Memory.get_store_inside (m := m) (l := [b]) (k := 0) (by simp)).trans
          (Memory.get_store_inside (m := m) (a := x) (l := b :: bs) (k := 0) (by simp)).symm
      · rw [Memory.get_store_outside (by simp; omega), Memory.get_store_outside (by simp; omega)]
    · obtain ⟨k, rfl⟩ : ∃ k, x = a + 1 + k := ⟨x - (a + 1), by omega⟩
      rw [Memory.get_store_inside (by omega), show a + 1 + k = a + (k + 1) by omega,
        Memory.get_store_inside (by simp; omega)]
      rfl

/-- Bytes stored one after another are stored, and no other byte changes. -/
theorem Memory.stored_storeEach (m : Memory) (a : Nat) (l : List Byte) : Memory.Stored m (m.storeEach a l) a l :=
  ⟨fun k hk => (Memory.get_storeEach l m a (a + k)).trans (Memory.get_store_inside hk),
    fun x hx => (Memory.get_storeEach l m a x).trans (Memory.get_store_outside hx)⟩

/-- One list stored from address 0 on is `Received`, whichever way it was stored. -/
theorem Memory.received_of_stored {m m' : Memory} {l : List Byte} (h : Memory.Stored m m' 0 l) :
    Memory.Received m m' [l] := by
  intro x
  simp only [List.foldl_cons, List.foldl_nil]
  split
  · rename_i hx; have := h.1 x hx; rwa [Nat.zero_add] at this
  · rename_i hx; exact h.2 x (.inr (by omega))

/-- Lists received after others. -/
theorem Memory.Received.append {m m' m'' : Memory} {ls ls' : List (List Byte)} (h : Memory.Received m m' ls)
    (h' : Memory.Received m' m'' ls') : Memory.Received m m'' (ls ++ ls') := by
  intro x; rw [List.foldl_append, h' x, h x]

/-- `launch` in terms of a run that is idle after k steps, for any k the bound leaves room for. -/
theorem launch_of_long_run {i : Instr} {todo : List Act} {s t : State} (k : Nat) (h : State.run k (s.start i todo) = t)
    (hk : k ≤ s.fuel) (ht : t.phase = .idle) : launch i todo s = .next t := by
  unfold launch State.resume
  obtain ⟨n, hn⟩ : ∃ n, (s.start i todo).fuel = k + n := ⟨s.fuel - k, by show s.fuel = _; omega⟩
  rw [hn, State.run_add, h, State.run_idle ht]

namespace State

variable {s : State} {i : Instr} {r : Word} {todo : List Act}

/-- A host that waits goes on waiting while its queue is the same. -/
theorem waits_of {s t : State} (hw : s.hostWaits = true) (h : t.hostq = s.hostq) : t.hostWaits = true := by
  rw [hostWaits_congr h]; exact hw

/-! ### A primitive and its answer -/

theorem run_send {l : List Byte} {info : Word} {rest : List IoStatus} (n : Nat)
    (hp : s.phase = .exec i r (.send l info :: todo)) (hs : s.env.status = .ok :: rest) (hw : s.hostWaits = true) :
    run (n + 2) s = run n (((s.call (.send l)).setStatus rest).setPhase (.exec i r todo)) := by
  refine (run_act (n + 1) hp rfl hw).trans ?_
  exact run_act n rfl (by exact takeStatus_ok hs) (waits_of hw (by rfl))

theorem run_send_ioErr {l : List Byte} {info : Word} {rest : List IoStatus} (n : Nat)
    (hp : s.phase = .exec i r (.send l info :: todo)) (hs : s.env.status = .ioErr :: rest)
    (hw : s.hostWaits = true) :
    run (n + 2) s =
      run n ((((s.call (.send l)).setStatus rest).setPhase (.exec i r todo)).raise .connectionIo .send info) := by
  refine (run_act (n + 1) hp rfl hw).trans ?_
  exact run_act n rfl (by exact takeStatus_ioErr hs) (waits_of hw (by rfl))

theorem run_sendPkt {rest : List IoStatus} (n : Nat) (hp : s.phase = .exec i r (.sendPkt :: todo))
    (hs : s.env.status = .ok :: rest) (hw : s.hostWaits = true) :
    run (n + 2) s = run n (((s.call (.send s.packet)).setStatus rest).setPhase (.exec i r todo)) := by
  refine (run_act (n + 1) hp rfl hw).trans ?_
  exact run_act n rfl (by exact takeStatus_ok hs) (waits_of hw (by rfl))

theorem run_connReset {rest : List IoStatus} (n : Nat) (hp : s.phase = .exec i r (.connReset :: todo))
    (hs : s.env.status = .ok :: rest) (hw : s.hostWaits = true) :
    run (n + 2) s = run n (((s.call .reset).setStatus rest).setPhase (.exec i r todo)) := by
  refine (run_act (n + 1) hp rfl hw).trans ?_
  exact run_act n rfl (by exact takeStatus_ok hs) (waits_of hw (by rfl))

theorem run_setBaud {b : Word} {rest : List IoStatus} (n : Nat) (hp : s.phase = .exec i r (.setBaud b :: todo))
    (hs : s.env.status = .ok :: rest) (hw : s.hostWaits = true) :
    run (n + 3) s = run n (((s.call (.setBaud b)).setStatus rest).setPhase (.exec i r todo) |>.assign .baud b) := by
  refine (run_act (n + 2) hp rfl hw).trans ?_
  refine Eq.trans (run_act (a := .baudSet b) (todo := todo) (n + 1) (by rfl) (by exact takeStatus_ok hs)
    (waits_of hw (by rfl))) ?_
  simp only [call, setStatus, setPhase, push, List.singleton_append]
  exact run_act (a := .set .baud (.const b)) (todo := todo) n (by rfl) (by rfl) (waits_of hw (by rfl))

/-- The bytes of a receive go to RXB one by one (R73). -/
theorem run_rxBytes (l : List Byte) (n : Nat) : ∀ {s : State} (off : Nat),
    s.phase = .exec i r (rxBytes off l ++ todo) → s.hostWaits = true →
    run (l.length + n) s = run n { s with phase := .exec i r todo, rxb := s.rxb.storeEach off l } := by
  induction l with
  | nil =>
    intro s off hp hw
    simp only [rxBytes, List.nil_append] at hp
    simp [Memory.storeEach, ← hp]
  | cons b bs ih =>
    intro s off hp hw
    rw [List.length_cons, show bs.length + 1 + n = bs.length + n + 1 by omega]
    refine Eq.trans (run_act (bs.length + n) hp rfl hw) ?_
    refine Eq.trans (ih (off + 1) (by rfl) (waits_of hw (by rfl))) ?_
    congr 1

/-- A receive that answers k bytes (R63). -/
theorem run_recv_bytes {k t : Nat} {u : RxUse} {l : List Byte} {rest : List RxAnswer} (n : Nat)
    (hp : s.phase = .exec i r (.recv k t u :: todo)) (hx : s.env.rx = .bytes l :: rest) (hl : l.length = k)
    (hw : s.hostWaits = true) :
    run (l.length + (n + 2) + 2) s = run n (u.act (.bytes l) { s with
      phase := .exec i r todo
      rxb := s.rxb.storeEach 0 l
      rxcnt := BitVec.ofNat 32 l.length
      env := { s.env with rx := rest }
      calls := s.calls ++ [.recv k t] }) := by
  refine (run_act (l.length + (n + 2) + 1) hp rfl hw).trans ?_
  refine Eq.trans (run_act (a := .heard k u) (todo := todo) (l.length + (n + 2)) (by rfl) (by exact takeRx_cons hx)
    (waits_of hw (by rfl))) ?_
  rw [deliver_bytes hl]
  simp only [call, setRx, setPhase, push, receiveActs, List.append_assoc, List.cons_append, List.nil_append]
  refine Eq.trans (run_rxBytes (i := i) (r := r) (todo := .rxCount l.length :: .answered (.bytes l) u :: todo) l (n + 2) 0
    (by rfl) (waits_of hw (by rfl))) ?_
  refine Eq.trans (run_act (a := .rxCount l.length) (todo := .answered (.bytes l) u :: todo) (n + 1) (by rfl) (by rfl)
    (waits_of hw (by rfl))) ?_
  exact run_act (a := .answered (.bytes l) u) (todo := todo) n (by rfl) (by rfl) (waits_of hw (by rfl))

/-- A receive that answers no bytes (R63). -/
theorem run_recv_none {k t : Nat} {u : RxUse} {a : RxAnswer} {rest : List RxAnswer} (n : Nat)
    (hp : s.phase = .exec i r (.recv k t u :: todo)) (hx : s.env.rx = a :: rest)
    (ha : deliver k a = .timeout ∨ deliver k a = .ioErr) (hw : s.hostWaits = true) :
    run (n + 4) s = run n (u.act (deliver k a) { s with
      phase := .exec i r todo
      rxcnt := 0#32
      env := { s.env with rx := rest }
      calls := s.calls ++ [.recv k t] }) := by
  refine (run_act (n + 3) hp rfl hw).trans ?_
  refine Eq.trans (run_act (a := .heard k u) (todo := todo) (n + 2) (by rfl) (by exact takeRx_cons hx)
    (waits_of hw (by rfl))) ?_
  have he : receiveActs (deliver k a) u = [.rxCount 0, .answered (deliver k a) u] := by
    rcases ha with ha | ha <;> rw [ha] <;> rfl
  simp only [call, setRx, setPhase, push, he, List.cons_append, List.nil_append]
  refine Eq.trans (run_act (a := .rxCount 0) (todo := .answered (deliver k a) u :: todo) (n + 1) (by rfl) (by rfl)
    (waits_of hw (by rfl))) ?_
  exact run_act (a := .answered (deliver k a) u) (todo := todo) n (by rfl) (by rfl) (waits_of hw (by rfl))

/-! ### AckPoll (R205) -/

/-- From poll p on, k polls that time out, and the next poll is p + k. -/
theorem run_polls {n : Nat} {st : Stage} (k m p : Nat) (hw : s.hostWaits = true)
    (hp : s.phase = .exec i r (pollActs s.cfg p n st ++ todo)) (hn : p + k ≤ n) {st' : List IoStatus}
    {rx' : List RxAnswer} (hs : s.env.status = List.replicate k .ok ++ st')
    (hx : s.env.rx = List.replicate k .timeout ++ rx') :
    run (6 * k + m) s = run m { s with
      phase := .exec i r (pollActs s.cfg (p + k) n st ++ todo)
      rxcnt := if k = 0 then s.rxcnt else 0#32
      env := { s.env with status := st', rx := rx' }
      calls := s.calls ++ pollCalls s.cfg k } := by
  induction k generalizing m st' rx' with
  | zero =>
    simp at hs hx
    simp [pollCalls, ← hp, ← hs, ← hx]
  | succ k ih =>
    rw [List.replicate_succ', List.append_assoc] at hs hx
    rw [show 6 * (k + 1) + m = 6 * k + (m + 4 + 2) by omega, ih (m + 4 + 2) (by omega) hs hx]
    refine Eq.trans (run_send (rest := st') (todo := .recv 1 s.cfg.pollRxTimeoutMs (.poll (p + k) n st) :: todo)
      (m + 4) (by rfl) (by rfl) (waits_of hw (by rfl))) ?_
    refine Eq.trans (run_recv_none (rest := rx') (todo := todo) m (by rfl) (by rfl) (.inl (by rfl))
      (waits_of hw (by rfl))) ?_
    congr 1
    simp [RxUse.act, pollActs, push, call, setPhase, setStatus, pollCalls, show p + k < n by omega, Nat.add_assoc]

/-- AckPoll that hears 0xFE at poll k + 1 of n returns k + 1. -/
theorem run_ackPoll {bc : Option Nat} {extra : Nat} {st : Stage} (k m : Nat) (hw : s.hostWaits = true)
    (hp : s.phase = .exec i r (.ackPoll bc extra st :: todo))
    (hn : k + 1 ≤ pollCount (bc.getD s.pktlen.toNat) extra s.baud) {st' : List IoStatus} {rx' : List RxAnswer}
    (hs : s.env.status = List.replicate (k + 1) .ok ++ st') (hx : s.env.rx = ackAtPoll (k + 1) ++ rx') :
    run (6 * k + m + 8) s = run m { s with
      phase := .exec i (BitVec.ofNat 32 (k + 1)) todo
      rxb := s.rxb.store 0 [0xFE#8]
      rxcnt := 1#32
      env := { s.env with status := st', rx := rx' }
      calls := s.calls ++ pollCalls s.cfg (k + 1) } := by
  rw [List.replicate_succ', List.append_assoc] at hs
  simp only [ackAtPoll, Nat.add_sub_cancel, List.append_assoc] at hx
  refine Eq.trans (run_act (6 * k + m + 7) hp rfl hw) ?_
  rw [show 6 * k + m + 7 = 6 * k + (m + 5 + 2) by omega]
  refine Eq.trans (run_polls (p := 1) (todo := todo) k (m + 5 + 2) (waits_of hw (by rfl)) (by rfl)
    (by rw [Nat.add_comm]; exact hn) (by exact hs) (by exact hx)) ?_
  refine Eq.trans (run_send (rest := st') (todo := .recv 1 s.cfg.pollRxTimeoutMs (.poll (1 + k) _ st) :: todo)
    (m + 5) (by rfl) (by rfl) (waits_of hw (by rfl))) ?_
  simp only [call, setStatus, setPhase]
  rw [show m + 5 = [0xFE#8].length + (m + 2) + 2 by simp; omega]
  refine Eq.trans (run_recv_bytes (l := [0xFE#8]) (rest := rx') (todo := todo) m (by rfl) (by rfl) (by rfl)
    (waits_of hw (by rfl))) ?_
  simp [RxUse.act, Config.ackOk, setRet, Memory.storeEach, pollCalls, Nat.add_comm]

end State

end Sys2Proof.Machine
end

