-- ==== Sys2Proof/Machine/Audit.lean ====
section
/-! DEFINITION. The audit predicates R121 and R156 offer for a table and a handshake meant to drive a real Propeller: the
pulse code of R16 read back from a byte. No rule of ELPE depends on them and no step checks them (R156). -/

namespace Sys2Proof.Machine

/-- The line of a byte as it leaves a UART: start bit, bits 0 to 7, stop bit (R71, R121). -/
def uartLine (b : Byte) : List Bool := false :: (byteBits b ++ [true])

/-- The lengths of the maximal runs of 0 of a line, the current run given (R121). -/
def lowRuns : Nat → List Bool → List Nat
  | n, [] => if n = 0 then [] else [n]
  | n, false :: rest => lowRuns (n + 1) rest
  | n, true :: rest => if n = 0 then lowRuns 0 rest else n :: lowRuns 0 rest

/-- The bits a list of run lengths carries: 1 is the bit 1, 2 is the bit 0, any other length is invalid (R121). -/
def pulseBits : List Nat → Option (List Bool)
  | [] => some []
  | 1 :: rest => (pulseBits rest).map (true :: ·)
  | 2 :: rest => (pulseBits rest).map (false :: ·)
  | _ :: _ => none

/-- PulseDecode of a byte (R121). -/
def pulseDecode (b : Byte) : Option (List Bool) := pulseBits (lowRuns 0 (uartLine b))

/-- PulseDecodeAll of a byte list (R156). -/
def pulseDecodeAll : List Byte → Option (List Bool)
  | [] => some []
  | b :: rest =>
    match pulseDecode b, pulseDecodeAll rest with
    | some x, some y => some (x ++ y)
    | _, _ => none

/-- The first c bits of a group value (R121). -/
def groupBits (v c : Nat) : List Bool := (List.range c).map fun j => v.testBit j

/-- The audit predicate of ENC_TABLE for one width (R121). -/
def auditEncWidth (p : Params) (w : Nat) : Bool :=
  (List.range (2 ^ w)).all fun v =>
    decide (pulseDecode (p.encCell v w).1 = some (groupBits v (p.encCell v w).2))

/-- The audit predicate of ENC_TABLE (R121). -/
def auditEnc (p : Params) : Bool :=
  (List.range Config.encMaxW).all fun k => auditEncWidth p (k + 1)

/-- n stream bits from a generator state on (R151). -/
def streamFrom (taps : List (Fin Config.lfsrWidth)) : Nat → BitVec Config.lfsrWidth → List Bool
  | 0, _ => []
  | n + 1, s => s.getLsbD 0 :: streamFrom taps n (lfsrNext taps s)

/-- The audit predicate of TXH (R156). -/
def auditTxh (p : Params) : Bool :=
  decide (pulseDecodeAll p.txh =
    some ([true, false] ++ streamFrom p.lfsrTaps Config.nTxLfsrBits Config.lfsrSeed ++
      (List.replicate 129 [true, false, true, false]).flatten))

end Sys2Proof.Machine
end

