-- ==== Sys2Proof/Tests/Slice0.lean ====
section
/-! SUPPORT. The model's own tests. Expected results are the vectors of spec/95_test_vectors.md (V-… below) or are worked
out by hand from the rule a test names. The witnesses at the end meet the hypotheses of the statements. -/

namespace Sys2Proof.Tests

open Sys2Proof.Machine

set_option Elab.async false

/-! ### Well-formed commands: one refused term for each check (R91, R92, R123) -/

theorem test_lookup_width_zero : (Instr.encLookup 0 0).wellFormed = false := by decide
theorem test_lookup_width_six : (Instr.encLookup 6 0).wellFormed = false := by decide
theorem test_lookup_value_too_large : (Instr.encLookup 3 9).wellFormed = false := by decide
theorem test_lookup_last_value : (Instr.encLookup 5 31).wellFormed = true := by decide
theorem test_rdf_field_seven : (Instr.imgRdf 7).wellFormed = false := by decide
theorem test_wrf_field_seven : (Instr.imgWrf 7).wellFormed = false := by decide
theorem test_build_shutdown : (Instr.romBuild .shutdown).wellFormed = false := by decide
theorem test_load_shutdown : (Instr.romLoad .shutdown).wellFormed = false := by decide
theorem test_end_shutdown : (Instr.fastEnd .shutdown).wellFormed = false := by decide
theorem test_xmit_payload_five : (Instr.fastXmit 5 true).wellFormed = false := by decide
theorem test_cmd_shutdown_is_legal : (Instr.romCmd .shutdown).wellFormed = true := by decide

/-! ### Decoding: words written from R90 and R93, the fields as reserved, R, V, F, LT, OPC -/

theorem test_decode_nop : decode (0b0000000000000#13 ++ 0b0#1 ++ 0b00000#5 ++ 0b000#3 ++ 0b00#2 ++ 0b00000000#8) = .ok .nop := by
  decide
theorem test_decode_lookup :
    decode (0b0000000000000#13 ++ 0b0#1 ++ 0b00101#5 ++ 0b011#3 ++ 0b00#2 ++ 0b00010000#8) = .ok (.encLookup 3 5) := by
  decide
theorem test_decode_xmit :
    decode (0b0000000000000#13 ++ 0b1#1 ++ 0b00000#5 ++ 0b100#3 ++ 0b00#2 ++ 0b01010000#8) = .ok (.fastXmit 4 true) := by
  decide
theorem test_decode_load :
    decode (0b0000000000000#13 ++ 0b0#1 ++ 0b00000#5 ++ 0b000#3 ++ 0b11#2 ++ 0b01000100#8) = .ok (.romLoad .programRun) := by
  decide
theorem test_decode_encoder_words :
    [0x00000011#32, 0x00000018, 0x00000019, 0x0000001A].map decode =
      [.ok .encBytes, .ok .pktClear, .ok .pktPutb, .ok .pktSend] := by decide
theorem test_decode_handshake_words :
    [0x00000020#32, 0x00000021, 0x00000022, 0x00000023, 0x00000024, 0x00000025].map decode =
      [.ok .lfsrSeed, .ok .lfsrStep, .ok .hsTx, .ok .hsRxbyte, .ok .hsVerify, .ok .hsVerdec] := by decide
theorem test_decode_image_words :
    [0x00000030#32, 0x00000431, 0x00000C32].map decode = [.ok .imgCksum, .ok (.imgRdf 1), .ok (.imgWrf 3)] := by decide
theorem test_decode_rom_words :
    [0x00000140#32, 0x00000041, 0x00000142, 0x00000043, 0x00000144].map decode =
      [.ok (.romCmd .run), .ok .romLen, .ok (.romBuild .run), .ok .romAck, .ok (.romLoad .run)] := by decide
theorem test_decode_fast_words :
    [0x00040050#32, 0x00000051, 0x00000052, 0x00000253].map decode =
      [.ok (.fastXmit 0 true), .ok .fastBegin, .ok .fastData, .ok (.fastEnd .programShutdown)] := by decide
theorem test_decode_interface_words :
    [0x00000060#32, 0x00000061, 0x00000062].map decode = [.ok .connReset, .ok .connRecv, .ok .connBaud] := by decide
/-- V-EX-1 to V-EX-4, and the end of the opcodes R95 reserves. -/
theorem test_decode_illegal_words :
    [0x000000FF#32, 0x00000100, 0x00080010, 0x00000411, 0x000000F0].map decode =
      [.error .unlistedOpcode, .error .strayBits, .error .strayBits, .error .strayBits, .error .unlistedOpcode] := by decide
theorem test_table_word : decodeTableWord 32 0x0000AC10 = some (.encLookup 3 5) := by decide

/-! ### The candidate parameters (R9, R121, R156) -/

/-- R7: the lengths the table gives, and 2 stream bits a response byte. -/
theorem test_constants :
    (Config.rxhLen, Config.hsRxLen, Config.rxhLen * 2) = (125, 129, Config.nRxLfsrBits) := by decide
theorem test_candidates_meet_their_predicates : Config.candidates.wf = true := by decide +kernel
theorem test_candidate_table_passes_the_audit : auditEnc Config.candidates = true := by decide +kernel
theorem test_candidate_handshake_passes_the_audit : auditTxh Config.candidates = true := by decide +kernel
/-- R121: a cell that consumes 0 bits, here an empty table, breaks WF_ENC, and the step is a model fault. -/
theorem test_bad_parameter_is_a_fault :
    (match step { State.reset with cfg := { Config.candidates with encTable := [] } } with
      | .fault f => some f
      | _ => none) = some .badParameter := by decide +kernel
/-- R201: the candidate constants are the length fields of 0 to 3. -/
theorem test_candidate_command_constants :
    Config.candidates.cmdk = (List.range 4).map fun k => lenField Config.candidates (BitVec.ofNat 32 k) := by
  decide +kernel

/-! ### Small states -/

/-- A state with listed answers, a tag, and an image from address 0. -/
def onReset (status : List IoStatus) (rx : List RxAnswer) (image : List Byte) : State :=
  { State.reset with env := ⟨status, rx, [0x11111111#32], 0⟩, img := Memory.store [] 0 image }

/-- What a command leaves in some fields, if it answers a next state. -/
def ended {α : Type} (i : Instr) (s : State) (f : State → α) : Option α :=
  match exec i s with
  | .next t => some (f t)
  | .fault _ => none
  | .refused _ => none

/-- The error report of a command: code, stage, ERRINFO. -/
def report (s : State) : ErrCode × Stage × Word := (s.ecode, s.stage, s.errinfo)

/-- The 16-byte image of V-IMG-1. -/
def imageV : List Byte :=
  [0x00, 0x1B, 0xB7, 0x00, 0x6F, 0x00, 0x10, 0x00, 0x20, 0x00, 0x28, 0x00, 0x30, 0x00, 0x38, 0x00]

/-- A response that passes the handshake with a version (R160). -/
def answer (v : List Byte) : List Byte := rxh Config.candidates ++ v

/-- The version bytes a version-1 device sends (R160). -/
def versionOne : List Byte := [0xCF, 0xCE, 0xCE, 0xCE]

/-! ### Commands, one step each -/

/-- V-IF-1. -/
theorem test_nop_clears_the_error :
    ended .nop { State.reset with err := true, ecode := .connectionIo, stage := .send } (·.statusWord) =
      some 0x00000002#32 := by decide +kernel
/-- V-ENC-1. -/
theorem test_lookup_sparse_cell : ended (.encLookup 4 1) State.reset (fun t => (t.res0, t.res1)) = some (0xC9, 3) := by
  decide +kernel
/-- V-ENC-11. -/
theorem test_lookup_error :
    ended (.encLookup 3 9) { State.reset with cmd := 0x00012C10 } report =
      some (.operandError, .none, 0x00012C10) := by decide +kernel
/-- V-ENCB-10. -/
theorem test_encode_two_bytes :
    ended .encBytes { onReset [] [] [0x12, 0x34] with arg1 := 2 } (fun t => (t.packet, t.res0, t.res1)) =
      some ([0xCA, 0xCA, 0x92, 0x4A, 0xC9], 5, 16) := by decide +kernel
/-- V-ENCB-13. -/
theorem test_encode_overflow :
    ended .encBytes { State.reset with arg1 := 1, cfg := { Config.candidates with pktCapacity := 2 } }
      (fun t => (report t, t.pktlen)) = some ((.bufferOverflow, .build, 3), 0) := by decide +kernel
/-- V-PKT-1. -/
theorem test_clear : ended .pktClear { State.reset with pktlen := 300 } (·.pktlen) = some 0 := by decide +kernel
/-- V-PKT-2. -/
theorem test_putb : ended .pktPutb { State.reset with arg0 := 0x1F9 } (·.packet) = some [0xF9] := by decide +kernel
/-- V-PKT-5. -/
theorem test_send :
    ended .pktSend { onReset [.ok] [] [] with pkt := Memory.store [] 0 [0x92, 0x92, 0xF2], pktlen := 3 }
      (fun t => (t.res0, t.calls)) = some (3, [.send [0x92, 0x92, 0xF2]]) := by decide +kernel
/-- V-PKT-6. -/
theorem test_send_fails :
    ended .pktSend { onReset [.ioErr] [] [] with pkt := Memory.store [] 0 [0x92], pktlen := 1 } report =
      some (.connectionIo, .send, 0) := by decide +kernel
/-- R153. -/
theorem test_seed : ended .lfsrSeed { State.reset with lfsr := 0 } (·.lfsr) = some 0x50 := by decide +kernel
/-- V-LFSR-4. -/
theorem test_lfsr_step :
    ended .lfsrStep { State.reset with lfsr := 0xFF } (fun t => (t.res0, t.lfsr, t.res1)) = some (1, 0xFE, 0xFE) := by
  decide +kernel
/-- V-HS-5. -/
theorem test_hs_tx :
    ended .hsTx State.reset (fun t => (t.pktlen, t.res0, t.packet.take 8, byteSum t.packet)) =
      some (209, 209, [0x49, 0xCA, 0xE9, 0xD2, 0xD2, 0xE9, 0xC9, 0x92], 0x4D5F) := by decide +kernel
/-- V-HS-2. -/
theorem test_hs_rxbyte :
    ended .hsRxbyte { State.reset with arg0 := 124 } (fun t => (t.res0, t.res1)) = some (0xCF, 1) := by decide +kernel
/-- V-HS-1. -/
theorem test_expected_response : byteSum (rxh Config.candidates) = 0x6B49 := by decide +kernel
/-- V-HS-4. -/
theorem test_hs_verify :
    ended .hsVerify { State.reset with rxcnt := 129, rxb := Memory.store [] 0 (answer versionOne) }
      (fun t => (t.err, t.version)) = some (false, 1) := by decide +kernel
/-- V-HS-4. -/
theorem test_hs_verify_wrong_byte :
    ended .hsVerify { State.reset with rxcnt := 129, rxb := Memory.store [] 0 ((answer versionOne).set 7 0xEF) }
      (fun t => (report t, t.version)) = some ((.handshakeMismatch, .handshakeRx, 7), 0) := by decide +kernel
/-- V-HS-3. -/
theorem test_hs_verdec : ended .hsVerdec { State.reset with arg0 := 0xCFCECECE } (·.res0) = some 64 := by decide +kernel
/-- V-IMG-1. -/
theorem test_cksum :
    ended .imgCksum { onReset [] [] imageV with imgsize := 16 } (fun t => (t.img.get 5, t.res0)) = some (0x13, 1) := by
  decide +kernel
/-- V-IMG-4: the returned sum is signed. -/
theorem test_cksum_negative :
    ended .imgCksum { onReset [] [] [0x80] with imgsize := 8 } (fun t => (t.img.get 5, t.res0)) =
      some (0x94, 0xFFFFFF80) := by decide +kernel
/-- V-IMG-9. -/
theorem test_rdf : ended (.imgRdf 0) { onReset [] [] imageV with imgsize := 16 } (·.res0) = some 0x00B71B00 := by
  decide +kernel
/-- V-IMG-12. -/
theorem test_rdf_past_the_image :
    ended (.imgRdf 1) { onReset [] [] imageV with imgsize := 4 } report = some (.operandError, .none, 1) := by
  decide +kernel
/-- V-IMG-11. -/
theorem test_wrf :
    ended (.imgWrf 3) { onReset [] [] imageV with imgsize := 16, arg0 := 0x12345678 } (fun t => t.img.read 5 4) =
      some [0x00, 0x78, 0x56, 0x20] := by decide +kernel
/-- V-ROM-1. -/
theorem test_rom_cmd_shutdown :
    ended (.romCmd .shutdown) State.reset (·.packet) = some (List.replicate 10 0x92 ++ [0xF2]) := by decide +kernel
/-- V-ROM-3. -/
theorem test_rom_len :
    ended .romLen { State.reset with arg0 := 0x12345678 } (·.packet) =
      some [0x92, 0x93, 0x93, 0xDA, 0x9A, 0xD2, 0x9A, 0x9B, 0xDA, 0x9B, 0xF2] := by decide +kernel
/-- V-ROM-3, the alternative order. -/
theorem test_len_field_lsb_first :
    lenField { Config.candidates with lenOrder := .lsbFirst } 75 =
      [0x9B, 0x93, 0x93] ++ List.replicate 7 0x92 ++ [0xF2] := by decide +kernel
/-- V-ROM-4. -/
theorem test_rom_build :
    ended (.romBuild .run) { State.reset with imgsize := 4 } (fun t => (t.pktlen, t.res0, t.packet.drop 209)) =
      some (242, 242, List.replicate 10 0x92 ++ [0xFA] ++ (List.replicate 10 0x92 ++ [0xFA]) ++
        (List.replicate 10 0x92 ++ [0xF2])) := by decide +kernel
/-- The table of ROM.ACK outcomes: two timeouts, then 0xFE. -/
theorem test_rom_ack :
    ended .romAck { onReset [.ok, .ok, .ok] [.timeout, .timeout, .bytes [0xFE]] [] with
      baud := 115200, arg0 := 1000, arg1 := 250 } (fun t => (t.res0, t.res1, t.rxcnt, t.rxb.get 0)) =
      some (3, 34, 1, 0xFE) := by decide +kernel
/-- The table of ROM.ACK outcomes: a byte other than 0xFE. -/
theorem test_rom_ack_nak :
    ended .romAck { onReset [.ok, .ok] [.timeout, .bytes [0]] [] with baud := 115200, arg0 := 1000 } report =
      some (.checksumNak, .checksumAck, 0) := by decide +kernel
/-- Step 7 of program P1. -/
theorem test_rom_load :
    ended (.romLoad .run) { onReset [.ok, .ok, .ok, .ok] [.bytes (answer versionOne), .timeout, .bytes [0xFE]]
        (imageV.set 5 0x13) with baud := 115200, imgsize := 16 }
      (fun t => (t.statusWord, t.version, t.pktlen, t.pkt.get 270, t.rxcnt)) =
      some (0x00008002, 1, 271, 0xFE, 1) := by decide +kernel
/-- Step 7 of program P1-E. -/
theorem test_rom_load_wrong_byte :
    ended (.romLoad .run) { onReset [.ok, .ok, .ok] [.bytes ((answer versionOne).set 7 0xCE), .bytes [0xFE]]
        (imageV.set 5 0x13) with baud := 115200, imgsize := 16 }
      (fun t => (t.statusWord, t.errinfo, t.version, t.rxcnt, t.calls.length)) =
      some (0x00009416, 7, 0, 129, 3) := by decide +kernel
/-- V-FAST-5. -/
theorem test_xmit_accepted :
    ended (.fastXmit 0 true) { onReset [.ok] [.bytes [4, 0, 0, 0, 0x11, 0x11, 0x11, 0x11]] [0xAB, 0xCD] with
        arg0 := 5, arg2 := 2 } (fun t => (t.res0, t.res1, t.tag, t.calls)) =
      some (4, 1, 0x11111111,
        [.send [5, 0, 0, 0, 0x11, 0x11, 0x11, 0x11, 0xAB, 0xCD], .recv 8 1000]) := by decide +kernel
/-- V-FAST-4: the device echoes the id. -/
theorem test_xmit_echo_is_not_accepted :
    ended (.fastXmit 0 true) { onReset [.ok, .ok, .ok] (List.replicate 3 (.bytes [5, 0, 0, 0, 7, 0, 0, 0])) [] with
        arg0 := 5, arg2 := 2, env := ⟨[.ok, .ok, .ok], List.replicate 3 (.bytes [5, 0, 0, 0, 7, 0, 0, 0]), [7, 7, 7], 0⟩ }
      (fun t => (report t, t.attempt, t.calls.length)) = some ((.packetTimeout, .dataChunk, 5), 3, 6) := by
  decide +kernel
/-- Part A of program P3. -/
theorem test_begin :
    ended .fastBegin { onReset (List.replicate 5 .ok)
        [.bytes (answer versionOne), .bytes [0xFE], .bytes [2, 0, 0, 0, 9, 9, 9, 9]] imageV with
        imgsize := 16, arg0 := 1030, arg1 := 115200, arg2 := 921600 }
      (fun t => (t.fstate, t.pktid, t.img.get 5, t.baud, t.res0, t.res1)) =
      some (.secondStageStarted, 2, 0x13, 921600, 2, 1) := by decide +kernel
/-- R241: a second stage that fails is tried again when another attempt is allowed. -/
theorem test_begin_second_attempt :
    ended .fastBegin { onReset (List.replicate 7 .ok)
        [.timeout, .bytes (answer versionOne), .bytes [0xFE], .bytes [2, 0, 0, 0, 9, 9, 9, 9]] imageV with
        imgsize := 16, arg0 := 1030, arg1 := 115200, arg2 := 921600,
        cfg := { Config.candidates with nStage2Attempts := 2, txh := [] } }
      (fun t => (t.fstate, t.err, t.res1)) = some (.secondStageStarted, false, 2) := by decide +kernel
/-- V-FAST-7, in small: the first accepted result is not PKTID − 1. -/
theorem test_data_mismatch :
    ended .fastData { onReset [.ok] [.bytes [5, 0, 0, 0, 0x11, 0x11, 0x11, 0x11]] [1, 1] with
        arg1 := 2, pktid := 2, fstate := .transmitting } (fun t => (report t, t.pktid, t.cksum, t.fstate)) =
      some ((.resultMismatch, .dataChunk, 5), 2, 0, .failed) := by decide +kernel
/-- Part B of program P3, its second chunk. -/
theorem test_data :
    ended .fastData { onReset [.ok] [.bytes [0, 0, 0, 0, 0x11, 0x11, 0x11, 0x11]] [1, 1, 1, 1, 1, 1] with
        arg1 := 6, pktid := 1, cksum := 0x400, fstate := .transmitting }
      (fun t => (t.pktid, t.cksum, t.res0, t.err)) = some (0, 0x406, 1, false) := by decide +kernel
/-- V-FAST-10. -/
theorem test_end_run :
    ended (.fastEnd .run) { onReset [] [] [] with
        cksum := 0x100, fstate := .transmitting,
        env := ⟨[.ok, .ok, .ok], [.bytes [0x14, 0xF7, 0xFF, 0xFF, 7, 0, 0, 0],
          .bytes [0xFF, 0xFF, 0xFF, 0xFF, 8, 0, 0, 0]], [7, 8, 9], 0⟩ }
      (fun t => (t.cksum, t.fstate, t.err, t.calls.length)) = some (0x8EC, .launched, false, 5) := by decide +kernel
/-- V-FAST-12. -/
theorem test_end_corner :
    ended (.fastEnd .run) { onReset [] [] [] with
        cksum := 0xFFFFF814, fstate := .transmitting,
        env := ⟨[.ok, .ok, .ok], [.bytes [0, 0, 0, 0, 7, 0, 0, 0], .bytes [0, 0, 0, 0, 8, 0, 0, 0],
          .bytes [0, 0, 0, 0, 9, 0, 0, 0]], [7, 8, 9], 0⟩ }
      (fun t => (t.ecode, t.stage)) = some (.packetTimeout, .verifyRam) := by decide +kernel
/-- V-IF-9. -/
theorem test_conn_reset : ended .connReset (onReset [.ok] [] []) (fun t => (t.err, t.calls)) = some (false, [.reset]) := by
  decide +kernel
/-- V-IF-8. -/
theorem test_conn_recv_too_long :
    ended .connRecv { State.reset with arg0 := 257 } report = some (.operandError, .none, 257) := by decide +kernel
/-- V-IF-6. -/
theorem test_conn_recv_timeout :
    ended .connRecv { onReset [] [.timeout] [] with arg0 := 129, rxcnt := 5 } (fun t => (report t, t.rxcnt)) =
      some ((.connectionIo, .handshakeRx, 0xFFFFFFFF), 0) := by decide +kernel
/-- V-IF-2. -/
theorem test_conn_baud : ended .connBaud { onReset [.ok] [] [] with arg0 := 115200 } (·.baud) = some 115200 := by
  decide +kernel

/-! ### The host -/

/-- A state whose host makes one move, once idle. -/
def hostDoes (m : HostMove) : State := { State.reset with hostq := [⟨none, m⟩] }

/-- V-EX-1: the STATUS word after an illegal command. -/
theorem test_illegal_status :
    (match step (hostDoes (.writeReg 0x00 0x000000FF)) with
      | .next t => some (t.statusWord, t.errinfo)
      | _ => none) = some (0x000000A6, 0xFF) := by decide +kernel
/-- V-EX-5. -/
theorem test_acknowledge :
    (match step { hostDoes (.writeReg 0x04 0x0000000E) with
        done := true, err := true, ovr := true, ecode := .illegalCommand } with
      | .next t => some t.statusWord
      | _ => none) = some 0 := by decide +kernel
/-- A fetch word runs as the first command after reset (log 22). -/
theorem test_fetch_word_runs :
    (match step (State.reset.withFetchWord 32 0x00003010) with
      | .next t => some (t.res0, t.res1, t.cmd)
      | _ => none) = some (0xC9, 3, 0x00003010) := by decide +kernel
/-- A host move timed after one sequencer step lands on the running command (log 11, log 20). -/
theorem test_move_lands_while_busy :
    (match exec .lfsrStep { State.reset with hostq := [⟨some 1, .readReg 0x20⟩] } with
      | .next t => some (t.busy, t.lfsr, t.hostDue)
      | _ => none) = some (true, 0x50, true) := by decide +kernel

/-- R63, R73: a move that lands after the first byte of a receive sees that byte, the other one and the count as they
were. -/
theorem test_move_lands_within_a_receive :
    (match exec .connRecv { onReset [] [.bytes [5, 6]] [] with
        arg0 := 2, rxcnt := 2, rxb := Memory.store [] 0 [1, 2], hostq := [⟨some 3, .readRxb 0⟩] } with
      | .next t => some (t.busy, t.rxb.read 0 2, t.rxcnt)
      | _ => none) = some (true, [5, 2], 2) := by decide +kernel
/-- R161, R315: the step after HsVersion's write sees the version before it is refused (log 20). -/
theorem test_move_sees_a_wrong_version :
    (match exec .hsVerify { State.reset with
        rxcnt := 129, rxb := Memory.store [] 0 (answer [0xCE, 0xCE, 0xCE, 0xCE]), version := 1,
        hostq := [⟨some 2, .readReg 0x24⟩] } with
      | .next t => some (t.busy, t.version, t.err)
      | _ => none) = some (true, 0, false) := by decide +kernel
/-- R24: a busy write of a read-only register is ignored and sets OVR. -/
theorem test_busy_write_of_a_result_register :
    (match step { State.reset with phase := .exec .nop 0 [], hostq := [⟨some 0, .writeReg 0x18 7⟩] } with
      | .next t => some (t.ovr, t.res0, t.busy)
      | _ => none) = some (true, 0, true) := by decide +kernel

/-! ### Witnesses: a concrete state that meets the hypotheses of each statement, at the boundary of each clause -/

/-- A state in which a command runs and a move of the host is due. -/
def busyDoes (m : HostMove) : State :=
  { State.reset with
    phase := .exec .nop 0 []
    hostq := [⟨some 0, m⟩] }

/-- With the parameters of reset the machine goes on. -/
theorem guarded_candidates (s : State) (o : Host.Outcome State Fault Refusal) (h : s.cfg = Config.candidates) :
    s.guarded o = o := by
  unfold State.guarded; rw [h, if_pos test_candidates_meet_their_predicates]

/-- With no move of the host left, a state that can make no sequencer step is what its next step answers. -/
theorem step_blocked (s : State) (hc : s.cfg = Config.candidates) (hq : s.hostq = []) (hs : s.seqStep = none) :
    step s = .next s := by
  unfold step; rw [hq]; exact (guarded_candidates s _ hc).trans (by rw [State.resume, State.run_of_blocked (.inr hs)])

/-- A command with one sequencer step to go, and a host that polls STATUS later (R98). -/
def polled : State :=
  { State.reset with
    phase := .exec .nop 0 []
    hostq := [⟨some 3, .readReg 0x04⟩] }

/-- No move lands on it in its next step, though its host does not wait, and the step ends the command: for
StepRunsTheDecodedCommand, CommandsIgnoreTheLfsrRegister, CommandsWriteOnlyTheirOwn and OperandsAndParametersStay. -/
theorem witness_noMoveLands :
    polled.cfg.wf = true ∧ polled.phase ≠ .idle ∧ polled.hostWaits = false ∧ polled.noMoveLands ∧ polled.ownSteps ∧
      writesLfsr .nop = false ∧ step polled = .next { State.reset.doneOk with hostq := [⟨some 2, .readReg 0x04⟩] } :=
  ⟨test_candidates_meet_their_predicates, by simp [polled], rfl, fun _ _ h => by cases h; rfl, rfl, rfl,
    guarded_candidates _ _ rfl⟩

theorem witness_HardwareResetRestoresEveryRegister :
    (hostDoes .reset).cfg.wf = true ∧ (hostDoes .reset).hostq = [⟨none, .reset⟩] ∧ (hostDoes .reset).phase = .idle ∧
      (busyDoes .reset).cfg.wf = true ∧ (busyDoes .reset).hostq = [⟨some 0, .reset⟩] ∧
      (busyDoes .reset).phase ≠ .idle := by decide +kernel

theorem witness_WordsHaveOneMeaning :
    decode 0x0003F410#32 = .ok (.encLookup 5 31) ∧ decode 0x00001C31#32 = .ok (.imgRdf 7) ∧
      decode 0x00000032#32 = .ok (.imgWrf 0) ∧ decode 0x00041C50#32 = .ok (.fastXmit 7 true) ∧
      decode 0x00000340#32 = .ok (.romCmd .programRun) ∧ decode 0x00000042#32 = .ok (.romBuild .shutdown) ∧
      decode 0x00000244#32 = .ok (.romLoad .programShutdown) ∧ decode 0x00000153#32 = .ok (.fastEnd .run) := by decide

theorem witness_RowSelectionIsExact :
    decode 0x0003FC10#32 = .ok (.encLookup 7 31) ∧
      0x0003FC10#32 &&& (rowOf (.encLookup 0 0)).2 = (rowOf (.encLookup 0 0)).1 ∧
      0x0003FC10#32 &&& (rowOf (.encLookup 1 1)).2 = (rowOf (.encLookup 1 1)).1 := by decide

theorem witness_StepRunsTheDecodedCommand :
    (hostDoes (.writeReg 0x00 0x53)).cfg.wf = true ∧ (hostDoes (.writeReg 0x00 0x53)).phase = .idle ∧
      (hostDoes (.writeReg 0x00 0x53)).hostq = [⟨none, .writeReg 0x00 0x53⟩] ∧ decode 0x53 = .ok (.fastEnd .shutdown) ∧
      polled.cfg.wf = true ∧ polled.phase ≠ .idle := by decide +kernel

theorem witness_IllegalWordEndsAtOnce :
    (hostDoes (.writeReg 0x00 0xF0)).cfg.wf = true ∧ (hostDoes (.writeReg 0x00 0xF0)).phase = .idle ∧
      (hostDoes (.writeReg 0x00 0xF0)).hostq = [⟨none, .writeReg 0x00 0xF0⟩] ∧ 0xF0#32 &&& 0xF0#32 = 0xF0#32 ∧
      ∀ i, 0xF0#32 &&& (rowOf i).2 ≠ (rowOf i).1 :=
  ⟨by decide +kernel, rfl, rfl, rfl, fun i => by cases i <;> simp [rowOf, maskNone, maskLT, maskF, maskFV, maskFR]⟩

theorem witness_WritesWhileBusyAreIgnored :
    (busyDoes (.writeReg 0x00 7)).cfg.wf = true ∧ (busyDoes (.writeReg 0x00 7)).phase ≠ .idle ∧
      (busyDoes (.writeReg 0x00 7)).hostq = [⟨some 0, .writeReg 0x00 7⟩] ∧
      (busyDoes (.writeReg 0x48 7)).hostq = [⟨some 0, .writeReg 0x48 7⟩] ∧ 0x48 % 4 = 0 ∧
      ({ State.reset with ovr := true } : State).ovr = true ∧
      step { State.reset with ovr := true } = .next { State.reset with ovr := true } :=
  ⟨by decide +kernel, by decide, rfl, rfl, rfl, rfl, step_blocked _ rfl rfl rfl⟩

theorem witness_IgnoredWriteDoesNotInfluenceTheCommand : (busyDoes .check).phase ≠ .idle := by decide

theorem witness_StatusWriteClears :
    (hostDoes (.writeReg 0x04 0xE)).cfg.wf = true ∧ (hostDoes (.writeReg 0x04 0xE)).phase = .idle ∧
      (hostDoes (.writeReg 0x04 0xE)).hostq = [⟨none, .writeReg 0x04 0xE⟩] := by decide +kernel

theorem witness_IdleRegisterAccess :
    (hostDoes (.readReg 0x48)).cfg.wf = true ∧ (hostDoes (.readReg 0x48)).hostq = [⟨none, .readReg 0x48⟩] ∧
      (hostDoes (.readReg 0x4C)).hostq = [⟨none, .readReg 0x4C⟩] ∧ (hostDoes (.readReg 0x48)).phase = .idle ∧
      (busyDoes (.readReg 0x00)).hostq = [⟨some 0, .readReg 0x00⟩] ∧
      (busyDoes (.readReg 0x04)).hostq = [⟨some 0, .readReg 0x04⟩] ∧ 0x48 % 4 = 0 ∧ 0x4C % 4 = 0 ∧
      (hostDoes (.writeReg 0x08 1)).hostq = [⟨none, .writeReg 0x08 1⟩] ∧
      (hostDoes (.writeReg 0x40 1)).hostq = [⟨none, .writeReg 0x40 1⟩] := by decide +kernel

theorem witness_ReadsHaveNoSideEffects :
    (hostDoes (.readReg 0x20)).hostq = [⟨none, .readReg 0x20⟩] ∧ (hostDoes (.readReg 0x20)).phase = .idle ∧
      step (hostDoes (.readReg 0x20)) = .next { State.reset with rdata := 0x50 } :=
  ⟨rfl, rfl, guarded_candidates _ _ rfl⟩

/-- One readable byte of PKT and of RXB, and the host reads at an offset. -/
def oneByte (m : HostMove) : State := { hostDoes m with pktlen := 1, rxcnt := 1 }

theorem witness_PktAndRxbReads :
    (oneByte (.readPkt 0)).cfg.wf = true ∧ (oneByte (.readPkt 0)).phase = .idle ∧
      (oneByte (.readPkt 0)).hostq = [⟨none, .readPkt 0⟩] ∧ 0 < (oneByte (.readPkt 0)).pktlen.toNat ∧
      (oneByte (.readPkt 1)).pktlen.toNat ≤ 1 ∧ (oneByte (.readRxb 0)).hostq = [⟨none, .readRxb 0⟩] ∧
      0 < (oneByte (.readRxb 0)).rxcnt.toNat ∧ (oneByte (.readRxb 1)).rxcnt.toNat ≤ 1 := by decide +kernel

theorem witness_ImgAndMisalignedAccesses :
    (hostDoes (.readImg 65535)).cfg.wf = true ∧ 65535 < (hostDoes (.readImg 65535)).cfg.imgMemSize ∧
      (hostDoes (.readImg 65536)).cfg.imgMemSize ≤ 65536 ∧ (busyDoes (.writeImg 0 1)).phase ≠ .idle ∧
      (busyDoes (.writeImg 0 1)).hostq = [⟨some 0, .writeImg 0 1⟩] ∧
      (hostDoes (.writeImg 65535 1)).hostq = [⟨none, .writeImg 65535 1⟩] ∧
      (hostDoes (.readReg 0x4A)).hostq = [⟨none, .readReg 0x4A⟩] ∧ 0x4A % 4 ≠ 0 := by decide +kernel

theorem witness_ProgramsStopAtTheFirstError :
    (hostDoes .check).cfg.wf = true ∧ (hostDoes .check).phase = .idle ∧ (hostDoes .check).hostq = [⟨none, .check⟩] ∧
      ({ State.reset with hostq := [hostAck] } : State).hostq = [hostAck] := by decide +kernel

theorem witness_ConnRecvResult :
    (onReset [] [.bytes (answer versionOne)] []).hostWaits = true ∧ State.reset.arg0 = 0#32 ∧
      ({ State.reset with arg0 := 257 } : State).cfg.rxbSize < 257 ∧
      ({ State.reset with arg0 := 256 } : State).arg0.toNat ≤ ({ State.reset with arg0 := 256 } : State).cfg.rxbSize ∧
      ({ onReset [] [.bytes [7]] [] with arg0 := 1 } : State).arg0 ≠ 0#32 ∧ [7#8].length = (1#32).toNat ∧
      ({ onReset [] [.bytes [7]] [] with arg0 := 1 } : State).env.rx = [.bytes [7]] ∧
      (onReset [] [.timeout] []).env.rx = [.timeout] ∧ (onReset [] [.ioErr] []).env.rx = [.ioErr] := by decide +kernel

theorem witness_NopConnResetAndConnBaud :
    (onReset [.ok] [] []).hostWaits = true ∧ (onReset [.ok] [] []).env.status = [.ok] ∧
      (onReset [.ioErr] [] []).env.status = [.ioErr] ∧ (onReset [.ok] [] []).arg0 = 0#32 ∧
      ({ onReset [.ok] [] [] with arg0 := 1 } : State).arg0 ≠ 0#32 := by decide

/-- For the statements whose only hypothesis is a host that waits: EncLookupResult, LfsrSeedAndStep,
CommandsEndOrWaitForAnAnswer. -/
theorem witness_hostWaits : State.reset.hostWaits = true ∧ (hostDoes .check).hostWaits = true := by decide

theorem witness_EncodeBitsIsTheWalker :
    Config.candidates.wfEnc = true ∧ [true] ≠ [] ∧ bitStream [0x80] ≠ [] := by decide +kernel

theorem witness_EncBytesAppendsAllOrNothing :
    ({ State.reset with arg0 := 65536, arg1 := 1 } : State).cfg.imgMemSize < 65536 + 1 ∧
      65535 + 1 ≤ ({ State.reset with arg0 := 65535, arg1 := 1 } : State).cfg.imgMemSize ∧
      State.reset.cfg.pktCapacity.toNat < 2046 + (encodeBits State.reset.cfg [0]).length ∧
      2045 + (encodeBits State.reset.cfg [0]).length ≤ State.reset.cfg.pktCapacity.toNat := by decide +kernel

theorem witness_PktClearAndPutb :
    State.reset.cfg.pktCapacity.toNat < ({ State.reset with pktlen := 2048 } : State).pktlen.toNat + 1 ∧
      ({ State.reset with pktlen := 2047 } : State).pktlen.toNat + 1 ≤ State.reset.cfg.pktCapacity.toNat := by decide

theorem witness_PktSendResult :
    State.reset.pktlen = 0#32 ∧ ({ onReset [.ok] [] [] with pktlen := 1 } : State).pktlen ≠ 0#32 ∧
      ({ onReset [.ok] [] [] with pktlen := 1 } : State).env.status = [.ok] ∧
      ({ onReset [.ioErr] [] [] with pktlen := 1 } : State).env.status = [.ioErr] := by decide

theorem witness_CommandsIgnoreTheLfsrRegister :
    writesLfsr .nop = false ∧ exec .nop State.reset = .next State.reset.doneOk ∧
      writesLfsr .connReset = false ∧
      ({ State.reset with phase := .exec .connReset 0 [.wasReset] } : State).ownSteps ∧
      step { State.reset with phase := .exec .connReset 0 [.wasReset] } =
        .next { State.reset with phase := .exec .connReset 0 [.wasReset] } :=
  ⟨rfl, by rfl, rfl, by rfl, step_blocked _ rfl rfl rfl⟩

theorem witness_HsRxbyteAndVerdec :
    125 ≤ ({ State.reset with arg0 := 125 } : State).arg0.toNat ∧
      ({ State.reset with arg0 := 124 } : State).arg0.toNat < 125 := by decide

theorem witness_ExpectedResponseAndVersion : versionOne.length = 4 := by decide

/-- A received response. -/
def received (l : List Byte) (n : Word) : State := { State.reset with rxb := Memory.store [] 0 l, rxcnt := n }

theorem witness_HsVerifyResult :
    (received [] 128).rxcnt.toNat < 129 ∧ 129 ≤ (received (answer versionOne) 129).rxcnt.toNat ∧
      (received [0] 129).rxb.get 0 ≠ rxhByte State.reset.cfg 0 ∧
      (∀ j, j < 125 → (received (answer versionOne) 129).rxb.get j = rxhByte State.reset.cfg j) ∧
      verDecode versionOne = 1#8 ∧ verDecode [0xCE, 0xCE, 0xCE, 0xCE] ≠ 1#8 := by decide +kernel

theorem witness_ImgCksumReachesTheTarget :
    ({ State.reset with imgsize := 5 } : State).imgsize.toNat < 6 ∧
      6 ≤ ({ State.reset with imgsize := 6 } : State).imgsize.toNat ∧
      ({ State.reset with imgsize := 65536 } : State).imgsize.toNat ≤ State.reset.cfg.imgMemSize ∧
      State.reset.cfg.imgMemSize < ({ State.reset with imgsize := 65537 } : State).imgsize.toNat := by decide

theorem witness_ImgRdfAndImgWrfResult :
    imgField 7 = none ∧ imgField 6 = some (12, 2) ∧
      ({ State.reset with imgsize := 13 } : State).imgsize.toNat < 12 + 2 ∧
      12 + 2 ≤ ({ State.reset with imgsize := 14 } : State).imgsize.toNat ∧
      ({ State.reset with imgsize := 14 } : State).imgsize.toNat ≤ State.reset.cfg.imgMemSize := by decide

theorem witness_HsTxRomCmdAndRomLen :
    State.reset.cfg.wf = true ∧ State.reset.cfg.pktCapacity.toNat < 1840 + 209 ∧
      1839 + 209 ≤ State.reset.cfg.pktCapacity.toNat ∧ State.reset.cfg.pktCapacity.toNat < 2038 + 11 ∧
      2037 + 11 ≤ State.reset.cfg.pktCapacity.toNat := by decide +kernel

theorem witness_LenFieldDeterminesTheCount :
    Config.candidates.lenOrder = .msbFirst ∧
      ({ Config.candidates with lenOrder := .lsbFirst } : Params).lenOrder = .lsbFirst ∧
      Config.candidates.lenSlot0 ≠ Config.candidates.lenSlot1 ∧ Config.candidates.lenSlot0 ≠ Config.candidates.lenSlot2 ∧
      Config.candidates.lenSlot1 ≠ Config.candidates.lenSlot2 ∧
      (Config.candidates.lenElemBase.getLsbD Config.candidates.lenSlot0.val ||
        Config.candidates.lenElemBase.getLsbD Config.candidates.lenSlot1.val ||
        Config.candidates.lenElemBase.getLsbD Config.candidates.lenSlot2.val ||
        Config.candidates.lenFinalTag.getLsbD Config.candidates.lenSlot0.val ||
        Config.candidates.lenFinalTag.getLsbD Config.candidates.lenSlot1.val) = false := by decide

theorem witness_RomBuildResult :
    LoadType.run ≠ .shutdown ∧ ({ State.reset with imgsize := 6 } : State).imgsize.toNat % 4 ≠ 0 ∧
      ({ State.reset with imgsize := 4 } : State).imgsize.toNat % 4 = 0 ∧
      (romPacket Config.candidates .run [0, 0, 0, 0]).length ≤ Config.candidates.pktCapacity.toNat ∧
      ({ Config.candidates with pktCapacity := 241 } : Params).pktCapacity.toNat <
        (romPacket Config.candidates .run [0, 0, 0, 0]).length := by decide +kernel

/-- A state with a baud rate in which a command that polls gets these answers. -/
def polling (status : List IoStatus) (rx : List RxAnswer) : State := { onReset status rx [] with baud := 115200 }

/-- The last of 34 polls, and poll 3 of them: for RomAckResult beyond poll 1 of 1. -/
theorem witness_RomAckResult_later_polls :
    max 1 ((1000 * 10 * 1000 / 115200 + 250 + 9) / 10) = 34 ∧
      (polling [.ok, .ok, .ok] [.timeout, .timeout, .bytes [0xFE]]).env.status = List.replicate (3 - 1) .ok ++ [.ok] ∧
      (polling [.ok, .ok, .ok] [.timeout, .timeout, .bytes [0xFE]]).env.rx =
        List.replicate (3 - 1) .timeout ++ [.bytes [0xFE]] ∧
      (polling (List.replicate 34 .ok) (List.replicate 34 .timeout)).env.rx =
        List.replicate (34 - 1) .timeout ++ [.timeout] := ⟨by decide, rfl, rfl, rfl⟩

theorem witness_RomAckResult :
    State.reset.baud = 0#32 ∧ (polling [] []).baud ≠ 0#32 ∧ (polling [] []).baud.toNat = 115200 ∧
      (polling [] []).hostWaits = true ∧ max 1 ((0 * 10 * 1000 / 115200 + 0 + 9) / 10) = 1 ∧
      (polling [.ok] [.bytes [0xFE]]).env.status = List.replicate (1 - 1) .ok ++ [.ok] ∧
      (polling [.ok] [.bytes [0xFE]]).env.rx = List.replicate (1 - 1) .timeout ++ [.bytes [0xFE]] ∧ 0x00#8 ≠ 0xFE#8 ∧
      (polling [.ok] [.bytes [0]]).env.rx = List.replicate (1 - 1) .timeout ++ [.bytes [0]] ∧
      (polling [.ok] [.ioErr]).env.rx = [.ioErr] ∧ (polling [.ioErr] []).env.status = [.ioErr] ∧
      (polling [.ok] [.timeout]).env.rx = [.timeout] :=
  ⟨rfl, by decide, rfl, rfl, by decide, rfl, rfl, by decide, rfl, rfl, rfl, rfl⟩

/-- A load of an empty image with a baud rate. -/
def loading (status : List IoStatus) (rx : List RxAnswer) : State := polling status (.bytes (answer versionOne) :: rx)

/-- The response meets what a load asks of it. -/
theorem witness_answer :
    (answer versionOne).length = 129 ∧ (∀ n, n < 125 → (answer versionOne).getD n 0#8 = rxhByte Config.candidates n) ∧
      verDecode ((answer versionOne).drop 125) = 1#8 := by decide +kernel

/-- The same with LT 1, the acknowledgement at poll 2: for RomLoadSucceeds. -/
theorem witness_RomLoadSucceeds_run :
    (loading (List.replicate 4 .ok) (ackAtPoll 2)).hostWaits = true ∧ LoadType.run ≠ .shutdown ∧
      (romPacket Config.candidates .run []).length ≤ Config.candidates.pktCapacity.toNat ∧
      2 ≤ pollCount (romPacket Config.candidates .run []).length 250 115200 ∧
      (loading (List.replicate 4 .ok) (ackAtPoll 2)).env.status =
        List.replicate (2 + 2 + if needsEeprom .run then 1 + 1 else 0) .ok ++ [] ∧
      (loading (List.replicate 4 .ok) (ackAtPoll 2)).env.rx =
        .bytes (answer versionOne) ::
          (ackAtPoll 2 ++ (if needsEeprom .run then ackAtPoll 1 ++ ackAtPoll 1 else []) ++ []) := by
  decide +kernel

theorem witness_RomLoadSucceeds :
    (loading (List.replicate 5 .ok) []).hostWaits = true ∧ LoadType.programRun ≠ .shutdown ∧
      (romPacket Config.candidates .programRun []).length ≤ Config.candidates.pktCapacity.toNat ∧
      1 ≤ pollCount (romPacket Config.candidates .programRun []).length 250 115200 ∧
      1 ≤ pollCount 0 5000 115200 ∧ 1 ≤ pollCount 0 2000 115200 ∧
      (loading (List.replicate 5 .ok) (ackAtPoll 1 ++ (ackAtPoll 1 ++ ackAtPoll 1))).env.status =
        List.replicate (2 + 1 + if needsEeprom .programRun then 1 + 1 else 0) .ok ++ [] ∧
      (loading (List.replicate 5 .ok) (ackAtPoll 1 ++ (ackAtPoll 1 ++ ackAtPoll 1))).env.rx =
        .bytes (answer versionOne) ::
          (ackAtPoll 1 ++ (if needsEeprom .programRun then ackAtPoll 1 ++ ackAtPoll 1 else []) ++ []) := by
  decide +kernel

/-- A packet of an empty image. -/
def emptyPacket (lt : LoadType) : List Byte := romPacket Config.candidates lt []

theorem emptyPacket_fits (lt : LoadType) : (emptyPacket lt).length ≤ Config.candidates.pktCapacity.toNat := by
  cases lt <;> decide +kernel

theorem answer_good : goodResponse Config.candidates (answer versionOne) := witness_answer

/-- Acknowledgements at polls 2 and 3 of a load that programs the EEPROM. -/
theorem witness_ackedAt : ackedAt [2, 3] (ackBudgets .programRun (emptyPacket .programRun) 115200) := by
  refine ⟨by decide +kernel, fun k i h => ?_⟩
  match k with
  | 0 => cases h; exact ⟨by decide, fun b hb => by cases hb; decide +kernel⟩
  | 1 => cases h; exact ⟨by decide, fun b hb => by cases hb; decide +kernel⟩
  | k + 2 => simp at h

/-- Each way a slow load fails is possible, the acknowledgements at their first, second and third. -/
theorem witness_slowFailures :
    SlowFailure.possible .overflow { Config.candidates with pktCapacity := 200 } .run (emptyPacket .run) 115200 ∧
    (∀ f ∈ [SlowFailure.resetFails, .sendFails, .recvFails, .noResponse],
      f.possible Config.candidates .run (emptyPacket .run) 115200) ∧
    SlowFailure.possible (.differs (List.replicate 129 0) 0) Config.candidates .run (emptyPacket .run) 115200 ∧
    SlowFailure.possible (.differs ((answer versionOne).set 124 0) 124) Config.candidates .run (emptyPacket .run)
      115200 ∧
    SlowFailure.possible (.badVersion (answer [0xCE, 0xCE, 0xCE, 0xCE])) Config.candidates .run (emptyPacket .run)
      115200 ∧
    (∀ g ∈ [AckFailure.nak 0, .recvFails, .sendFails],
      SlowFailure.possible (.ack (answer versionOne) [] 2 g) Config.candidates .programRun (emptyPacket .programRun)
        115200) ∧
    SlowFailure.possible (.ack (answer versionOne) [2] 500 .exhausted) Config.candidates .programRun
      (emptyPacket .programRun) 115200 ∧
    SlowFailure.possible (.ack (answer versionOne) [2, 3] 200 .exhausted) Config.candidates .programRun
      (emptyPacket .programRun) 115200 := by
  refine ⟨by unfold SlowFailure.possible; decide +kernel, ?_, ?_, ?_, ?_, ?_, ?_, ?_⟩
  · intro f hf
    simp only [List.mem_cons, List.not_mem_nil, or_false] at hf
    rcases hf with rfl | rfl | rfl | rfl <;> exact emptyPacket_fits _
  · exact ⟨emptyPacket_fits _, by decide +kernel, by decide, fun j hj => absurd hj (by omega), by decide +kernel⟩
  · exact ⟨emptyPacket_fits _, by decide +kernel, by decide, by decide +kernel, by decide +kernel⟩
  · exact ⟨emptyPacket_fits _, by decide +kernel, by decide +kernel, by decide +kernel⟩
  · intro g hg
    refine ⟨emptyPacket_fits _, answer_good, ⟨by decide +kernel, fun k i h => by simp at h⟩, _, rfl, ?_⟩
    simp only [List.mem_cons, List.not_mem_nil, or_false] at hg
    rcases hg with rfl | rfl | rfl
    · exact ⟨by decide, by decide +kernel, by decide⟩
    · exact ⟨by decide, by decide +kernel, trivial⟩
    · exact ⟨by decide, by decide +kernel, trivial⟩
  · refine ⟨emptyPacket_fits _, answer_good, ⟨by decide +kernel, fun k i h => ?_⟩, _, rfl, by decide, by decide +kernel,
      by decide +kernel⟩
    match k with
    | 0 => cases h; exact ⟨by decide, fun b hb => by cases hb; decide +kernel⟩
    | k + 1 => simp at h
  · exact ⟨emptyPacket_fits _, answer_good, witness_ackedAt, _, rfl, by decide, by decide +kernel, by decide +kernel⟩

/-- A load in which a slow load fails in a given way. -/
def failing (f : SlowFailure) : State := polling f.statuses f.answers

theorem witness_RomLoadStopsAtAMismatch :
    ({ polling [] [] with imgsize := 6 } : State).imgsize.toNat % 4 ≠ 0 ∧ State.reset.baud = 0#32 ∧
      ∀ f : SlowFailure, (failing f).hostWaits = true ∧ (failing f).baud = 115200 ∧ (failing f).imgsize.toNat % 4 = 0 ∧
        (failing f).imgsize.toNat ≤ (failing f).cfg.imgMemSize ∧ (failing f).cfg = Config.candidates ∧
        (∀ lt, romPacket (failing f).cfg lt ((failing f).img.read 0 (failing f).imgsize.toNat) = emptyPacket lt) ∧
        (failing f).env.status = f.statuses ++ [] ∧ (failing f).env.rx = f.answers ++ [] :=
  ⟨by decide, rfl, fun f => ⟨rfl, rfl, rfl, Nat.zero_le _, rfl, fun _ => rfl, (List.append_nil _).symm, (List.append_nil _).symm⟩⟩

theorem witness_FastXmitAccepted :
    let s : State := { onReset [.ok, .ok] [.timeout, .bytes (response 1 8)] [] with
      arg0 := 5, env := ⟨[.ok, .ok], [.timeout, .bytes (response 1 8)], [7, 8], 0⟩ }
    s.hostWaits = true ∧ s.arg1.toNat + s.arg2.toNat ≤ s.cfg.imgMemSize ∧ 8 + (s.xmitPayload 0).length ≤ s.cfg.maxDataSize ∧
      2 = [RxAnswer.timeout].length + 1 ∧ (response 1 8).length = 8 ∧ le32 ((response 1 8).drop 4) = s.env.tagNo (2 - 1) ∧
      le32 (response 1 8) ≠ s.arg0 ∧ s.env.status = List.replicate 2 .ok ++ [] ∧
      s.env.rx = [.timeout] ++ .bytes (response 1 8) :: [] := by decide

theorem witness_noneAccepted :
    noneAccepted 5 ⟨[], [], [7, 8, 9], 0⟩ [.timeout, .bytes (response 5 8), .bytes (response 1 7)] := by
  intro k r h
  match k with
  | 0 => simp at h; subst h; trivial
  | 1 => simp at h; subst h; exact (by decide : ¬(8#32 = 8#32 ∧ 5#32 ≠ 5#32))
  | 2 => simp at h; subst h; exact (by decide : ¬(7#32 = 9#32 ∧ 1#32 ≠ 5#32))
  | k + 3 => simp at h

theorem witness_FastXmitExhausted :
    let rx : List RxAnswer := [.timeout, .bytes (response 5 8), .bytes (response 1 7)]
    let s : State := { onReset [.ok, .ok, .ok] rx [] with arg0 := 5, env := ⟨[.ok, .ok, .ok], rx, [7, 8, 9], 0⟩ }
    s.hostWaits = true ∧ 8 + (s.xmitPayload 4).length ≤ s.cfg.maxDataSize ∧ s.env.status = [.ok, .ok, .ok] ∧
      s.env.rx = rx := by decide

theorem witness_FastXmitChecksAndSendOnly :
    5 ≤ (5#3).toNat ∧ (4#3).toNat ≤ 4 ∧ State.reset.cfg.imgMemSize < (65536#32).toNat + (1#32).toNat ∧
      State.reset.cfg.maxDataSize < 8 + (({ State.reset with arg2 := 1025 } : State).xmitPayload 0).length ∧
      8 + (({ State.reset with arg2 := 1024 } : State).xmitPayload 0).length ≤ State.reset.cfg.maxDataSize ∧
      (onReset [.ok] [] []).env.status = [.ok] ∧ (onReset [.ioErr] [] []).env.status = [.ioErr] := by decide +kernel

/-- An exchange whose first answers time out. -/
def asking (w : Wanted) (timeouts : Nat) : Accepted := ⟨w, List.replicate timeouts .timeout⟩

theorem noneAccepted_timeouts (id : Word) (e : Env) (k : Nat) : noneAccepted id e (List.replicate k .timeout) := by
  intro j r h
  obtain rfl : r = .timeout := List.eq_of_mem_replicate (List.mem_of_getElem? h)
  trivial

/-- Each way an exchange fails is possible, a failed send and a failed receive at attempts 1 and 3: for
FastXmitChecksAndSendOnly, FastDataChecksAndMismatch and FastEndChecks. -/
theorem witness_exchangeFailures (w : Wanted) (e : Env) (r : Word) (h : r ≠ w.id ∧ r ≠ w.want) :
    ExchangeFailure.possible .sendFails (asking w 0) e ∧ ExchangeFailure.possible .sendFails (asking w 2) e ∧
      ExchangeFailure.possible .recvFails (asking w 0) e ∧ ExchangeFailure.possible .recvFails (asking w 2) e ∧
      ExchangeFailure.possible (.unexpected r) (asking w 1) e ∧ ExchangeFailure.possible .exhausted (asking w 3) e :=
  have n (k : Nat) : noneAccepted (asking w k).asked.id e (asking w k).bad := noneAccepted_timeouts w.id e k
  ⟨⟨n 0, by simp [asking]⟩, ⟨n 2, by simp [asking]⟩, ⟨n 0, by simp [asking]⟩, ⟨n 2, by simp [asking]⟩,
    ⟨n 1, by simp [asking], h⟩, ⟨n 3, by simp [asking]⟩⟩

/-- A FAST.XMIT whose receive fails at attempt 2. -/
theorem witness_FastXmitFails :
    let x := asking ⟨5, [], 1000, .dataChunk, 0⟩ 1
    let s : State := { onReset [.ok, .ok] [.timeout, .ioErr] [] with arg0 := 5 }
    s.hostWaits = true ∧ x.asked.id = s.arg0 ∧ x.asked.payload = s.xmitPayload 4 ∧ x.asked.timeout = s.cfg.tPktMs ∧
      s.env.status = ExchangeFailure.recvFails.statuses x.bad ++ [] ∧
      s.env.rx = ExchangeFailure.recvFails.answers x.bad s.env ++ [] := by decide

/-- A fast load of an image of 8 zero bytes. -/
def beginning (status : List IoStatus) (rx : List RxAnswer) : State :=
  { onReset status rx [] with arg0 := 1025, arg1 := 115200, arg2 := 921600, imgsize := 8 }

/-- The parameters of reset with two attempts of the second stage. -/
def twoAttempts : Params := { Config.candidates with nStage2Attempts := 2 }

/-- The packet of the second stage of `beginning`. -/
def beginPacket : List Byte :=
  romPacket Config.candidates .run (((beginning [] []).img.store 5 [(beginning [] []).newCksum]).read 0 8)

/-- The answers of a second stage that starts. -/
def startAnswers : List RxAnswer := .bytes (answer versionOne) :: (ackAtPoll 1 ++ [.bytes (response 2 0)])

/-- FAST.BEGIN whose first attempt succeeds. -/
def beginOnce : State := beginning (List.replicate 5 .ok) startAnswers

/-- FAST.BEGIN whose first attempt gets no response and whose second one succeeds. -/
def beginTwice : State := { beginning (List.replicate 7 .ok) (.timeout :: startAnswers) with cfg := twoAttempts }

theorem witness_FastBeginSucceeds :
    beginOnce.hostWaits = true ∧ beginOnce.arg1 ≠ 0#32 ∧ beginOnce.arg2 ≠ 0#32 ∧ 6 ≤ beginOnce.imgsize.toNat ∧
      beginOnce.imgsize.toNat % 4 = 0 ∧ beginOnce.imgsize.toNat ≤ beginOnce.cfg.imgMemSize ∧
      beginPacket.length ≤ beginOnce.cfg.pktCapacity.toNat ∧ 1 ≤ pollCount beginPacket.length 250 beginOnce.arg1 ∧
      (response 2 0).length = 8 ∧ le32 (response 2 0) = BitVec.ofNat 32 ((beginOnce.arg0.toNat + 1023) / 1024) ∧
      [SlowFailure.noResponse].length < beginTwice.cfg.nStage2Attempts := by decide +kernel

theorem witness_FastBeginSucceeds_answers :
    romPacket beginOnce.cfg .run ((beginOnce.img.store 5 [beginOnce.newCksum]).read 0 8) = beginPacket ∧
      beginOnce.env.status = .ok :: (([] : List SlowFailure).flatMap SlowFailure.statuses ++ List.replicate (3 + 1) .ok ++ []) ∧
      beginOnce.env.rx = ([] : List SlowFailure).flatMap SlowFailure.answers ++ .bytes (answer versionOne) ::
        (ackAtPoll 1 ++ .bytes (response 2 0) :: []) ∧
      beginTwice.env.status = .ok :: ([SlowFailure.noResponse].flatMap SlowFailure.statuses ++ List.replicate (3 + 1) .ok ++ []) ∧
      beginTwice.env.rx = [SlowFailure.noResponse].flatMap SlowFailure.answers ++ .bytes (answer versionOne) ::
        (ackAtPoll 1 ++ .bytes (response 2 0) :: []) := ⟨rfl, rfl, rfl, rfl, rfl⟩

theorem witness_FastBeginChecks :
    State.reset.arg1 = 0#32 ∧ ({ beginning [] [] with imgsize := 5 } : State).imgsize.toNat < 6 ∧
      ({ beginning [] [] with imgsize := 6 } : State).imgsize.toNat % 4 ≠ 0 ∧ (beginning [.ioErr] []).arg1 ≠ 0#32 ∧
      (beginning [.ioErr] []).arg2 ≠ 0#32 ∧ 6 ≤ (beginning [.ioErr] []).imgsize.toNat ∧
      (beginning [.ioErr] []).imgsize.toNat % 4 = 0 ∧
      (beginning [.ioErr] []).imgsize.toNat ≤ (beginning [.ioErr] []).cfg.imgMemSize ∧
      (beginning [.ioErr] []).env.status = [.ioErr] := by decide

/-- FAST.BEGIN whose one attempt gets no response, whose two attempts fail, and whose readiness fails in each way. -/
theorem witness_FastBeginChecks_attempts_and_readiness :
    ([] : List SlowFailure).length + 1 = max 1 (beginning [] []).cfg.nStage2Attempts ∧
      (beginning [.ok, .ok, .ok] [.timeout]).env.status =
        .ok :: (([] ++ [SlowFailure.noResponse]).flatMap SlowFailure.statuses ++ []) ∧
      (beginning [.ok, .ok, .ok] [.timeout]).env.rx = ([] ++ [SlowFailure.noResponse]).flatMap SlowFailure.answers ++ [] ∧
      [SlowFailure.resetFails].length + 1 = max 1 twoAttempts.nStage2Attempts ∧
      (beginning [.ok, .ioErr, .ok, .ok] [.timeout]).env.status =
        .ok :: (([SlowFailure.resetFails] ++ [SlowFailure.noResponse]).flatMap SlowFailure.statuses ++ []) ∧
      (∀ f ∈ [ReadyFailure.noResponse, .recvFails, .unexpected (response 3 0), .baudFails (response 2 0)],
        f.possible (BitVec.ofNat 32 (((beginning [] []).arg0.toNat + 1023) / 1024)) ∧
          (beginning (List.replicate 4 .ok ++ f.statuses) (.bytes (answer versionOne) :: (ackAtPoll 1 ++ [f.answer]))).env.status =
            .ok :: (([] : List SlowFailure).flatMap SlowFailure.statuses ++ List.replicate (2 + 1) .ok ++ f.statuses ++ [])) := by
  refine ⟨rfl, rfl, rfl, rfl, rfl, fun f hf => ?_⟩
  simp only [List.mem_cons, List.not_mem_nil, or_false] at hf
  rcases hf with rfl | rfl | rfl | rfl
  · exact ⟨trivial, rfl⟩
  · exact ⟨trivial, rfl⟩
  · exact ⟨⟨by decide, by decide⟩, rfl⟩
  · exact ⟨⟨by decide, by decide⟩, rfl⟩

/-- A transfer in state Transmitting. -/
def sending (status : List IoStatus) (rx : List RxAnswer) (size : Word) : State :=
  { State.reset with arg1 := size, pktid := 3, fstate := .transmitting, env := ⟨status, rx, [7, 8, 9, 10], 0⟩ }

/-- Two chunks, the first accepted at its second attempt; and no chunk. -/
theorem witness_FastDataSendsEveryChunk :
    let bads : List (List RxAnswer) := [[.timeout], []]
    let rx : List RxAnswer := [.timeout, .bytes (response 2 8), .bytes (response 1 9)]
    let s := sending [.ok, .ok, .ok] rx 1025
    let xs := dataChunks s s.arg0.toNat s.arg1.toNat 0 bads
    s.hostWaits = true ∧ s.arg0.toNat + s.arg1.toNat ≤ s.cfg.imgMemSize ∧
      8 + min s.arg1.toNat 1024 ≤ s.cfg.maxDataSize ∧ s.fstate = .transmitting ∧ 2 = (s.arg1.toNat + 1023) / 1024 ∧
      bads.length = 2 ∧ s.env.status = List.replicate (tagsDrawn xs) .ok ++ [] ∧
      s.env.rx = acceptedAnswers s.env xs ++ [] ∧ 0 = ((sending [] [] 0).arg1.toNat + 1023) / 1024 := by
  decide +kernel

/-- The exchanges of the witness above are accepted so. -/
theorem witness_allAccepted :
    let s := sending [.ok, .ok, .ok] [.timeout, .bytes (response 2 8), .bytes (response 1 9)] 1025
    allAccepted s.env (dataChunks s s.arg0.toNat s.arg1.toNat 0 [[.timeout], []]) :=
  ⟨by decide, by decide, noneAccepted_timeouts _ _ 1, by decide, by decide, fun _ _ h => by simp at h, trivial⟩

/-- The checks of FAST.DATA; a mismatch at the first chunk, and a failed send at the second after the first was
accepted. -/
theorem witness_FastDataChecksAndMismatch :
    let s := sending [.ok] [.bytes (response 9 7)] 1025
    let x : Accepted := ⟨dataChunk s s.arg0.toNat s.arg1.toNat 0, []⟩
    let s' := sending [.ok, .ok, .ioErr] [.timeout, .bytes (response 2 8)] 1025
    let xs := dataChunks s' s'.arg0.toNat s'.arg1.toNat 0 [[.timeout]]
    s.cfg.imgMemSize < (65536#32).toNat + s.arg1.toNat ∧ s.arg0.toNat + s.arg1.toNat ≤ s.cfg.imgMemSize ∧
      s.arg1 ≠ 0#32 ∧ ({ Config.candidates with maxDataSize := 1031 } : Params).maxDataSize < 8 + min s.arg1.toNat 1024 ∧
      8 + min s.arg1.toNat 1024 ≤ s.cfg.maxDataSize ∧ State.reset.fstate ≠ .secondStageStarted ∧
      State.reset.fstate ≠ .transmitting ∧ 1024 * 0 < s.arg1.toNat ∧ 9#32 ≠ x.asked.id ∧ 9#32 ≠ x.asked.want ∧
      s.env.status = (ExchangeFailure.unexpected 9).statuses x.bad ++ [] ∧
      s.env.rx = (ExchangeFailure.unexpected 9).answers x.bad s.env ++ [] ∧ 1024 * 1 < s'.arg1.toNat ∧
      s'.env.status = List.replicate (tagsDrawn xs) .ok ++ ExchangeFailure.sendFails.statuses [] ++ [] ∧
      s'.env.rx = acceptedAnswers s'.env xs ++ ExchangeFailure.sendFails.answers [] (s'.env.afterTags 2) ++ [] := by decide

/-- The exchanges of FAST.END for ProgramAndRun, the first accepted at its second attempt. -/
def endAccepted (s : State) (sum : Word) : List Accepted :=
  (controlExchanges s .programRun sum).zipWith (fun w bad => ⟨w, bad⟩) [[.timeout], [], []]

theorem witness_FastEndLaunches :
    let sum : Word := 0x7EC
    let rx : List RxAnswer :=
      [.timeout, .bytes (response (-sum) 8), .bytes (response (-(2#32 * sum)) 9), .bytes (response 2 10)]
    let s := sending [.ok, .ok, .ok, .ok, .ok] rx 0
    s.hostWaits = true ∧ (∀ p ∈ s.endPayloads .programRun, 8 + p.length ≤ s.cfg.maxDataSize) ∧ s.fstate = .transmitting ∧
      sum = s.cksum + BitVec.ofNat 32 (byteSum s.cfg.initCallFrame) ∧ (endAccepted s sum).length = 3 ∧
      (endAccepted s sum).map (·.asked.want) = (controlExchanges s .programRun sum).map (·.want) ∧
      s.env.status = List.replicate (tagsDrawn (endAccepted s sum) + 1) .ok ++ [] ∧
      s.env.rx = acceptedAnswers s.env (endAccepted s sum) ++ [] := by decide +kernel

theorem witness_FastEndLaunches_accepted :
    let s := sending [.ok, .ok, .ok, .ok, .ok] [] 0
    (endAccepted s 0x7EC).map (·.asked) = controlExchanges s .programRun 0x7EC ∧
      allAccepted s.env (endAccepted s 0x7EC) :=
  ⟨rfl, by decide, by decide, noneAccepted_timeouts _ _ 1, by decide, by decide, fun _ _ h => by simp at h,
    by decide, by decide, fun _ _ h => by simp at h, trivial⟩

/-- The checks of FAST.END, its corner, and an exchange that fails after the first one was accepted. -/
theorem witness_FastEndChecks :
    ((∃ p ∈ ({ State.reset with cfg := { Config.candidates with maxDataSize := 7 } } : State).endPayloads .run,
        ({ Config.candidates with maxDataSize := 7 } : Params).maxDataSize < 8 + p.length) ∧
      State.reset.fstate ≠ .secondStageStarted ∧ State.reset.fstate ≠ .transmitting ∧
      (∀ p ∈ State.reset.endPayloads .run, 8 + p.length ≤ State.reset.cfg.maxDataSize)) ∧
      -((0xFFFFF814#32) + BitVec.ofNat 32 (byteSum Config.candidates.initCallFrame)) = State.reset.pktid := by decide

/-- A FAST.END for ProgramAndRun whose second exchange wants the id: −2·CKSUM = PKTID; it ends, by a failed send, in the step
that starts it. -/
theorem witness_FastEndChecks_corner :
    let s := { sending [.ioErr] [] 0 with pktid := 0, cksum := 0x80000000 - 0x7EC }
    0x80000000#32 = s.cksum + BitVec.ofNat 32 (byteSum s.cfg.initCallFrame) ∧ -(2#32 * 0x80000000#32) = s.pktid ∧
      ∃ u, exec (.fastEnd .programRun) s = .next u ∧ Follows u u ∧ u.phase = .idle :=
  ⟨by decide, by decide, _, rfl, .refl _, by decide +kernel⟩

theorem witness_FastEndChecks_later_exchange :
    let s := sending [.ok, .ok, .ioErr] [.timeout, .bytes (response (-0x7EC) 8)] 0
    s.env.status = List.replicate (tagsDrawn ((endAccepted s 0x7EC).take 1)) .ok ++
        ExchangeFailure.sendFails.statuses [] ++ [] ∧
      s.env.rx = acceptedAnswers s.env ((endAccepted s 0x7EC).take 1) ++
        ExchangeFailure.sendFails.answers [] (s.env.afterTags 2) ++ [] := by decide

theorem witness_FastEndChecks_exchange :
    let s := sending [] [] 0
    ((endAccepted s 0x7EC).take 1).map (·.asked) ++
      ⟨s.pktid, s.cfg.ctrlProgramVerifyEeprom, 8000, .programEeprom, -(2#32 * 0x7EC)⟩ ::
        [⟨s.pktid, s.cfg.ctrlReadyToLaunch, s.cfg.tPktMs, .readyToLaunch, s.pktid - 1#32⟩] =
      controlExchanges s .programRun 0x7EC := rfl

/-- V-ROM-7: a load command that ends with an error, and one of R236 that ends without, after a step in which it waited for
nothing; for ConnectionCallsAreBounded as well. -/
theorem witness_LoadsEndInTheNamedState :
    exec (.romLoad .shutdown) State.reset = .next (State.reset.doneErr .operandError .none 0) ∧
      movesFState .fastData = true ∧
      exec .fastData { State.reset with fstate := .transmitting } =
        .next ({ State.reset with fstate := .transmitting } : State).doneOk ∧
      Follows (State.reset.doneErr .operandError .none 0) (State.reset.doneErr .operandError .none 0) :=
  ⟨by rfl, rfl, by rfl, .refl _⟩

/-- A running command on which a step of the machine follows, before and after the environment answers. -/
theorem witness_Follows :
    Follows { State.reset with phase := .exec .connReset 0 [.wasReset] }
      { State.reset with phase := .exec .connReset 0 [.wasReset], env := ⟨[.ok], [], [], 0⟩ } :=
  .step (by simp) (fun _ _ h => by cases h) (step_blocked _ rfl rfl rfl) (.outside ⟨[.ok], [], [], 0⟩ [] (.refl _))

theorem witness_ChecksComeBeforeAccess :
    exec .connRecv State.reset = .next (State.reset.doneErr .operandError .none 0) ∧
      (Instr.encLookup 0 0).wellFormed = false ∧ State.reset.hostWaits = true := ⟨by rfl, rfl, rfl⟩

/-- A command that waits for its Connection, and what its next step answers: for CommandsWriteOnlyTheirOwn,
OperandsAndParametersStay, ErrinfoIsWrittenOnlyByErrors and OutcomesOfACommand. -/
theorem witness_running :
    ({ State.reset with phase := .exec .connReset 0 [.wasReset] } : State).ownSteps ∧
      ({ State.reset with phase := .exec .connReset 0 [.wasReset] } : State).hostWaits = true ∧
      ({ State.reset with phase := .exec .connReset 0 [.wasReset] } : State).cfg.wf = true ∧
      ({ State.reset with phase := .exec .connReset 0 [.wasReset] } : State).phase ≠ .idle ∧
      ({ State.reset with phase := .exec .connReset 0 [.wasReset] } : State).seqStep = none ∧
      step { State.reset with phase := .exec .connReset 0 [.wasReset] } =
        .next { State.reset with phase := .exec .connReset 0 [.wasReset] } :=
  ⟨by rfl, rfl, test_candidates_meet_their_predicates, by simp, rfl, step_blocked _ rfl rfl rfl⟩

/-- A parameter set that breaks its predicate. -/
theorem witness_OutcomesOfACommand :
    ({ State.reset with cfg := { Config.candidates with nStage2Attempts := 0 } } : State).cfg.wf = false := by decide +kernel

/-- What the invariants of every step ask of a state, and a step from it: for StepKeepsTheSpaces,
StepKeepsStatusConsistent and StepStopsOnlyAtIllegalMoves. -/
theorem witness_invariants :
    State.reset.canonical ∧ State.reset.inSpaces ∧ State.reset.statusConsistent ∧ step State.reset = .next State.reset ∧
      (∀ m q, State.reset.hostq = m :: q → m.move.legal State.reset = true) :=
  ⟨⟨rfl, rfl, rfl⟩, ⟨rfl, rfl, rfl, by decide, by decide, rfl⟩, ⟨by decide, by decide⟩, step_blocked _ rfl rfl rfl, fun _ _ h => by cases h⟩

end Sys2Proof.Tests
end

section
/-! PROOFS. The scope of the model (R14): where the machine can stop, how a command can end, and that it ends or
waits. -/

namespace Sys2Proof.Machine

open State

/-! ### Where the machine can stop (R14) -/

/-- With sound parameters a step is not the fault of R14.3. -/
theorem guarded_sound {s : State} {o : Host.Outcome State Fault Refusal} (h : s.cfg.wf = true) : s.guarded o = o :=
  if_pos h

/-- A write of an aligned offset always answers, a CMD write as well (R22, R23). -/
theorem writeReg_next (off : Nat) (v : Word) (s : State) : ∃ t, s.writeReg off v = .next t := by
  unfold writeReg
  split
  · exact ⟨_, rfl⟩
  · split_ifs
    · exact ⟨_, rfl⟩
    · unfold command
      split
      · obtain ⟨todo, h⟩ := exec_next _ _
        exact ⟨_, h⟩
      · exact ⟨_, rfl⟩
    · exact ⟨_, rfl⟩

/-- A move the host has always answers (R64, R72, R317). -/
theorem hostMove_next {m : HostMove} {s : State} (h : m.legal s = true) : ∃ t, s.hostMove m = .next t := by
  cases m with
  | readReg off => exact ⟨_, if_pos (of_decide_eq_true h)⟩
  | writeReg off v =>
    obtain ⟨t, ht⟩ := writeReg_next off v s
    exact ⟨t, (if_pos (of_decide_eq_true h)).trans ht⟩
  | readPkt off => exact ⟨_, if_pos (of_decide_eq_true h)⟩
  | readRxb off => exact ⟨_, if_pos (of_decide_eq_true h)⟩
  | readImg off => exact ⟨_, if_pos (of_decide_eq_true h)⟩
  | writeImg off b =>
    obtain ⟨hidle, hoff⟩ : s.busy = false ∧ off < s.cfg.imgMemSize := by simpa [HostMove.legal] using h
    exact ⟨_, by rw [hostMove, if_neg (by simp [hidle]), if_pos hoff]⟩
  | check => exact ⟨_, rfl⟩
  | reset => exact ⟨_, rfl⟩

/-- Taking a move off the host's queue does not change which moves it has. -/
theorem legal_hostq (m : HostMove) (s : State) (q : List Timed) : m.legal { s with hostq := q } = m.legal s := by
  cases m <;> rfl

/-- Settles O59: a running command goes on, and a move the host has answers. -/
theorem stepStopsOnlyAtIllegalMoves : Obligations.StepStopsOnlyAtIllegalMoves := by
  intro s hwf hlegal
  unfold step
  split
  · exact ⟨_, guarded_sound hwf⟩
  · rename_i m q hq
    rw [guarded_sound hwf]
    split
    · exact ⟨_, rfl⟩
    · exact hostMove_next ((legal_hostq _ s q).trans (hlegal m q hq))

/-! ### What one step of a command can do -/

/-- The answers of ConnRecv left after a step: only the return of a receive takes one. -/
@[simp] def Act.rxLeft : Act → List RxAnswer → List RxAnswer
  | .heard _ _, l => l.tail
  | _, l => l

/-- The steps a step puts in front of those still to do, when it puts any. -/
def Act.pushed (s : State) : Act → List Act
  | .send _ info => [.sent info]
  | .sendPkt => [.sent 0#32]
  | .connReset => [.wasReset]
  | .setBaud r => [.baudSet r]
  | .baudSet r => [.set .baud (.const r)]
  | .recv n _ k => [.heard n k]
  | .heard n k =>
    match s.env.rx with
    | [] => []
    | r :: _ => receiveActs (deliver n r) k
  | .answered _ (.poll i n st) => pollActs s.cfg (i + 1) n st
  | .answered _ (.response x a) => [.xmit x (a + 1)]
  | .ackPoll bc extra st => pollActs s.cfg 1 (pollCount (bc.getD s.pktlen.toNat) extra s.baud) st
  | .slowLoad lt a => slowLoadActs (romPacket s.cfg lt s.image) lt a
  | .xmit x a =>
    [.attempt a, .send (fastPacket x.id s.nextTag x.payload) (BitVec.ofNat 32 a)] ++
      if x.resp then [.recv Config.pktRspLen x.timeout (.response x a)] else []
  | .chunk off size pos n =>
    if pos < size then
      let len := min Config.maxPacketSize (size - pos)
      let data := s.img.read (off + pos) len
      [.xmit ⟨s.pktid, data, s.cfg.tPktMs, true, .dataChunk⟩ 1, .expect (s.pktid - 1#32) .dataChunk,
        .set .cksum (.const (s.cksum + BitVec.ofNat 32 (byteSum data))), .set .pktid (.const (s.pktid - 1#32)),
        .chunk off size (pos + len) (n + 1)]
    else [.set .res0 (.const (BitVec.ofNat 32 n))]
  | _ => []

/-- A receive is still to be answered before the step's own steps are over (R232, R263). -/
@[simp] def Act.hears : Act → Bool
  | .recv _ _ _ => true
  | .heard _ _ => true
  | .xmit x _ => x.resp
  | _ => false

/-- From s to u a step of a command left alone what `raise` and the end of a command write: STATUS but for SSTATE,
FSTATE and ATTEMPT, ERRINFO, the parameters, the command that runs and the steps still to do. -/
structure SameControl (s u : State) : Prop where
  done : u.done = s.done
  err : u.err = s.err
  ecode : u.ecode = s.ecode
  stage : u.stage = s.stage
  errinfo : u.errinfo = s.errinfo
  cfg : u.cfg = s.cfg
  phase : ∀ {i ret todo}, s.phase = .exec i ret todo → ∃ ret', u.phase = .exec i ret' todo

namespace SameControl

/-- An update of other fields changes nothing here. -/
theorem of_eq {s u : State} (h : (u.done, u.err, u.ecode, u.stage, u.errinfo, u.cfg, u.phase) =
    (s.done, s.err, s.ecode, s.stage, s.errinfo, s.cfg, s.phase)) : SameControl s u := by
  simp only [Prod.mk.injEq] at h
  obtain ⟨hdone, herr, hecode, hstage, herrinfo, hcfg, hphase⟩ := h
  exact ⟨hdone, herr, hecode, hstage, herrinfo, hcfg, fun h => ⟨_, hphase.trans h⟩⟩

theorem refl (s : State) : SameControl s s := .of_eq rfl

theorem setRet (v : Word) (s : State) : SameControl s (s.setRet v) :=
  ⟨rfl, rfl, rfl, rfl, rfl, rfl, fun h => ⟨v, by simp [State.setRet, h]⟩⟩

theorem assign (r : SeqReg) (v : Word) (s : State) : SameControl s (s.assign r v) :=
  .of_eq (by simp)

end SameControl

/-- What a step of a command answers, from the state in which it was taken off the list: it goes on with the steps still
to do, it puts steps in front of them, it raises an error, or it is a failed check (R281, R285). -/
inductive Act.Outcome (a : Act) (s : State) : State → Prop
  | goesOn {u : State} (same : SameControl s u) (rx : u.env.rx = a.rxLeft s.env.rx) (hears : a.hears = false) :
    Outcome a s u
  | pushes {u : State} (same : SameControl s u) (rx : u.env.rx = a.rxLeft s.env.rx) :
    Outcome a s (u.push (a.pushed s))
  | raises {u : State} (same : SameControl s u) (rx : u.env.rx = a.rxLeft s.env.rx) (c : ErrCode) (st : Stage)
    (info : Word) (code : c ≠ .none) : Outcome a s (u.raise c st info)
  | rejects (c : ErrCode) (info : Word) (check : a = .reject c info) : Outcome a s (s.report c .none info)

namespace Act.Outcome

variable {s t : State}

/-- The return of ConnSend, ConnReset or ConnSetBaud goes on as its two continuations do. -/
theorem of_takeStatus {a : Act} {f g : State → State} (hf : ∀ l, Outcome a s (f (s.setStatus l)))
    (hg : ∀ l, Outcome a s (g (s.setStatus l))) (h : takeStatus f g s = some t) : Outcome a s t := by
  unfold takeStatus at h
  split at h
  · cases h
  · cases h; exact hf _
  · cases h; exact hg _

/-- A failed primitive raises its error (R263). -/
theorem raises_setStatus {a : Act} (hrx : a.rxLeft s.env.rx = s.env.rx) (c : ErrCode) (st : Stage) (info : Word)
    (hc : c ≠ .none) (l : List IoStatus) : Outcome a s ((s.setStatus l).raise c st info) :=
  .raises (s := s) (u := s.setStatus l) (.of_eq rfl) hrx.symm c st info hc

/-- A bad or missing response starts the next attempt or raises PACKET_TIMEOUT (R232). -/
theorem of_xmitRetry (r : RxAnswer) (x : Exchange) (a : Nat) (last : Word) :
    Outcome (.answered r (.response x a)) s (xmitRetry x a last s) := by
  unfold xmitRetry
  split
  · exact .pushes (.refl s) rfl
  · exact .raises (.refl s) rfl _ _ _ (by simp)

/-- The step that goes on with an answer (R205, R210, R232, R241, R264). -/
theorem of_answered (r : RxAnswer) (k : RxUse) : Outcome (.answered r k) s (k.act r s) := by
  have go : Outcome (.answered r k) s s := .goesOn (.refl s) rfl rfl
  have fails (c st info) (hc : c ≠ .none) : Outcome (.answered r k) s (s.raise c st info) :=
    .raises (.refl s) rfl c st info hc
  have returns (v) : Outcome (.answered r k) s (s.setRet v) := .goesOn (.setRet v s) rfl rfl
  cases k with
  | raw => cases r with
    | bytes l => exact go
    | timeout => exact fails _ _ _ (by simp)
    | ioErr => exact fails _ _ _ (by simp)
  | handshake => cases r with
    | bytes l => exact go
    | timeout => exact go
    | ioErr => exact fails _ _ _ (by simp)
  | poll i n st => cases r with
    | bytes l =>
      dsimp only [RxUse.act]
      split
      · exact returns _
      · exact fails _ _ _ (by simp)
    | timeout =>
      dsimp only [RxUse.act]
      split
      · exact .pushes (.refl s) rfl
      · exact fails _ _ _ (by simp)
    | ioErr => exact fails _ _ _ (by simp)
  | response x a => cases r with
    | bytes l =>
      dsimp only [RxUse.act]
      split
      · exact returns _
      · exact of_xmitRetry ..
    | timeout => exact of_xmitRetry ..
    | ioErr => exact fails _ _ _ (by simp)
  | ready => cases r with
    | bytes l =>
      dsimp only [RxUse.act]
      split
      · exact go
      · exact fails _ _ _ (by simp)
    | timeout => exact fails _ _ _ (by simp)
    | ioErr => exact fails _ _ _ (by simp)

end Act.Outcome

/-- What one step of a command can do, its branches once and for all. -/
theorem Act.run_outcome {a : Act} {s t : State} (h : a.run s = some t) : a.Outcome s t := by
  cases a with
  | set r v => cases h; exact .goesOn (.assign ..) (by simp [Act.rxLeft]) rfl
  | sstate q => cases h; exact .goesOn (.of_eq rfl) rfl rfl
  | fstate q => cases h; exact .goesOn (.of_eq rfl) rfl rfl
  | imgByte off b => cases h; exact .goesOn (.of_eq rfl) rfl rfl
  | clearPkt => cases h; exact .goesOn (.of_eq rfl) rfl rfl
  | append l =>
    cases h
    rcases s.appendPkt_cases l with ⟨_, h⟩ | ⟨_, h⟩ <;> rw [h]
    · exact .raises (.refl s) rfl _ _ _ (by simp)
    · exact .goesOn (.of_eq rfl) rfl rfl
  | send l info => cases h; exact .pushes (u := s.call (.send l)) (.of_eq rfl) rfl
  | sendPkt => cases h; exact .pushes (u := s.call (.send s.packet)) (.of_eq rfl) rfl
  | sent info =>
    exact .of_takeStatus (fun l => .goesOn (.of_eq rfl) rfl rfl) (.raises_setStatus rfl _ _ _ (by simp)) h
  | connReset => cases h; exact .pushes (u := s.call .reset) (.of_eq rfl) rfl
  | wasReset =>
    exact .of_takeStatus (fun l => .goesOn (.of_eq rfl) rfl rfl) (.raises_setStatus rfl _ _ _ (by simp)) h
  | setBaud r => cases h; exact .pushes (u := s.call (.setBaud r)) (.of_eq rfl) rfl
  | baudSet r =>
    exact .of_takeStatus (fun l => .pushes (u := s.setStatus l) (.of_eq rfl) rfl)
      (.raises_setStatus rfl _ _ _ (by simp)) h
  | recv n t k => cases h; exact .pushes (u := s.call (.recv n t)) (.of_eq rfl) rfl
  | heard n k =>
    cases hr : s.env.rx with
    | nil => rw [Act.run, takeRx_nil hr] at h; cases h
    | cons r rest =>
      rw [Act.run, takeRx_cons hr] at h
      cases h
      have hp : receiveActs (deliver n r) k = Act.pushed s (.heard n k) := by simp [Act.pushed, hr]
      rw [hp]
      exact .pushes (u := s.setRx rest) (.of_eq rfl) (by simp [Act.rxLeft, hr])
  | rxByte off b => cases h; exact .goesOn (.of_eq rfl) rfl rfl
  | rxCount n => cases h; exact .goesOn (.of_eq rfl) rfl rfl
  | answered r k => cases h; exact .of_answered r k
  | hsCompare =>
    cases h; unfold Machine.hsCompare
    split
    · exact .raises (.refl s) rfl _ _ _ (by simp)
    · split
      · exact .goesOn (.refl s) rfl rfl
      · exact .raises (.refl s) rfl _ _ _ (by simp)
  | hsVersion => cases h; exact .goesOn (.of_eq rfl) rfl rfl
  | hsAccept =>
    cases h; unfold Machine.hsAccept
    split
    · exact .goesOn (.refl s) rfl rfl
    · exact .raises (.refl s) rfl _ _ _ (by simp)
  | ackPoll bc extra st => cases h; exact .pushes (.refl s) rfl
  | slowLoad lt a => cases h; exact .pushes (u := s.setSState .idle) (.of_eq rfl) rfl
  | slowEnd a => cases h; exact .goesOn (.setRet ..) rfl rfl
  | xmit x a =>
    cases h
    exact .pushes (u := s.drawTag) (.of_eq rfl)
      (by simp only [drawTag_env, Env.afterTag, Act.rxLeft]; split <;> rfl)
  | attempt a => cases h; exact .goesOn (.of_eq rfl) rfl rfl
  | expect want st =>
    cases h
    split
    · exact .goesOn (.refl s) rfl rfl
    · exact .raises (.refl s) rfl _ _ _ (by simp)
  | chunk off size pos n =>
    cases h; unfold chunkStep
    by_cases hpos : pos < size
    · rw [if_pos hpos]
      have hp : Act.pushed s (.chunk off size pos n) = _ := if_pos hpos
      dsimp only at hp ⊢
      rw [← hp]
      exact .pushes (u := s.setFState .transmitting) (.of_eq rfl) rfl
    · rw [if_neg hpos]
      have hp : Act.pushed s (.chunk off size pos n) = _ := if_neg hpos
      rw [← hp]
      exact .pushes (.refl s) rfl
  | reject c info => cases h; exact .rejects c info rfl

/-- The steps of SlowLoad's caller are among those still to do. -/
theorem State.enclosingSlow_eq {todo after : List Act} {a : Nat} (h : enclosingSlow todo = some (a, after)) :
    ∃ before, todo = before ++ .slowEnd a :: after := by
  induction todo with
  | nil => cases h
  | cons b rest ih =>
    unfold enclosingSlow at h
    split at h
    · cases h
    · rename_i heq
      cases heq; cases h
      exact ⟨[], rfl⟩
    · rename_i heq
      cases heq
      obtain ⟨before, rfl⟩ := ih h
      exact ⟨b :: before, rfl⟩

/-! ### How a command can end (R14, R24) -/

/-- A failed check has a code (R281). -/
def Act.namesCode : Act → Bool
  | .reject c _ => decide (c ≠ .none)
  | _ => true

/-- The steps of a receive hold no failed check (R63). -/
theorem receiveActs_namesCode (r : RxAnswer) (k : RxUse) : (receiveActs r k).all Act.namesCode = true := by
  have bytes (off : Nat) (l : List Byte) : (rxBytes off l).all Act.namesCode = true := by
    induction l generalizing off with
    | nil => rfl
    | cons b bs ih => exact ih (off + 1)
  cases r with
  | bytes l => rw [receiveActs, List.all_append, bytes]; rfl
  | timeout => rfl
  | ioErr => rfl

/-- No step puts a failed check in front of the others. -/
theorem Act.pushed_namesCode (a : Act) (s : State) : (a.pushed s).all Act.namesCode = true := by
  cases a with
  | heard n k =>
    simp only [pushed]
    split
    · rfl
    · exact receiveActs_namesCode ..
  | answered r k => cases k <;> rfl
  | slowLoad lt a => cases lt <;> rfl
  | xmit x a => simp only [pushed]; split <;> rfl
  | chunk off size pos n => simp only [pushed]; split <;> rfl
  | _ => rfl

/-- What R14 leaves open for a command: it has ended without an error, it has ended with an error that has a code, or it
still runs, and each of its failed checks has a code. -/
def State.outcomeKnown (s : State) : Prop :=
  (s.phase = .idle ∧ s.done = true ∧ s.err = false ∧ s.ecode = .none) ∨
    (s.phase = .idle ∧ s.done = true ∧ s.err = true ∧ s.ecode ≠ .none) ∨
    ((∃ i ret todo, s.phase = .exec i ret todo ∧ todo.all Act.namesCode = true) ∧
      s.done = false ∧ s.err = false ∧ s.ecode = .none)

/-- An error that is raised ends the command with its code, or the next attempt of the second stage runs (R241,
R285). -/
theorem State.raise_outcomeKnown {s : State} {i : Instr} {ret : Word} {todo : List Act} (c : ErrCode) (st : Stage)
    (info : Word) (hc : c ≠ .none) (hp : s.phase = .exec i ret todo) (htodo : todo.all Act.namesCode = true)
    (hdone : s.done = false) (herr : s.err = false) (hecode : s.ecode = .none) :
    (s.raise c st info).outcomeKnown := by
  rcases s.raise_cases c st info with ⟨q, f, h, -⟩ | ⟨ret', todo', a, after, hp', hslow, -, h⟩ <;> rw [h]
  · exact .inr (.inl ⟨rfl, rfl, rfl, hc⟩)
  · obtain ⟨before, rfl⟩ := enclosingSlow_eq hslow
    cases hp.symm.trans hp'
    exact .inr (.inr ⟨⟨_, _, _, rfl, by simp_all [Act.namesCode]⟩, hdone, herr, hecode⟩)

/-- Every sequencer step keeps the three outcomes. -/
theorem State.seqStep_outcomeKnown {s t : State} (hs : s.outcomeKnown) (h : s.seqStep = some t) : t.outcomeKnown := by
  obtain ⟨hp, -⟩ | ⟨hp, -⟩ | ⟨⟨i, ret, todo, hp, htodo⟩, hdone, herr, hecode⟩ := hs
  · simp [hp] at h
  · simp [hp] at h
  cases todo with
  | nil =>
    rw [seqStep_nil hp] at h
    cases h
    exact .inl ⟨rfl, rfl, herr, hecode⟩
  | cons a todo =>
    rw [seqStep_cons hp] at h
    obtain ⟨ha, htodo⟩ : a.namesCode = true ∧ todo.all Act.namesCode = true := by
      simpa only [List.all_cons, Bool.and_eq_true] using htodo
    cases a.run_outcome h with
    | goesOn same =>
      obtain ⟨ret', hu⟩ := same.phase rfl
      exact .inr (.inr ⟨⟨_, _, _, hu, htodo⟩, same.done.trans hdone, same.err.trans herr, same.ecode.trans hecode⟩)
    | @pushes u same =>
      obtain ⟨ret', hu⟩ := same.phase rfl
      refine .inr (.inr ⟨⟨_, _, _, by simp only [push, hu]; rfl, ?_⟩, same.done.trans hdone, same.err.trans herr,
        same.ecode.trans hecode⟩)
      rw [List.all_append, Act.pushed_namesCode, htodo]; rfl
    | raises same rx c st info hc =>
      obtain ⟨ret', hu⟩ := same.phase rfl
      exact raise_outcomeKnown c st info hc hu htodo (same.done.trans hdone) (same.err.trans herr)
        (same.ecode.trans hecode)
    | rejects c info check =>
      subst check
      exact .inr (.inl ⟨rfl, rfl, rfl, of_decide_eq_true ha⟩)

/-! ### How long a command can run (R322) -/

/-- A bound on the steps of one SlowLoad whose receives are answered at once. -/
def slowSteps : Nat := 172

/-- A bound on the sequencer steps of a step and of those it puts in front of the others; `attempts` is
N_STAGE2_ATTEMPTS, and k is one more than the receives that can still be answered when the step starts. The next poll or
attempt after a bad answer (R205, R232) is not counted here but with the answer, in `stepsLeft`; the attempts of the
second stage after the a-th (R241) are counted at the end of the a-th; the chunk loop (R244) sends a chunk for each
answer. -/
@[simp] def Act.cost (attempts k : Nat) : Act → Nat
  | .send _ _ => 2
  | .sendPkt => 2
  | .connReset => 2
  | .setBaud _ => 3
  | .baudSet _ => 2
  | .recv n _ _ => n + 3
  | .heard n _ => n + 2
  | .answered _ _ => 16
  | .ackPoll _ _ _ => 7
  | .slowLoad _ a => slowSteps + slowSteps * (attempts - a)
  | .slowEnd a => 1 + slowSteps * (attempts - a)
  | .xmit _ _ => 15
  | .chunk _ _ _ _ => 19 * k
  | _ => 1

/-- What is left of k, as in `Act.cost`, when a step and those it put in front of the others are over. An error inside
SlowLoad passes over the receives before SlowLoad's end, so that from there on `all` are left. -/
@[simp] def Act.rxAfter (all k : Nat) : Act → Nat
  | .recv _ _ _ => k - 1
  | .heard _ _ => k - 1
  | .xmit x _ => if x.resp then k - 1 else k
  | .slowLoad _ _ => all
  | .slowEnd _ => all
  | _ => k

/-- A bound on the sequencer steps of the steps still to do and of the command's end. -/
@[simp] def todoCost (attempts all : Nat) : Nat → List Act → Nat
  | _, [] => 1
  | k, a :: todo => a.cost attempts k + todoCost attempts all (a.rxAfter all k) todo

theorem Act.cost_mono {n k k' : Nat} (h : k ≤ k') (a : Act) : a.cost n k ≤ a.cost n k' := by
  cases a <;> simp only [cost] <;> omega

theorem Act.rxAfter_mono {all all' k k' : Nat} (hall : all ≤ all') (h : k ≤ k') (a : Act) :
    a.rxAfter all k ≤ a.rxAfter all' k' := by
  cases a with
  | xmit x m => simp only [rxAfter]; split <;> omega
  | _ => simp only [rxAfter]; omega

/-- More answers can only make a command run longer. -/
theorem todoCost_mono {n all all' k k' : Nat} (hall : all ≤ all') (h : k ≤ k') (todo : List Act) :
    todoCost n all k todo ≤ todoCost n all' k' todo := by
  induction todo generalizing k k' with
  | nil => exact Nat.le_refl 1
  | cons a todo ih => exact Nat.add_le_add (a.cost_mono h) (ih (a.rxAfter_mono hall h))

/-- The steps after SlowLoad, and its attempts to come, are part of the bound. -/
theorem todoCost_enclosingSlow {n all k a : Nat} {todo after : List Act} (h : enclosingSlow todo = some (a, after)) :
    1 + slowSteps * (n - a) + todoCost n all all after ≤ todoCost n all k todo := by
  obtain ⟨before, rfl⟩ := enclosingSlow_eq h
  clear h
  induction before generalizing k with
  | nil => exact Nat.le_refl _
  | cons b before ih => exact Nat.le_trans ih (Nat.le_add_left ..)

/-- A bound on the sequencer steps of the steps still to do when r answers of ConnRecv are listed. Each answer counts 16
for the poll or the attempt that follows it when it is bad. -/
def stepsLeft (attempts r : Nat) (todo : List Act) : Nat := 16 * r + todoCost attempts (r + 1) (r + 1) todo

/-- A bound on the sequencer steps before the command ends or waits. -/
def State.stepBound (s : State) : Nat :=
  match s.phase with
  | .idle => 0
  | .exec _ _ todo => stepsLeft s.cfg.nStage2Attempts s.env.rx.length todo

theorem State.stepBound_idle {s : State} (h : s.phase = .idle) : s.stepBound = 0 := by
  unfold stepBound; rw [h]

theorem State.stepBound_exec {s : State} {i : Instr} {ret : Word} {todo : List Act} (h : s.phase = .exec i ret todo) :
    s.stepBound = stepsLeft s.cfg.nStage2Attempts s.env.rx.length todo := by
  unfold stepBound; rw [h]

theorem Act.rxLeft_length (a : Act) (l : List RxAnswer) : (a.rxLeft l).length ≤ l.length := by
  cases a <;> simp

/-- Every step counts for at least one. -/
theorem Act.cost_pos (n r : Nat) (a : Act) : 1 ≤ a.cost n (r + 1) := by
  cases a <;> simp [slowSteps] <;> omega

/-- Storing the bytes of a receive takes a step for each (R73). -/
theorem todoCost_rxBytes (n all k off : Nat) (l : List Byte) (todo : List Act) :
    todoCost n all k (rxBytes off l ++ todo) = l.length + todoCost n all k todo := by
  induction l generalizing off with
  | nil => simp [rxBytes]
  | cons b bs ih => simp [rxBytes, ih]; omega

/-- The steps of a receive's answer (R63). -/
theorem todoCost_receiveActs (n all k m : Nat) (r : RxAnswer) (u : RxUse) (todo : List Act) :
    todoCost n all k (receiveActs (deliver m r) u ++ todo) ≤ m + 17 + todoCost n all k todo := by
  cases r with
  | bytes l =>
    by_cases hl : l.length < m
    · simp [deliver_short hl, receiveActs]; omega
    · simp [deliver, hl, receiveActs, todoCost_rxBytes]; omega
  | timeout => simp [receiveActs]; omega
  | ioErr => simp [receiveActs]; omega

/-- The steps a step puts in front of the others are fewer than it counts for. -/
theorem Act.stepsLeft_pushed {a : Act} {s t : State} (h : a.run s = some t) (todo : List Act) :
    stepsLeft s.cfg.nStage2Attempts (a.rxLeft s.env.rx).length (a.pushed s ++ todo) <
      stepsLeft s.cfg.nStage2Attempts s.env.rx.length (a :: todo) := by
  generalize s.cfg.nStage2Attempts = n
  have fewer : todoCost n (s.env.rx.length + 1) s.env.rx.length todo ≤
      todoCost n (s.env.rx.length + 1) (s.env.rx.length + 1) todo := todoCost_mono (by omega) (by omega) todo
  cases a with
  | heard m k =>
    cases hr : s.env.rx with
    | nil => rw [Act.run, takeRx_nil hr] at h; cases h
    | cons r rest =>
      have hcost := todoCost_receiveActs n (rest.length + 1) (rest.length + 1) m r k todo
      have hrest : todoCost n (rest.length + 1) (rest.length + 1) todo ≤
        todoCost n (rest.length + 1 + 1) (rest.length + 1) todo := todoCost_mono (by omega) (by omega) todo
      simp only [stepsLeft, pushed, hr, rxLeft, todoCost, cost, rxAfter, List.tail_cons, List.length_cons,
        Nat.add_sub_cancel]
      omega
  | answered r k =>
    cases k with
    | poll i p st => simp [stepsLeft, pushed, pollActs]; omega
    | response x a => cases hx : x.resp <;> simp [stepsLeft, pushed, hx]; omega
    | _ => simp [stepsLeft, pushed]
  | slowLoad lt a =>
    have hlen : Config.hsRxLen = 129 := rfl
    cases lt <;> simp [stepsLeft, pushed, slowLoadActs, needsEeprom, slowSteps, hlen] <;> omega
  | xmit x a => cases hx : x.resp <;> simp [stepsLeft, pushed, hx, Config.pktRspLen] <;> omega
  | chunk off size pos m =>
    simp only [pushed]
    split
    · simp [stepsLeft]; omega
    · simp [stepsLeft]; omega
  | ackPoll bc extra st => simp [stepsLeft, pushed, pollActs]; omega
  | _ => simp [stepsLeft, pushed]

/-- Taking a step that waits for no answer off the list leaves less to do. -/
theorem stepsLeft_lt_cons {n r r' : Nat} {a : Act} (h : a.hears = false) (hr : r' ≤ r) (todo : List Act) :
    stepsLeft n r' todo < stepsLeft n r (a :: todo) := by
  have hcost := a.cost_pos n r
  have hafter : r + 1 ≤ a.rxAfter (r + 1) (r + 1) := by cases a <;> simp_all
  have htodo : todoCost n (r' + 1) (r' + 1) todo ≤ todoCost n (r + 1) (a.rxAfter (r + 1) (r + 1)) todo :=
    todoCost_mono (by omega) (by omega) todo
  simp only [stepsLeft, todoCost]
  omega

theorem stepsLeft_slowLoad (n r a : Nat) (lt : LoadType) (todo : List Act) :
    stepsLeft n r (.slowLoad lt a :: todo) =
      16 * r + (slowSteps + slowSteps * (n - a) + todoCost n (r + 1) (r + 1) todo) := rfl

/-- An error ends the command, or starts the next attempt of the second stage, whose steps are counted (R241). -/
theorem State.raise_stepBound {u : State} {i : Instr} {ret : Word} {todo : List Act} {r : Nat} (a : Act) (c : ErrCode)
    (st : Stage) (info : Word) (hp : u.phase = .exec i ret todo) (hr : u.env.rx.length ≤ r) :
    (u.raise c st info).stepBound < stepsLeft u.cfg.nStage2Attempts r (a :: todo) := by
  have hcost := a.cost_pos u.cfg.nStage2Attempts r
  rcases u.raise_cases c st info with ⟨q, f, h, -⟩ | ⟨ret', todo', m, after, hp', hslow, hm, h⟩ <;> rw [h]
  · rw [stepBound_idle rfl]
    simp only [stepsLeft, todoCost]
    omega
  · cases hp.symm.trans hp'
    have hslow := todoCost_enclosingSlow (n := u.cfg.nStage2Attempts) (all := r + 1)
      (k := a.rxAfter (r + 1) (r + 1)) hslow
    have hafter : todoCost u.cfg.nStage2Attempts (u.env.rx.length + 1) (u.env.rx.length + 1) after ≤
      todoCost u.cfg.nStage2Attempts (r + 1) (r + 1) after := todoCost_mono (by omega) (by omega) after
    have hnext : slowSteps * (u.cfg.nStage2Attempts - m) =
        slowSteps + slowSteps * (u.cfg.nStage2Attempts - (m + 1)) := by
      rw [show u.cfg.nStage2Attempts - m = u.cfg.nStage2Attempts - (m + 1) + 1 by omega, Nat.mul_succ, Nat.add_comm]
    rw [stepBound_exec (setPhase_phase ..), stepsLeft_slowLoad, setPhase_cfg, setPhase_env, setSState_cfg,
      setSState_env]
    simp only [stepsLeft, todoCost]
    omega

/-- Every sequencer step uses up some of the bound. -/
theorem State.seqStep_stepBound {s t : State} (h : s.seqStep = some t) : t.stepBound < s.stepBound := by
  cases hp : s.phase with
  | idle => simp [hp] at h
  | exec i ret todo =>
    rw [stepBound_exec hp]
    cases todo with
    | nil =>
      rw [seqStep_nil hp] at h
      cases h
      rw [stepBound_idle rfl]
      simp [stepsLeft]
    | cons a todo =>
      rw [seqStep_cons hp] at h
      have hrx := a.rxLeft_length s.env.rx
      cases a.run_outcome h with
      | @goesOn u same rx hears =>
        obtain ⟨ret', hu⟩ := same.phase rfl
        rw [stepBound_exec hu, same.cfg, rx]
        exact stepsLeft_lt_cons hears hrx todo
      | @pushes u same rx =>
        obtain ⟨ret', hu⟩ := same.phase rfl
        rw [stepBound_exec (by simp only [push, hu]; rfl), push_cfg, push_env, same.cfg, rx]
        exact Act.stepsLeft_pushed h todo
      | @raises u same rx c st info _ =>
        obtain ⟨ret', hu⟩ := same.phase rfl
        have := raise_stepBound a c st info hu (r := s.env.rx.length) (by rw [rx]; exact hrx)
        rwa [same.cfg] at this
      | rejects c info check =>
        rw [stepBound_idle rfl]
        have := a.cost_pos s.cfg.nStage2Attempts s.env.rx.length
        simp only [stepsLeft, todoCost]
        omega

/-- A run that may take as many steps as the bound says takes all the command can make. -/
theorem State.run_stops (n : Nat) {s : State} (hw : s.hostWaits = true) (hn : s.stepBound ≤ n) :
    (run n s).seqStep = none := by
  induction n generalizing s with
  | zero =>
    rw [run_zero]
    cases h : s.seqStep with
    | none => rfl
    | some t => have := seqStep_stepBound h; omega
  | succ n ih =>
    cases h : s.seqStep with
    | none => rw [run_of_blocked (.inr h)]; exact h
    | some t =>
      rw [run_step hw h]
      have hless := seqStep_stepBound h
      exact ih (by rw [hostWaits_congr (seqStep_sameOperands h).hostq]; exact hw) (by omega)

/-- A step of a command waits for nothing but an answer of the Connection (log 8). -/
theorem Act.run_eq_none {a : Act} {s : State} (h : a.run s = none) : s.env.status = [] ∨ s.env.rx = [] := by
  have status {f g : State → State} (h : takeStatus f g s = none) : s.env.status = [] := by
    unfold takeStatus at h
    split at h
    · assumption
    · cases h
    · cases h
  cases a with
  | sent info => exact .inl (status h)
  | wasReset => exact .inl (status h)
  | baudSet r => exact .inl (status h)
  | heard n k =>
    cases hr : s.env.rx with
    | nil => exact .inr rfl
    | cons r rest => rw [Act.run, takeRx_cons hr] at h; cases h
  | _ => cases h

/-- A command that can make no step has ended, or the answers of one kind are used up (R14). -/
theorem State.seqStep_eq_none {s : State} (h : s.seqStep = none) :
    s.phase = .idle ∨ s.env.status = [] ∨ s.env.rx = [] := by
  cases hp : s.phase with
  | idle => exact .inl rfl
  | exec i ret todo =>
    cases todo with
    | nil => rw [seqStep_nil hp] at h; cases h
    | cons a todo => rw [seqStep_cons hp] at h; exact .inr (by simpa using Act.run_eq_none h)

/-! ### The steps a command starts with -/

/-- Steps a command may start with: their failed checks have a code, and the sequencer's bound has room for them. -/
structure Startable (s : State) (todo : List Act) : Prop where
  codes : todo.all Act.namesCode = true
  cost : ∀ k, todoCost s.cfg.nStage2Attempts k k todo ≤
    237 + s.cfg.rxbSize + slowSteps * s.cfg.nStage2Attempts + 19 * k

namespace Startable

variable {s : State}

theorem reject (c : ErrCode) (info : Word) (h : c ≠ .none) : Startable s [.reject c info] :=
  ⟨by simp [Act.namesCode, h], fun k => by simp; omega⟩

theorem operandError (info : Word) : Startable s (Machine.operandError info) := reject _ info (by simp)

/-- A short list whose receives are short. -/
theorem short {l : List Act} (codes : l.all Act.namesCode = true)
    (cost : ∀ k, todoCost s.cfg.nStage2Attempts k k l ≤ 237) : Startable s l :=
  ⟨codes, fun k => by have := cost k; omega⟩

theorem ite {p : Prop} [Decidable p] {l l' : List Act} (h : p → Startable s l) (h' : ¬p → Startable s l') :
    Startable s (if p then l else l') := by
  split
  · exact h ‹_›
  · exact h' ‹_›

end Startable

/-- No header field is wider than 4 bytes (R180). -/
theorem headerField_width {f : BitVec 3} {s : State} {off n : Nat} (h : s.headerField f = some (off, n)) : n ≤ 4 := by
  unfold headerField at h
  split at h
  · cases h
  · rename_i off' n' hf
    split at h
    · cases h
    · cases h
      unfold imgField at hf
      split at hf <;> cases hf <;> omega

/-- The bytes of IMG.WRF are written one step each (R184). -/
theorem startable_imgBytes (s : State) (off : Nat) {l : List Byte} (h : l.length ≤ 4) :
    Startable s (imgBytes off l) := by
  have codes : (imgBytes off l).all Act.namesCode = true := by
    induction l generalizing off with
    | nil => rfl
    | cons b bs ih => exact ih (off + 1) (by simp at h; omega)
  have cost (k : Nat) : todoCost s.cfg.nStage2Attempts k k (imgBytes off l) = l.length + 1 := by
    clear codes h
    induction l generalizing off with
    | nil => rfl
    | cons b bs ih => simp [imgBytes, ih]; omega
  exact .short codes fun k => by rw [cost]; omega

/-- The three or four exchanges of FAST.END take few steps beside their retries (R247). -/
theorem startable_fastEndActs (lt : LoadType) (sum : Word) (s : State) : Startable s (fastEndActs lt sum s) := by
  cases lt <;> exact .short rfl (fun k => by simp [fastEndActs, endExchange, needsEeprom])

/-- All attempts of the second stage together (R241). -/
theorem cost_firstSlowLoad (n k : Nat) (lt : LoadType) :
    (Act.slowLoad lt 1).cost n k ≤ 172 + slowSteps * n :=
  Nat.add_le_add_left (Nat.mul_le_mul_left _ (Nat.sub_le ..)) _

/-- Every command is launched with steps it may start with. -/
theorem exec_startable (i : Instr) (s : State) : ∃ todo, exec i s = launch i todo s ∧ Startable s todo := by
  cases i with
  | encLookup w v => exact ⟨_, rfl, .ite (fun _ => .short rfl fun k => by simp) fun _ => .operandError _⟩
  | encBytes => exact ⟨_, rfl, .ite (fun _ => .operandError _) fun _ => .short rfl fun k => by simp⟩
  | pktSend => exact ⟨_, rfl, .ite (fun _ => .short rfl fun k => by simp) fun _ => .short rfl fun k => by simp⟩
  | hsRxbyte => exact ⟨_, rfl, .ite (fun _ => .operandError _) fun _ => .short rfl fun k => by simp⟩
  | imgCksum => exact ⟨_, rfl, .ite (fun _ => .operandError _) fun _ => .short rfl fun k => by simp⟩
  | imgRdf f =>
    refine ⟨_, rfl, ?_⟩
    split
    · exact .operandError _
    · exact .short rfl fun k => by simp
  | imgWrf f =>
    refine ⟨_, rfl, ?_⟩
    split
    · exact .operandError _
    · exact startable_imgBytes s _ (by simpa [leBytes] using headerField_width ‹_›)
  | romBuild lt =>
    exact ⟨_, rfl, .ite (fun _ => .operandError _) fun _ => .ite (fun _ => .operandError _) fun _ =>
      .short rfl fun k => by simp⟩
  | romAck => exact ⟨_, rfl, .ite (fun _ => .operandError _) fun _ => .short rfl fun k => by simp⟩
  | romLoad lt =>
    refine ⟨_, rfl, .ite (fun _ => .operandError _) fun _ => .ite (fun _ => .operandError _) fun _ =>
      .ite (fun _ => .operandError _) fun _ => ⟨rfl, fun k => ?_⟩⟩
    have hslow := cost_firstSlowLoad s.cfg.nStage2Attempts k lt
    rw [todoCost, todoCost]
    omega
  | fastXmit psel r =>
    refine ⟨_, rfl, .ite (fun _ => .operandError _) fun _ => .ite (fun _ => .operandError _) fun _ =>
      .ite (fun _ => .operandError _) fun _ => ?_⟩
    cases r <;> exact .short rfl fun k => by simp
  | fastBegin =>
    refine ⟨_, rfl, .ite (fun _ => .operandError _) fun _ => .ite (fun _ => .operandError _) fun _ =>
      ⟨rfl, fun k => ?_⟩⟩
    have hslow := cost_firstSlowLoad s.cfg.nStage2Attempts k .run
    simp only [todoCost, Act.cost, Config.pktRspLen] at hslow ⊢
    omega
  | fastData =>
    refine ⟨_, rfl, .ite (fun _ => .operandError _) fun _ => .ite (fun _ => .operandError _) fun _ =>
      .ite (fun _ => .reject _ _ (by simp)) fun _ => ⟨rfl, fun k => ?_⟩⟩
    simp only [todoCost, Act.cost]
    omega
  | fastEnd lt =>
    refine ⟨_, rfl, .ite (fun _ => .operandError _) fun _ => ?_⟩
    split
    · exact .operandError _
    · exact .ite (fun _ => .reject _ _ (by simp)) fun _ => startable_fastEndActs ..
  | connRecv =>
    refine ⟨_, rfl, .ite (fun _ => .operandError _) fun h => ⟨rfl, fun k => ?_⟩⟩
    have hlen : s.arg0.toNat ≤ s.cfg.rxbSize := by
      by_contra hbig
      exact h (.inr (by omega))
    simp only [todoCost, Act.cost]
    omega
  | connBaud => exact ⟨_, rfl, .ite (fun _ => .operandError _) fun _ => .short rfl fun k => by simp⟩
  | _ => exact ⟨_, rfl, .short rfl fun k => by simp⟩

/-- The sequencer's bound covers every command (log 25). -/
theorem Startable.stepBound_le_fuel {i : Instr} {s : State} {todo : List Act} (h : Startable s todo) :
    (s.start i todo).stepBound ≤ (s.start i todo).fuel := by
  have hcost := h.cost (s.env.rx.length + 1)
  have hslow : slowSteps = 172 := rfl
  rw [stepBound_exec (start_phase ..)]
  simp only [stepsLeft, fuel, start_cfg, start_env]
  nlinarith

/-- Settles O56: every sequencer step uses up some of a bound that is at most the sequencer's own. -/
theorem commandsEndOrWaitForAnAnswer : Obligations.CommandsEndOrWaitForAnAnswer := by
  intro i s hw
  obtain ⟨todo, hexec, hstart⟩ := exec_startable i s
  have hstops : (s.start i todo).resume.seqStep = none := run_stops _ hw hstart.stepBound_le_fuel
  exact ⟨_, hexec, seqStep_eq_none hstops, .inr hstops⟩

/-- While the host waits, a step of the machine goes on with the command that runs. -/
theorem step_resumes {s : State} (hf : s.cfg.wf = true) (hp : s.phase ≠ .idle) (hw : s.hostWaits = true) :
    step s = .next s.resume := by
  unfold step
  split
  · exact guarded_sound hf
  · rename_i m q hq
    have hwait : m.wait = none := by simpa [hostWaits, hq] using hw
    rw [guarded_sound hf, if_pos (by simp [hwait, landsNow, busy, hp])]

/-- Settles O50: the three outcomes hold when a command starts, and every sequencer step keeps them. -/
theorem outcomesOfACommand : Obligations.OutcomesOfACommand := by
  refine ⟨fun i s => ?_, fun s hf => ?_, fun s hf hp hw hn => ?_⟩
  · obtain ⟨todo, hexec, hstart⟩ := exec_startable i s
    have start : (s.start i todo).outcomeKnown := .inr (.inr ⟨⟨_, _, _, rfl, hstart.codes⟩, rfl, rfl, rfl⟩)
    have ends : (s.start i todo).resume.outcomeKnown :=
      run_induct (fun _ _ => seqStep_outcomeKnown) (fun _ h => h) _ _ start
    refine ⟨_, hexec, ends.imp_right (Or.imp_right ?_)⟩
    rintro ⟨⟨_, _, _, hp, -⟩, hdone, herr, -⟩
    exact ⟨by simp [hp], hdone, herr⟩
  · unfold step
    split <;> exact if_neg (by simp [hf])
  · rw [step_resumes hf hp hw, resume, run_of_blocked (.inr hn)]

end Sys2Proof.Machine
end

section
/-! PROOFS. What one step of the machine can do: the host's moves, the command that goes on, and the one induction by
which every step keeps an invariant. -/

namespace Sys2Proof.Machine

open State

/-! ### The register map (R22) -/

/-- The byte offset of a register (R22). -/
def HostReg.offset : HostReg → Nat
  | .cmd => 0x00
  | .status => 0x04
  | .arg0 => 0x08
  | .arg1 => 0x0C
  | .arg2 => 0x10
  | .arg3 => 0x14
  | .res0 => 0x18
  | .res1 => 0x1C
  | .lfsr => 0x20
  | .version => 0x24
  | .pktlen => 0x28
  | .pktcap => 0x2C
  | .pktid => 0x30
  | .cksum => 0x34
  | .tag => 0x38
  | .baud => 0x3C
  | .imgsize => 0x40
  | .errinfo => 0x44
  | .rxcnt => 0x48

/-- The map has the register at its own offset. -/
@[simp] theorem hostReg_offset (r : HostReg) : hostReg r.offset = some r := by
  cases r <;> rfl

/-- An offset of the map is the offset of its register. -/
theorem offset_of_hostReg {off : Nat} {r : HostReg} (h : hostReg off = some r) : off = r.offset := by
  unfold hostReg at h
  split at h <;> cases h <;> rfl

/-- Every aligned offset up to RXCNT has a register. -/
theorem hostReg_eq_none {off : Nat} (h : hostReg off = none) (haligned : off % 4 = 0) : 0x48 < off := by
  by_contra hle
  obtain ⟨k, rfl⟩ := Nat.dvd_of_mod_eq_zero haligned
  have hk : k ≤ 18 := by omega
  interval_cases k <;> cases h

/-- CMD alone has the offset 0. -/
theorem offset_eq_zero_iff (r : HostReg) : r.offset = 0x00 ↔ r = .cmd := by
  cases r <;> simp [HostReg.offset]

/-! ### The moves of the host -/

/-- What a move of the host answers (R22 to R24, R64, R316, R317). -/
inductive HostMove.Outcome (s : State) : HostMove → State → Prop
  | reads (m : HostMove) (v : Word) (q : List Timed) : Outcome s m { s with rdata := v, hostq := q }
  | ignored (off : Nat) (v : Word) : Outcome s (.writeReg off v) s
  | busyWrite (r : HostReg) (v : Word) (busy : s.busy = true) : Outcome s (.writeReg r.offset v) (s.writeBusy r v)
  | idleWrite (r : HostReg) (v : Word) (idle : s.phase = .idle) : Outcome s (.writeReg r.offset v) (s.writeIdle r v)
  | illegal (off : Nat) (w : Word) (idle : s.phase = .idle) :
    Outcome s (.writeReg off w) ({ s with cmd := w }.illegal w)
  | command (off : Nat) (w : Word) (i : Instr) {t : State} (idle : s.phase = .idle)
    (runs : exec i { s with cmd := w } = .next t) : Outcome s (.writeReg off w) t
  | imgByte (off : Nat) (b : Byte) (idle : s.phase = .idle) (lies : off < s.cfg.imgMemSize) :
    Outcome s (.writeImg off b) { s with img := s.img.store off [b] }
  | reset : Outcome s .reset s.hwReset

/-- BUSY = 0 is the phase IDLE (R34). -/
theorem phase_of_not_busy {s : State} (h : ¬s.busy = true) : s.phase = .idle := by
  simpa [busy] using h

/-- A register write that answers (R22 to R24). -/
theorem writeReg_outcome {off : Nat} {v : Word} {s t : State} (h : s.writeReg off v = .next t) :
    HostMove.Outcome s (.writeReg off v) t := by
  unfold writeReg at h
  split at h
  · cases h; exact .ignored off v
  · rename_i r hr
    obtain rfl := offset_of_hostReg hr
    split_ifs at h with hbusy hcmd
    · cases h; exact .busyWrite r v hbusy
    · have hidle := phase_of_not_busy hbusy
      unfold State.command at h
      split at h
      · exact .command _ v _ hidle h
      · cases h; exact .illegal _ v hidle
    · cases h; exact .idleWrite r v (phase_of_not_busy hbusy)

/-- What a move of the host answers, its branches once and for all. -/
theorem hostMove_outcome {m : HostMove} {s t : State} (h : s.hostMove m = .next t) : m.Outcome s t := by
  cases m with
  | readReg off => rw [hostMove] at h; split_ifs at h; cases h; exact .reads _ _ s.hostq
  | writeReg off v => rw [hostMove] at h; split_ifs at h; exact writeReg_outcome h
  | readPkt off => rw [hostMove] at h; split_ifs at h; cases h; exact .reads _ _ s.hostq
  | readRxb off => rw [hostMove] at h; split_ifs at h; cases h; exact .reads _ _ s.hostq
  | readImg off => rw [hostMove] at h; split_ifs at h; cases h; exact .reads _ _ s.hostq
  | writeImg off b =>
    rw [hostMove] at h
    split_ifs at h with hbusy hoff
    cases h
    exact .imgByte off b (phase_of_not_busy hbusy) hoff
  | check => cases h; exact .reads _ _ _
  | reset => cases h; exact .reset

/-! ### One step of the machine -/

/-- A step at which no move of the host lands goes on with the command that runs (log 11). -/
theorem step_goesOn {s : State} (hf : s.cfg.wf = true) (hp : s.phase ≠ .idle) (hn : s.noMoveLands) :
    step s = .next s.resume := by
  unfold step
  split
  · exact guarded_sound hf
  · rename_i m q hq
    rw [guarded_sound hf, if_pos (by simp [busy, hp, hn m q hq])]

/-- What a step that answers did: the command went on, or a move of the host happened. -/
theorem step_cases {s t : State} (h : step s = .next t) :
    t = s.resume ∨ ∃ w m q, s.hostq = ⟨w, m⟩ :: q ∧ m.Outcome { s with hostq := q } t := by
  unfold step at h
  split at h
  · cases (guarded_next h).2; exact .inl rfl
  · rename_i m q hq
    have h := (guarded_next h).2
    split at h
    · cases h; exact .inl rfl
    · exact .inr ⟨m.wait, m.move, q, hq, hostMove_outcome h⟩

/-! ### Invariants -/

/-- A property that the host's queue and read data do not bear on, and that each part of a step keeps. -/
structure StepInvariant (P : State → Prop) : Prop where
  queue : ∀ s q v, P s → P { s with hostq := q, rdata := v }
  seqStep : ∀ s t, P s → s.seqStep = some t → P t
  start : ∀ i s, P s → ∃ todo, exec i s = launch i todo s ∧ P (s.start i todo)
  command : ∀ w s, P s → P { s with cmd := w }
  illegal : ∀ w s, s.phase = .idle → P s → P (s.illegal w)
  busyWrite : ∀ r v s, P s → P (s.writeBusy r v)
  idleWrite : ∀ r v s, s.phase = .idle → P s → P (s.writeIdle r v)
  imgByte : ∀ off b s, off < s.cfg.imgMemSize → P s → P { s with img := s.img.store off [b] }
  reset : ∀ s, P s → P s.hwReset

namespace StepInvariant

variable {P : State → Prop}

/-- The command that runs keeps it. -/
theorem run (hP : StepInvariant P) (n : Nat) {s : State} (h : P s) : P (State.run n s) :=
  run_induct hP.seqStep (fun s h => hP.queue s _ s.rdata h) n s h

/-- Starting a command keeps it. -/
theorem exec (hP : StepInvariant P) {i : Instr} {s t : State} (h : P s) (he : Machine.exec i s = .next t) : P t := by
  obtain ⟨todo, hl, hstart⟩ := hP.start i s h
  rw [hl, launch] at he
  cases he
  exact hP.run _ hstart

/-- Every step of the machine keeps it. -/
theorem step (hP : StepInvariant P) {s t : State} (h : P s) (hs : Machine.step s = .next t) : P t := by
  rcases step_cases hs with rfl | ⟨w, m, q, -, hm⟩
  · exact hP.run _ h
  · have hq : P { s with hostq := q } := hP.queue s q s.rdata h
    cases hm with
    | reads m v q' => exact hP.queue s q' v h
    | ignored off v => exact hq
    | busyWrite r v _ => exact hP.busyWrite r v _ hq
    | idleWrite r v idle => exact hP.idleWrite r v _ idle hq
    | illegal off w idle => exact hP.illegal w _ idle (hP.command w _ hq)
    | command off w i idle runs => exact hP.exec (hP.command w _ hq) runs
    | imgByte off b idle lies => exact hP.imgByte off b _ lies hq
    | reset => exact hP.reset _ hq

end StepInvariant

/-! ### The steps still to do -/

/-- The state runs command i, every step still to do passing a test, or it is idle. -/
def State.runsWith (i : Instr) (p : Act → Bool) (s : State) : Prop :=
  s.phase = .idle ∨ ∃ ret todo, s.phase = .exec i ret todo ∧ todo.all p = true

/-- A command goes on with the same command, and its steps pass a test that every step hands on to the steps it puts in
front, and that a new attempt of the second stage passes (R241). -/
theorem State.seqStep_runsWith {i : Instr} {p : Act → Bool} {s t : State}
    (hpush : ∀ (a : Act) (u : State), u.cfg = s.cfg → p a = true → (a.pushed u).all p = true)
    (hretry : i = .fastBegin → ∀ a, p (.slowLoad .run a) = true)
    (hs : s.runsWith i p) (h : s.seqStep = some t) : t.runsWith i p := by
  obtain hp | ⟨ret, todo, hp, htodo⟩ := hs
  · simp [hp] at h
  cases todo with
  | nil => rw [seqStep_nil hp] at h; cases h; exact .inl rfl
  | cons a todo =>
    rw [seqStep_cons hp] at h
    obtain ⟨ha, htodo⟩ : p a = true ∧ todo.all p = true := by simpa using htodo
    cases a.run_outcome h with
    | goesOn same =>
      obtain ⟨ret', hu⟩ := same.phase rfl
      exact .inr ⟨ret', todo, hu, htodo⟩
    | pushes same =>
      obtain ⟨ret', hu⟩ := same.phase rfl
      refine .inr ⟨ret', _, by simp only [push, hu]; rfl, ?_⟩
      rw [List.all_append, hpush a (s.setPhase _) (by simp) ha, htodo]; rfl
    | @raises u same rx c st info =>
      obtain ⟨ret', hu⟩ := same.phase rfl
      rcases u.raise_cases c st info with ⟨q, f, hr, -⟩ | ⟨ret'', todo', k, after, hu', hslow, -, hr⟩
      · exact .inl (by rw [hr]; rfl)
      · cases hu.symm.trans hu'
        obtain ⟨before, rfl⟩ := enclosingSlow_eq hslow
        refine .inr ⟨_, _, by rw [hr]; rfl, ?_⟩
        simp_all
    | rejects c info check => exact .inl rfl

/-- So does a whole run of it. -/
theorem State.run_runsWith {i : Instr} {p : Act → Bool} {s : State} (n : Nat)
    (hpush : ∀ (a : Act) (u : State), u.cfg = s.cfg → p a = true → (a.pushed u).all p = true)
    (hretry : i = .fastBegin → ∀ a, p (.slowLoad .run a) = true)
    (hs : s.runsWith i p) : (run n s).runsWith i p := by
  refine (run_induct (P := fun t => t.cfg = s.cfg ∧ t.runsWith i p) ?_ (fun _ h => h) n s ⟨rfl, hs⟩).2
  rintro t u ⟨hcfg, ht⟩ hu
  exact ⟨(seqStep_sameOperands hu).cfg.trans hcfg,
    seqStep_runsWith (fun a v hv => hpush a v (hv.trans hcfg)) hretry ht hu⟩

end Sys2Proof.Machine
end

section
/-! PROOFS. The registers and spaces that one step of a command writes, and that a command writes only its own over whole
runs (R26 to R39, R60). -/

namespace Sys2Proof.Machine

open State

/-! ### How a step goes on with an answer -/

/-- What the calling step makes of an answer: it goes on, returns a value, puts steps in front, or raises an error. -/
inductive Continues : (State → State) → Prop
  | goesOn : Continues id
  | returns (v : Word) : Continues (setRet v)
  | pushes (l : List Act) : Continues (push l)
  | raises (c : ErrCode) (st : Stage) (info : Word) : Continues (raise c st info)

/-- The next attempt of an exchange, or its error, whatever the state (R232). -/
theorem xmitRetry_eq (x : Exchange) (a : Nat) (last : Word) :
    ∃ F, Continues F ∧ ∀ u, xmitRetry x a last u = F u := by
  by_cases h : a < Config.nXmitAttempts
  · exact ⟨_, .pushes _, fun u => if_pos h⟩
  · exact ⟨_, .raises .., fun u => if_neg h⟩

/-- Which of these it is depends on the tag, PKTID and the parameters alone (R205, R210, R232, R241, R264). -/
theorem RxUse.act_eq (k : RxUse) (r : RxAnswer) (s : State) : ∃ F, Continues F ∧
    ∀ u, u.tag = s.tag → u.pktid = s.pktid → u.cfg = s.cfg → k.act r u = F u := by
  cases k with
  | raw => cases r with
    | bytes l => exact ⟨_, .goesOn, fun _ _ _ _ => rfl⟩
    | timeout => exact ⟨_, .raises .., fun _ _ _ _ => rfl⟩
    | ioErr => exact ⟨_, .raises .., fun _ _ _ _ => rfl⟩
  | handshake => cases r with
    | bytes l => exact ⟨_, .goesOn, fun _ _ _ _ => rfl⟩
    | timeout => exact ⟨_, .goesOn, fun _ _ _ _ => rfl⟩
    | ioErr => exact ⟨_, .raises .., fun _ _ _ _ => rfl⟩
  | poll i n st => cases r with
    | bytes l =>
      by_cases h : l.getD 0 0#8 = Config.ackOk
      · exact ⟨_, .returns _, fun _ _ _ _ => if_pos h⟩
      · exact ⟨_, .raises .., fun _ _ _ _ => if_neg h⟩
    | timeout =>
      by_cases h : i < n
      · exact ⟨_, .pushes (pollActs s.cfg (i + 1) n st), fun u _ _ hcfg => hcfg ▸ if_pos h⟩
      · exact ⟨_, .raises .., fun _ _ _ _ => if_neg h⟩
    | ioErr => exact ⟨_, .raises .., fun _ _ _ _ => rfl⟩
  | response x a => cases r with
    | bytes l =>
      by_cases h : le32 (l.drop 4) = s.tag ∧ le32 l ≠ x.id
      · exact ⟨_, .returns _, fun u htag _ _ => if_pos (htag ▸ h)⟩
      · obtain ⟨F, hF, hretry⟩ := xmitRetry_eq x a (le32 l)
        exact ⟨F, hF, fun u htag _ _ => (if_neg (htag ▸ h)).trans (hretry u)⟩
    | timeout =>
      obtain ⟨F, hF, hretry⟩ := xmitRetry_eq x a noAnswer
      exact ⟨F, hF, fun u _ _ _ => hretry u⟩
    | ioErr => exact ⟨_, .raises .., fun _ _ _ _ => rfl⟩
  | ready => cases r with
    | bytes l =>
      by_cases h : le32 l = s.pktid
      · exact ⟨_, .goesOn, fun u _ hid _ => if_pos (hid ▸ h)⟩
      · exact ⟨_, .raises .., fun u _ hid _ => if_neg (hid ▸ h)⟩
    | timeout => exact ⟨_, .raises .., fun _ _ _ _ => rfl⟩
    | ioErr => exact ⟨_, .raises .., fun _ _ _ _ => rfl⟩

/-! ### What one step of a command writes -/

/-- The registers and spaces that only some commands write (R26 to R39, R60). -/
def State.owned (s : State) :=
  (s.sstate, s.fstate, s.cksum, s.pktid, s.lfsr, s.version, s.baud, s.img, s.pkt, s.pktlen, s.rxb, s.rxcnt, s.tag,
    s.attempt)

/-- From s to t the step changed a register or a space only as a step of its kind does. -/
structure Act.Writes (a : Act) (s t : State) : Prop where
  sstate : t.sstate = s.sstate ∨ (∃ q, a = .sstate q) ∨ (∃ lt k, a = .slowLoad lt k) ∨ ∃ k, .slowEnd k ∈ s.todo
  fstate : t.fstate = s.fstate ∨ (∃ q, a = .fstate q) ∨ (∃ off size pos n, a = .chunk off size pos n) ∨
    ∃ i ret todo, s.phase = .exec i ret todo ∧ inFastLoad i = true
  cksum : t.cksum = s.cksum ∨ ∃ v, a = .set .cksum v
  pktid : t.pktid = s.pktid ∨ ∃ v, a = .set .pktid v
  lfsr : t.lfsr = s.lfsr ∨ ∃ v, a = .set .lfsr v
  version : t.version = s.version ∨ a = .hsVersion
  baud : t.baud = s.baud ∨ ∃ v, a = .set .baud v
  img : t.img = s.img ∨ ∃ off b, a = .imgByte off b ∧ t.img = s.img.store off [b]
  pkt : t.pkt = s.pkt ∧ t.pktlen = s.pktlen ∨ a = .clearPkt ∧ t.pkt = s.pkt ∧ t.pktlen = 0#32 ∨
    ∃ l, a = .append l ∧ s.pktlen.toNat + l.length ≤ s.cfg.pktCapacity.toNat ∧
      t.pkt = s.pkt.store s.pktlen.toNat l ∧ t.pktlen = s.pktlen + BitVec.ofNat 32 l.length
  rxb : t.rxb = s.rxb ∨ ∃ off b, a = .rxByte off b ∧ t.rxb = s.rxb.store off [b]
  rxcnt : t.rxcnt = s.rxcnt ∨ ∃ n, a = .rxCount n ∧ t.rxcnt = BitVec.ofNat 32 n
  tag : t.tag = s.tag ∨ ∃ x k, a = .xmit x k
  attempt : t.attempt = s.attempt ∨ ∃ k, a = .attempt k

/-- An error changes SSTATE only inside SlowLoad (R285). -/
theorem State.raise_sstate (c : ErrCode) (st : Stage) (info : Word) (s : State) :
    (s.raise c st info).sstate = s.sstate ∨ ∃ k, .slowEnd k ∈ s.todo := by
  unfold raise
  split
  · exact .inl rfl
  · rename_i i ret todo hp
    split
    · rcases s.markFast_eq i with h | h <;> rw [h] <;> exact .inl rfl
    · rename_i a after hslow
      obtain ⟨before, rfl⟩ := enclosingSlow_eq hslow
      exact .inr ⟨a, by simp [todo, hp]⟩

/-- An error changes FSTATE only in a fast-load command (R285). -/
theorem State.raise_fstate (c : ErrCode) (st : Stage) (info : Word) (s : State) :
    (s.raise c st info).fstate = s.fstate ∨ ∃ i ret todo, s.phase = .exec i ret todo ∧ inFastLoad i = true := by
  unfold raise
  split
  · exact .inl rfl
  · rename_i i ret todo hp
    by_cases hfast : inFastLoad i = true
    · exact .inr ⟨i, ret, todo, hp, hfast⟩
    · have hmark (u : State) : u.markFast i = u := if_neg hfast
      split
      · rw [hmark]; exact .inl rfl
      · split
        · exact .inl rfl
        · rw [hmark]; exact .inl rfl

namespace Act.Writes

variable {a : Act} {s u t : State}

theorem of_eq (h : t.owned = s.owned) : Writes a s t := by
  simp only [owned, Prod.mk.injEq] at h
  obtain ⟨h1, h2, h3, h4, h5, h6, h7, h8, h9, h10, h11, h12, h13, h14⟩ := h
  exact ⟨.inl h1, .inl h2, .inl h3, .inl h4, .inl h5, .inl h6, .inl h7, .inl h8, .inl ⟨h9, h10⟩, .inl h11, .inl h12,
    .inl h13, .inl h14⟩

/-- An error, raised after an update of other fields (R285). -/
theorem raise (h : u.owned = s.owned) (hp : u.phase = s.phase) (c : ErrCode) (st : Stage) (info : Word) :
    Writes a s (u.raise c st info) := by
  simp only [owned, Prod.mk.injEq] at h
  obtain ⟨h1, h2, h3, h4, h5, h6, h7, h8, h9, h10, h11, h12, h13, h14⟩ := h
  have htodo : u.todo = s.todo := by rw [State.todo, hp, State.todo]
  refine ⟨?_, ?_, .inl (by simp [h3]), .inl (by simp [h4]), .inl (by simp [h5]), .inl (by simp [h6]),
    .inl (by simp [h7]), .inl (by simp [h8]), .inl (by simp [h9, h10]), .inl (by simp [h11]), .inl (by simp [h12]),
    .inl (by simp [h13]), .inl (by simp [h14])⟩
  · rw [← h1, ← htodo]
    exact (u.raise_sstate c st info).imp_right fun h => .inr (.inr h)
  · rw [← h2, ← hp]
    exact (u.raise_fstate c st info).imp_right fun h => .inr (.inr h)

/-- A failed primitive writes nothing but its error (R263). -/
theorem raise_setStatus (l : List IoStatus) (c : ErrCode) (st : Stage) (info : Word) :
    Writes a s ((s.setStatus l).raise c st info) :=
  raise (s := s) (u := s.setStatus l) rfl rfl c st info

/-- The return of ConnSend, ConnReset or ConnSetBaud writes what its two continuations write. -/
theorem of_takeStatus {f g : State → State} (hf : ∀ l, Writes a s (f (s.setStatus l)))
    (hg : ∀ l, Writes a s (g (s.setStatus l))) (h : takeStatus f g s = some t) : Writes a s t := by
  unfold takeStatus at h
  split at h
  · cases h
  · cases h; exact hf _
  · cases h; exact hg _

/-- Going on with an answer writes nothing itself, but it can raise an error (R205, R210, R232, R241, R264). -/
theorem of_answered (r : RxAnswer) (k : RxUse) : Writes a s (k.act r s) := by
  obtain ⟨F, hF, h⟩ := k.act_eq r s
  rw [h s rfl rfl rfl]
  cases hF with
  | goesOn => exact of_eq rfl
  | returns v => exact of_eq rfl
  | pushes l => exact of_eq rfl
  | raises c st info => exact raise rfl rfl c st info

end Act.Writes

/-- What one step of a command writes. -/
theorem Act.run_writes {a : Act} {s t : State} (h : a.run s = some t) : a.Writes s t := by
  cases a with
  | set r v => cases h; cases r <;> constructor <;> simp [assign]
  | sstate q => cases h; constructor <;> simp
  | fstate q => cases h; constructor <;> simp
  | imgByte off b => cases h; constructor <;> simp
  | clearPkt => cases h; constructor <;> simp
  | append l =>
    cases h
    rcases s.appendPkt_cases l with ⟨_, h⟩ | ⟨hfit, h⟩ <;> rw [h]
    · exact .raise rfl rfl ..
    · constructor <;> simp [hfit]
  | send l info => cases h; exact .of_eq rfl
  | sendPkt => cases h; exact .of_eq rfl
  | sent info => exact .of_takeStatus (fun l => .of_eq rfl) (fun l => .raise_setStatus ..) h
  | connReset => cases h; exact .of_eq rfl
  | wasReset => exact .of_takeStatus (fun l => .of_eq rfl) (fun l => .raise_setStatus ..) h
  | setBaud r => cases h; exact .of_eq rfl
  | baudSet r => exact .of_takeStatus (fun l => .of_eq rfl) (fun l => .raise_setStatus ..) h
  | recv n t k => cases h; exact .of_eq rfl
  | heard n k =>
    rw [Act.run, takeRx] at h
    split at h
    · cases h
    · cases h; exact .of_eq rfl
  | rxByte off b => cases h; constructor <;> simp
  | rxCount n => cases h; constructor <;> simp
  | answered r k => cases h; exact .of_answered r k
  | hsCompare =>
    cases h; unfold Machine.hsCompare
    split
    · exact .raise rfl rfl ..
    · split
      · exact .of_eq rfl
      · exact .raise rfl rfl ..
  | hsVersion => cases h; constructor <;> simp [Machine.hsVersion]
  | hsAccept =>
    cases h; unfold Machine.hsAccept
    split
    · exact .of_eq rfl
    · exact .raise rfl rfl ..
  | ackPoll bc extra st => cases h; exact .of_eq rfl
  | slowLoad lt a => cases h; constructor <;> simp
  | slowEnd a => cases h; exact .of_eq rfl
  | xmit x a => cases h; constructor <;> simp [xmitAttempt]
  | attempt a => cases h; constructor <;> simp
  | expect want st =>
    cases h
    split
    · exact .of_eq rfl
    · exact .raise rfl rfl ..
  | chunk off size pos n =>
    cases h; unfold chunkStep
    split
    · constructor <;> simp
    · exact .of_eq rfl
  | reject c info => cases h; exact .of_eq rfl

/-! ### A command writes only its own (R26 to R39, R60) -/

/-- The commands that an error sends to FSTATE Failed are those that change FSTATE (R39, R285). -/
theorem inFastLoad_eq_movesFState (i : Instr) : inFastLoad i = movesFState i := by
  cases i <;> rfl

namespace onlyOwnWrites

variable {i : Instr} {s t u : State}

theorem of_eq (h : t.owned = s.owned) : onlyOwnWrites i s t := by
  simp only [owned, Prod.mk.injEq] at h
  simp [onlyOwnWrites, h]

theorem trans (h : onlyOwnWrites i s t) (h' : onlyOwnWrites i t u) : onlyOwnWrites i s u := by
  obtain ⟨h1, h2, h3, h4, h5, h6, h7, h8, h9, h10⟩ := h
  obtain ⟨k1, k2, k3, k4, k5, k6, k7, k8, k9, k10⟩ := h'
  exact ⟨fun n => (k1 n).trans (h1 n), fun n => ⟨(k2 n).1.trans (h2 n).1, (k2 n).2.trans (h2 n).2⟩,
    fun n => (k3 n).trans (h3 n), fun n => (k4 n).trans (h4 n), fun n => (k5 n).trans (h5 n),
    fun n => (k6 n).trans (h6 n), fun n => (k7 n).trans (h7 n),
    fun n => ⟨(k8 n).1.trans (h8 n).1, (k8 n).2.trans (h8 n).2⟩,
    fun n => ⟨(k9 n).1.trans (h9 n).1, (k9 n).2.trans (h9 n).2⟩,
    fun n => ⟨(k10 n).1.trans (h10 n).1, (k10 n).2.trans (h10 n).2⟩⟩

/-- LFSR stays, but for the two commands that write it (R26). -/
theorem lfsr_eq (h : onlyOwnWrites i s t) (hi : writesLfsr i = false) : t.lfsr = s.lfsr := by
  obtain ⟨-, -, -, hlfsr, -⟩ := h
  exact hlfsr hi

/-- A step that may stand among the steps of a command writes only what the command writes. -/
theorem of_act {a : Act} {ret : Word} {todo : List Act} (hp : s.phase = .exec i ret todo)
    (ha : a.ofCommand i = true) (htodo : todo.all (Act.ofCommand i) = true) (hw : a.Writes s t) :
    onlyOwnWrites i s t := by
  refine ⟨fun n => ?_, fun n => ⟨?_, ?_⟩, fun n => ?_, fun n => ?_, fun n => ?_, fun n => ?_, fun n => ?_,
    fun n => ?_, fun n => ⟨?_, ?_⟩, fun n => ⟨?_, ?_⟩⟩
  · obtain h | ⟨q, rfl⟩ | ⟨lt, k, rfl⟩ | ⟨k, hk⟩ := hw.sstate
    · exact h
    · simp [Act.ofCommand, n] at ha
    · simp [Act.ofCommand, n] at ha
    · have hk : Act.ofCommand i (.slowEnd k) = true := List.all_eq_true.1 htodo _ (by simpa [State.todo, hp] using hk)
      simp [Act.ofCommand, n] at hk
  · obtain h | ⟨q, rfl⟩ | ⟨off, size, pos, k, rfl⟩ | ⟨i', ret', todo', hp', hfast⟩ := hw.fstate
    · exact h
    · simp [Act.ofCommand, n] at ha
    · simp [Act.ofCommand, n] at ha
    · cases hp.symm.trans hp'
      simp [inFastLoad_eq_movesFState, n] at hfast
  · exact hw.cksum.resolve_right (by rintro ⟨v, rfl⟩; simp [Act.ofCommand, n] at ha)
  · exact hw.pktid.resolve_right (by rintro ⟨v, rfl⟩; simp [Act.ofCommand, n] at ha)
  · exact hw.lfsr.resolve_right (by rintro ⟨v, rfl⟩; simp [Act.ofCommand, n] at ha)
  · exact hw.version.resolve_right (by rintro rfl; simp [Act.ofCommand, n] at ha)
  · exact hw.baud.resolve_right (by rintro ⟨v, rfl⟩; simp [Act.ofCommand, n] at ha)
  · exact hw.img.resolve_right (by rintro ⟨off, b, rfl, -⟩; simp [Act.ofCommand, n] at ha)
  · exact hw.pkt.resolve_right (by rintro (⟨rfl, -⟩ | ⟨l, rfl, -⟩) <;> simp [Act.ofCommand, n] at ha)
  · exact hw.rxb.resolve_right (by rintro ⟨off, b, rfl, -⟩; simp [Act.ofCommand, n] at ha)
  · exact hw.rxcnt.resolve_right (by rintro ⟨k, rfl, -⟩; simp [Act.ofCommand, n] at ha)
  · exact hw.tag.resolve_right (by rintro ⟨x, k, rfl⟩; simp [Act.ofCommand, n] at ha)
  · exact hw.attempt.resolve_right (by rintro ⟨k, rfl⟩; simp [Act.ofCommand, n] at ha)

end onlyOwnWrites

/-- The steps of a receive belong to a command that receives, and to one that draws tags if the calling step is an
exchange (R63, R232). -/
theorem receiveActs_ofCommand {i : Instr} {n : Nat} {k : RxUse} (h : Act.ofCommand i (.heard n k) = true)
    (r : RxAnswer) : (receiveActs r k).all (Act.ofCommand i) = true := by
  have hrx : writesRxb i = true := by cases k <;> simp_all [Act.ofCommand]
  have hk (r : RxAnswer) : Act.ofCommand i (.answered r k) = true := by cases k <;> exact h
  have bytes (off : Nat) (l : List Byte) : (rxBytes off l).all (Act.ofCommand i) = true := by
    induction l generalizing off with
    | nil => rfl
    | cons b bs ih => simp only [rxBytes, List.all_cons, ih, Act.ofCommand, hrx, Bool.and_self]
  have count (m : Nat) : Act.ofCommand i (.rxCount m) = true := hrx
  cases r <;> simp [receiveActs, bytes, hk, count]

/-- The steps a step puts in front of the others belong to the command that it belongs to. -/
theorem Act.pushed_ofCommand {i : Instr} {a : Act} (s : State) (h : a.ofCommand i = true) :
    (a.pushed s).all (Act.ofCommand i) = true := by
  cases a with
  | heard n k =>
    simp only [pushed]
    split
    · rfl
    · exact receiveActs_ofCommand h _
  | recv n t k => cases k <;> simpa [pushed, Act.ofCommand] using h
  | answered r k => cases k <;> simp_all [pushed, pollActs, Act.ofCommand]
  | slowLoad lt a => cases lt <;> simp_all [pushed, slowLoadActs, needsEeprom, Act.ofCommand]
  | xmit x a =>
    simp only [pushed]
    split <;> simp_all [Act.ofCommand]
  | chunk off size pos n =>
    simp only [pushed]
    split <;> simp_all [Act.ofCommand]
  | _ => simp_all [pushed, pollActs, Act.ofCommand]

/-- FAST.BEGIN may retry SlowLoad (R241). -/
theorem slowLoad_ofCommand {i : Instr} (h : i = .fastBegin) (k : Nat) : Act.ofCommand i (.slowLoad .run k) = true := by
  subst h; rfl

/-- Every sequencer step of a command is one of its own. -/
theorem State.seqStep_own {i : Instr} {s t : State} (hs : s.runsWith i (Act.ofCommand i)) (h : s.seqStep = some t) :
    t.runsWith i (Act.ofCommand i) ∧ onlyOwnWrites i s t := by
  refine ⟨seqStep_runsWith (fun a u _ => Act.pushed_ofCommand u) slowLoad_ofCommand hs h, ?_⟩
  obtain hp | ⟨ret, todo, hp, htodo⟩ := hs
  · simp [hp] at h
  cases todo with
  | nil => rw [seqStep_nil hp] at h; cases h; exact .of_eq rfl
  | cons a todo =>
    rw [seqStep_cons hp] at h
    obtain ⟨ha, htodo⟩ : a.ofCommand i = true ∧ todo.all (Act.ofCommand i) = true := by simpa using htodo
    exact .trans (t := s.setPhase (.exec i ret todo)) (.of_eq rfl) (.of_act rfl ha htodo (Act.run_writes h))

/-- A run of a command is of its own steps and writes only its own. -/
theorem State.run_own {i : Instr} {s : State} (n : Nat) (hs : s.runsWith i (Act.ofCommand i)) :
    (run n s).runsWith i (Act.ofCommand i) ∧ onlyOwnWrites i s (run n s) := by
  refine run_induct (P := fun t => t.runsWith i (Act.ofCommand i) ∧ onlyOwnWrites i s t) ?_ (fun _ h => h) n s
    ⟨hs, .of_eq rfl⟩
  rintro t u ⟨ht, hw⟩ hu
  obtain ⟨hu, hw'⟩ := seqStep_own ht hu
  exact ⟨hu, hw.trans hw'⟩

/-- The steps still to do are of the command that runs, whichever it is. -/
theorem State.ownSteps_iff {s : State} : s.ownSteps ↔ ∃ i, s.runsWith i (Act.ofCommand i) := by
  unfold ownSteps runsWith
  cases s.phase with
  | idle => simpa using ⟨.nop⟩
  | exec i ret todo => simp [Phase.exec.injEq]

end Sys2Proof.Machine
end

section
/-! PROOFS. The steps a command starts with, and the invariants of every step that rest on them: the steps still to do are
the command's own, and everything stays inside the spaces (R28, R61 to R63). -/

namespace Sys2Proof.Machine

open State

/-! ### The steps a command starts with -/

/-- Steps that command i may be launched with: they are its own, and with sound parameters they stay inside the
spaces. -/
structure Launchable (i : Instr) (s : State) (todo : List Act) : Prop where
  own : todo.all (Act.ofCommand i) = true
  fits : s.cfg.wf = true → todo.all (Act.fits s.cfg) = true

namespace Launchable

variable {i : Instr} {s : State}

theorem operandError (info : Word) : Launchable i s (Machine.operandError info) :=
  ⟨by simp [Machine.operandError, Act.ofCommand], fun _ => rfl⟩

theorem ite {p : Prop} [Decidable p] {l l' : List Act} (h : p → Launchable i s l) (h' : ¬p → Launchable i s l') :
    Launchable i s (if p then l else l') := by
  split
  · exact h ‹_›
  · exact h' ‹_›

end Launchable

/-- The response of SlowLoad fits RXB when the parameters are sound (R312). -/
theorem hsRxLen_le_rxbSize {p : Params} (h : p.wf = true) : 129 ≤ p.rxbSize := by
  simp only [Params.wf, Bool.and_eq_true, decide_eq_true_eq] at h
  obtain ⟨⟨⟨⟨⟨-, hlen⟩, -⟩, -⟩, -⟩, -⟩ := h
  exact hlen

/-- An image that reaches its checksum byte has it in IMG (R182). -/
theorem cksumOffset_lt {s : State} (h : ¬s.badCksumImage = true) : cksumOffset < s.cfg.imgMemSize := by
  simp [badCksumImage] at h
  simp [cksumOffset]
  omega

/-- A header field that passes its check lies in IMG (R183, R184). -/
theorem headerField_lies {f : BitVec 3} {s : State} {off n : Nat} (h : s.headerField f = some (off, n)) :
    off + n ≤ s.cfg.imgMemSize := by
  unfold headerField at h
  split at h
  · cases h
  · split_ifs at h
    cases h
    omega

/-- The bytes of IMG.WRF stay in IMG (R184). -/
theorem launchable_imgBytes (f : BitVec 3) {s : State} {off : Nat} {l : List Byte}
    (h : off + l.length ≤ s.cfg.imgMemSize) : Launchable (.imgWrf f) s (imgBytes off l) := by
  induction l generalizing off with
  | nil => exact ⟨rfl, fun _ => rfl⟩
  | cons b bs ih =>
    rw [List.length_cons] at h
    obtain ⟨hown, hfits⟩ := ih (off := off + 1) (by omega)
    exact ⟨hown, fun hf => by simp [imgBytes, Act.fits, hfits hf]; omega⟩

/-- Every command is launched with steps of its own that stay inside the spaces; only LFSR.STEP takes a value from the
LFSR register (R26, R150). -/
theorem exec_steps (i : Instr) : ∃ steps : State → List Act,
    (∀ s, exec i s = launch i (steps s) s ∧ Launchable i s (steps s)) ∧
      (writesLfsr i = false → ∀ s b, steps { s with lfsr := b } = steps s) := by
  cases i with
  | lfsrStep => exact ⟨_, fun s => ⟨rfl, rfl, fun _ => rfl⟩, fun h => by cases h⟩
  | encLookup w v =>
    exact ⟨_, fun s => ⟨rfl, .ite (fun _ => ⟨rfl, fun _ => rfl⟩) fun _ => .operandError _⟩, fun _ _ _ => rfl⟩
  | encBytes => exact ⟨_, fun s => ⟨rfl, .ite (fun _ => .operandError _) fun _ => ⟨rfl, fun _ => rfl⟩⟩, fun _ _ _ => rfl⟩
  | pktSend =>
    exact ⟨_, fun s => ⟨rfl, .ite (fun _ => ⟨rfl, fun _ => rfl⟩) fun _ => ⟨rfl, fun _ => rfl⟩⟩, fun _ _ _ => rfl⟩
  | hsRxbyte => exact ⟨_, fun s => ⟨rfl, .ite (fun _ => .operandError _) fun _ => ⟨rfl, fun _ => rfl⟩⟩, fun _ _ _ => rfl⟩
  | imgCksum =>
    refine ⟨_, fun s => ⟨rfl, .ite (fun _ => .operandError _) fun h => ⟨rfl, fun _ => ?_⟩⟩, fun _ _ _ => rfl⟩
    simp [Act.fits, cksumOffset_lt h]
  | imgRdf f =>
    refine ⟨_, fun s => ⟨rfl, ?_⟩, fun _ _ _ => rfl⟩
    split
    · exact .operandError _
    · exact ⟨rfl, fun _ => rfl⟩
  | imgWrf f =>
    refine ⟨_, fun s => ⟨rfl, ?_⟩, fun _ _ _ => rfl⟩
    split
    · exact .operandError _
    · exact launchable_imgBytes f (by simpa [leBytes] using headerField_lies ‹_›)
  | romBuild lt =>
    exact ⟨_, fun s => ⟨rfl, .ite (fun _ => .operandError _) fun _ => .ite (fun _ => .operandError _) fun _ =>
      ⟨rfl, fun _ => rfl⟩⟩, fun _ _ _ => rfl⟩
  | romAck => exact ⟨_, fun s => ⟨rfl, .ite (fun _ => .operandError _) fun _ => ⟨rfl, fun _ => rfl⟩⟩, fun _ _ _ => rfl⟩
  | romLoad lt =>
    exact ⟨_, fun s => ⟨rfl, .ite (fun _ => .operandError _) fun _ => .ite (fun _ => .operandError _) fun _ =>
      .ite (fun _ => .operandError _) fun _ => ⟨rfl, fun _ => rfl⟩⟩, fun _ _ _ => rfl⟩
  | fastXmit psel r =>
    refine ⟨_, fun s => ⟨rfl, .ite (fun _ => .operandError _) fun _ => .ite (fun _ => .operandError _) fun _ =>
      .ite (fun _ => .operandError _) fun _ => ?_⟩, fun _ _ _ => rfl⟩
    cases r <;> exact ⟨rfl, fun _ => rfl⟩
  | fastBegin =>
    refine ⟨_, fun s => ⟨rfl, .ite (fun _ => .operandError _) fun _ => .ite (fun _ => .operandError _) fun h =>
      ⟨rfl, fun hf => ?_⟩⟩, fun _ _ _ => rfl⟩
    have himg := cksumOffset_lt fun h' => h (.inl h')
    have hrx := hsRxLen_le_rxbSize hf
    simp [Act.fits, himg, Config.pktRspLen]
    omega
  | fastData =>
    exact ⟨_, fun s => ⟨rfl, .ite (fun _ => .operandError _) fun _ => .ite (fun _ => .operandError _) fun _ =>
      .ite (fun _ => ⟨rfl, fun _ => rfl⟩) fun _ => ⟨rfl, fun _ => rfl⟩⟩, fun _ _ _ => rfl⟩
  | fastEnd lt =>
    refine ⟨_, fun s => ⟨rfl, .ite (fun _ => .operandError _) fun _ => ?_⟩, fun _ _ _ => rfl⟩
    split
    · exact .operandError _
    · exact .ite (fun _ => ⟨rfl, fun _ => rfl⟩) fun _ => by cases lt <;> exact ⟨rfl, fun _ => rfl⟩
  | connRecv =>
    refine ⟨_, fun s => ⟨rfl, .ite (fun _ => .operandError _) fun h => ⟨rfl, fun _ => ?_⟩⟩, fun _ _ _ => rfl⟩
    have hlen : s.arg0.toNat ≤ s.cfg.rxbSize := by
      by_contra hbig
      exact h (.inr (by omega))
    simp [Act.fits, hlen]
  | connBaud => exact ⟨_, fun s => ⟨rfl, .ite (fun _ => .operandError _) fun _ => ⟨rfl, fun _ => rfl⟩⟩, fun _ _ _ => rfl⟩
  | _ => exact ⟨_, fun s => ⟨rfl, rfl, fun _ => rfl⟩, fun _ _ _ => rfl⟩

/-- Every command is launched with steps of its own that stay inside the spaces. -/
theorem exec_launchable (i : Instr) (s : State) : ∃ todo, exec i s = launch i todo s ∧ Launchable i s todo := by
  obtain ⟨steps, hsteps, -⟩ := exec_steps i
  exact ⟨steps s, hsteps s⟩

/-! ### Every step keeps the steps still to do among the command's own -/

/-- A command that has just been launched runs its own steps. -/
theorem Launchable.runsWith {i : Instr} {s : State} {todo : List Act} (h : Launchable i s todo) :
    (s.start i todo).runsWith i (Act.ofCommand i) :=
  .inr ⟨_, _, rfl, h.own⟩

/-- An idle state has no step to do. -/
theorem State.ownSteps_idle {s : State} (h : s.phase = .idle) : s.ownSteps := by
  simp [ownSteps, h]

theorem stepInvariant_ownSteps : StepInvariant State.ownSteps where
  queue _ _ _ h := h
  seqStep s t h ht := by
    obtain ⟨i, h⟩ := ownSteps_iff.1 h
    exact ownSteps_iff.2 ⟨i, (seqStep_own h ht).1⟩
  start i s _ := by
    obtain ⟨todo, hl, htodo⟩ := exec_launchable i s
    exact ⟨todo, hl, htodo.own⟩
  command _ _ h := h
  illegal _ _ _ _ := ownSteps_idle rfl
  busyWrite _ _ _ h := h
  idleWrite r v s hp _ := ownSteps_idle (by cases r <;> exact hp)
  imgByte _ _ _ _ h := h
  reset _ _ := ownSteps_idle rfl

/-- Settles O52: a command starts with its own steps, each step puts only its own in front, and each writes only what
the command writes. -/
theorem commandsWriteOnlyTheirOwn : Obligations.CommandsWriteOnlyTheirOwn := by
  refine ⟨fun i s t h => ?_, fun i r todo s t hp hs hn h => ?_, fun s t => stepInvariant_ownSteps.step⟩
  · obtain ⟨todo, hl, htodo⟩ := exec_launchable i s
    rw [hl, launch] at h
    cases h
    obtain ⟨hown, hwrites⟩ := run_own (s.start i todo).fuel htodo.runsWith
    exact ⟨ownSteps_iff.2 ⟨i, hown⟩, .trans (t := s.start i todo) (.of_eq rfl) hwrites⟩
  · have hruns : s.runsWith i (Act.ofCommand i) := .inr ⟨r, todo, hp, by simpa [ownSteps, hp] using hs⟩
    rw [step_goesOn (step_wf h) (by simp [hp]) hn] at h
    cases h
    obtain ⟨hown, hwrites⟩ := run_own s.fuel hruns
    exact ⟨ownSteps_iff.2 ⟨i, hown⟩, hwrites, hown.imp_right fun ⟨r', todo', hp', _⟩ => ⟨r', todo', hp'⟩⟩

/-! ### Every step keeps the spaces (R28, R61 to R63) -/

/-- One step of a command stores into a space, or leaves it alone. -/
theorem Act.Writes.canonical {a : Act} {s t : State} (hw : a.Writes s t) (hs : s.canonical) : t.canonical := by
  obtain ⟨himg, hpkt, hrxb⟩ := hs
  refine ⟨?_, ?_, ?_⟩
  · obtain h | ⟨off, b, -, h⟩ := hw.img <;> rw [h]
    · exact himg
    · exact Memory.wf_store himg ..
  · obtain ⟨h, -⟩ | ⟨-, h, -⟩ | ⟨l, -, -, h, -⟩ := hw.pkt <;> rw [h]
    · exact hpkt
    · exact hpkt
    · exact Memory.wf_store hpkt ..
  · obtain h | ⟨off, b, -, h⟩ := hw.rxb <;> rw [h]
    · exact hrxb
    · exact Memory.wf_store hrxb ..

theorem State.seqStep_canonical {s t : State} (hs : s.canonical) (h : s.seqStep = some t) : t.canonical := by
  unfold seqStep at h
  split at h
  · cases h
  · cases h; exact hs
  · rename_i i ret a todo hp
    exact (Act.run_writes h).canonical hs

theorem stepInvariant_canonical : StepInvariant State.canonical where
  queue _ _ _ h := h
  seqStep _ _ := seqStep_canonical
  start i s h := by
    obtain ⟨todo, hl, -⟩ := exec_launchable i s
    exact ⟨todo, hl, h⟩
  command _ _ h := h
  illegal _ _ _ h := h
  busyWrite _ _ _ h := h
  idleWrite r _ _ _ h := by cases r <;> exact h
  imgByte _ _ _ _ h := ⟨Memory.wf_store h.1 .., h.2⟩
  reset _ h := h

/-- Storing below a size leaves every listed address below it. -/
theorem Memory.below_store {m : Memory} {size a : Nat} {l : List Byte} (h : m.below size = true)
    (hl : a + l.length ≤ size) : (m.store a l).below size = true := by
  simp only [below, List.all_eq_true, decide_eq_true_eq] at h ⊢
  intro c hc
  simp only [store, List.mem_append, List.mem_filter] at hc
  obtain ⟨hc, -⟩ | hc | ⟨hc, -⟩ := hc
  · exact h c hc
  · have := mem_cells_bounds hc; omega
  · exact h c hc

/-- The steps of a receive of at most n bytes stay inside RXB (R63). -/
theorem receiveActs_fits {p : Params} {n : Nat} (hn : n ≤ p.rxbSize) (k : RxUse) (r : RxAnswer) :
    (receiveActs (deliver n r) k).all (Act.fits p) = true := by
  have bytes (l : List Byte) (off : Nat) (h : off + l.length ≤ p.rxbSize) :
      (rxBytes off l).all (Act.fits p) = true := by
    induction l generalizing off with
    | nil => rfl
    | cons b bs ih =>
      rw [List.length_cons] at h
      simp [rxBytes, Act.fits, ih (off + 1) (by omega)]
      omega
  cases r with
  | bytes l =>
    rw [deliver]
    split
    · simp [receiveActs, Act.fits]
    · have hlen : (l.take n).length ≤ n := List.length_take_le ..
      simp only [receiveActs, List.all_append, bytes (l.take n) 0 (by omega)]
      simp [Act.fits]
      omega
  | timeout => simp [receiveActs, Act.fits]
  | ioErr => simp [receiveActs, Act.fits]

/-- With sound parameters the steps a step puts in front of the others stay inside the spaces. -/
theorem Act.pushed_fits {a : Act} {s : State} (hf : s.cfg.wf = true) (h : a.fits s.cfg = true) :
    (a.pushed s).all (Act.fits s.cfg) = true := by
  have hrx := hsRxLen_le_rxbSize hf
  have poll (i n : Nat) (st : Stage) : (pollActs s.cfg i n st).all (Act.fits s.cfg) = true := by
    simp [pollActs, Act.fits]; omega
  cases a with
  | recv n t k => simpa [pushed, Act.fits] using h
  | heard n k =>
    simp only [pushed]
    split
    · rfl
    · exact receiveActs_fits (of_decide_eq_true h) k _
  | answered r k =>
    cases k with
    | poll i n st => exact poll ..
    | _ => rfl
  | ackPoll bc extra st => exact poll ..
  | slowLoad lt a =>
    have hshake : Config.hsRxLen ≤ s.cfg.rxbSize := hrx
    cases lt <;> simp [pushed, slowLoadActs, needsEeprom, Act.fits, hshake]
  | xmit x a =>
    have hresp : Config.pktRspLen ≤ s.cfg.rxbSize := le_trans (by decide) hrx
    simp only [pushed]
    split <;> simp [Act.fits, hresp]
  | chunk off size pos n =>
    simp only [pushed]
    split <;> rfl
  | _ => rfl

/-- One step that stays inside the spaces keeps what is inside them there. -/
theorem Act.Writes.inSpaces {a : Act} {s t : State} (hw : a.Writes s t) (hcfg : t.cfg = s.cfg)
    (ha : a.fits s.cfg = true) (hs : s.inSpaces) (htodo : t.todo.all (Act.fits s.cfg) = true) : t.inSpaces := by
  obtain ⟨himg, hpkt, hrxb, hlen, hcnt, -⟩ := hs
  unfold State.inSpaces
  rw [hcfg]
  refine ⟨?_, ?_, ?_, ?_, ?_, htodo⟩
  · obtain h | ⟨off, b, rfl, h⟩ := hw.img <;> rw [h]
    · exact himg
    · exact Memory.below_store himg (of_decide_eq_true ha)
  · obtain ⟨h, -⟩ | ⟨-, h, -⟩ | ⟨l, -, hfit, h, -⟩ := hw.pkt <;> rw [h]
    · exact hpkt
    · exact hpkt
    · exact Memory.below_store hpkt hfit
  · obtain h | ⟨off, b, rfl, h⟩ := hw.rxb <;> rw [h]
    · exact hrxb
    · exact Memory.below_store hrxb (of_decide_eq_true ha)
  · obtain ⟨-, h⟩ | ⟨-, -, h⟩ | ⟨l, -, hfit, -, h⟩ := hw.pkt <;> rw [h]
    · exact hlen
    · simp
    · simp only [BitVec.toNat_add, BitVec.toNat_ofNat, Nat.add_mod_mod]
      exact (Nat.mod_le ..).trans hfit
  · obtain h | ⟨n, rfl, h⟩ := hw.rxcnt <;> rw [h]
    · exact hcnt
    · rw [BitVec.toNat_ofNat]
      exact (Nat.mod_le ..).trans (of_decide_eq_true ha)

/-- With sound parameters every sequencer step stays inside the spaces. -/
theorem State.seqStep_inSpaces {s t : State} (hf : s.cfg.wf = true) (hs : s.inSpaces) (h : s.seqStep = some t) :
    t.inSpaces := by
  obtain ⟨himg, hpkt, hrxb, hlen, hcnt, htodo⟩ := id hs
  cases hp : s.phase with
  | idle => simp [hp] at h
  | exec i ret l =>
    have hl : l.all (Act.fits s.cfg) = true := by simpa only [State.todo, hp] using htodo
    have hcfg := (seqStep_sameOperands h).cfg
    have ht : t.todo.all (Act.fits s.cfg) = true := by
      have hruns := seqStep_runsWith (i := i) (p := Act.fits s.cfg)
        (fun a u hu ha => hu ▸ Act.pushed_fits (hu ▸ hf) (hu ▸ ha)) (fun _ _ => rfl) (.inr ⟨ret, l, hp, hl⟩) h
      obtain hidle | ⟨ret', l', hp', hl'⟩ := hruns
      · simp [State.todo, hidle]
      · simpa only [State.todo, hp'] using hl'
    cases l with
    | nil =>
      rw [seqStep_nil hp] at h
      cases h
      exact ⟨himg, hpkt, hrxb, hlen, hcnt, rfl⟩
    | cons a rest =>
      rw [seqStep_cons hp] at h
      obtain ⟨ha, hrest⟩ : a.fits s.cfg = true ∧ rest.all (Act.fits s.cfg) = true := by simpa using hl
      exact (Act.run_writes h).inSpaces hcfg ha ⟨himg, hpkt, hrxb, hlen, hcnt, hrest⟩ ht

theorem stepInvariant_inSpaces : StepInvariant fun s => s.cfg.wf = true ∧ s.inSpaces where
  queue _ _ _ h := h
  seqStep s t h ht := ⟨by rw [(seqStep_sameOperands ht).cfg]; exact h.1, seqStep_inSpaces h.1 h.2 ht⟩
  start i s h := by
    obtain ⟨hf, himg, hpkt, hrxb, hlen, hcnt, -⟩ := h
    obtain ⟨todo, hl, htodo⟩ := exec_launchable i s
    exact ⟨todo, hl, hf, himg, hpkt, hrxb, hlen, hcnt, htodo.fits hf⟩
  command _ _ h := h
  illegal _ _ _ h := by
    obtain ⟨hf, himg, hpkt, hrxb, hlen, hcnt, -⟩ := h
    exact ⟨hf, himg, hpkt, hrxb, hlen, hcnt, rfl⟩
  busyWrite _ _ _ h := h
  idleWrite r _ _ _ h := by cases r <;> exact h
  imgByte _ _ _ hoff h := by
    obtain ⟨hf, himg, hrest⟩ := h
    exact ⟨hf, Memory.below_store himg hoff, hrest⟩
  reset _ h := by
    obtain ⟨hf, himg, hpkt, hrxb, -⟩ := h
    exact ⟨hf, himg, hpkt, hrxb, Nat.zero_le _, Nat.zero_le _, rfl⟩

/-- Settles O57: every step stores inside a space, and what a command has still to do stays there. -/
theorem stepKeepsTheSpaces : Obligations.StepKeepsTheSpaces :=
  ⟨fun _ _ => stepInvariant_canonical.step, fun _ _ h hs => (stepInvariant_inSpaces.step ⟨step_wf hs, h⟩ hs).2⟩

end Sys2Proof.Machine
end

section
/-! PROOFS. What a command reads: going on with it commutes with any change of LFSR, OVR and CMD, the registers that no
step of a command reads (R23, R26, R150). -/

namespace Sys2Proof.Machine

open State

/-! ### The registers no step of a command reads -/

/-- Other values in LFSR, OVR and CMD. -/
def State.veil (f : Byte → Byte) (o : Bool → Bool) (c : Word → Word) (s : State) : State :=
  { s with lfsr := f s.lfsr, ovr := o s.ovr, cmd := c s.cmd }

section

variable (f : Byte → Byte) (o : Bool → Bool) (c : Word → Word) (s : State)

theorem State.veil_phase : (s.veil f o c).phase = s.phase := rfl
theorem State.veil_cfg : (s.veil f o c).cfg = s.cfg := rfl
theorem State.veil_version : (s.veil f o c).version = s.version := rfl
theorem State.veil_rxcnt : (s.veil f o c).rxcnt = s.rxcnt := rfl
theorem State.veil_rxb : (s.veil f o c).rxb = s.rxb := rfl
theorem State.veil_ret : (s.veil f o c).ret = s.ret := rfl
theorem State.veil_env : (s.veil f o c).env = s.env := rfl

theorem State.raise_veil (e : ErrCode) (st : Stage) (info : Word) :
    (s.veil f o c).raise e st info = (s.raise e st info).veil f o c := by
  have mark (i : Instr) (u : State) : (u.veil f o c).markFast i = (u.markFast i).veil f o c := by
    unfold markFast; split <;> rfl
  unfold raise
  rw [veil_phase]
  split
  · rfl
  · rename_i i ret todo hp
    split
    · rw [mark]; rfl
    · rw [veil_cfg]
      split_ifs
      · rfl
      · exact congrArg (State.report e st info) (mark i (s.setSState .failed))

theorem State.appendPkt_veil (l : List Byte) : (s.veil f o c).appendPkt l = (s.appendPkt l).veil f o c := by
  rcases s.appendPkt_cases l with ⟨hbig, h⟩ | ⟨hfit, h⟩ <;> rw [h]
  · exact (appendPkt_over (s.veil f o c) hbig).trans (raise_veil ..)
  · exact appendPkt_fit (s.veil f o c) hfit

/-- Going on with an answer reads the tag, PKTID and the parameters only (R205, R232, R241). -/
theorem rxUse_veil (r : RxAnswer) (k : RxUse) : k.act r (s.veil f o c) = (k.act r s).veil f o c := by
  obtain ⟨F, hF, h⟩ := k.act_eq r s
  rw [h s rfl rfl rfl, h (s.veil f o c) rfl rfl rfl]
  cases hF with
  | goesOn => rfl
  | returns v => rfl
  | pushes l => rfl
  | raises e st info => exact raise_veil ..

theorem takeStatus_veil {g h : State → State} (hg : ∀ u, g (u.veil f o c) = (g u).veil f o c)
    (hh : ∀ u, h (u.veil f o c) = (h u).veil f o c) :
    takeStatus g h (s.veil f o c) = (takeStatus g h s).map (veil f o c) := by
  unfold takeStatus
  rw [veil_env]
  split
  · rfl
  · rename_i rest _; exact congrArg some (hg (s.setStatus rest))
  · rename_i rest _; exact congrArg some (hh (s.setStatus rest))

/-- One step of a command reads none of them, and it writes LFSR only as an assignment of it. -/
theorem Act.run_veil (a : Act) (h : f = id ∨ ∀ v, a ≠ .set .lfsr v) :
    a.run (s.veil f o c) = (a.run s).map (veil f o c) := by
  cases a with
  | set r v =>
    have hval : (s.veil f o c).val v = s.val v := by cases v <;> rfl
    cases r with
    | lfsr =>
      obtain rfl | h := h
      · simp only [run, hval]; rfl
      · exact absurd rfl (h v)
    | _ => simp only [run, hval]; rfl
  | append l => exact congrArg some (s.appendPkt_veil f o c l)
  | sent info => exact takeStatus_veil f o c s (fun _ => rfl) fun u => u.raise_veil f o c ..
  | wasReset => exact takeStatus_veil f o c s (fun _ => rfl) fun u => u.raise_veil f o c ..
  | baudSet r => exact takeStatus_veil f o c s (fun _ => rfl) fun u => u.raise_veil f o c ..
  | heard n k =>
    simp only [run, takeRx, veil_env]
    split <;> rfl
  | answered r k => exact congrArg some (rxUse_veil f o c s r k)
  | hsCompare =>
    refine congrArg some ?_
    unfold Machine.hsCompare
    rw [veil_rxcnt, veil_rxb, veil_cfg]
    split
    · exact raise_veil ..
    · split
      · rfl
      · exact raise_veil ..
  | hsAccept =>
    refine congrArg some ?_
    unfold Machine.hsAccept
    rw [veil_version]
    split
    · rfl
    · exact raise_veil ..
  | expect want st =>
    refine congrArg some ?_
    rw [veil_ret]
    split
    · rfl
    · exact raise_veil ..
  | chunk off size pos n =>
    refine congrArg some ?_
    unfold chunkStep
    split <;> rfl
  | _ => rfl

/-- One sequencer step reads none of them. -/
theorem State.seqStep_veil (h : f = id ∨ ∀ v, .set .lfsr v ∉ s.todo) :
    (s.veil f o c).seqStep = s.seqStep.map (veil f o c) := by
  cases hp : s.phase with
  | idle => rw [seqStep_idle hp, seqStep_idle (s := s.veil f o c) hp]; rfl
  | exec i ret todo =>
    cases todo with
    | nil => rw [seqStep_nil hp, seqStep_nil (s := s.veil f o c) hp]; rfl
    | cons a todo =>
      rw [seqStep_cons hp, seqStep_cons (s := s.veil f o c) hp]
      refine Act.run_veil f o c (s.setPhase (.exec i ret todo)) a (h.imp_right fun h v ha => h v ?_)
      simp [State.todo, hp, ha]

/-- Nor does a run, as far as it keeps to states whose steps do not assign LFSR. -/
theorem State.run_veil {P : State → Prop} (hkeep : ∀ u t, P u → u.seqStep = some t → P t.tick)
    (hset : ∀ u, P u → f = id ∨ ∀ v, .set .lfsr v ∉ u.todo) (n : Nat) (hs : P s) :
    run n (s.veil f o c) = (run n s).veil f o c := by
  induction n generalizing s with
  | zero => rfl
  | succ n ih =>
    rw [run_succ, run_succ, seqStep_veil f o c s (hset s hs)]
    have hdue : (s.veil f o c).hostDue = s.hostDue := rfl
    rw [hdue]
    split
    · rfl
    · cases ht : s.seqStep with
      | none => rfl
      | some t => exact ih t.tick (hkeep s t hs ht)

end

/-- Settles O10: no step of a command reads or writes OVR or CMD, the two registers an ignored write changes. -/
theorem ignoredWriteDoesNotInfluenceTheCommand : Obligations.IgnoredWriteDoesNotInfluenceTheCommand := by
  intro s r v _
  obtain ⟨-, hcmd, -⟩ := run_frame s.fuel s
  have hveil := run_veil id (fun _ => true) (fun w => if r = .cmd then v else w) s (P := fun _ => True)
    (fun _ _ _ _ => trivial) (fun _ _ => .inl rfl) s.fuel trivial
  refine Eq.trans hveil ?_
  simp only [veil, hcmd, resume, id]

/-- The steps of a command that does not write LFSR assign it nowhere. -/
theorem State.runsWith.no_set_lfsr {i : Instr} {s : State} (hi : writesLfsr i = false)
    (hs : s.runsWith i (Act.ofCommand i)) (v : Val) : .set .lfsr v ∉ s.todo := by
  intro hv
  obtain hp | ⟨ret, todo, hp, htodo⟩ := hs
  · simp [State.todo, hp] at hv
  · have hv : Act.ofCommand i (.set .lfsr v) = true := List.all_eq_true.1 htodo _ (by simpa [State.todo, hp] using hv)
    simp [Act.ofCommand, hi] at hv

/-- A run of a command that does not write LFSR does not read it. -/
theorem State.run_lfsr {i : Instr} {s : State} (hi : writesLfsr i = false) (hs : s.runsWith i (Act.ofCommand i))
    (b : Byte) (n : Nat) : run n { s with lfsr := b } = { run n s with lfsr := b } :=
  run_veil (fun _ => b) id id s (P := fun u => u.runsWith i (Act.ofCommand i)) (fun _ _ hu ht => (seqStep_own hu ht).1)
    (fun _ hu => .inr (hu.no_set_lfsr hi)) n hs

/-- Settles O27: which steps a command starts with does not depend on LFSR, and none of them reads or writes it. -/
theorem commandsIgnoreTheLfsrRegister : Obligations.CommandsIgnoreTheLfsrRegister := by
  refine ⟨fun i s t b hi h => ?_, fun i r todo s t b hp hs hi hn h => ?_⟩
  · obtain ⟨steps, hsteps, hblind⟩ := exec_steps i
    obtain ⟨hl, htodo⟩ := hsteps s
    rw [hl, launch] at h
    cases h
    obtain ⟨-, hwrites⟩ := run_own (s.start i (steps s)).fuel htodo.runsWith
    refine ⟨?_, hwrites.lfsr_eq hi⟩
    rw [(hsteps _).1, hblind hi, launch]
    exact congrArg Host.Outcome.next (run_lfsr hi htodo.runsWith b _)
  · have hruns : s.runsWith i (Act.ofCommand i) := .inr ⟨r, todo, hp, by simpa [ownSteps, hp] using hs⟩
    have hf := step_wf h
    have hbusy : s.phase ≠ .idle := by simp [hp]
    rw [step_goesOn hf hbusy hn] at h
    cases h
    obtain ⟨-, hwrites⟩ := run_own s.fuel hruns
    refine ⟨?_, hwrites.lfsr_eq hi⟩
    have hn' : ({ s with lfsr := b } : State).noMoveLands := by
      intro m q hq
      have hwaits : ({ s with lfsr := b } : State).seqStep.isNone = s.seqStep.isNone := by
        rw [show ({ s with lfsr := b } : State) = s.veil (fun _ => b) id id from rfl,
          seqStep_veil _ _ _ _ (.inr (hruns.no_set_lfsr hi)), Option.isNone_map]
      simpa only [landsNow, hwaits] using hn m q hq
    rw [step_goesOn (s := { s with lfsr := b }) hf hbusy hn']
    exact congrArg Host.Outcome.next (run_lfsr hi hruns b _)

end Sys2Proof.Machine
end

section
/-! PROOFS. The registers the host sees (R22 to R36, R42): reads and writes of the map, reset, STATUS, and the CMD write
that starts a command. -/

namespace Sys2Proof.Machine

open State

/-! ### What no command writes (R25, R65, R77) -/

/-- A run leaves the operands, IMGSIZE, CMD and OVR alone. -/
theorem State.run_operands (s : State) (n : Nat) :
    (run n s).arg0 = s.arg0 ∧ (run n s).arg1 = s.arg1 ∧ (run n s).arg2 = s.arg2 ∧ (run n s).arg3 = s.arg3 ∧
      (run n s).imgsize = s.imgsize ∧ (run n s).cmd = s.cmd ∧ (run n s).ovr = s.ovr := by
  obtain ⟨-, hcmd, hovr, h0, h1, h2, h3, hsize, -⟩ := run_frame n s
  exact ⟨h0, h1, h2, h3, hsize, hcmd, hovr⟩

/-- So does a command that starts. -/
theorem exec_operands {i : Instr} {s t : State} (h : exec i s = .next t) :
    t.arg0 = s.arg0 ∧ t.arg1 = s.arg1 ∧ t.arg2 = s.arg2 ∧ t.arg3 = s.arg3 ∧ t.imgsize = s.imgsize ∧ t.cmd = s.cmd ∧
      t.ovr = s.ovr := by
  obtain ⟨todo, hl⟩ := exec_next i s
  rw [hl] at h
  cases h
  exact run_operands (s.start i todo) _

theorem stepInvariant_cfg (p : Params) : StepInvariant fun s => s.cfg = p where
  queue _ _ _ h := h
  seqStep _ _ h ht := (seqStep_sameOperands ht).cfg.trans h
  start i s h := (exec_next i s).imp fun _ hl => ⟨hl, h⟩
  command _ _ h := h
  illegal _ _ _ h := h
  busyWrite _ _ _ h := h
  idleWrite r _ _ _ h := by cases r <;> exact h
  imgByte _ _ _ _ h := h
  reset _ h := h

/-- Settles O53: a run leaves the operands, IMGSIZE, CMD and OVR alone, and no part of a step writes a parameter. -/
theorem operandsAndParametersStay : Obligations.OperandsAndParametersStay := by
  refine ⟨fun i s t => exec_operands, fun s t hp hn h => ?_, fun s t h => (stepInvariant_cfg s.cfg).step rfl h⟩
  rw [step_goesOn (step_wf h) hp hn] at h
  cases h
  exact run_operands s _

/-! ### Accesses of the register map -/

/-- Every register is at an aligned offset (R22). -/
theorem HostReg.offset_aligned (r : HostReg) : r.offset % 4 = 0 := by
  cases r <;> rfl

/-- A register write, by what it finds (R23, R24). -/
theorem State.hostMove_writeReg (r : HostReg) (v : Word) (s : State) :
    s.hostMove (.writeReg r.offset v) =
      if s.busy then .next (s.writeBusy r v)
      else if r = .cmd then s.command v
      else .next (s.writeIdle r v) := by
  rw [hostMove, if_pos r.offset_aligned, writeReg, hostReg_offset]

/-- With BUSY = 1 it is ignored (R316). -/
theorem State.hostMove_writeReg_busy {r : HostReg} {v : Word} {s : State} (h : s.phase ≠ .idle) :
    s.hostMove (.writeReg r.offset v) = .next (s.writeBusy r v) := by
  rw [hostMove_writeReg, if_pos (by simp [busy, h])]

/-- With BUSY = 0 it is done, unless it starts a command (R22). -/
theorem State.hostMove_writeReg_idle {r : HostReg} {v : Word} {s : State} (h : s.phase = .idle) (hr : r ≠ .cmd) :
    s.hostMove (.writeReg r.offset v) = .next (s.writeIdle r v) := by
  rw [hostMove_writeReg, if_neg (by simp [busy, h]), if_neg hr]

/-- With BUSY = 0 a CMD write of a command's word runs it (R23). -/
theorem State.hostMove_writeCmd {w : Word} {i : Instr} {s : State} (h : s.phase = .idle) (hw : decode w = .ok i) :
    s.hostMove (.writeReg 0x00 w) = exec i { s with cmd := w } := by
  refine (hostMove_writeReg .cmd w s).trans ?_
  rw [if_neg (by simp [busy, h]), if_pos rfl, State.command, hw]

/-- An aligned offset is that of a register, or it is past the map (R22). -/
theorem aligned_offset_cases {off : Nat} (h : off % 4 = 0) :
    (∃ r : HostReg, off = r.offset) ∨ 0x48 < off ∧ hostReg off = none := by
  cases hr : hostReg off with
  | none => exact .inr ⟨hostReg_eq_none hr h, rfl⟩
  | some r => exact .inl ⟨r, offset_of_hostReg hr⟩

/-- Settles O13: the map has one register at each of its aligned offsets, and none past them. -/
theorem idleRegisterAccess : Obligations.IdleRegisterAccess := by
  refine ⟨fun s off wait q hf hq hland haligned => ?_, fun s off v wait q hf hp hq haligned h0 h4 => ?_⟩
  · refine ⟨_, (step_lands hf hq hland).trans (if_pos haligned), ?_⟩
    iterate 19 (refine ⟨by rintro rfl; rfl, ?_⟩)
    intro hbig
    rw [readReg, hostReg_big hbig]
  · rw [step_lands hf hq (.inl hp)]
    obtain ⟨r, rfl⟩ | ⟨hbig, hnone⟩ := aligned_offset_cases haligned
    · cases r with
      | cmd => exact absurd rfl h0
      | status => exact absurd rfl h4
      | _ => exact hostMove_writeReg_idle hp (by simp)
    · rw [hostMove, if_pos haligned, writeReg, hnone]
      have away (n : Nat) (hn : n ≤ 0x48) : off ≠ n := by omega
      simp [away]

/-- Settles O9: a write that finds BUSY = 1 only sets OVR; OVR goes with a STATUS write or a reset. -/
theorem writesWhileBusyAreIgnored : Obligations.WritesWhileBusyAreIgnored := by
  refine ⟨fun s off v q hf hp hq haligned hoff => ?_, fun s => rfl, fun s t hovr h => ?_⟩
  · obtain ⟨r, rfl⟩ | ⟨hbig, -⟩ := aligned_offset_cases haligned
    · rw [step_lands hf hq (.inr rfl), hostMove_writeReg_busy (s := { s with hostq := q }) hp]
      simp only [writeBusy, offset_eq_zero_iff]
    · omega
  · rcases step_cases h with rfl | ⟨w, m, q, hq, hm⟩
    · obtain ⟨-, -, -, -, -, -, hrun⟩ := run_operands s s.fuel
      exact .inl (hrun.trans hovr)
    · cases hm with
      | reads m v q' => exact .inl hovr
      | ignored off v => exact .inl hovr
      | busyWrite r v _ => exact .inl rfl
      | idleWrite r v idle =>
        cases r with
        | status =>
          cases hbit : v.getLsbD 3 with
          | false => exact .inl (by rw [writeIdle, clearStatus, hbit, hovr]; rfl)
          | true => exact .inr (.inl ⟨w, v, q, hq, hbit, idle⟩)
        | _ => exact .inl hovr
      | illegal off w idle => exact .inl hovr
      | command off w i idle runs =>
        obtain ⟨-, -, -, -, -, -, hexec⟩ := exec_operands runs
        exact .inl (hexec.trans hovr)
      | imgByte off b idle lies => exact .inl hovr
      | reset => exact .inr (.inr ⟨w, q, hq⟩)

/-- Settles O12: the write is that of R24, and it touches nothing else. -/
theorem statusWriteClears : Obligations.StatusWriteClears :=
  fun _ _ _ _ hf hp hq => (step_lands hf hq (.inl hp)).trans (hostMove_writeReg_idle (r := .status) hp (by simp))

/-! ### Starting a command and going on with it (R23, R34) -/

/-- Settles O7: the CMD write lands and decodes; otherwise the command goes on. -/
theorem stepRunsTheDecodedCommand : Obligations.StepRunsTheDecodedCommand := by
  refine ⟨fun s w wait q i hf hp hq hw => ?_, fun s w i hf hw => ?_, fun s => step_goesOn⟩
  · rw [step_lands hf hq (.inl hp), hostMove_writeCmd (s := { s with hostq := q }) hp hw]
  · have hword : BitVec.ofNat 32 (w.toNat % 2 ^ 32) = w := by
      rw [Nat.mod_eq_of_lt w.isLt, BitVec.ofNat_toNat, BitVec.setWidth_eq]
    have hq : (s.withFetchWord 32 w.toNat).hostq = ⟨none, .writeReg 0x00 w⟩ :: s.hostq := by
      simp only [withFetchWord, hword]; rfl
    rw [step_lands (s := s.withFetchWord 32 w.toNat) hf hq (.inl rfl), hostMove_writeCmd rfl hw]
    rfl

/-! ### STATUS (R24) -/

/-- While a command runs without a code so far, STATUS is consistent. -/
theorem State.statusConsistent_running {s : State} (hdone : s.done = false) (herr : s.err = false)
    (hecode : s.ecode = .none) (hstage : s.stage = .none) : s.statusConsistent :=
  ⟨fun _ => ⟨hdone, herr⟩, fun _ => ⟨hecode, hstage⟩⟩

/-- A reported error is consistent (R285). -/
theorem State.statusConsistent_report (c : ErrCode) (st : Stage) (info : Word) (s : State) :
    (s.report c st info).statusConsistent :=
  ⟨fun h => absurd rfl h, fun h => by cases h⟩

theorem State.seqStep_statusConsistent {s t : State} (hs : s.statusConsistent) (h : s.seqStep = some t) :
    t.statusConsistent := by
  obtain ⟨hbusy, hcode⟩ := hs
  cases hp : s.phase with
  | idle => simp [hp] at h
  | exec i ret todo =>
    obtain ⟨hdone, herr⟩ := hbusy (by simp [hp])
    obtain ⟨hecode, hstage⟩ := hcode herr
    cases todo with
    | nil =>
      rw [seqStep_nil hp] at h
      cases h
      exact ⟨fun h => absurd rfl h, fun _ => ⟨hecode, hstage⟩⟩
    | cons a todo =>
      rw [seqStep_cons hp] at h
      cases a.run_outcome h with
      | goesOn same =>
        exact statusConsistent_running (same.done.trans hdone) (same.err.trans herr) (same.ecode.trans hecode)
          (same.stage.trans hstage)
      | pushes same =>
        exact statusConsistent_running (same.done.trans hdone) (same.err.trans herr) (same.ecode.trans hecode)
          (same.stage.trans hstage)
      | @raises u same rx c st info =>
        rcases u.raise_cases c st info with ⟨q, f, hr, -⟩ | ⟨_, _, _, _, -, -, -, hr⟩ <;> rw [hr]
        · exact statusConsistent_report ..
        · exact statusConsistent_running (same.done.trans hdone) (same.err.trans herr) (same.ecode.trans hecode)
            (same.stage.trans hstage)
      | rejects c info check => exact statusConsistent_report ..

/-- An idle STATUS write clears ECODE and STAGE with ERR (R24). -/
theorem State.clearStatus_statusConsistent {s : State} (v : Word) (hp : s.phase = .idle) (hs : s.statusConsistent) :
    (s.clearStatus v).statusConsistent := by
  refine ⟨fun h => absurd hp h, fun herr => ?_⟩
  unfold clearStatus at herr ⊢
  cases hbit : v.getLsbD 2 with
  | true => exact ⟨rfl, rfl⟩
  | false => exact hs.2 (by simpa only [hbit, Bool.not_false, Bool.and_true] using herr)

theorem stepInvariant_statusConsistent : StepInvariant State.statusConsistent where
  queue _ _ _ h := h
  seqStep _ _ := seqStep_statusConsistent
  start i s _ := (exec_next i s).imp fun _ hl => ⟨hl, statusConsistent_running rfl rfl rfl rfl⟩
  command _ _ h := h
  illegal _ _ _ _ := statusConsistent_report ..
  busyWrite _ _ _ h := h
  idleWrite r v _ hp h := by
    cases r with
    | status => exact clearStatus_statusConsistent v hp h
    | _ => exact h
  imgByte _ _ _ _ h := h
  reset _ _ := ⟨fun h => absurd rfl h, fun _ => ⟨rfl, rfl⟩⟩

/-- Settles O58: a command starts with STATUS cleared, and only its end sets DONE or ERR. -/
theorem stepKeepsStatusConsistent : Obligations.StepKeepsStatusConsistent :=
  fun _ _ => stepInvariant_statusConsistent.step

/-- The fields of a word that is put together as STATUS is, from ATTEMPT down to BUSY (R24). -/
theorem status_fields {w : BitVec (10 + 2 + 1 + 3 + 4 + 4 + 4 + 1 + 1 + 1 + 1)} (attempt : BitVec 2) (fstate : BitVec 3)
    (sstate stage ecode : BitVec 4) (ovr err done busy : Bool)
    (hw : w = 0#10 ++ attempt ++ 0#1 ++ fstate ++ sstate ++ stage ++ ecode ++ BitVec.ofBool ovr ++ BitVec.ofBool err ++
      BitVec.ofBool done ++ BitVec.ofBool busy) :
    (w.getLsbD 0 = busy ∧ w.getLsbD 1 = done ∧ w.getLsbD 2 = err ∧ w.getLsbD 3 = ovr ∧ w.getLsbD 19 = false) ∧
      w.extractLsb' 4 4 = ecode ∧ w.extractLsb' 8 4 = stage ∧ w.extractLsb' 12 4 = sstate ∧
      w.extractLsb' 16 3 = fstate ∧ w.extractLsb' 20 2 = attempt ∧ w.extractLsb' 22 10 = 0#10 := by
  subst hw
  refine ⟨?_, ?_⟩
  · simp only [BitVec.getLsbD_append]
    simp
  · simp (disch := decide) only [BitVec.extractLsb'_append_eq_of_le]
    refine ⟨?_, ?_, ?_, ?_, ?_, rfl⟩ <;> exact BitVec.extractLsb'_append_eq_right

/-- Settles O11: STATUS is its fields in order, each with its number. -/
theorem statusWordFields : Obligations.StatusWordFields := by
  refine ⟨fun s => ?_, rfl, rfl, rfl, rfl⟩
  obtain ⟨⟨hbusy, hdone, herr, hovr, h19⟩, hecode, hstage, hsstate, hfstate, hattempt, hhigh⟩ :=
    status_fields (w := s.readReg 0x04) s.attempt s.fstate.code s.sstate.code s.stage.code s.ecode.code s.ovr s.err
      s.done s.busy rfl
  exact ⟨hbusy, hdone, herr, hovr, hecode, hstage, hsstate, hfstate, h19, hattempt, hhigh⟩

/-! ### Reset (R42, R310) -/

/-- STATUS reads 0 after a reset (R42). -/
theorem State.hwReset_statusWord (s : State) : s.hwReset.statusWord = 0#32 := by
  show State.reset.statusWord = 0#32
  decide

/-- Settles O1: whatever ran before, reset writes every register. -/
theorem hardwareResetRestoresEveryRegister : Obligations.HardwareResetRestoresEveryRegister := by
  intro s w q hf hq hland
  refine ⟨_, step_lands hf hq hland, ?_⟩
  refine ⟨rfl, hwReset_statusWord _, ?_⟩
  iterate 28 (refine ⟨rfl, ?_⟩)
  exact ⟨fun off => by rw [hostMove]; exact if_neg (Nat.not_lt_zero off),
    fun off => by rw [hostMove]; exact if_neg (Nat.not_lt_zero off)⟩

/-- Settles O2: the candidate parameters meet their predicates, and the state is empty and idle. -/
theorem resetStateMeetsTheInvariants : Obligations.ResetStateMeetsTheInvariants := by
  have hparams : Config.candidates.wf = true := by decide +kernel
  exact ⟨hparams, ⟨rfl, rfl, rfl⟩, ⟨rfl, rfl, rfl, Nat.zero_le _, Nat.zero_le _, rfl⟩,
    ⟨fun h => absurd rfl h, fun _ => ⟨rfl, rfl⟩⟩, trivial, rfl, rfl, rfl⟩

end Sys2Proof.Machine
end

section
/-! PROOFS. The memory map (R60 to R77): the host's reads, its accesses of IMG, and accesses the interface does not
have. -/

namespace Sys2Proof.Machine

open State

/-- A read that answers changes only the value the host holds (R74). -/
theorem State.hostMove_read {m : HostMove} {s t : State}
    (hm : ∃ off, m = .readReg off ∨ m = .readPkt off ∨ m = .readRxb off ∨ m = .readImg off)
    (h : s.hostMove m = .next t) : t = { s with rdata := t.rdata } := by
  obtain ⟨off, rfl | rfl | rfl | rfl⟩ := hm <;>
    (rw [hostMove] at h; split_ifs at h; cases h; rfl)

/-- Settles O14: a read that lands is the host's move, and that move changes only what the host holds. -/
theorem readsHaveNoSideEffects : Obligations.ReadsHaveNoSideEffects := by
  intro s t m wait q hq hland hm h
  rw [step_lands (step_wf h) hq hland] at h
  exact hostMove_read hm h

/-- A step at which a bounded access lands: below the bound the access is made, from the bound on it is a fault
(R60, R64). -/
theorem step_boundedAccess {s t : State} {wait : Option Nat} {m : HostMove} {q : List Timed} {off bound : Nat}
    {f : Fault} (hf : s.cfg.wf = true) (hq : s.hostq = ⟨wait, m⟩ :: q) (hland : s.phase = .idle ∨ wait = some 0)
    (hm : hostMove m { s with hostq := q } = if off < bound then .next t else .fault f) :
    (off < bound → step s = .next t) ∧ (bound ≤ off → step s = .fault f) := by
  rw [step_lands hf hq hland, hm]
  exact ⟨fun h => if_pos h, fun h => if_neg (Nat.not_lt.2 h)⟩

/-- Settles O15: reads of PKT and RXB are accesses bounded by their counts. -/
theorem pktAndRxbReads : Obligations.PktAndRxbReads :=
  fun _ _ _ _ hf hland =>
    ⟨fun hq => step_boundedAccess hf hq hland rfl, fun hq => step_boundedAccess hf hq hland rfl⟩

/-- A write of IMG while a command runs is refused (R317). -/
theorem State.hostMove_writeImg_busy {s : State} {off : Nat} {b : Byte} (h : s.phase ≠ .idle) :
    s.hostMove (.writeImg off b) = .refused .imgWriteWhileBusy := by
  rw [hostMove, if_pos (by simp [busy, h])]

/-- A write of IMG while idle is bounded by the size of the space (R60, R77). -/
theorem State.hostMove_writeImg_idle {s : State} {off : Nat} {b : Byte} (h : s.phase = .idle) :
    s.hostMove (.writeImg off b) =
      if off < s.cfg.imgMemSize then .next { s with img := s.img.store off [b] } else .fault .noSuchImgByte := by
  rw [hostMove, if_neg (by simp [busy, h])]

/-- A register access that is not aligned is refused (R72). -/
theorem State.hostMove_misaligned {s : State} {m : HostMove} {off : Nat} {v : Word} (h : off % 4 ≠ 0)
    (hm : m = .readReg off ∨ m = .writeReg off v) : s.hostMove m = .refused .misalignedAccess := by
  obtain rfl | rfl := hm
  · exact if_neg h
  · exact if_neg h

/-- Settles O16: the accesses of IMG are bounded by its size, and the other two are refused. -/
theorem imgAndMisalignedAccesses : Obligations.ImgAndMisalignedAccesses := by
  intro s off b v wait q hf hland
  refine ⟨fun hq => step_boundedAccess hf hq hland rfl, fun hq => ⟨fun hbusy => ?_, fun hidle hlies => ?_,
    fun hidle => ?_⟩, fun halign hq => ?_⟩
  · exact (step_lands hf hq hland).trans (hostMove_writeImg_busy hbusy)
  · exact ⟨_, Memory.stored_store s.img off [b],
      (step_boundedAccess hf hq hland (hostMove_writeImg_idle hidle)).1 hlies⟩
  · exact (step_boundedAccess hf hq hland (hostMove_writeImg_idle hidle)).2
  · obtain hq | hq := hq
    · exact (step_lands hf hq hland).trans (hostMove_misaligned (v := v) halign (.inl rfl))
    · exact (step_lands hf hq hland).trans (hostMove_misaligned halign (.inr rfl))

end Sys2Proof.Machine
end

section
/-! PROOFS. Bit and byte order (R66 to R68): the encoder's walker over the input's bits (R124), and the wire format of
the fast protocol (R231). -/

namespace Sys2Proof.Machine

/-! ### The encoder's walker -/

/-- The walker without a bound: it has room for one group a bit (R124). -/
def encWalkAll (p : Params) (l : List Bool) : List Byte := encWalk p l.length l

/-- A group that is read: its value fits its width, and its entry consumes between one bit and all of it (R121). -/
theorem group_bounds {p : Params} (h : p.wfEnc = true) {l : List Bool} (hl : l ≠ []) :
    bitsVal (l.take 5) < 2 ^ min 5 l.length ∧ 1 ≤ (p.encCell (bitsVal (l.take 5)) (min 5 l.length)).2 ∧
      (p.encCell (bitsVal (l.take 5)) (min 5 l.length)).2 ≤ min 5 l.length := by
  have hpos : 0 < l.length := List.length_pos_iff.2 hl
  have hval : bitsVal (l.take 5) < 2 ^ min 5 l.length := by simpa using bitsVal_lt (l.take 5)
  exact ⟨hval, wfEnc_cell h (by omega) (by omega) hval⟩

/-- On bits that are left the walker emits the first group's entry and goes on after the bits it consumes (R124). -/
theorem encWalkAll_of_ne_nil {p : Params} (h : p.wfEnc = true) {l : List Bool} (hl : l ≠ []) :
    encWalkAll p l = (p.encCell (bitsVal (l.take 5)) (min 5 l.length)).1 ::
      encWalkAll p (l.drop (p.encCell (bitsVal (l.take 5)) (min 5 l.length)).2) := by
  obtain ⟨-, hone, -⟩ := group_bounds h hl
  cases l with
  | nil => exact absurd rfl hl
  | cons b bs =>
    rw [encWalkAll, List.length_cons, encWalk]
    simp only [Config.encMaxW, List.length_take]
    refine congrArg (List.cons _) (encWalk_mono h _ _ _ ?_ le_rfl)
    rw [List.length_drop]
    simp only [List.length_cons] at hone ⊢
    omega

/-- The bits of a byte, bit 0 first (R68). -/
theorem byteBits_getD (b : Byte) {k : Nat} (h : k < 8) : (byteBits b).getD k false = b.getLsbD k := by
  interval_cases k <;> rfl

/-- Bit k of the input is bit k mod 8 of byte k / 8 (R68). -/
theorem bitStream_getD (d : List Byte) (k : Nat) :
    (bitStream d).getD k false = (d.getD (k / 8) 0#8).getLsbD (k % 8) := by
  induction d generalizing k with
  | nil => simp [bitStream]
  | cons b d ih =>
    rw [bitStream, List.flatMap_cons, ← bitStream]
    by_cases hk : k < 8
    · rw [List.getD_append _ _ _ _ hk, byteBits_getD b hk, Nat.div_eq_of_lt hk, Nat.mod_eq_of_lt hk]
      rfl
    · obtain ⟨j, rfl⟩ : ∃ j, k = j + 8 := ⟨k - 8, by omega⟩
      rw [List.getD_append_right _ _ _ _ (Nat.le_add_left 8 j), Nat.add_div_right j (by decide), Nat.add_mod_right]
      exact ih j

/-- Settles O21: the walker without a bound is the rule's function, and `encodeBits` gives it one group a bit. -/
theorem encodeBitsIsTheWalker : Obligations.EncodeBitsIsTheWalker := by
  intro p h
  refine ⟨⟨encWalkAll p, rfl, fun l => encWalkAll_of_ne_nil h, fun d => ?_⟩, fun l => group_bounds h, bitStream_getD,
    fun d => ⟨bitStream_length d, encWalk_length _ _⟩⟩
  rw [encodeBits, encWalkAll, bitStream_length]

/-! ### The wire format -/

/-- The number a concatenation holds. -/
theorem toNat_append_eq_add {m n : Nat} (x : BitVec m) (y : BitVec n) :
    (x ++ y).toNat = x.toNat * 2 ^ n + y.toNat := by
  rw [BitVec.toNat_append, ← Nat.shiftLeft_add_eq_or_of_lt y.isLt, Nat.shiftLeft_eq]

/-- The first of four bytes is the lowest (R66, R67). -/
theorem le32_cons (b0 b1 b2 b3 : Byte) (rest : List Byte) :
    le32 (b0 :: b1 :: b2 :: b3 :: rest) = b3 ++ b2 ++ b1 ++ b0 := by
  apply BitVec.eq_of_toNat_eq
  simp only [toNat_append_eq_add, le32, List.take_succ_cons, List.take_zero, leValue, BitVec.toNat_ofNat]
  omega

/-- A word is its four bytes (R66). -/
theorem word_eq_append (w : Word) :
    w.extractLsb' 24 8 ++ w.extractLsb' 16 8 ++ w.extractLsb' 8 8 ++ w.extractLsb' 0 8 = w := by
  rw [BitVec.extractLsb'_append_extractLsb'_eq_extractLsb' (start₁ := 16) (start₂ := 24) rfl,
    BitVec.extractLsb'_append_extractLsb'_eq_extractLsb' (start₁ := 8) (start₂ := 16) rfl,
    BitVec.extractLsb'_append_extractLsb'_eq_extractLsb' (start₁ := 0) (start₂ := 8) rfl]
  exact BitVec.extractLsb'_eq_self

/-- Four bytes of a word are read back as the word (R67). -/
theorem le32_bytesLE32_append (w : Word) (rest : List Byte) : le32 (bytesLE32 w ++ rest) = w :=
  (le32_cons _ _ _ _ rest).trans (word_eq_append w)

/-- Settles O60: four bytes a word, lowest first, both ways. -/
theorem wireFormatIsLittleEndian : Obligations.WireFormatIsLittleEndian := by
  refine ⟨fun _ _ _ => rfl, fun b0 b1 b2 b3 b4 b5 b6 b7 => ⟨le32_cons .., le32_cons ..⟩, fun result tag => ⟨?_, ?_, ?_⟩⟩
  · exact le32_bytesLE32_append result (bytesLE32 tag)
  · exact (congrArg le32 (List.append_nil (bytesLE32 tag)).symm).trans (le32_bytesLE32_append tag [])
  · exact (List.append_nil _).symm

end Sys2Proof.Machine
end

section
/-! PROOFS. The tagged exchange (R232): one attempt with any answer, attempts that are not accepted one after another,
and FAST.XMIT's end after the third (R235). -/

namespace Sys2Proof.Machine

open State

/-! ### A receive, whatever its answer (R63) -/

/-- The bytes an answer to ConnRecv puts into RXB; a timeout and an IO error have none. -/
def RxAnswer.heard : RxAnswer → List Byte
  | .bytes l => l
  | .timeout => []
  | .ioErr => []

/-- A receive's steps, whatever the answer (R63, R73). -/
theorem receiveActs_eq (r : RxAnswer) (k : RxUse) :
    receiveActs r k = rxBytes 0 r.heard ++ [.rxCount r.heard.length, .answered r k] := by
  cases r <;> rfl

/-- An answer with bytes delivers exactly those asked for (R232). -/
theorem length_of_deliver {n : Nat} {r : RxAnswer} {l : List Byte} (h : deliver n r = .bytes l) : l.length = n := by
  cases r with
  | bytes l' =>
    rw [deliver] at h
    split at h
    · cases h
    · cases h
      exact List.length_take_of_le (by omega)
  | timeout => cases h
  | ioErr => cases h

/-- Nothing else is heard, so an answer's bytes fit the length asked for (R232). -/
theorem heard_deliver_length_le (n : Nat) (r : RxAnswer) : (deliver n r).heard.length ≤ n := by
  cases h : deliver n r with
  | bytes l => exact (length_of_deliver h).le
  | timeout => exact Nat.zero_le n
  | ioErr => exact Nat.zero_le n

/-- Answers delivered one after another (R63). -/
theorem deliveries_cons (n : Nat) (r : RxAnswer) (l : List RxAnswer) :
    deliveries n (r :: l) = deliveries n [r] ++ deliveries n l :=
  List.filterMap_append (l := [r])

/-- What a receive leaves in RXB is its delivery (R63). -/
theorem received_storeEach_heard (m : Memory) (n : Nat) (r : RxAnswer) :
    Memory.Received m (m.storeEach 0 (deliver n r).heard) (deliveries n [r]) := by
  rw [deliveries, List.filterMap_cons, List.filterMap_nil]
  cases deliver n r with
  | bytes l => exact Memory.received_of_stored (Memory.stored_storeEach m 0 l)
  | timeout => exact fun _ => rfl
  | ioErr => exact fun _ => rfl

/-- RXCNT after an attempt is the number of bytes heard (R63). -/
theorem lastCount_eq (r : RxAnswer) : lastCount r = BitVec.ofNat 32 (deliver Config.pktRspLen r).heard.length := by
  rw [lastCount]
  cases h : deliver Config.pktRspLen r with
  | bytes l =>
    rw [RxAnswer.heard, length_of_deliver h]
    rfl
  | timeout => rfl
  | ioErr => rfl

section

variable {s : State} {i : Instr} {ret : Word} {todo : List Act}

/-- A receive with whatever the environment lists next: its bytes go to RXB, RXCNT counts them, and the calling step
goes on (R63, R73). -/
theorem State.run_recv {k t : Nat} {u : RxUse} {r : RxAnswer} {rest : List RxAnswer} (n : Nat)
    (hp : s.phase = .exec i ret (.recv k t u :: todo)) (hx : s.env.rx = r :: rest) (hw : s.hostWaits = true) :
    run ((deliver k r).heard.length + n + 4) s = run n (u.act (deliver k r) { s with
      phase := .exec i ret todo
      rxb := s.rxb.storeEach 0 (deliver k r).heard
      rxcnt := BitVec.ofNat 32 (deliver k r).heard.length
      env := { s.env with rx := rest }
      calls := s.calls ++ [.recv k t] }) := by
  refine (run_act ((deliver k r).heard.length + n + 3) hp rfl hw).trans ?_
  refine Eq.trans (run_act (a := .heard k u) (todo := todo) ((deliver k r).heard.length + n + 2) (by rfl)
    (by exact takeRx_cons hx) (waits_of hw (by rfl))) ?_
  simp only [call, setRx, setPhase, push, receiveActs_eq, List.append_assoc, List.cons_append, List.nil_append]
  rw [Nat.add_assoc]
  refine Eq.trans (run_rxBytes (i := i) (r := ret)
    (todo := .rxCount (deliver k r).heard.length :: .answered (deliver k r) u :: todo) (deliver k r).heard (n + 2) 0
    (by rfl) (waits_of hw (by rfl))) ?_
  refine Eq.trans (run_act (a := .rxCount (deliver k r).heard.length) (todo := .answered (deliver k r) u :: todo)
    (n + 1) (by rfl) (by rfl) (waits_of hw (by rfl))) ?_
  exact run_act (a := .answered (deliver k r) u) (todo := todo) n (by rfl) (by rfl) (waits_of hw (by rfl))

/-! ### The attempts of an exchange (R232) -/

/-- The state after attempt a of an exchange sent its packet and heard an answer, before the answer is looked at. -/
def State.afterAttempt (x : Exchange) (a : Nat) (r : RxAnswer) (s : State) : State :=
  { s with
    tag := s.env.nextTag
    attempt := BitVec.ofNat 2 a
    rxb := s.rxb.storeEach 0 (deliver Config.pktRspLen r).heard
    rxcnt := BitVec.ofNat 32 (deliver Config.pktRspLen r).heard.length
    env := { s.env.afterTag with status := s.env.status.tail, rx := s.env.rx.tail }
    calls := s.calls ++ [.send (fastPacket x.id s.env.nextTag x.payload), .recv Config.pktRspLen x.timeout] }

/-- The state after attempts from a on heard these answers. -/
def State.afterAttempts (x : Exchange) : Nat → List RxAnswer → State → State
  | _, [], s => s
  | a, r :: l, s => afterAttempts x (a + 1) l (s.afterAttempt x a r)

/-- The attempts do not look at the phase. -/
theorem State.afterAttempts_setPhase (x : Exchange) (p : Phase) (l : List RxAnswer) (a : Nat) (s : State) :
    (s.setPhase p).afterAttempts x a l = (s.afterAttempts x a l).setPhase p := by
  induction l generalizing a s with
  | nil => rfl
  | cons r l ih => exact ih (a + 1) (s.afterAttempt x a r)

/-- Nor do they touch the host's queue. -/
theorem State.afterAttempts_hostq (x : Exchange) (l : List RxAnswer) (a : Nat) (s : State) :
    (s.afterAttempts x a l).hostq = s.hostq := by
  induction l generalizing a s with
  | nil => rfl
  | cons r l ih => exact ih (a + 1) (s.afterAttempt x a r)

/-- One attempt after others. -/
theorem State.afterAttempts_concat (x : Exchange) (l : List RxAnswer) (r : RxAnswer) (a : Nat) (s : State) :
    s.afterAttempts x a (l ++ [r]) = (s.afterAttempts x a l).afterAttempt x (a + l.length) r := by
  induction l generalizing a s with
  | nil => rfl
  | cons r' l ih =>
    rw [List.cons_append, afterAttempts, ih, List.length_cons, Nat.add_right_comm a 1]
    rfl

/-- A draw takes no answer. -/
theorem Env.afterTag_answers (e : Env) : e.afterTag.status = e.status ∧ e.afterTag.rx = e.rx := by
  rw [afterTag]
  split <;> exact ⟨rfl, rfl⟩

/-- A draw does not depend on the answers. -/
theorem Env.afterTag_with (e : Env) (st : List IoStatus) (rx : List RxAnswer) :
    ({ e with status := st, rx := rx } : Env).afterTag = { e.afterTag with status := st, rx := rx } := by
  obtain ⟨_, _, tags, _⟩ := e
  cases tags <;> rfl

/-- Nor do several draws. -/
theorem Env.afterTags_with (k : Nat) (e : Env) (st : List IoStatus) (rx : List RxAnswer) :
    ({ e with status := st, rx := rx } : Env).afterTags k = { e.afterTags k with status := st, rx := rx } := by
  induction k generalizing e with
  | zero => rfl
  | succ k ih => rw [afterTags, afterTag_with, ih]; rfl

/-- Nor does the value of a draw. -/
theorem Env.tagNo_with (k : Nat) (e : Env) (st : List IoStatus) (rx : List RxAnswer) :
    ({ e with status := st, rx := rx } : Env).tagNo k = e.tagNo k := by
  induction k generalizing e with
  | zero => rfl
  | succ k ih => rw [tagNo, afterTag_with, ih]; rfl

/-- The steps of an attempt that expects a response (R232). -/
theorem xmitAttempt_eq {x : Exchange} {a : Nat} (hresp : x.resp = true) (hp : s.phase = .exec i ret todo) :
    xmitAttempt x a s = { s with
      tag := s.env.nextTag
      env := s.env.afterTag
      phase := .exec i ret (.attempt a :: .send (fastPacket x.id s.env.nextTag x.payload) (BitVec.ofNat 32 a) ::
        .recv Config.pktRspLen x.timeout (.response x a) :: todo) } := by
  rw [xmitAttempt, if_pos hresp, push, drawTag]
  simp only [hp, nextTag]
  rfl

/-- An attempt whose packet is sent: the answer, whatever it is, is looked at in the state after the attempt (R232). -/
theorem State.run_attempt {x : Exchange} {a : Nat} {r : RxAnswer} {st : List IoStatus} {rx : List RxAnswer} (n : Nat)
    (hresp : x.resp = true) (hp : s.phase = .exec i ret (.xmit x a :: todo)) (hs : s.env.status = .ok :: st)
    (hx : s.env.rx = r :: rx) (hw : s.hostWaits = true) :
    run ((deliver Config.pktRspLen r).heard.length + n + 8) s = run n (RxUse.act (.response x a)
      (deliver Config.pktRspLen r) ((s.afterAttempt x a r).setPhase (.exec i ret todo))) := by
  obtain ⟨hstatus, hrx⟩ := s.env.afterTag_answers
  generalize hm : (deliver Config.pktRspLen r).heard.length + n = m
  refine (run_act (m + 7) hp (congrArg some (xmitAttempt_eq hresp (by rfl))) hw).trans ?_
  refine (run_act (m + 6) (by rfl) (by rfl) (waits_of hw (by rfl))).trans ?_
  refine (run_send (rest := st) (m + 4) (by rfl) (by exact hstatus.trans hs) (waits_of hw (by rfl))).trans ?_
  rw [← hm]
  simp only [setPhase, setStatus, setAttempt, call]
  refine (run_recv (i := i) (ret := ret) (todo := todo) (r := r) (rest := rx) n (by rfl) (by exact hrx.trans hx)
    (waits_of hw (by rfl))).trans ?_
  simp only [afterAttempt, hs, hx, List.tail_cons, List.append_assoc, List.singleton_append]

/-- An answer that is not accepted leads to the next attempt or to PACKET_TIMEOUT (R232). -/
theorem act_response_of_notAccepted {x : Exchange} {a : Nat} {r : RxAnswer} (h : notAccepted x.id s.tag r) :
    RxUse.act (.response x a) (deliver Config.pktRspLen r) s = xmitRetry x a (lastResult r) s := by
  rw [notAccepted] at h
  rw [lastResult]
  cases hd : deliver Config.pktRspLen r with
  | bytes l =>
    rw [hd] at h
    exact if_neg h
  | timeout => rfl
  | ioErr =>
    rw [hd] at h
    exact h.elim

/-- Before the third attempt it is the next one (R232). -/
theorem xmitRetry_of_lt {x : Exchange} {a : Nat} {last : Word} (h : a < 3) (hp : s.phase = .exec i ret todo) :
    xmitRetry x a last s = s.setPhase (.exec i ret (.xmit x (a + 1) :: todo)) := by
  rw [xmitRetry, if_pos (by exact h), push, hp]
  rfl

/-- From an answer that is not accepted on, the tags of the others. -/
theorem noneAccepted_cons {id : Word} {e : Env} {r : RxAnswer} {l : List RxAnswer} (h : noneAccepted id e (r :: l)) :
    notAccepted id e.nextTag r ∧ noneAccepted id e.afterTag l :=
  ⟨h 0 r rfl, fun k r' hr => h (k + 1) r' hr⟩

/-- Whether answers are accepted depends on the tags alone. -/
theorem noneAccepted_with {id : Word} {e : Env} {l : List RxAnswer} (st : List IoStatus) (rx : List RxAnswer)
    (h : noneAccepted id e l) : noneAccepted id { e with status := st, rx := rx } l := by
  intro k r hr
  rw [Env.tagNo_with]
  exact h k r hr

/-- Attempts that are not accepted, the third not among them: the next attempt starts (R232). -/
theorem State.run_attempts {x : Exchange} (hresp : x.resp = true) (bad : List RxAnswer) {s : State} {a : Nat}
    {st : List IoStatus} {rx : List RxAnswer} (hp : s.phase = .exec i ret (.xmit x a :: todo))
    (hs : s.env.status = List.replicate bad.length .ok ++ st) (hx : s.env.rx = bad ++ rx)
    (hnone : noneAccepted x.id s.env bad) (ha : a + bad.length ≤ 3) (hw : s.hostWaits = true) :
    ∃ m ≤ 16 * bad.length, ∀ n, run (m + n) s =
      run n ((s.afterAttempts x a bad).setPhase (.exec i ret (.xmit x (a + bad.length) :: todo))) := by
  induction bad generalizing s a with
  | nil => exact ⟨0, Nat.zero_le _, fun n => by
    rw [Nat.zero_add, afterAttempts, List.length_nil, Nat.add_zero, ← hp]
    rfl⟩
  | cons r bad ih =>
    obtain ⟨hr, hrest⟩ := noneAccepted_cons hnone
    rw [List.length_cons] at ha ⊢
    have hlen : (deliver Config.pktRspLen r).heard.length ≤ 8 := heard_deliver_length_le _ r
    obtain ⟨m, hm, hrun⟩ := ih (a := a + 1)
      (s := (s.afterAttempt x a r).setPhase (.exec i ret (.xmit x (a + 1) :: todo))) rfl
      (congrArg List.tail hs) (congrArg List.tail hx) (noneAccepted_with _ _ hrest) (by omega) (waits_of hw rfl)
    refine ⟨(deliver Config.pktRspLen r).heard.length + 8 + m, by omega, fun n => ?_⟩
    rw [show (deliver Config.pktRspLen r).heard.length + 8 + m + n =
        (deliver Config.pktRspLen r).heard.length + (m + n) + 8 by omega,
      run_attempt (m + n) hresp hp hs hx hw, act_response_of_notAccepted (by exact hr),
      xmitRetry_of_lt (by omega) rfl]
    refine (hrun n).trans ?_
    rw [afterAttempts_setPhase, afterAttempts, Nat.add_right_comm]
    rfl

/-- What attempts take from the environment: a tag, a send's result and an answer each (R232). -/
theorem State.afterAttempts_env (x : Exchange) (l : List RxAnswer) (a : Nat) (s : State) :
    (s.afterAttempts x a l).env = { s.env.afterTags l.length with
      status := s.env.status.drop l.length
      rx := s.env.rx.drop l.length } := by
  induction l generalizing a s with
  | nil => rfl
  | cons r l ih =>
    rw [afterAttempts, ih, afterAttempt, Env.afterTags_with, List.drop_tail, List.drop_tail]
    rfl

/-- What attempts leave in RXB: the answers' bytes, each over the one before (R63). -/
theorem State.received_afterAttempts (x : Exchange) (l : List RxAnswer) (a : Nat) (s : State) :
    Memory.Received s.rxb (s.afterAttempts x a l).rxb (deliveries 8 l) := by
  induction l generalizing a s with
  | nil => exact fun _ => rfl
  | cons r l ih =>
    rw [deliveries_cons]
    exact (received_storeEach_heard s.rxb 8 r).append (ih (a + 1) (s.afterAttempt x a r))

/-- The calls of the first attempt, and of the others with the tags after it (R232). -/
theorem xmitCalls_succ (id : Word) (payload : List Byte) (t : Nat) (e : Env) (n : Nat) :
    xmitCalls id payload t e (n + 1) =
      [.send (fastPacket id e.nextTag payload), .recv Config.pktRspLen t] ++ xmitCalls id payload t e.afterTag n := by
  rw [xmitCalls, List.range_succ_eq_map, List.flatMap_cons, List.flatMap_map]
  rfl

/-- The calls depend on the tags alone. -/
theorem xmitCalls_with (id : Word) (payload : List Byte) (t n : Nat) (e : Env) (st : List IoStatus)
    (rx : List RxAnswer) :
    xmitCalls id payload t { e with status := st, rx := rx } n = xmitCalls id payload t e n := by
  simp only [xmitCalls, Env.tagNo_with]

/-- The state after attempts, the last of which heard r: all of it but RXB, of which `received_afterAttempts` speaks. -/
theorem State.afterAttempts_concat_fields (x : Exchange) (l : List RxAnswer) (r : RxAnswer) (a : Nat) (s : State) :
    s.afterAttempts x a (l ++ [r]) = { s with
      tag := s.env.tagNo l.length
      attempt := BitVec.ofNat 2 (a + l.length)
      rxb := (s.afterAttempts x a (l ++ [r])).rxb
      rxcnt := lastCount r
      env := { s.env.afterTags (l.length + 1) with
        status := s.env.status.drop (l.length + 1)
        rx := s.env.rx.drop (l.length + 1) }
      calls := s.calls ++ xmitCalls x.id x.payload x.timeout s.env (l.length + 1) } := by
  induction l generalizing a s with
  | nil =>
    rw [lastCount_eq, xmitCalls_succ, List.length_nil, List.drop_one, List.drop_one]
    rfl
  | cons r' l ih =>
    rw [List.cons_append, afterAttempts, ih, List.length_cons, xmitCalls_succ x.id x.payload x.timeout s.env]
    simp only [afterAttempt, Env.tagNo_with, Env.afterTags_with, xmitCalls_with, List.drop_tail, List.append_assoc,
      Nat.add_right_comm a 1]
    rfl

/-- Attempts of which all but the last are not accepted: the last answer is looked at in the state after them (R232). -/
theorem State.run_lastAttempt {x : Exchange} (hresp : x.resp = true) (bad : List RxAnswer) (r : RxAnswer) {a : Nat}
    {st : List IoStatus} {rx : List RxAnswer} (hp : s.phase = .exec i ret (.xmit x a :: todo))
    (hs : s.env.status = List.replicate (bad.length + 1) .ok ++ st) (hx : s.env.rx = bad ++ r :: rx)
    (hnone : noneAccepted x.id s.env bad) (ha : a + bad.length ≤ 3) (hw : s.hostWaits = true) :
    ∃ m ≤ 16 * (bad.length + 1), ∀ n, run (m + n) s = run n (RxUse.act (.response x (a + bad.length))
      (deliver Config.pktRspLen r) ((s.afterAttempts x a (bad ++ [r])).setPhase (.exec i ret todo))) := by
  obtain ⟨m, hm, hrun⟩ := run_attempts hresp bad (st := .ok :: st) (rx := r :: rx) hp
    (hs.trans (by rw [List.replicate_succ', List.append_assoc]; rfl)) hx hnone ha hw
  have henv := afterAttempts_env x bad a s
  have hlen : (deliver Config.pktRspLen r).heard.length ≤ 8 := heard_deliver_length_le _ r
  refine ⟨m + ((deliver Config.pktRspLen r).heard.length + 8), by omega, fun n => ?_⟩
  rw [Nat.add_assoc, hrun, Nat.add_right_comm, run_attempt (st := st) (rx := rx) n hresp (setPhase_phase ..) ?_ ?_
    (waits_of hw (afterAttempts_hostq x bad a s)), afterAttempts_concat]
  · rfl
  · rw [setPhase_env, henv, hs, List.replicate_succ', List.append_assoc]
    simp
  · rw [setPhase_env, henv, hx]
    simp

/-- Answers of which none is accepted: all but the last, and the last. -/
theorem noneAccepted_concat {id : Word} {e : Env} {l : List RxAnswer} {r : RxAnswer}
    (h : noneAccepted id e (l ++ [r])) : noneAccepted id e l ∧ notAccepted id (e.tagNo l.length) r := by
  refine ⟨fun k r' hr => h k r' ?_, h l.length r (by simp)⟩
  rw [List.getElem?_append_left (List.getElem?_eq_some_iff.1 hr).1]
  exact hr

/-- Three answers that are not accepted: PACKET_TIMEOUT with the last result (R232). -/
theorem State.run_exhausted {x : Exchange} (hresp : x.resp = true) {bad : List RxAnswer} {r : RxAnswer}
    (hbad : bad.length = 2) {st : List IoStatus} {rx : List RxAnswer} (hp : s.phase = .exec i ret (.xmit x 1 :: todo))
    (hs : s.env.status = List.replicate 3 .ok ++ st) (hx : s.env.rx = bad ++ r :: rx)
    (hnone : noneAccepted x.id s.env (bad ++ [r])) (hw : s.hostWaits = true) :
    ∃ m ≤ 48, ∀ n, run (m + n) s = run n (((s.afterAttempts x 1 (bad ++ [r])).setPhase (.exec i ret todo)).raise
      .packetTimeout x.stage (lastResult r)) := by
  obtain ⟨hfirst, hlast⟩ := noneAccepted_concat hnone
  obtain ⟨m, hm, hrun⟩ := run_lastAttempt hresp bad r hp (by rw [hbad]; exact hs) hx hfirst (by omega) hw
  refine ⟨m, by omega, fun n => (hrun n).trans ?_⟩
  rw [act_response_of_notAccepted (by rw [afterAttempts_concat_fields]; exact hlast), hbad]
  rfl

end

/-! ### FAST.XMIT (R235) -/

/-- The length that FAST.XMIT checks is the payload's (R235). -/
theorem State.xmitLength_eq (psel : BitVec 3) (s : State) : s.xmitLength psel = (s.xmitPayload psel).length := by
  rw [xmitLength]
  split
  · rename_i h
    subst h
    exact (Memory.read_length ..).symm
  · rfl

/-- FAST.XMIT with operands that pass its checks is one exchange (R235). -/
theorem exec_fastXmit {psel : BitVec 3} {s : State} (r : Bool) (hpsel : psel.toNat ≤ 4)
    (himg : psel = 0#3 → s.arg1.toNat + s.arg2.toNat ≤ s.cfg.imgMemSize)
    (hlen : 8 + (s.xmitPayload psel).length ≤ s.cfg.maxDataSize) :
    exec (.fastXmit psel r) s = launch (.fastXmit psel r)
      (.xmit ⟨s.arg0, s.xmitPayload psel, if s.arg3 = 0#32 then s.cfg.tPktMs else s.arg3.toNat, r, .dataChunk⟩ 1 ::
        ((if r then [.set .res0 .ret] else []) ++ [.set .res1 .attempt])) s := by
  have hlegal : ¬(!legalPsel psel) = true := by simpa [legalPsel] using hpsel
  have hpast : ¬(psel = 0#3 ∧ s.pastImg s.arg1 s.arg2 = true) := by simpa [pastImg] using himg
  have hshort : ¬s.tooLong (s.xmitLength psel) = true := by
    simpa [tooLong, xmitLength_eq, Config.pktHdrLen] using hlen
  rw [exec, execFastXmit, if_neg hlegal, if_neg hpast, if_neg hshort]

/-- Settles O41: the exchange runs out of attempts, and its error ends the command. -/
theorem fastXmitExhausted : Obligations.FastXmitExhausted := by
  intro s psel payload t r₀ r₁ r₂ rx st hw hpsel himg hpay hlen ht hnone hs hx
  subst hpay ht
  rw [exec_fastXmit true hpsel himg hlen]
  generalize hex : Exchange.mk s.arg0 (s.xmitPayload psel) _ true .dataChunk = x
  generalize htodo : (if true = true then [Act.set .res0 .ret] else []) ++ [.set .res1 .attempt] = todo
  obtain ⟨m, hm, hrun⟩ := run_exhausted (s := s.start (.fastXmit psel true) (.xmit x 1 :: todo)) (x := x)
    (bad := [r₀, r₁]) (r := r₂) (by rw [← hex]) rfl rfl hs hx (by rw [← hex]; exact hnone) (waits_of hw rfl)
  refine ⟨_, received_afterAttempts x ([r₀, r₁] ++ [r₂]) 1 (s.start (.fastXmit psel true) (.xmit x 1 :: todo)), ?_⟩
  refine launch_of_run m (by omega) ((hrun 0).trans ?_) rfl
  rw [run_zero, afterAttempts_concat_fields]
  obtain rfl : s.env.status.drop 3 = st := by rw [hs]; rfl
  obtain rfl : s.env.rx.drop 3 = rx := by rw [hx]; rfl
  subst hex htodo
  rfl

end Sys2Proof.Machine
end

section
/-! PROOFS. The command word (R90 to R95): its fields, its row, and that decoding and encoding are inverse; and what an
illegal word and a host program do (R95, R98). -/

namespace Sys2Proof

/-! ### The fields of a word (R90) -/

/-- LT's two bits are read back as LT (R92). -/
@[simp] theorem LoadType.ofCode_code (lt : LoadType) : LoadType.ofCode lt.code = lt := by
  cases lt <;> rfl

/-- LT has the number of its two bits (R92). -/
@[simp] theorem LoadType.code_ofCode (c : BitVec 2) : (LoadType.ofCode c).code = c := by
  revert c; decide

section

variable (opc : Byte) (lt : LoadType) (f : BitVec 3) (v : BitVec 5) (r : Bool)

@[simp] theorem fieldOpc_packWord : fieldOpc (packWord opc lt f v r) = opc :=
  BitVec.extractLsb'_append_eq_right

@[simp] theorem fieldLT_packWord : fieldLT (packWord opc lt f v r) = lt := by
  have h : (packWord opc lt f v r).extractLsb' 8 2 = lt.code := by
    rw [packWord, BitVec.extractLsb'_append_eq_of_le (by decide)]
    exact BitVec.extractLsb'_append_eq_right
  rw [fieldLT, h, LoadType.ofCode_code]

@[simp] theorem fieldF_packWord : fieldF (packWord opc lt f v r) = f := by
  rw [fieldF, packWord]
  simp (disch := decide) only [BitVec.extractLsb'_append_eq_of_le]
  exact BitVec.extractLsb'_append_eq_right

@[simp] theorem fieldV_packWord : fieldV (packWord opc lt f v r) = v := by
  rw [fieldV, packWord]
  simp (disch := decide) only [BitVec.extractLsb'_append_eq_of_le]
  exact BitVec.extractLsb'_append_eq_right

@[simp] theorem fieldR_packWord : fieldR (packWord opc lt f v r) = r := by
  rw [fieldR, packWord]
  simp only [BitVec.getLsbD_append]
  simp

end

/-- R is the one bit 18 (R90). -/
theorem ofBool_fieldR (c : Word) : BitVec.ofBool (fieldR c) = c.extractLsb' 18 1 := by
  apply BitVec.eq_of_getLsbD_eq
  intro i hi
  obtain rfl : i = 0 := by omega
  simp [fieldR]

/-- A word whose reserved bits are 0 is put together from its fields (R90). -/
theorem packWord_fields {c : Word} (h : c.extractLsb' 19 13 = 0#13) :
    packWord (fieldOpc c) (fieldLT c) (fieldF c) (fieldV c) (fieldR c) = c := by
  rw [packWord, ← h, ofBool_fieldR, fieldLT, LoadType.code_ofCode, fieldV, fieldF, fieldOpc,
    BitVec.extractLsb'_append_extractLsb'_eq_extractLsb' (start₁ := 18) (start₂ := 19) rfl,
    BitVec.extractLsb'_append_extractLsb'_eq_extractLsb' (start₁ := 13) (start₂ := 18) rfl,
    BitVec.extractLsb'_append_extractLsb'_eq_extractLsb' (start₁ := 10) (start₂ := 13) rfl,
    BitVec.extractLsb'_append_extractLsb'_eq_extractLsb' (start₁ := 8) (start₂ := 10) rfl,
    BitVec.extractLsb'_append_extractLsb'_eq_extractLsb' (start₁ := 0) (start₂ := 8) rfl]
  exact BitVec.extractLsb'_eq_self

/-! ### A row and its fields (R93, R94) -/

/-- The command of the same row that has the fields of a word. -/
@[simp] def Instr.readFields (c : Word) : Instr → Instr
  | .encLookup _ _ => .encLookup (fieldF c) (fieldV c)
  | .imgRdf _ => .imgRdf (fieldF c)
  | .imgWrf _ => .imgWrf (fieldF c)
  | .romCmd _ => .romCmd (fieldLT c)
  | .romBuild _ => .romBuild (fieldLT c)
  | .romLoad _ => .romLoad (fieldLT c)
  | .fastXmit _ _ => .fastXmit (fieldF c) (fieldR c)
  | .fastEnd _ => .fastEnd (fieldLT c)
  | i => i

/-- A row's match and mask do not depend on the fields. -/
theorem rowOf_readFields (c : Word) (i : Instr) : rowOf (i.readFields c) = rowOf i := by
  cases i <;> rfl

theorem readFields_readFields (c : Word) (i : Instr) : (i.readFields c).readFields c = i.readFields c := by
  cases i <;> rfl

/-- The opcode of a row is the low byte of its match. -/
def Instr.opcode (i : Instr) : Byte := fieldOpc (rowOf i).1

/-- Every mask keeps the opcode and the reserved bits (R94). -/
theorem mask_extract (i : Instr) :
    (rowOf i).2.extractLsb' 0 8 = BitVec.allOnes 8 ∧ (rowOf i).2.extractLsb' 19 13 = BitVec.allOnes 13 := by
  cases i <;> (rw [rowOf]; decide)

/-- Where a mask keeps all bits, the bits of a word that the row selects are those of the match. -/
theorem extract_of_selected {c : Word} {i : Instr} {a n : Nat} (h : c &&& (rowOf i).2 = (rowOf i).1)
    (hm : (rowOf i).2.extractLsb' a n = BitVec.allOnes n) : c.extractLsb' a n = (rowOf i).1.extractLsb' a n := by
  rw [← h, BitVec.extractLsb'_and, hm, BitVec.and_allOnes]

/-- A word that a row selects has the row's opcode. -/
theorem fieldOpc_of_selected {c : Word} {i : Instr} (h : c &&& (rowOf i).2 = (rowOf i).1) : fieldOpc c = i.opcode :=
  extract_of_selected h (mask_extract i).1

/-- A match holds its opcode and no other bit (R94). -/
theorem match_extract (i : Instr) {a : Nat} (n : Nat) (ha : 8 ≤ a) : (rowOf i).1.extractLsb' a n = 0#n := by
  have hlow : (rowOf i).1.toNat < 2 ^ 8 := by cases i <;> (rw [rowOf]; decide)
  apply BitVec.eq_of_toNat_eq
  rw [BitVec.extractLsb'_toNat, Nat.shiftRight_eq_div_pow,
    Nat.div_eq_of_lt (hlow.trans_le (Nat.pow_le_pow_right (by decide) ha))]
  simp

/-- The bits above the opcode that a mask keeps are 0 in a word that the row selects. -/
theorem extract_eq_zero {c : Word} {i : Instr} {a n : Nat} (h : c &&& (rowOf i).2 = (rowOf i).1) (ha : 8 ≤ a)
    (hm : (rowOf i).2.extractLsb' a n = BitVec.allOnes n) : c.extractLsb' a n = 0#n :=
  (extract_of_selected h hm).trans (match_extract i n ha)

/-- The opcode leads the decoder to its row (R93). -/
theorem decode_of_opcode {c : Word} {i : Instr} (h : fieldOpc c = i.opcode) :
    decode c = selectRow (rowOf i).1 (rowOf i).2 c (i.readFields c) := by
  rw [decode, h]
  cases i <;> rfl

theorem selectRow_eq_ok {mtch mask c : Word} {i j : Instr} :
    selectRow mtch mask c i = .ok j ↔ c &&& mask = mtch ∧ i = j := by
  rw [selectRow]
  split <;> simp [*]

/-- Only the opcodes of rows decode (R93). -/
theorem fieldOpc_of_decode {c : Word} {i : Instr} (h : decode c = .ok i) : fieldOpc c = i.opcode := by
  apply BitVec.eq_of_toNat_eq
  unfold decode at h
  split at h
  case h_28 => cases h
  all_goals
    rename_i hopc
    obtain ⟨-, rfl⟩ := selectRow_eq_ok.1 h
    exact hopc

/-- A word decodes to a command exactly when the command's row selects it and the command has its fields (R94). -/
theorem decode_eq_ok_iff {c : Word} {i : Instr} :
    decode c = .ok i ↔ c &&& (rowOf i).2 = (rowOf i).1 ∧ i.readFields c = i := by
  constructor
  · intro h
    rwa [decode_of_opcode (fieldOpc_of_decode h), selectRow_eq_ok] at h
  · intro h
    rwa [decode_of_opcode (fieldOpc_of_selected h.1), selectRow_eq_ok]

/-! ### Decoding and encoding are inverse (R90 to R94) -/

/-- The word of a command selects the command's row. -/
theorem encode_selected (i : Instr) : encode i &&& (rowOf i).2 = (rowOf i).1 := by
  cases i with
  | nop => exact Laws.EncodedWordMatchesRow.nop
  | encLookup w v => exact Laws.EncodedWordMatchesRow.encLookup w v
  | encBytes => exact Laws.EncodedWordMatchesRow.encBytes
  | pktClear => exact Laws.EncodedWordMatchesRow.pktClear
  | pktPutb => exact Laws.EncodedWordMatchesRow.pktPutb
  | pktSend => exact Laws.EncodedWordMatchesRow.pktSend
  | lfsrSeed => exact Laws.EncodedWordMatchesRow.lfsrSeed
  | lfsrStep => exact Laws.EncodedWordMatchesRow.lfsrStep
  | hsTx => exact Laws.EncodedWordMatchesRow.hsTx
  | hsRxbyte => exact Laws.EncodedWordMatchesRow.hsRxbyte
  | hsVerify => exact Laws.EncodedWordMatchesRow.hsVerify
  | hsVerdec => exact Laws.EncodedWordMatchesRow.hsVerdec
  | imgCksum => exact Laws.EncodedWordMatchesRow.imgCksum
  | imgRdf f => exact Laws.EncodedWordMatchesRow.imgRdf f
  | imgWrf f => exact Laws.EncodedWordMatchesRow.imgWrf f
  | romCmd lt => exact Laws.EncodedWordMatchesRow.romCmd lt
  | romLen => exact Laws.EncodedWordMatchesRow.romLen
  | romBuild lt => exact Laws.EncodedWordMatchesRow.romBuild lt
  | romAck => exact Laws.EncodedWordMatchesRow.romAck
  | romLoad lt => exact Laws.EncodedWordMatchesRow.romLoad lt
  | fastXmit psel r => exact Laws.EncodedWordMatchesRow.fastXmit psel r
  | fastBegin => exact Laws.EncodedWordMatchesRow.fastBegin
  | fastData => exact Laws.EncodedWordMatchesRow.fastData
  | fastEnd lt => exact Laws.EncodedWordMatchesRow.fastEnd lt
  | connReset => exact Laws.EncodedWordMatchesRow.connReset
  | connRecv => exact Laws.EncodedWordMatchesRow.connRecv
  | connBaud => exact Laws.EncodedWordMatchesRow.connBaud

/-- The word of a command has the command's fields. -/
theorem readFields_encode (i : Instr) : i.readFields (encode i) = i := by
  cases i <;> simp [encode]

/-- Settles O3: the word selects the command's row and holds its fields. -/
theorem decodeOfEncode : Obligations.DecodeOfEncode :=
  fun i => decode_eq_ok_iff.2 ⟨encode_selected i, readFields_encode i⟩

section

variable {c : Word} {i : Instr} (h : c &&& (rowOf i).2 = (rowOf i).1)
include h

/-- A word that a row selects is its fields, the opcode the row's. -/
theorem packWord_of_selected : packWord i.opcode (fieldLT c) (fieldF c) (fieldV c) (fieldR c) = c := by
  rw [← fieldOpc_of_selected h]
  exact packWord_fields (extract_eq_zero h (by decide) (mask_extract i).2)

/-- LT is `shutdown` where a mask keeps its bits (R90, R94). -/
theorem fieldLT_of_selected (hm : (rowOf i).2.extractLsb' 8 2 = BitVec.allOnes 2) : fieldLT c = .shutdown := by
  rw [fieldLT, extract_eq_zero h (by decide) hm]
  rfl

/-- R is 0 where a mask keeps it (R90, R94). -/
theorem fieldR_of_selected (hm : (rowOf i).2.extractLsb' 18 1 = BitVec.allOnes 1) : fieldR c = false := by
  have hbit := (ofBool_fieldR c).trans (extract_eq_zero h (by decide) hm)
  cases hr : fieldR c with
  | false => rfl
  | true => rw [hr] at hbit; cases hbit

end

/-- A row that uses no field selects its match alone. -/
theorem eq_of_maskNone {c m : Word} (h : c &&& maskNone = m) : m = c :=
  h.symm.trans (BitVec.and_allOnes (x := c))

/-- A row that uses LT alone selects the words of its opcode and an LT. -/
theorem packWord_of_maskLT {c : Word} {i : Instr} (h : c &&& (rowOf i).2 = (rowOf i).1) (hm : (rowOf i).2 = maskLT) :
    packWord i.opcode (fieldLT c) 0 0 false = c := by
  have hf : fieldF c = 0#3 := extract_eq_zero h (by decide) (by rw [hm]; decide)
  have hv : fieldV c = 0#5 := extract_eq_zero h (by decide) (by rw [hm]; decide)
  have hr := fieldR_of_selected h (by rw [hm]; decide)
  have hall := packWord_of_selected h
  rwa [hf, hv, hr] at hall

/-- A row that uses F alone selects the words of its opcode and an F. -/
theorem packWord_of_maskF {c : Word} {i : Instr} (h : c &&& (rowOf i).2 = (rowOf i).1) (hm : (rowOf i).2 = maskF) :
    packWord i.opcode .shutdown (fieldF c) 0 false = c := by
  have hlt := fieldLT_of_selected h (by rw [hm]; decide)
  have hv : fieldV c = 0#5 := extract_eq_zero h (by decide) (by rw [hm]; decide)
  have hr := fieldR_of_selected h (by rw [hm]; decide)
  have hall := packWord_of_selected h
  rwa [hlt, hv, hr] at hall

/-- A word that a row selects is the word of the row's command with its fields. -/
theorem encode_readFields {c : Word} {i : Instr} (h : c &&& (rowOf i).2 = (rowOf i).1) :
    encode (i.readFields c) = c := by
  cases i with
  | encLookup w v =>
    have hm : (rowOf (.encLookup w v)).2 = maskFV := rfl
    have hlt := fieldLT_of_selected h (by rw [hm]; decide)
    have hr := fieldR_of_selected h (by rw [hm]; decide)
    have hall := packWord_of_selected h
    rwa [hlt, hr] at hall
  | fastXmit psel r =>
    have hm : (rowOf (.fastXmit psel r)).2 = maskFR := rfl
    have hlt := fieldLT_of_selected h (by rw [hm]; decide)
    have hv : fieldV c = 0#5 := extract_eq_zero h (by decide) (by rw [hm]; decide)
    have hall := packWord_of_selected h
    rwa [hlt, hv] at hall
  | imgRdf f => exact packWord_of_maskF h rfl
  | imgWrf f => exact packWord_of_maskF h rfl
  | romCmd lt => exact packWord_of_maskLT h rfl
  | romBuild lt => exact packWord_of_maskLT h rfl
  | romLoad lt => exact packWord_of_maskLT h rfl
  | fastEnd lt => exact packWord_of_maskLT h rfl
  | _ => exact eq_of_maskNone h

/-- The number of some bits of a word. -/
theorem extract_toNat (c : Word) (a n : Nat) : (c.extractLsb' a n).toNat = c.toNat / 2 ^ a % 2 ^ n := by
  rw [BitVec.extractLsb'_toNat, Nat.shiftRight_eq_div_pow]

/-- The number of bit R. -/
theorem fieldR_toNat (c : Word) : (fieldR c).toNat = c.toNat / 2 ^ 18 % 2 := by
  rw [← BitVec.toNat_ofBool, ofBool_fieldR]
  exact extract_toNat c 18 1

/-- The number of LT (R92). -/
theorem fieldLT_toNat (c : Word) : (fieldLT c).code.toNat = c.toNat / 2 ^ 8 % 4 := by
  rw [fieldLT, LoadType.code_ofCode]
  exact extract_toNat c 8 2

/-- The number of F. -/
theorem fieldF_toNat (c : Word) : (fieldF c).toNat = c.toNat / 2 ^ 10 % 8 := extract_toNat c 10 3

/-- The number of V. -/
theorem fieldV_toNat (c : Word) : (fieldV c).toNat = c.toNat / 2 ^ 13 % 32 := extract_toNat c 13 5

/-- A command that decodes has the fields of its word. -/
theorem readFields_of_decode {c : Word} {i : Instr} (h : decode c = .ok i) : i.readFields c = i :=
  (decode_eq_ok_iff.1 h).2

/-- Settles O4: a word that decodes is selected by its row, and the command has its fields. -/
theorem wordsHaveOneMeaning : Obligations.WordsHaveOneMeaning := by
  refine ⟨fun c i h => ?_, fun c w v h => ?_, fun c f h => ?_, fun c psel r h => ?_, fun c lt h => ?_, rfl⟩
  · obtain ⟨hrow, hfields⟩ := decode_eq_ok_iff.1 h
    rw [← hfields, encode_readFields hrow]
  · cases readFields_of_decode h
    exact ⟨fieldF_toNat c, fieldV_toNat c⟩
  · obtain h | h := h <;> cases readFields_of_decode h <;> exact fieldF_toNat c
  · cases readFields_of_decode h
    exact ⟨fieldF_toNat c, fieldR_toNat c⟩
  · obtain h | h | h | h := h <;> cases readFields_of_decode h <;> exact fieldLT_toNat c

/-- A word that a row selects decodes to the row's command with the word's fields. -/
theorem decode_of_selected {c : Word} {i : Instr} (h : c &&& (rowOf i).2 = (rowOf i).1) :
    decode c = .ok (i.readFields c) :=
  decode_eq_ok_iff.2 ⟨by rw [rowOf_readFields]; exact h, readFields_readFields c i⟩

/-- Settles O5: a word that two rows select decodes to one command, which belongs to both. -/
theorem rowSelectionIsExact : Obligations.RowSelectionIsExact := by
  refine ⟨rfl, fun lt => rfl, fun f => rfl, fun w v => rfl, fun psel r => rfl, fun c i h => (decode_eq_ok_iff.1 h).1,
    fun c j h => ⟨_, decode_of_selected h, rowOf_readFields c j⟩, fun c j k hj hk => ?_⟩
  have hsame : j.readFields c = k.readFields c :=
    Except.ok.inj ((decode_of_selected hj).symm.trans (decode_of_selected hk))
  rw [← rowOf_readFields c j, hsame, rowOf_readFields]

/-- Settles O6. -/
theorem sampleWordsDecode : Obligations.SampleWordsDecode := by
  unfold Obligations.SampleWordsDecode
  decide

end Sys2Proof

namespace Sys2Proof.Machine

open State

/-! ### Illegal words and host programs (R95, R98) -/

/-- A word that no row selects does not decode (R95). -/
theorem decode_illegal {w : Word} (h : ∀ i, w &&& (rowOf i).2 ≠ (rowOf i).1) : ∃ e, decode w = .error e := by
  cases hd : decode w with
  | error e => exact ⟨e, rfl⟩
  | ok i => exact absurd (decode_eq_ok_iff.1 hd).1 (h i)

/-- With BUSY = 0 a CMD write of an illegal word ends at once (R95). -/
theorem State.hostMove_writeCmd_illegal {w : Word} {e : DecodeError} {s : State} (h : s.phase = .idle)
    (hw : decode w = .error e) :
    s.hostMove (.writeReg 0x00 w) = .next ({ s with cmd := w }.illegal w) := by
  refine (hostMove_writeReg .cmd w s).trans ?_
  rw [if_neg (by simp [busy, h]), if_pos rfl, State.command, hw]

/-- Settles O8: such a write ends at once, and no row has an opcode of 0xF0 or more. -/
theorem illegalWordEndsAtOnce : Obligations.IllegalWordEndsAtOnce := by
  refine ⟨fun s w wait q hf hp hq h => ?_, fun w i hw h => ?_⟩
  · obtain ⟨e, he⟩ := decode_illegal h
    exact (step_lands hf hq (.inl hp)).trans (hostMove_writeCmd_illegal hp he)
  · have hhigh : i.opcode &&& 0xF0#8 ≠ 0xF0#8 := by cases i <;> (rw [Instr.opcode, rowOf]; decide)
    rw [← fieldOpc_of_selected h] at hhigh
    apply hhigh
    have hlow := congrArg (BitVec.extractLsb' 0 8) hw
    rwa [BitVec.extractLsb'_and] at hlow

/-- Settles O17: both moves land while idle; ACK's word has the three bits that clear. -/
theorem programsStopAtTheFirstError : Obligations.ProgramsStopAtTheFirstError := by
  refine fun s q hf hp => ⟨fun hq => step_lands hf hq (.inl hp), fun hq => ?_⟩
  refine (step_lands hf hq (.inl hp)).trans ?_
  refine (hostMove_writeReg_idle (r := .status) (s := { s with hostq := q }) hp (by simp)).trans ?_
  simp [writeIdle, clearStatus]

end Sys2Proof.Machine
end

section
/-! PROOFS. Runs without a count of their steps: what a command reaches while the host waits, and the end of one that
fails a check (R281) or raises an error (R285). -/

namespace Sys2Proof.Machine

open State

/-! ### What a command reaches -/

/-- While the host waits, going on with the command leads from s to t. -/
def State.Reaches (s t : State) : Prop := s.hostWaits = true → ∃ n, run n s = t

/-- A run leaves a waiting host waiting. -/
theorem State.run_hostWaits {s : State} (hw : s.hostWaits = true) (n : Nat) : (run n s).hostWaits = true := by
  induction n generalizing s with
  | zero => exact hw
  | succ n ih =>
    cases h : s.seqStep with
    | none => rw [run_of_blocked (.inr h)]; exact hw
    | some t => rw [run_step hw h]; exact ih (waits_of hw (seqStep_sameOperands h).hostq)

namespace State.Reaches

variable {s t u : State} {i : Instr} {ret : Word} {todo : List Act}

theorem refl (s : State) : s.Reaches s := fun _ => ⟨0, rfl⟩

theorem trans (h : s.Reaches t) (h' : t.Reaches u) : s.Reaches u := fun hw => by
  obtain ⟨m, rfl⟩ := h hw
  obtain ⟨n, rfl⟩ := h' (run_hostWaits hw m)
  exact ⟨m + n, run_add m n s⟩

/-- A run of a known length. -/
theorem of_run (n : Nat) (h : s.hostWaits = true → run n s = t) : s.Reaches t := fun hw => ⟨n, h hw⟩

/-- One step of a command. -/
theorem act {a : Act} (hp : s.phase = .exec i ret (a :: todo))
    (h : a.run (s.setPhase (.exec i ret todo)) = some t) : s.Reaches t :=
  of_run 1 fun hw => (run_act 0 hp h hw).trans rfl

/-- The end of a command that has no step left. -/
theorem finish (hp : s.phase = .exec i ret []) : s.Reaches s.finish :=
  of_run 1 fun hw => run_nil 0 hp hw

end State.Reaches

/-- What a command reaches when it ends is what it answers: the sequencer's bound is never met. -/
theorem exec_of_reaches {i : Instr} {todo : List Act} {s t : State} (hexec : exec i s = launch i todo s)
    (hw : s.hostWaits = true) (h : (s.start i todo).Reaches t) (ht : t.phase = .idle) : exec i s = .next t := by
  obtain ⟨n, rfl⟩ := h (waits_of hw rfl)
  obtain ⟨t, hnext, -, hstop⟩ := commandsEndOrWaitForAnAnswer i s hw
  rw [hexec, launch] at hnext
  obtain rfl : (s.start i todo).resume = t := Host.Outcome.next.inj hnext
  have hblocked : (s.start i todo).resume.seqStep = none := hstop.elim (fun h => seqStep_idle h) id
  rw [hexec, launch]
  refine congrArg Host.Outcome.next ?_
  calc (s.start i todo).resume
      = run n (run (s.start i todo).fuel (s.start i todo)) := (run_of_blocked (.inr hblocked) n).symm
    _ = run (s.start i todo).fuel (run n (s.start i todo)) := by rw [← run_add, ← run_add, Nat.add_comm]
    _ = run n (s.start i todo) := run_idle ht _

/-! ### Errors (R281, R285) -/

/-- A failed check ends the command and touches nothing else (R281). -/
theorem exec_reject {i : Instr} {c : ErrCode} {info : Word} {s : State} (hw : s.hostWaits = true)
    (hexec : exec i s = launch i [.reject c info] s) : exec i s = .next (s.doneErr c .none info) :=
  exec_of_reaches hexec hw (.act rfl rfl) rfl

/-- Outside SlowLoad an error ends the command, whatever steps it had still to do (R285). -/
theorem State.raise_of_noSlow {s : State} {i : Instr} {ret : Word} {todo : List Act} (c : ErrCode) (st : Stage)
    (info : Word) (h : enclosingSlow todo = none) :
    (s.setPhase (.exec i ret todo)).raise c st info = (s.markFast i).report c st info := by
  have hmark : ((s.setPhase (.exec i ret todo)).markFast i).report c st info = (s.markFast i).report c st info := by
    unfold markFast
    split <;> rfl
  rw [raise, setPhase_phase]
  simp only [h, hmark]

end Sys2Proof.Machine
end

section
/-! PROOFS. The tagged exchange, accepted or failed in every way (R232, R234), and the rest of FAST.XMIT (R235). -/

namespace Sys2Proof.Machine

open State

/-- The exchange that asks for a wanted result (R232). -/
def Wanted.exchange (w : Wanted) : Exchange := ⟨w.id, w.payload, w.timeout, true, w.stage⟩

/-- The state after attempt a of an exchange sent its packet (R232). -/
def State.afterSend (x : Exchange) (a : Nat) (s : State) : State :=
  ((s.drawTag.setAttempt a).call (.send (fastPacket x.id s.nextTag x.payload))).setStatus s.env.status.tail

/-- The receive of an attempt, if it expects a response (R232). -/
def Exchange.receive (x : Exchange) (a : Nat) : List Act :=
  if x.resp then [.recv Config.pktRspLen x.timeout (.response x a)] else []

section

variable {s : State} {i : Instr} {ret : Word} {todo : List Act}

/-- An attempt up to the result of its send (R232). -/
theorem State.reaches_sent (x : Exchange) (a : Nat) :
    (s.setPhase (.exec i ret (.xmit x a :: todo))).Reaches
      (((s.drawTag.setAttempt a).call (.send (fastPacket x.id s.nextTag x.payload))).setPhase
        (.exec i ret (.sent (BitVec.ofNat 32 a) :: (x.receive a ++ todo)))) := by
  have draw : (s.setPhase (.exec i ret (.xmit x a :: todo))).Reaches (s.drawTag.setPhase (.exec i ret
      (.attempt a :: .send (fastPacket x.id s.nextTag x.payload) (BitVec.ofNat 32 a) :: (x.receive a ++ todo)))) :=
    .act rfl rfl
  exact draw.trans (.trans (t := (s.drawTag.setAttempt a).setPhase _) (.act rfl rfl) (.act rfl rfl))

/-- A send that succeeds (R232). -/
theorem State.reaches_send {x : Exchange} {a : Nat} {st : List IoStatus} (hs : s.env.status = .ok :: st) :
    (s.setPhase (.exec i ret (.xmit x a :: todo))).Reaches
      ((s.afterSend x a).setPhase (.exec i ret (x.receive a ++ todo))) := by
  obtain ⟨hstatus, -⟩ := s.env.afterTag_answers
  refine .trans (reaches_sent x a) (.act rfl ?_)
  rw [Act.run, takeStatus_ok (rest := st) (hstatus.trans hs), afterSend, hs]
  rfl

/-- A send that fails, outside SlowLoad: CONNECTION_IO, STAGE 3, with the attempt (R232). -/
theorem State.reaches_sendFails {x : Exchange} {a : Nat} {st : List IoStatus} (hslow : enclosingSlow todo = none)
    (hs : s.env.status = .ioErr :: st) :
    (s.setPhase (.exec i ret (.xmit x a :: todo))).Reaches
      (((s.afterSend x a).markFast i).report .connectionIo .send (BitVec.ofNat 32 a)) := by
  obtain ⟨hstatus, -⟩ := s.env.afterTag_answers
  have hslow' : enclosingSlow (x.receive a ++ todo) = none := by
    unfold Exchange.receive
    split <;> exact hslow
  refine .trans (reaches_sent x a) (.act rfl ?_)
  rw [Act.run, takeStatus_ioErr (rest := st) (hstatus.trans hs), ← raise_of_noSlow (ret := ret) _ _ _ hslow',
    afterSend, hs]
  rfl

/-! ### Attempts that are not accepted, and the last one (R232) -/

/-- Attempts that are not accepted, the third not among them, lead to the next attempt (R232). -/
theorem State.reaches_attempts {x : Exchange} (hresp : x.resp = true) {bad : List RxAnswer} {a : Nat}
    {st : List IoStatus} {rx : List RxAnswer} (hs : s.env.status = List.replicate bad.length .ok ++ st)
    (hx : s.env.rx = bad ++ rx) (hnone : noneAccepted x.id s.env bad) (ha : a + bad.length ≤ 3) :
    (s.setPhase (.exec i ret (.xmit x a :: todo))).Reaches
      ((s.afterAttempts x a bad).setPhase (.exec i ret (.xmit x (a + bad.length) :: todo))) := by
  intro hw
  obtain ⟨m, -, hrun⟩ := run_attempts hresp bad (setPhase_phase ..) hs hx hnone ha hw
  exact ⟨m, (hrun 0).trans (by rw [afterAttempts_setPhase]; rfl)⟩

/-- After attempts that are not accepted another answer is looked at (R232). -/
theorem State.reaches_lastAnswer {x : Exchange} (hresp : x.resp = true) {bad : List RxAnswer} {r : RxAnswer} {a : Nat}
    {st : List IoStatus} {rx : List RxAnswer} (hs : s.env.status = List.replicate (bad.length + 1) .ok ++ st)
    (hx : s.env.rx = bad ++ r :: rx) (hnone : noneAccepted x.id s.env bad) (ha : a + bad.length ≤ 3) :
    (s.setPhase (.exec i ret (.xmit x a :: todo))).Reaches (RxUse.act (.response x (a + bad.length))
      (deliver Config.pktRspLen r) ((s.afterAttempts x a (bad ++ [r])).setPhase (.exec i ret todo))) := by
  intro hw
  obtain ⟨m, -, hrun⟩ := run_lastAttempt hresp bad r (setPhase_phase ..) hs hx hnone ha hw
  exact ⟨m, (hrun 0).trans (by rw [afterAttempts_setPhase]; rfl)⟩

/-- What n attempts of an exchange leave: the last tag, ATTEMPT, RXB and RXCNT as given, and the answers still to come
(R232). -/
def State.afterExchange (n : Nat) (m : Memory) (count : Word) (made : List ConnCall) (st : List IoStatus)
    (rx : List RxAnswer) (s : State) : State :=
  { s with
    tag := s.env.tagNo (n - 1)
    attempt := BitVec.ofNat 2 n
    rxb := m
    rxcnt := count
    env := { s.env.afterTags n with status := st, rx := rx }
    calls := s.calls ++ made }

/-- Attempts that all heard an answer, the last one r, as one update (R232). -/
theorem State.afterAttempts_eq_afterExchange {x : Exchange} {l : List RxAnswer} {r : RxAnswer} {st : List IoStatus}
    {rx : List RxAnswer} (hs : s.env.status = List.replicate (l.length + 1) .ok ++ st)
    (hx : s.env.rx = l ++ r :: rx) :
    s.afterAttempts x 1 (l ++ [r]) = s.afterExchange (l.length + 1) (s.afterAttempts x 1 (l ++ [r])).rxb (lastCount r)
      (xmitCalls x.id x.payload x.timeout s.env (l.length + 1)) st rx := by
  obtain rfl : s.env.status.drop (l.length + 1) = st := by rw [hs]; exact List.drop_left' (by simp)
  obtain rfl : s.env.rx.drop (l.length + 1) = rx := by
    rw [hx, List.append_cons]
    exact List.drop_left' (by simp)
  conv_lhs => rw [afterAttempts_concat_fields, Nat.add_comm 1 l.length]
  rfl

/-- The draws after k others (R266). -/
theorem Env.afterTags_succ (k : Nat) (e : Env) : (e.afterTags k).afterTag = e.afterTags (k + 1) := by
  induction k generalizing e with
  | zero => rfl
  | succ k ih => exact ih e.afterTag

/-- The value of the draw after k others (R266). -/
theorem Env.afterTags_nextTag (k : Nat) (e : Env) : (e.afterTags k).nextTag = e.tagNo k := by
  induction k generalizing e with
  | zero => rfl
  | succ k ih => exact ih e.afterTag

/-- The number of bytes the last of some answers brought, or the count before them (R63). -/
theorem State.afterAttempts_rxcnt (x : Exchange) (l : List RxAnswer) (a : Nat) (s : State) :
    (s.afterAttempts x a l).rxcnt = (l.getLast?.map lastCount).getD s.rxcnt := by
  obtain rfl | ⟨l, r, rfl⟩ := l.eq_nil_or_concat'
  · rfl
  · rw [afterAttempts_concat_fields]
    simp

/-- The calls of some attempts (R232). -/
theorem State.afterAttempts_calls (x : Exchange) (l : List RxAnswer) (a : Nat) (s : State) :
    (s.afterAttempts x a l).calls = s.calls ++ xmitCalls x.id x.payload x.timeout s.env l.length := by
  obtain rfl | ⟨l, r, rfl⟩ := l.eq_nil_or_concat'
  · exact (List.append_nil _).symm
  · rw [afterAttempts_concat_fields, List.length_append]
    rfl

/-- Attempts change nothing else (R232). -/
theorem State.afterAttempts_frame (x : Exchange) (l : List RxAnswer) (a : Nat) (s : State) :
    s.afterAttempts x a l = { s with
      tag := (s.afterAttempts x a l).tag
      attempt := (s.afterAttempts x a l).attempt
      rxb := (s.afterAttempts x a l).rxb
      rxcnt := (s.afterAttempts x a l).rxcnt
      env := (s.afterAttempts x a l).env
      calls := (s.afterAttempts x a l).calls } := by
  induction l generalizing a s with
  | nil => rfl
  | cons r l ih => exact ih (a + 1) (s.afterAttempt x a r)

/-- Attempts and a send more, as one update (R232). -/
theorem State.afterSend_eq_afterExchange {x : Exchange} {l : List RxAnswer} {r : IoStatus} {st : List IoStatus}
    {rx : List RxAnswer} (hs : s.env.status = List.replicate l.length .ok ++ r :: st) (hx : s.env.rx = l ++ rx) :
    (s.afterAttempts x 1 l).afterSend x (1 + l.length) = s.afterExchange (l.length + 1) (s.afterAttempts x 1 l).rxb
      ((l.getLast?.map lastCount).getD s.rxcnt) (xmitCalls x.id x.payload x.timeout s.env l.length ++
        [.send (fastPacket x.id (s.env.tagNo l.length) x.payload)]) st rx := by
  have hst : s.env.status.drop l.length = r :: st := by rw [hs]; exact List.drop_left' (by simp)
  have hrx : s.env.rx.drop l.length = rx := by rw [hx]; exact List.drop_left' rfl
  have henv : (s.afterAttempts x 1 l).env = { s.env.afterTags l.length with status := r :: st, rx := rx } := by
    rw [afterAttempts_env, hst, hrx]
  have hdraw : (s.afterAttempts x 1 l).env.afterTag =
      { s.env.afterTags (l.length + 1) with status := r :: st, rx := rx } := by
    rw [henv, Env.afterTag_with, Env.afterTags_succ]
  have htag : (s.afterAttempts x 1 l).env.nextTag = s.env.tagNo l.length := by
    rw [henv, ← Env.afterTags_nextTag]
    rfl
  have hrest : (s.afterAttempts x 1 l).env.status.tail = st := by rw [henv]; rfl
  have hframe := s.afterAttempts_frame x l 1
  have hcount := s.afterAttempts_rxcnt x l 1
  have hcalls := s.afterAttempts_calls x l 1
  clear henv
  generalize s.afterAttempts x 1 l = u at *
  rw [hframe]
  simp only [afterSend, drawTag, setAttempt, call, setStatus, State.nextTag, hdraw, htag, hrest, hcount, hcalls,
    afterExchange, List.append_assoc, Nat.add_comm 1, Nat.add_sub_cancel]

/-! ### An exchange that is accepted (R232, R234) -/

/-- A response has the eight bytes asked for (R231). -/
theorem deliver_response (result tag : Word) :
    deliver Config.pktRspLen (.bytes (response result tag)) = .bytes (response result tag) :=
  deliver_bytes rfl

/-- The result of a response (R231). -/
theorem le32_response (result tag : Word) : le32 (response result tag) = result :=
  le32_bytesLE32_append result (bytesLE32 tag)

/-- The tag of a response (R231). -/
theorem le32_drop_response (result tag : Word) : le32 ((response result tag).drop 4) = tag :=
  (congrArg le32 (List.append_nil (bytesLE32 tag)).symm).trans (le32_bytesLE32_append tag [])

/-- A response with the tag that was sent and a result other than the id is accepted (R232). -/
theorem State.reaches_result {x : Exchange} (hresp : x.resp = true) {bad : List RxAnswer} {result : Word}
    {st : List IoStatus} {rx : List RxAnswer} (hs : s.env.status = List.replicate (bad.length + 1) .ok ++ st)
    (hx : s.env.rx = bad ++ .bytes (response result (s.env.tagNo bad.length)) :: rx)
    (hnone : noneAccepted x.id s.env bad) (hbad : bad.length < 3) (hid : result ≠ x.id) :
    ∃ m, Memory.Received s.rxb m (deliveries 8 (bad ++ [.bytes (response result (s.env.tagNo bad.length))])) ∧
      (s.setPhase (.exec i ret (.xmit x 1 :: todo))).Reaches ((s.afterExchange (bad.length + 1) m 8#32
        (xmitCalls x.id x.payload x.timeout s.env (bad.length + 1)) st rx).setPhase (.exec i result todo)) := by
  refine ⟨_, received_afterAttempts x (bad ++ [.bytes (response result (s.env.tagNo bad.length))]) 1 s, ?_⟩
  refine (reaches_lastAnswer hresp hs hx hnone (by omega)).trans ?_
  rw [afterAttempts_eq_afterExchange hs hx, deliver_response]
  have hcount : lastCount (.bytes (response result (s.env.tagNo bad.length))) = 8#32 := by
    rw [lastCount, deliver_response]
  simp only [RxUse.act, le32_response, le32_drop_response, hcount]
  rw [if_pos ⟨rfl, hid⟩]
  exact .refl _

/-- The application layer takes the wanted result, and the command goes on (R234). -/
theorem State.reaches_expected (want : Word) (st : Stage) :
    (s.setPhase (.exec i want (.expect want st :: todo))).Reaches (s.setPhase (.exec i want todo)) :=
  .act rfl (congrArg some (if_pos rfl))

/-- Outside SlowLoad another result ends the command with RESULT_MISMATCH (R234). -/
theorem State.reaches_unexpected {result want : Word} (st : Stage) (h : result ≠ want)
    (hslow : enclosingSlow todo = none) :
    (s.setPhase (.exec i result (.expect want st :: todo))).Reaches
      ((s.markFast i).report .resultMismatch st result) := by
  refine .act rfl (congrArg some ?_)
  rw [← raise_of_noSlow (ret := result) _ _ _ hslow]
  exact if_neg h

/-- An exchange that is accepted with the result its application wants (R232, R234). -/
theorem State.reaches_accepted {x : Accepted} {st : List IoStatus} {rx : List RxAnswer}
    (hs : s.env.status = List.replicate (x.bad.length + 1) .ok ++ st)
    (hx : s.env.rx = x.bad ++ .bytes (response x.asked.want (s.env.tagNo x.bad.length)) :: rx)
    (hnone : noneAccepted x.asked.id s.env x.bad) (hbad : x.bad.length < 3) (hid : x.asked.want ≠ x.asked.id) :
    ∃ m, Memory.Received s.rxb m
        (deliveries 8 (x.bad ++ [.bytes (response x.asked.want (s.env.tagNo x.bad.length))])) ∧
      (s.setPhase (.exec i ret (.xmit x.asked.exchange 1 :: .expect x.asked.want x.asked.stage :: todo))).Reaches
        ((s.afterExchange (x.bad.length + 1) m 8#32
          (xmitCalls x.asked.id x.asked.payload x.asked.timeout s.env (x.bad.length + 1)) st rx).setPhase
          (.exec i x.asked.want todo)) := by
  obtain ⟨m, hm, hreach⟩ := reaches_result (x := x.asked.exchange) (i := i) (ret := ret)
    (todo := .expect x.asked.want x.asked.stage :: todo) rfl hs hx hnone hbad hid
  exact ⟨m, hm, hreach.trans (reaches_expected _ _)⟩

/-! ### An exchange that fails (R232, R234) -/

/-- The state in which an exchange has failed (R232, R234). -/
def State.afterFailure (f : ExchangeFailure) (x : Accepted) (m : Memory) (st : List IoStatus) (rx : List RxAnswer)
    (s : State) : State :=
  s.afterExchange (f.attempts x.bad) m (f.count x.bad s.rxcnt) (f.calls x s.env) st rx

/-- Three answers of which none is accepted: PACKET_TIMEOUT with the last result (R232). -/
theorem State.reaches_exhausted {x : Exchange} (hresp : x.resp = true) (hslow : enclosingSlow todo = none)
    {bad : List RxAnswer} {r : RxAnswer} (hbad : bad.length = 2) {st : List IoStatus} {rx : List RxAnswer}
    (hs : s.env.status = List.replicate 3 .ok ++ st) (hx : s.env.rx = bad ++ r :: rx)
    (hnone : noneAccepted x.id s.env (bad ++ [r])) :
    (s.setPhase (.exec i ret (.xmit x 1 :: todo))).Reaches
      (((s.afterAttempts x 1 (bad ++ [r])).markFast i).report .packetTimeout x.stage (lastResult r)) := by
  intro hw
  obtain ⟨m, -, hrun⟩ := run_exhausted hresp hbad (setPhase_phase ..) hs hx hnone hw
  refine ⟨m, (hrun 0).trans ?_⟩
  rw [run_zero, afterAttempts_setPhase, ← raise_of_noSlow (ret := ret) _ _ _ hslow]
  rfl

/-- Every way an exchange fails outside SlowLoad ends the command with its report; where the result is another, the
application's check comes next (R232, R234). -/
theorem State.reaches_failure {f : ExchangeFailure} {x : Accepted} (hslow : enclosingSlow todo = none)
    (hcheck : ∀ r, f = .unexpected r → ∃ rest, todo = .expect x.asked.want x.asked.stage :: rest)
    (hposs : f.possible x s.env) {st : List IoStatus} {rx : List RxAnswer}
    (hs : s.env.status = f.statuses x.bad ++ st) (hx : s.env.rx = f.answers x.bad s.env ++ rx) :
    ∃ m, Memory.Received s.rxb m (deliveries 8 (f.answers x.bad s.env)) ∧
      (s.setPhase (.exec i ret (.xmit x.asked.exchange 1 :: todo))).Reaches
        (((s.afterFailure f x m st rx).markFast i).report (f.report x).1 (f.report x).2.1 (f.report x).2.2) := by
  obtain ⟨hnone, hlen⟩ := hposs
  cases f with
  | sendFails =>
    simp only [ExchangeFailure.statuses, List.append_assoc, List.singleton_append] at hs
    have hlen : x.bad.length < 3 := hlen
    have hst : (s.afterAttempts x.asked.exchange 1 x.bad).env.status = .ioErr :: st := by
      rw [afterAttempts_env, hs]
      exact List.drop_left' (by simp)
    refine ⟨_, received_afterAttempts x.asked.exchange x.bad 1 s,
      (reaches_attempts rfl hs hx hnone (by omega)).trans ((reaches_sendFails hslow hst).trans ?_)⟩
    rw [afterSend_eq_afterExchange hs hx, Nat.add_comm 1]
    exact .refl _
  | recvFails =>
    rw [ExchangeFailure.answers, List.append_assoc] at hx
    have hlen : x.bad.length < 3 := hlen
    refine ⟨_, received_afterAttempts x.asked.exchange (x.bad ++ [.ioErr]) 1 s,
      (reaches_lastAnswer rfl hs hx hnone (by omega)).trans ?_⟩
    rw [afterAttempts_eq_afterExchange hs hx]
    simp only [deliver_ioErr, RxUse.act]
    rw [raise_of_noSlow _ _ _ hslow, Nat.add_comm 1]
    exact .refl _
  | unexpected r =>
    obtain ⟨hlen, hid, hwant⟩ := hlen
    obtain ⟨rest, rfl⟩ := hcheck r rfl
    rw [ExchangeFailure.answers, List.append_assoc] at hx
    obtain ⟨m, hm, hreach⟩ := reaches_result (x := x.asked.exchange) (i := i) (ret := ret)
      (todo := .expect x.asked.want x.asked.stage :: rest) rfl hs hx hnone hlen hid
    exact ⟨m, hm, hreach.trans (reaches_unexpected _ hwant hslow)⟩
  | exhausted =>
    have hlen : x.bad.length = 3 := hlen
    obtain ⟨l, r, hl⟩ := x.bad.eq_nil_or_concat'.resolve_left (by intro h; simp [h] at hlen)
    have hl2 : l.length = 2 := by simpa [hl] using hlen
    simp only [ExchangeFailure.statuses, hlen] at hs
    simp only [ExchangeFailure.answers, hl, List.append_assoc, List.singleton_append] at hx
    refine ⟨_, received_afterAttempts x.asked.exchange x.bad 1 s, ?_⟩
    rw [hl] at hnone ⊢
    refine (reaches_exhausted rfl hslow hl2 hs hx hnone).trans ?_
    rw [afterAttempts_eq_afterExchange (by rw [hl2]; exact hs) hx]
    simp only [afterFailure, ExchangeFailure.attempts, ExchangeFailure.count, ExchangeFailure.calls,
      ExchangeFailure.report, hl, List.length_append, List.length_singleton, List.getLast?_append,
      List.getLast?_singleton, Option.some_or, Option.map_some, Option.getD_some]
    exact .refl _

end

/-! ### FAST.XMIT: its checks, its failures, and the packet without a response (R235) -/

/-- Reading a range is reading its bytes (R11). -/
theorem Memory.read_eq_map (m : Memory) (a n : Nat) : m.read a n = (List.range n).map fun k => m.get (a + k) := by
  induction n generalizing a with
  | zero => rfl
  | succ n ih =>
    rw [read, ih, List.range_succ_eq_map, List.map_cons, List.map_map]
    simp [Function.comp_def, Nat.add_assoc, Nat.add_comm 1]

/-- A selector past 4 fails the first check (R91). -/
theorem exec_fastXmit_selector {psel : BitVec 3} {s : State} (r : Bool) (h : 5 ≤ psel.toNat) :
    exec (.fastXmit psel r) s = launch (.fastXmit psel r) [.reject .operandError (psel.setWidth 32)] s := by
  rw [exec, execFastXmit, if_pos (by simp [legalPsel]; omega)]
  rfl

/-- An IMG range past IMG_MEM_SIZE fails the second (R235). -/
theorem exec_fastXmit_range {psel : BitVec 3} {s : State} (r : Bool) (h0 : psel = 0#3)
    (h : s.cfg.imgMemSize < s.arg1.toNat + s.arg2.toNat) :
    exec (.fastXmit psel r) s = launch (.fastXmit psel r) [.reject .operandError s.arg1] s := by
  rw [exec, execFastXmit, if_neg (by simp [legalPsel, h0]), if_pos ⟨h0, by simpa [pastImg] using h⟩]
  rfl

/-- A payload that is too long fails the third (R235). -/
theorem exec_fastXmit_length {psel : BitVec 3} {s : State} (r : Bool) (hpsel : psel.toNat ≤ 4)
    (himg : psel = 0#3 → s.arg1.toNat + s.arg2.toNat ≤ s.cfg.imgMemSize)
    (h : s.cfg.maxDataSize < 8 + (s.xmitPayload psel).length) :
    exec (.fastXmit psel r) s = launch (.fastXmit psel r)
      [.reject .operandError (BitVec.ofNat 32 (s.xmitPayload psel).length)] s := by
  rw [exec, execFastXmit, if_neg (by simpa [legalPsel] using hpsel), if_neg (by simpa [pastImg] using himg),
    if_pos (by simpa [tooLong, xmitLength_eq, Config.pktHdrLen] using h), xmitLength_eq]
  rfl

/-- Settles O42: the checks in their order; a failed exchange, and a send alone, which ends well or fails. -/
theorem fastXmitChecksAndSendOnly : Obligations.FastXmitChecksAndSendOnly := by
  refine ⟨fun s => ⟨Memory.read_eq_map .., rfl, rfl, rfl, rfl⟩, fun s psel r hw => ⟨fun h => ?_, fun h0 h => ?_,
    fun hpsel himg => ⟨fun h => ?_, fun hlen => ⟨fun x f st rx hid hpay htime hstage hf hposs hs hx => ?_,
      fun st => ⟨fun hs => ?_, fun hs => ?_⟩⟩⟩⟩⟩
  · exact exec_reject hw (exec_fastXmit_selector r h)
  · exact exec_reject hw (exec_fastXmit_range r h0 h)
  · exact exec_reject hw (exec_fastXmit_length r hpsel himg h)
  · have hexec := exec_fastXmit true hpsel himg hlen
    obtain ⟨m, hm, hreach⟩ := reaches_failure (s := s.start (.fastXmit psel true) []) (i := .fastXmit psel true)
      (ret := 0#32) (todo := [.set .res0 .ret, .set .res1 .attempt]) rfl
      (by rintro r rfl; simp at hf) hposs hs hx
    have hask : x.asked.exchange = ⟨s.arg0, s.xmitPayload psel, if s.arg3 = 0#32 then s.cfg.tPktMs else s.arg3.toNat,
        true, .dataChunk⟩ := by rw [Wanted.exchange, hid, hpay, htime, hstage]
    rw [hask] at hreach
    refine ⟨m, hm, ?_⟩
    rw [exec_of_reaches hexec hw hreach rfl]
    obtain rfl | rfl := hf <;> rfl
  · obtain rfl : s.env.status.tail = st := by rw [hs]; rfl
    have hsent := reaches_send (i := .fastXmit psel false) (ret := 0#32) (todo := [.set .res1 .attempt]) (a := 1)
      (s := s.start (.fastXmit psel false) []) (x := ⟨s.arg0, s.xmitPayload psel,
        if s.arg3 = 0#32 then s.cfg.tPktMs else s.arg3.toNat, false, .dataChunk⟩) hs
    have hreach := hsent.trans (.trans (.act rfl rfl) (.finish rfl))
    exact (exec_of_reaches (exec_fastXmit false hpsel himg hlen) hw hreach rfl).trans rfl
  · obtain rfl : s.env.status.tail = st := by rw [hs]; rfl
    have hreach := reaches_sendFails (i := .fastXmit psel false) (ret := 0#32) (todo := [.set .res1 .attempt]) (a := 1)
      (s := s.start (.fastXmit psel false) []) (x := ⟨s.arg0, s.xmitPayload psel,
        if s.arg3 = 0#32 then s.cfg.tPktMs else s.arg3.toNat, false, .dataChunk⟩) rfl hs
    exact (exec_of_reaches (exec_fastXmit false hpsel himg hlen) hw hreach rfl).trans rfl

end Sys2Proof.Machine
end

section
/-! PROOFS. FAST.END (R232 to R236, R247): its checks, its exchanges one after another, the launch packet, and the
corner in which no answer completes it. -/

namespace Sys2Proof.Machine

open State

/-! ### Exchanges one after another (R232, R234) -/

/-- Draws one after another (R266). -/
theorem Env.afterTags_add (j k : Nat) (e : Env) : (e.afterTags j).afterTags k = e.afterTags (j + k) := by
  induction j generalizing e with
  | zero => rw [Nat.zero_add]; rfl
  | succ j ih => rw [Nat.add_right_comm]; exact ih e.afterTag

section

variable (st : List IoStatus) (rx : List RxAnswer)

/-- Whether exchanges are accepted depends on the tags alone. -/
theorem allAccepted_with (xs : List Accepted) {e : Env} (h : allAccepted e xs) :
    allAccepted { e with status := st, rx := rx } xs := by
  induction xs generalizing e with
  | nil => trivial
  | cons x xs ih =>
    obtain ⟨hbad, hid, hnone, hrest⟩ := h
    exact ⟨hbad, hid, noneAccepted_with st rx hnone, by rw [Env.afterTags_with]; exact ih hrest⟩

/-- So do their answers. -/
theorem acceptedAnswers_with (xs : List Accepted) (e : Env) :
    acceptedAnswers { e with status := st, rx := rx } xs = acceptedAnswers e xs := by
  induction xs generalizing e with
  | nil => rfl
  | cons x xs ih => rw [acceptedAnswers, Env.afterTags_with, ih, Env.tagNo_with]; rfl

/-- So do their calls. -/
theorem acceptedCalls_with (xs : List Accepted) (e : Env) :
    acceptedCalls { e with status := st, rx := rx } xs = acceptedCalls e xs := by
  induction xs generalizing e with
  | nil => rfl
  | cons x xs ih => rw [acceptedCalls, Env.afterTags_with, ih, xmitCalls_with]; rfl

end

/-- The exchanges of FAST.END that expect a response, each with the FSTATE that announces it (R247). -/
def controlActs : List FState → List Wanted → List Act
  | q :: qs, w :: ws => .fstate q :: .xmit w.exchange 1 :: .expect w.want w.stage :: controlActs qs ws
  | _, _ => []

/-- No exchange is inside SlowLoad. -/
theorem enclosingSlow_controlActs (qs : List FState) (ws : List Wanted) (todo : List Act) :
    enclosingSlow (controlActs qs ws ++ todo) = enclosingSlow todo := by
  induction qs generalizing ws with
  | nil => rfl
  | cons q qs ih =>
    cases ws with
    | nil => rfl
    | cons w ws => exact ih ws

/-- The state after some exchanges were accepted: the last FSTATE, tag, ATTEMPT and RXB as given (R232). -/
def State.afterAccepted (xs : List Accepted) (q : FState) (tag : Word) (attempt : BitVec 2) (m : Memory)
    (st : List IoStatus) (rx : List RxAnswer) (s : State) : State :=
  { s with
    fstate := q
    tag := tag
    attempt := attempt
    rxb := m
    rxcnt := if xs = [] then s.rxcnt else 8#32
    env := { s.env.afterTags (tagsDrawn xs) with status := st, rx := rx }
    calls := s.calls ++ acceptedCalls s.env xs }

/-- Exchanges that are accepted one after another lead to those after them (R232, R234, R247). -/
theorem State.reaches_allAccepted {i : Instr} {todo : List Act} {later : List Wanted} {st : List IoStatus}
    {rx : List RxAnswer} (xs : List Accepted) {qs : List FState} {s : State} {ret : Word}
    (hqs : xs.length ≤ qs.length) (hacc : allAccepted s.env xs)
    (hs : s.env.status = List.replicate (tagsDrawn xs) .ok ++ st) (hx : s.env.rx = acceptedAnswers s.env xs ++ rx) :
    ∃ m q tag attempt ret', Memory.Received s.rxb m (deliveries 8 (acceptedAnswers s.env xs)) ∧
      (s.setPhase (.exec i ret (controlActs qs (xs.map (·.asked) ++ later) ++ todo))).Reaches
        ((s.afterAccepted xs q tag attempt m st rx).setPhase
          (.exec i ret' (controlActs (qs.drop xs.length) later ++ todo))) := by
  induction xs generalizing qs s ret with
  | nil =>
    have hs : s.env.status = st := hs
    have hx : s.env.rx = rx := hx
    refine ⟨s.rxb, s.fstate, s.tag, s.attempt, ret, fun _ => rfl, ?_⟩
    have hsame : s.afterAccepted [] s.fstate s.tag s.attempt s.rxb st rx = s := by
      subst hs hx
      simp [afterAccepted, acceptedCalls, Env.afterTags, tagsDrawn]
    rw [hsame]
    exact .refl _
  | cons x xs ih =>
    obtain ⟨hbad, hid, hnone, hrest⟩ := hacc
    cases qs with
    | nil => cases hqs
    | cons q qs =>
      rw [tagsDrawn, List.replicate_add, List.append_assoc] at hs
      rw [acceptedAnswers, List.append_assoc, List.cons_append] at hx
      obtain ⟨m, hm, hreach⟩ := reaches_accepted (s := s.setFState q) (i := i) (ret := ret)
        (todo := controlActs qs (xs.map (·.asked) ++ later) ++ todo) hs hx hnone hbad hid
      obtain ⟨m', q', tag, attempt, ret', hm', hreach'⟩ := ih (qs := qs) (ret := x.asked.want)
        (s := (s.setFState q).afterExchange (x.bad.length + 1) m 8#32
          (xmitCalls x.asked.id x.asked.payload x.asked.timeout s.env (x.bad.length + 1))
          (List.replicate (tagsDrawn xs) .ok ++ st)
          (acceptedAnswers (s.env.afterTags (x.bad.length + 1)) xs ++ rx))
        (Nat.le_of_succ_le_succ hqs) (allAccepted_with _ _ xs hrest) rfl
        (congrArg (· ++ rx) (acceptedAnswers_with _ _ xs _).symm)
      refine ⟨m', q', tag, attempt, ret', ?_, .trans (.act rfl rfl) (hreach.trans (hreach'.trans ?_))⟩
      · have hm' : Memory.Received m m' (deliveries 8 (acceptedAnswers { s.env.afterTags (x.bad.length + 1) with
          status := List.replicate (tagsDrawn xs) .ok ++ st
          rx := acceptedAnswers (s.env.afterTags (x.bad.length + 1)) xs ++ rx } xs)) := hm'
        rw [acceptedAnswers_with] at hm'
        have hall := hm.append hm'
        rw [acceptedAnswers, deliveries, List.append_cons, List.filterMap_append]
        exact hall
      · have hstate : State.afterAccepted xs q' tag attempt m' st rx ((s.setFState q).afterExchange
            (x.bad.length + 1) m 8#32
            (xmitCalls x.asked.id x.asked.payload x.asked.timeout s.env (x.bad.length + 1))
            (List.replicate (tagsDrawn xs) .ok ++ st)
            (acceptedAnswers (s.env.afterTags (x.bad.length + 1)) xs ++ rx)) =
            s.afterAccepted (x :: xs) q' tag attempt m' st rx := by
          simp only [afterAccepted, afterExchange, setFState, Env.afterTags_with, acceptedCalls_with, tagsDrawn,
            acceptedCalls, Env.afterTags_add, ite_self, List.append_assoc, reduceCtorEq, if_false]
        rw [hstate]
        exact .refl _

/-! ### The steps of FAST.END (R247) -/

/-- The FSTATEs that announce the exchanges (R247). -/
def controlStates (lt : LoadType) : List FState :=
  .verifyingRam :: ((if needsEeprom lt then [.programmingEeprom] else []) ++ [.readyToLaunch])

/-- The launch packet, which expects no response (R247). -/
def launchExchange (s : State) : Exchange := ⟨s.pktid, s.cfg.ctrlLaunchNow, 0, false, .launch⟩

/-- FAST.END's steps are its exchanges, and then the launch (R247). -/
theorem fastEndActs_eq (lt : LoadType) (sum : Word) (s : State) :
    fastEndActs lt sum s = .set .cksum (.const sum) ::
      (controlActs (controlStates lt) (controlExchanges s lt sum) ++
        [.xmit (launchExchange s) 1, .fstate .launched]) := by
  cases lt <;> rfl

/-- Each exchange is announced (R247). -/
theorem controlStates_length (s : State) (lt : LoadType) (sum : Word) :
    (controlStates lt).length = (controlExchanges s lt sum).length := by
  cases lt <;> rfl

/-- Which LoadTypes program the EEPROM (R92). -/
theorem needsEeprom_iff (lt : LoadType) : needsEeprom lt = true ↔ lt = .programShutdown ∨ lt = .programRun := by
  cases lt <;> simp [needsEeprom]

/-- The payloads of FAST.END (R247). -/
theorem State.endPayloads_eq (s : State) (lt : LoadType) : s.endPayloads lt = s.cfg.ctrlVerifyRam ::
    ((if lt = .programShutdown ∨ lt = .programRun then [s.cfg.ctrlProgramVerifyEeprom] else []) ++
      [s.cfg.ctrlReadyToLaunch, s.cfg.ctrlLaunchNow]) := by
  simp only [endPayloads, needsEeprom_iff]

/-- No LT 0 (R92). -/
theorem exec_fastEnd_shutdown (s : State) :
    exec (.fastEnd .shutdown) s = launch (.fastEnd .shutdown) [.reject .operandError 0#32] s :=
  rfl

section

variable {s : State} {lt : LoadType}

theorem legalLoadType_of_ne (hlt : lt ≠ .shutdown) : ¬(!legalLoadType lt) = true := by
  simpa [legalLoadType] using hlt

/-- A payload that is too long is one of those FAST.END sends (R247). -/
theorem exec_fastEnd_long (hlt : lt ≠ .shutdown) {p : List Byte} (hp : p ∈ s.endPayloads lt)
    (hlong : s.cfg.maxDataSize < 8 + p.length) :
    ∃ p' ∈ s.endPayloads lt, s.cfg.maxDataSize < 8 + p'.length ∧
      exec (.fastEnd lt) s = launch (.fastEnd lt) [.reject .operandError (BitVec.ofNat 32 p'.length)] s := by
  obtain ⟨p', hfound⟩ : ∃ p', s.longEndPayload lt = some p' := by
    rw [← Option.isSome_iff_exists, longEndPayload, List.find?_isSome]
    exact ⟨p, hp, by simpa [tooLong, Config.pktHdrLen] using hlong⟩
  have hlong' := List.find?_some hfound
  refine ⟨p', List.mem_of_find?_eq_some hfound, by simpa [tooLong, Config.pktHdrLen] using hlong', ?_⟩
  rw [exec, execFastEnd, if_neg (legalLoadType_of_ne hlt), hfound]
  rfl

variable (hlt : lt ≠ .shutdown) (hfit : ∀ p ∈ s.endPayloads lt, 8 + p.length ≤ s.cfg.maxDataSize)
include hfit

/-- All payloads fit (R247). -/
theorem longEndPayload_eq_none : s.longEndPayload lt = none := by
  rw [longEndPayload, List.find?_eq_none]
  intro p hp
  simpa [tooLong, Config.pktHdrLen] using hfit p hp

include hlt

/-- A wrong FSTATE is the last check (R236). -/
theorem exec_fastEnd_sequence (h : s.fstate ≠ .secondStageStarted) (h' : s.fstate ≠ .transmitting) :
    exec (.fastEnd lt) s = launch (.fastEnd lt) [.reject .sequenceError (s.fstate.code.setWidth 32)] s := by
  rw [exec, execFastEnd, if_neg (legalLoadType_of_ne hlt), longEndPayload_eq_none hfit]
  exact congrArg (fun l => launch (.fastEnd lt) l s) (if_pos (by simp [fastReady, h, h']))

/-- FAST.END after its checks (R247). -/
theorem exec_fastEnd (h : s.fstate = .secondStageStarted ∨ s.fstate = .transmitting) :
    exec (.fastEnd lt) s = launch (.fastEnd lt)
      (fastEndActs lt (s.cksum + BitVec.ofNat 32 (byteSum s.cfg.initCallFrame)) s) s := by
  rw [exec, execFastEnd, if_neg (legalLoadType_of_ne hlt), longEndPayload_eq_none hfit]
  exact congrArg (fun l => launch (.fastEnd lt) l s) (if_neg (by simpa [fastReady, or_iff_not_imp_left] using h))

end

section

variable {s : State} {lt : LoadType} {sum : Word} {xs : List Accepted} {st : List IoStatus} {rx : List RxAnswer}

/-- FAST.END from its start over exchanges that are accepted to those after them (R247). -/
theorem State.start_reaches_exchanges {later : List Wanted}
    (hxs : xs.map (·.asked) ++ later = controlExchanges s lt sum) (hacc : allAccepted s.env xs) (hs : s.env.status = List.replicate (tagsDrawn xs) .ok ++ st)
    (hx : s.env.rx = acceptedAnswers s.env xs ++ rx) :
    ∃ m q tag attempt ret, Memory.Received s.rxb m (deliveries 8 (acceptedAnswers s.env xs)) ∧
      (s.start (.fastEnd lt) (fastEndActs lt sum s)).Reaches
        ((((s.start (.fastEnd lt) []).assign .cksum sum).afterAccepted xs q tag attempt m st rx).setPhase
          (.exec (.fastEnd lt) ret (controlActs ((controlStates lt).drop xs.length) later ++
            [.xmit (launchExchange s) 1, .fstate .launched]))) := by
  have hlen : xs.length ≤ (controlStates lt).length := by
    rw [controlStates_length s lt sum, ← hxs]
    simp
  obtain ⟨m, q, tag, attempt, ret, hm, hreach⟩ := reaches_allAccepted (i := .fastEnd lt) (ret := 0#32) (later := later)
    (todo := [.xmit (launchExchange s) 1, .fstate .launched]) (s := (s.start (.fastEnd lt) []).assign .cksum sum) xs
    hlen hacc hs hx
  refine ⟨m, q, tag, attempt, ret, hm, ?_⟩
  rw [fastEndActs_eq, ← hxs]
  exact .trans (.act rfl rfl) hreach

/-- So over all of them to the launch packet (R247). -/
theorem State.start_reaches_launch (hxs : xs.map (·.asked) = controlExchanges s lt sum) (hacc : allAccepted s.env xs)
    (hs : s.env.status = List.replicate (tagsDrawn xs) .ok ++ st) (hx : s.env.rx = acceptedAnswers s.env xs ++ rx) :
    ∃ m q tag attempt ret, Memory.Received s.rxb m (deliveries 8 (acceptedAnswers s.env xs)) ∧
      (s.start (.fastEnd lt) (fastEndActs lt sum s)).Reaches
        ((((s.start (.fastEnd lt) []).assign .cksum sum).afterAccepted xs q tag attempt m st rx).setPhase
          (.exec (.fastEnd lt) ret [.xmit (launchExchange s) 1, .fstate .launched])) := by
  obtain ⟨m, q, tag, attempt, ret, hm, hreach⟩ :=
    start_reaches_exchanges (later := []) (by rw [List.append_nil, hxs]) hacc hs hx
  refine ⟨m, q, tag, attempt, ret, hm, ?_⟩
  have hnone (qs : List FState) : controlActs qs [] = [] := by cases qs <;> rfl
  rwa [hnone] at hreach

end

/-- A send after exchanges that were accepted (R232). -/
theorem State.afterSend_afterAccepted (x : Exchange) (xs : List Accepted) (q : FState) (tag : Word) (attempt : BitVec 2)
    (m : Memory) (r : IoStatus) (st : List IoStatus) (rx : List RxAnswer) (s : State) :
    (s.afterAccepted xs q tag attempt m (r :: st) rx).afterSend x 1 = { s with
      fstate := q
      tag := (s.env.afterTags (tagsDrawn xs)).nextTag
      attempt := 1#2
      rxb := m
      rxcnt := if xs = [] then s.rxcnt else 8#32
      env := { (s.env.afterTags (tagsDrawn xs)).afterTag with status := st, rx := rx }
      calls := s.calls ++ acceptedCalls s.env xs ++
        [.send (fastPacket x.id (s.env.afterTags (tagsDrawn xs)).nextTag x.payload)] } := by
  have htag := Env.tagNo_with 0 (s.env.afterTags (tagsDrawn xs)) (r :: st) rx
  simp only [Env.tagNo] at htag
  simp only [afterSend, afterAccepted, drawTag, setAttempt, call, setStatus, State.nextTag, htag, Env.afterTag_with]
  rfl

/-- Exchanges were made (R247). -/
theorem ne_nil_of_controlExchanges {s : State} {lt : LoadType} {sum : Word} {xs : List Accepted}
    (h : xs.map (·.asked) = controlExchanges s lt sum) : xs ≠ [] := by
  rintro rfl
  cases h

/-- Settles O47: every exchange is accepted, and the launch packet is sent. -/
theorem fastEndLaunches : Obligations.FastEndLaunches := by
  refine ⟨needsEeprom_iff, endPayloads_eq, fun s lt sum xs st rx hw hlt hfit hstate hsum hxs hacc hs hx => ?_⟩
  subst hsum
  rw [List.replicate_succ', List.append_assoc] at hs
  obtain ⟨m, q, tag, attempt, ret, hm, hreach⟩ := start_reaches_launch hxs hacc hs hx
  have hsent := hreach.trans (.trans (reaches_send (st := st) rfl) (.trans (.act rfl rfl) (.finish rfl)))
  refine ⟨m, hm, (exec_of_reaches (exec_fastEnd hlt hfit hstate) hw hsent rfl).trans ?_⟩
  rw [List.singleton_append, afterSend_afterAccepted, ← Env.afterTags_nextTag, ← Env.afterTags_succ,
    if_neg (ne_nil_of_controlExchanges hxs)]
  rfl

/-! ### How FAST.END fails after its checks (R232 to R234) -/

section

variable (st : List IoStatus) (rx : List RxAnswer) (f : ExchangeFailure) (x : Accepted) (e : Env)

/-- How an exchange can fail depends on the tags alone. -/
theorem ExchangeFailure.possible_with (h : f.possible x e) : f.possible x { e with status := st, rx := rx } :=
  h.imp_left (noneAccepted_with st rx)

/-- So do its answers. -/
theorem ExchangeFailure.answers_with :
    f.answers x.bad { e with status := st, rx := rx } = f.answers x.bad e := by
  cases f <;> simp only [answers, Env.tagNo_with]

/-- So do its calls. -/
theorem ExchangeFailure.calls_with : f.calls x { e with status := st, rx := rx } = f.calls x e := by
  cases f <;> simp only [calls, Env.tagNo_with, xmitCalls_with]

end

section

variable {s : State} {lt : LoadType} {sum : Word} {xs : List Accepted} {st : List IoStatus} {rx : List RxAnswer}

/-- An exchange fails after those before it were accepted (R232, R234). -/
theorem State.start_reaches_failure {x : Accepted} {f : ExchangeFailure} {later : List Wanted} {e : Env}
    (hxs : xs.map (·.asked) ++ x.asked :: later = controlExchanges s lt sum) (hacc : allAccepted s.env xs)
    (he : e = s.env.afterTags (tagsDrawn xs)) (hposs : f.possible x e)
    (hs : s.env.status = List.replicate (tagsDrawn xs) .ok ++ f.statuses x.bad ++ st)
    (hx : s.env.rx = acceptedAnswers s.env xs ++ f.answers x.bad e ++ rx) :
    ∃ m, Memory.Received s.rxb m (deliveries 8 (acceptedAnswers s.env xs ++ f.answers x.bad e)) ∧
      (s.start (.fastEnd lt) (fastEndActs lt sum s)).Reaches
        { s.doneErr (f.report x).1 (f.report x).2.1 (f.report x).2.2 with
          fstate := .failed
          cksum := sum
          tag := e.tagNo (f.attempts x.bad - 1)
          attempt := BitVec.ofNat 2 (f.attempts x.bad)
          rxb := m
          rxcnt := f.count x.bad (if xs = [] then s.rxcnt else 8#32)
          env := { e.afterTags (f.attempts x.bad) with status := st, rx := rx }
          calls := s.calls ++ acceptedCalls s.env xs ++ f.calls x e } := by
  subst he
  rw [List.append_assoc] at hs hx
  obtain ⟨m, q, tag, attempt, ret, hm, hreach⟩ := start_reaches_exchanges hxs hacc hs hx
  have hlen := controlStates_length s lt sum
  rw [← hxs, List.length_append, List.length_map, List.length_cons] at hlen
  obtain ⟨q', qs, hqs⟩ : ∃ q' qs, (controlStates lt).drop xs.length = q' :: qs :=
    List.exists_cons_of_length_pos (by rw [List.length_drop]; omega)
  rw [hqs] at hreach
  obtain ⟨m', hm', hreach'⟩ := reaches_failure (f := f) (x := x) (i := .fastEnd lt) (ret := ret)
    (s := (((s.start (.fastEnd lt) []).assign .cksum sum).afterAccepted xs q tag attempt m (f.statuses x.bad ++ st)
      (f.answers x.bad (s.env.afterTags (tagsDrawn xs)) ++ rx)).setFState q')
    (todo := .expect x.asked.want x.asked.stage :: (controlActs qs later ++
      [.xmit (launchExchange s) 1, .fstate .launched])) (st := st) (rx := rx)
    (enclosingSlow_controlActs qs later _) (fun _ _ => ⟨_, rfl⟩) (f.possible_with _ _ x _ hposs) rfl
    (congrArg (· ++ rx) (f.answers_with _ _ x _).symm)
  refine ⟨m', ?_, hreach.trans (.trans (.act rfl rfl) (hreach'.trans ?_))⟩
  · have hm' : Memory.Received m m' (deliveries 8 (f.answers x.bad { s.env.afterTags (tagsDrawn xs) with
      status := f.statuses x.bad ++ st
      rx := f.answers x.bad (s.env.afterTags (tagsDrawn xs)) ++ rx })) := hm'
    rw [f.answers_with] at hm'
    rw [deliveries, List.filterMap_append]
    exact hm.append hm'
  · simp only [afterFailure, afterExchange, afterAccepted, setFState, Env.afterTags_with, Env.tagNo_with,
      ExchangeFailure.calls_with]
    exact .refl _

end

/-! ### From the start of a command over all its steps -/

/-- A property of a running command that does not depend on what the environment and the host list, nor on CMD, OVR and
the value the host holds, and that every sequencer step keeps. -/
structure RunInvariant (P : State → Prop) : Prop where
  outside : ∀ s e q v c o, P s → P { s with env := e, hostq := q, rdata := v, cmd := c, ovr := o }
  seqStep : ∀ s t, P s → s.seqStep = some t → P t

namespace RunInvariant

variable {P : State → Prop} (hP : RunInvariant P)
include hP

/-- Other moves of the host listed. -/
theorem queue {s : State} (q : List Timed) (h : P s) : P { s with hostq := q } :=
  hP.outside s s.env q s.rdata s.cmd s.ovr h

/-- A run keeps it. -/
theorem run {s : State} (n : Nat) (h : P s) : P (State.run n s) :=
  run_induct hP.seqStep (fun _ h => hP.queue _ h) n s h

/-- A step of the machine keeps it while a command runs, but for a reset (R310, R316). -/
theorem step {s t : State} (running : s.phase ≠ .idle) (noReset : ∀ w q, s.hostq ≠ ⟨w, .reset⟩ :: q) (h : P s)
    (hs : Machine.step s = .next t) : P t := by
  rcases step_cases hs with rfl | ⟨w, m, q, hq, hm⟩
  · exact hP.run _ h
  · cases hm with
    | reads m v q' => exact hP.outside s s.env q' v s.cmd s.ovr h
    | ignored off v => exact hP.queue q h
    | busyWrite r v _ => exact hP.outside s s.env q s.rdata _ true h
    | idleWrite r v idle => exact absurd idle running
    | illegal off w idle => exact absurd idle running
    | command off w i idle => exact absurd idle running
    | imgByte off b idle => exact absurd idle running
    | reset => exact absurd hq (noReset w q)

/-- All steps of a command keep it, whatever is answered and whatever the host does but reset. -/
theorem follows {u t : State} (hf : Follows u t) (h : P u) : P t := by
  induction hf with
  | refl s => exact h
  | step running noReset steps _ ih => exact ih (hP.step running noReset h steps)
  | @outside s u e q _ ih => exact ih (hP.outside s e q s.rdata s.cmd s.ovr h)

/-- What holds when a command starts holds over all its steps. -/
theorem follows_exec {i : Instr} {todo : List Act} {s u t : State} (hlaunch : exec i s = launch i todo s)
    (h : P (s.start i todo)) (hexec : exec i s = .next u) (hf : Follows u t) : P t := by
  rw [hlaunch, launch] at hexec
  cases hexec
  exact hP.follows hf (hP.run _ h)

end RunInvariant

/-! ### The corner in which FAST.END cannot succeed (R247) -/

/-- A step after which the result returned is that of an exchange with this id, which is never the id itself (R232). -/
def Act.answersId (id : Word) : Act → Bool
  | .xmit x _ => x.resp && decide (x.id = id)
  | .recv _ _ (.response x _) => x.resp && decide (x.id = id)
  | .heard _ (.response x _) => x.resp && decide (x.id = id)
  | .answered _ (.response x _) => x.resp && decide (x.id = id)
  | _ => false

/-- The steps before a check of the result: none, and the value returned is not this id, or the last is an exchange
with this id. -/
def neverReturns (id : Word) (ret : Word) (before : List Act) : Prop :=
  match before.getLast? with
  | none => ret ≠ id
  | some a => a.answersId id = true

/-- FAST.END ended with an error, will fail a check, or has still to do a check of a result that no answer gives. -/
def State.doomed (lt : LoadType) (id : Word) (s : State) : Prop :=
  (s.phase = .idle ∧ s.err = true) ∨
    (∃ ret c info rest, s.phase = .exec (.fastEnd lt) ret (.reject c info :: rest)) ∨
    ∃ ret before st rest, s.phase = .exec (.fastEnd lt) ret (before ++ .expect id st :: rest) ∧
      neverReturns id ret before

/-- An error ends FAST.END (R285). -/
theorem State.raise_doomed {s : State} {lt : LoadType} {ret : Word} {todo : List Act} (id : Word) (c : ErrCode)
    (st : Stage) (info : Word) (hp : s.phase = .exec (.fastEnd lt) ret todo) : (s.raise c st info).doomed lt id := by
  rcases s.raise_cases c st info with ⟨q, f, h, -⟩ | ⟨_, _, _, _, hp', -⟩
  · rw [h]; exact .inl ⟨rfl, rfl⟩
  · cases hp.symm.trans hp'

/-- What an answer to an exchange leads to: a result that is not the id, the next attempt, or an error (R232). -/
theorem act_response_cases (x : Exchange) (a : Nat) (r : RxAnswer) (s : State) :
    (∃ v ≠ x.id, RxUse.act (.response x a) r s = s.setRet v) ∨
      RxUse.act (.response x a) r s = s.push [.xmit x (a + 1)] ∨
      ∃ c st info, RxUse.act (.response x a) r s = s.raise c st info := by
  have retry (last : Word) : xmitRetry x a last s = s.push [.xmit x (a + 1)] ∨
      ∃ c st info, xmitRetry x a last s = s.raise c st info := by
    unfold xmitRetry
    split
    · exact .inl rfl
    · exact .inr ⟨_, _, _, rfl⟩
  cases r with
  | bytes l =>
    by_cases h : le32 (l.drop 4) = s.tag ∧ le32 l ≠ x.id
    · exact .inl ⟨_, h.2, if_pos h⟩
    · rw [show RxUse.act (.response x a) (.bytes l) s = xmitRetry x a (le32 l) s from if_neg h]
      exact .inr (retry _)
  | timeout => exact .inr (retry _)
  | ioErr => exact .inr (.inr ⟨_, _, _, rfl⟩)

/-- The steps that an exchange's steps put in front end with one of the exchange's own again. -/
theorem Act.pushed_answersId {id : Word} {a : Act} {s t : State} (h : a.answersId id = true) (hrun : a.run s = some t) :
    ∃ l b, a.pushed s = l ++ [b] ∧ b.answersId id = true := by
  cases a with
  | xmit x k =>
    have hresp : x.resp = true := by simp_all [answersId]
    exact ⟨[.attempt k, .send (fastPacket x.id s.nextTag x.payload) (BitVec.ofNat 32 k)],
      .recv Config.pktRspLen x.timeout (.response x k), by simp [pushed, hresp], h⟩
  | recv n t k =>
    cases k with
    | response x k => exact ⟨[], _, rfl, h⟩
    | _ => cases h
  | heard n k =>
    cases hr : s.env.rx with
    | nil => rw [Act.run, takeRx_nil hr] at hrun; cases hrun
    | cons r rest =>
      refine ⟨rxBytes 0 (deliver n r).heard ++ [.rxCount (deliver n r).heard.length], .answered (deliver n r) k, ?_, ?_⟩
      · simp [pushed, hr, receiveActs_eq]
      · cases k with
        | response x k => exact h
        | _ => cases h
  | answered r k =>
    cases k with
    | response x k => exact ⟨[], _, rfl, h⟩
    | _ => cases h
  | _ => cases h

/-- While a step is to come, the value returned so far does not matter, nor do the steps before the last. -/
theorem neverReturns_tail {id ret ret' : Word} {a : Act} {before : List Act} (l : List Act) (hne : before ≠ [])
    (h : neverReturns id ret (a :: before)) : neverReturns id ret' (l ++ before) := by
  obtain ⟨b, c, rfl⟩ := before.eq_nil_or_concat'.resolve_left hne
  unfold neverReturns at h ⊢
  rw [← List.cons_append, List.getLast?_concat] at h
  rwa [← List.append_assoc, List.getLast?_concat]

/-- Steps that end with an exchange's own never return its id. -/
theorem neverReturns_concat {id ret : Word} {l : List Act} {a : Act} (h : a.answersId id = true) :
    neverReturns id ret (l ++ [a]) := by
  simpa [neverReturns] using h

/-- Every sequencer step keeps it: only an exchange's answer gives the value that is checked. -/
theorem State.seqStep_doomed {lt : LoadType} {id : Word} {s t : State} (hs : s.doomed lt id)
    (h : s.seqStep = some t) : t.doomed lt id := by
  obtain ⟨hp, -⟩ | ⟨ret, c, info, rest, hp⟩ | ⟨ret, before, st, rest, hp, hbefore⟩ := hs
  · simp [hp] at h
  · rw [seqStep_cons hp] at h
    cases h
    exact .inl ⟨rfl, rfl⟩
  cases before with
  | nil =>
    rw [List.nil_append] at hp
    rw [seqStep_cons hp] at h
    have hne : ret ≠ id := hbefore
    obtain rfl := Option.some.inj (h.symm.trans (congrArg some (if_neg hne)))
    exact raise_doomed id _ _ _ rfl
  | cons a before =>
    rw [List.cons_append] at hp
    rw [seqStep_cons hp] at h
    by_cases hres : ∃ r x k, a = .answered r (.response x k) ∧ before = []
    · obtain ⟨r, x, k, rfl, rfl⟩ := hres
      obtain ⟨hresp, rfl⟩ : x.resp = true ∧ x.id = id := by simpa [neverReturns, Act.answersId] using hbefore
      cases h
      rcases act_response_cases x k r (s.setPhase (.exec (.fastEnd lt) ret ([] ++ .expect x.id st :: rest))) with
        ⟨v, hv, h⟩ | h | ⟨c, st', info, h⟩ <;> rw [h]
      · exact .inr (.inr ⟨v, [], st, rest, rfl, hv⟩)
      · exact .inr (.inr ⟨ret, [.xmit x (k + 1)], st, rest, rfl, by simp [neverReturns, Act.answersId, hresp]⟩)
      · exact raise_doomed x.id c st' info rfl
    · cases a.run_outcome h with
      | goesOn same rx hears =>
        obtain ⟨ret', hu⟩ := same.phase rfl
        have hne : before ≠ [] := by
          rintro rfl
          have hans : a.answersId id = true := hbefore
          cases a with
          | xmit x k => simp_all [Act.answersId]
          | answered r k =>
            cases k with
            | response x k => exact hres ⟨r, x, k, rfl, rfl⟩
            | _ => cases hans
          | recv n t k => cases hears
          | heard n k => cases hears
          | _ => cases hans
        exact .inr (.inr ⟨ret', before, st, rest, hu, neverReturns_tail [] hne hbefore⟩)
      | @pushes u same =>
        obtain ⟨ret', hu⟩ := same.phase rfl
        refine .inr (.inr ⟨ret', a.pushed (s.setPhase _) ++ before, st, rest,
          by rw [push, hu, List.append_assoc], ?_⟩)
        by_cases hne : before = []
        · subst hne
          have hans : a.answersId id = true := hbefore
          obtain ⟨l, b, hl, hb⟩ := Act.pushed_answersId hans h
          rw [hl, List.append_nil]
          exact neverReturns_concat hb
        · exact neverReturns_tail _ hne hbefore
      | @raises u same rx c st' info =>
        obtain ⟨ret', hu⟩ := same.phase rfl
        exact raise_doomed id c st' info hu
      | rejects c info check => exact .inl ⟨rfl, rfl⟩

theorem runInvariant_doomed (lt : LoadType) (id : Word) : RunInvariant (State.doomed lt id) where
  outside _ _ _ _ _ _ h := h
  seqStep _ _ := seqStep_doomed

/-- Where the result FAST.END wants is the id itself, it starts with no way to end well (R247). -/
theorem start_doomed {s : State} {lt : LoadType} {sum : Word}
    (hsum : sum = s.cksum + BitVec.ofNat 32 (byteSum s.cfg.initCallFrame))
    (h : -sum = s.pktid ∨ ((lt = .programShutdown ∨ lt = .programRun) ∧ -(2#32 * sum) = s.pktid)) :
    ∃ todo, exec (.fastEnd lt) s = launch (.fastEnd lt) todo s ∧ (s.start (.fastEnd lt) todo).doomed lt s.pktid := by
  have rejected (c : ErrCode) (info : Word) : (s.start (.fastEnd lt) [.reject c info]).doomed lt s.pktid :=
    .inr (.inl ⟨_, c, info, [], rfl⟩)
  refine ⟨_, rfl, ?_⟩
  split
  · exact rejected ..
  split
  · exact rejected ..
  split
  · exact rejected ..
  rw [← hsum]
  obtain hverify | ⟨hprogram, hburn⟩ := h
  · obtain ⟨rest, hacts⟩ : ∃ rest, fastEndActs lt sum s = [.set .cksum (.const sum), .fstate .verifyingRam] ++
        [.xmit ⟨s.pktid, s.cfg.ctrlVerifyRam, s.cfg.tPktMs, true, .verifyRam⟩ 1] ++
        .expect s.pktid .verifyRam :: rest := by
      simp only [fastEndActs, endExchange, hverify]
      exact ⟨_, rfl⟩
    exact .inr (.inr ⟨0#32, _, .verifyRam, rest, congrArg (Phase.exec _ _) hacts,
      neverReturns_concat (by simp [Act.answersId])⟩)
  · obtain ⟨rest, hacts⟩ : ∃ rest, fastEndActs lt sum s = [.set .cksum (.const sum), .fstate .verifyingRam,
        .xmit ⟨s.pktid, s.cfg.ctrlVerifyRam, s.cfg.tPktMs, true, .verifyRam⟩ 1, .expect (-sum) .verifyRam,
        .fstate .programmingEeprom] ++
        [.xmit ⟨s.pktid, s.cfg.ctrlProgramVerifyEeprom, Config.tEepromPktMs, true, .programEeprom⟩ 1] ++
        .expect s.pktid .programEeprom :: rest := by
      simp only [fastEndActs, endExchange, hburn, (needsEeprom_iff lt).2 hprogram, if_true]
      exact ⟨_, rfl⟩
    exact .inr (.inr ⟨0#32, _, .programEeprom, rest, congrArg (Phase.exec _ _) hacts,
      neverReturns_concat (by simp [Act.answersId])⟩)

/-- Settles O48: the checks in their order, the failures one exchange after another, and the corner by an invariant of
the steps still to do. -/
theorem fastEndChecks : Obligations.FastEndChecks := by
  refine ⟨needsEeprom_iff, endPayloads_eq, fun s lt => ⟨fun hw hlt => ?_, fun hw hlt p hp hlong => ?_,
    fun hw hlt hfit => ⟨fun h h' => ?_, fun hstate sum xs e st rx hsum hacc he => ⟨fun x f later hxs hposs hs hx => ?_,
      fun hxs hs hx => ?_⟩⟩, fun sum u t hsum hcorner hexec hfollows hidle => ?_⟩⟩
  · subst hlt
    exact exec_reject hw (exec_fastEnd_shutdown s)
  · obtain ⟨p', hp', hlong', hexec⟩ := exec_fastEnd_long hlt hp hlong
    exact ⟨p', hp', hlong', exec_reject hw hexec⟩
  · exact exec_reject hw (exec_fastEnd_sequence hlt hfit h h')
  · subst hsum
    obtain ⟨m, hm, hreach⟩ := start_reaches_failure hxs hacc he hposs hs hx
    exact ⟨m, hm, exec_of_reaches (exec_fastEnd hlt hfit hstate) hw hreach rfl⟩
  · subst hsum he
    obtain ⟨m, q, tag, attempt, ret, hm, hreach⟩ := start_reaches_launch hxs hacc hs hx
    have hsent := hreach.trans (reaches_sendFails (st := st) rfl rfl)
    refine ⟨m, hm, (exec_of_reaches (exec_fastEnd hlt hfit hstate) hw hsent rfl).trans ?_⟩
    rw [afterSend_afterAccepted, if_neg (ne_nil_of_controlExchanges hxs)]
    rfl
  · obtain ⟨todo, hlaunch, hstart⟩ := start_doomed hsum hcorner
    obtain ⟨-, herr⟩ | ⟨_, _, _, _, hp⟩ | ⟨_, _, _, _, hp, -⟩ :=
      (runInvariant_doomed lt s.pktid).follows_exec hlaunch hstart hexec hfollows
    · exact herr
    · cases hidle.symm.trans hp
    · cases hidle.symm.trans hp

end Sys2Proof.Machine
end

section
/-! PROOFS. AckPoll with every end (R205) and SlowLoad (R210, R211): a slow load that succeeds, and every way it
fails. -/

namespace Sys2Proof.Machine

open State

section

variable {s : State} {i : Instr} {ret : Word} {todo : List Act} {st : List IoStatus} {rx : List RxAnswer}

theorem State.Reaches.of_eq {s t : State} (h : s = t) : s.Reaches t := h ▸ .refl s

/-- Of the steps still to do an error looks only at the end of SlowLoad and what follows it (R241, R285). -/
theorem State.raise_of_enclosingSlow {todo' : List Act} (c : ErrCode) (st : Stage) (info : Word)
    (h : enclosingSlow todo = enclosingSlow todo') :
    (s.setPhase (.exec i ret todo)).raise c st info = (s.setPhase (.exec i ret todo')).raise c st info := by
  have mark (u : State) (p p' : Phase) :
      ((u.setPhase p).markFast i).report c st info = ((u.setPhase p').markFast i).report c st info := by
    unfold markFast
    split <;> rfl
  rw [raise, raise, setPhase_phase, setPhase_phase]
  simp only [h]
  cases enclosingSlow todo' with
  | none => exact mark s _ _
  | some p =>
    by_cases hretry : i = .fastBegin ∧ p.1 < s.cfg.nStage2Attempts
    · exact (if_pos hretry).trans (if_pos hretry).symm
    · exact (if_neg hretry).trans ((mark (s.setSState .failed) _ _).trans (if_neg hretry).symm)

/-! ### A primitive and its answer -/

/-- An SSTATE that is set (R210). -/
theorem State.reaches_sstate (q : SState) :
    (s.setPhase (.exec i ret (.sstate q :: todo))).Reaches ((s.setSState q).setPhase (.exec i ret todo)) :=
  .act rfl rfl

/-- ConnSend that succeeds. -/
theorem State.reaches_sendOk {l : List Byte} {info : Word} (hs : s.env.status = .ok :: st) :
    (s.setPhase (.exec i ret (.send l info :: todo))).Reaches
      (((s.call (.send l)).setStatus st).setPhase (.exec i ret todo)) :=
  .of_run 2 fun hw => run_send 0 rfl hs hw

/-- ConnSend that fails. -/
theorem State.reaches_sendIoErr {l : List Byte} {info : Word} (hs : s.env.status = .ioErr :: st) :
    (s.setPhase (.exec i ret (.send l info :: todo))).Reaches
      ((((s.call (.send l)).setStatus st).setPhase (.exec i ret todo)).raise .connectionIo .send info) :=
  .of_run 2 fun hw => run_send_ioErr 0 rfl hs hw

/-- What a receive leaves: its bytes in RXB, their number in RXCNT (R63). -/
def State.afterReceive (n t : Nat) (l : List Byte) (rx : List RxAnswer) (s : State) : State :=
  { s with
    rxb := s.rxb.storeEach 0 l
    rxcnt := BitVec.ofNat 32 l.length
    env := { s.env with rx := rx }
    calls := s.calls ++ [.recv n t] }

/-- A receive with whatever the environment lists next (R63, R73). -/
theorem State.reaches_receive {n t : Nat} {k : RxUse} {r : RxAnswer} (hx : s.env.rx = r :: rx) :
    (s.setPhase (.exec i ret (.recv n t k :: todo))).Reaches
      (k.act (deliver n r) ((s.afterReceive n t (deliver n r).heard rx).setPhase (.exec i ret todo))) :=
  .of_run _ fun hw => run_recv 0 rfl hx hw

/-! ### AckPoll (R205) -/

/-- Polls that time out, and the next one (R205). -/
theorem State.reaches_polls {bc : Option Nat} {extra k : Nat} {stage : Stage}
    (hk : k + 1 ≤ pollCount (bc.getD s.pktlen.toNat) extra s.baud) (hs : s.env.status = List.replicate k .ok ++ st)
    (hx : s.env.rx = List.replicate k .timeout ++ rx) :
    (s.setPhase (.exec i ret (.ackPoll bc extra stage :: todo))).Reaches
      ({ s with
        rxcnt := if k = 0 then s.rxcnt else 0#32
        env := { s.env with status := st, rx := rx }
        calls := s.calls ++ pollCalls s.cfg k }.setPhase (.exec i ret
          (pollActs s.cfg (k + 1) (pollCount (bc.getD s.pktlen.toNat) extra s.baud) stage ++ todo))) := by
  have start : (s.setPhase (.exec i ret (.ackPoll bc extra stage :: todo))).Reaches (s.setPhase (.exec i ret
      (pollActs s.cfg 1 (pollCount (bc.getD s.pktlen.toNat) extra s.baud) stage ++ todo))) := .act rfl rfl
  refine start.trans (.of_run (6 * k + 0) fun hw => ?_)
  refine (run_polls k 0 1 hw rfl (by omega) hs hx).trans ?_
  rw [Nat.add_comm 1 k]
  rfl

/-- AckPoll that hears 0xFE at poll k (R205). -/
theorem State.reaches_acknowledged {bc : Option Nat} {extra k : Nat} {stage : Stage} (hpos : 1 ≤ k)
    (hk : k ≤ pollCount (bc.getD s.pktlen.toNat) extra s.baud) (hs : s.env.status = List.replicate k .ok ++ st)
    (hx : s.env.rx = ackAtPoll k ++ rx) :
    (s.setPhase (.exec i ret (.ackPoll bc extra stage :: todo))).Reaches
      ({ s with
        rxb := s.rxb.store 0 [0xFE#8]
        rxcnt := 1#32
        env := { s.env with status := st, rx := rx }
        calls := s.calls ++ pollCalls s.cfg k }.setPhase (.exec i (BitVec.ofNat 32 k) todo)) := by
  obtain ⟨k, rfl⟩ : ∃ j, k = j + 1 := ⟨k - 1, by omega⟩
  exact .of_run (6 * k + 0 + 8) fun hw => (run_ackPoll k 0 hw rfl hk hs hx).trans rfl

/-- After polls that time out the next one hears an answer, whatever it is (R205). -/
theorem State.reaches_poll {bc : Option Nat} {extra k : Nat} {stage : Stage} {r : RxAnswer}
    (hk : k + 1 ≤ pollCount (bc.getD s.pktlen.toNat) extra s.baud)
    (hs : s.env.status = List.replicate (k + 1) .ok ++ st) (hx : s.env.rx = List.replicate k .timeout ++ r :: rx) :
    (s.setPhase (.exec i ret (.ackPoll bc extra stage :: todo))).Reaches
      (RxUse.act (.poll (k + 1) (pollCount (bc.getD s.pktlen.toNat) extra s.baud) stage) (deliver 1 r) ({ s with
        rxb := s.rxb.storeEach 0 (deliver 1 r).heard
        rxcnt := BitVec.ofNat 32 (deliver 1 r).heard.length
        env := { s.env with status := st, rx := rx }
        calls := s.calls ++ pollCalls s.cfg (k + 1) }.setPhase (.exec i ret todo))) := by
  rw [List.replicate_succ', List.append_assoc] at hs
  refine (reaches_polls hk hs hx).trans ((reaches_sendOk (st := st) rfl).trans ((reaches_receive rfl).trans ?_))
  simp only [call, setStatus, afterReceive, pollCalls, List.append_assoc]
  exact .refl _

/-- The bytes that a failing poll puts into RXB (R63, R205). -/
def AckFailure.received : AckFailure → List (List Byte)
  | nak b => [[b]]
  | recvFails => []
  | sendFails => []
  | exhausted => []

/-- Every way AckPoll fails raises its report (R205). -/
theorem State.reaches_ackFailure {bc : Option Nat} {extra k : Nat} {stage : Stage} {g : AckFailure}
    (hposs : g.possible k (pollCount (bc.getD s.pktlen.toNat) extra s.baud)) (hs : s.env.status = g.statuses k ++ st)
    (hx : s.env.rx = g.answers k ++ rx) :
    ∃ m, Memory.Received s.rxb m g.received ∧
      (s.setPhase (.exec i ret (.ackPoll bc extra stage :: todo))).Reaches
        (({ s with
          rxb := m
          rxcnt := g.count k s.rxcnt
          env := { s.env with status := st, rx := rx }
          calls := s.calls ++ g.calls s.cfg k }.setPhase (.exec i ret todo)).raise
            (g.report stage k).1 (g.report stage k).2.1 (g.report stage k).2.2) := by
  obtain ⟨hpos, hk, hlast⟩ := hposs
  obtain ⟨k, rfl⟩ : ∃ j, k = j + 1 := ⟨k - 1, by omega⟩
  unfold AckFailure.answers at hx
  rw [Nat.add_sub_cancel, List.append_assoc] at hx
  cases g with
  | nak b =>
    refine ⟨_, Memory.received_of_stored (Memory.stored_storeEach s.rxb 0 [b]), (reaches_poll hk hs hx).trans ?_⟩
    have hbad : ¬(b = Config.ackOk) := hlast
    rw [deliver_bytes (n := 1) (l := [b]) rfl]
    simp only [RxUse.act, List.getD_cons_zero, if_neg hbad]
    exact .refl _
  | recvFails => exact ⟨s.rxb, fun _ => rfl, (reaches_poll hk hs hx).trans (.refl _)⟩
  | exhausted =>
    refine ⟨s.rxb, fun _ => rfl, (reaches_poll hk hs hx).trans ?_⟩
    have hlast : k + 1 = pollCount (bc.getD s.pktlen.toNat) extra s.baud := hlast
    simp only [deliver_timeout, RxUse.act]
    rw [if_neg (by omega)]
    exact .refl _
  | sendFails =>
    rw [AckFailure.statuses, Nat.add_sub_cancel, List.append_assoc] at hs
    refine ⟨s.rxb, fun _ => rfl, (reaches_polls hk hs hx).trans ((reaches_sendIoErr (st := st) rfl).trans ?_)⟩
    simp only [call, setStatus, AckFailure.count, AckFailure.calls, Nat.add_sub_cancel, List.append_assoc,
      Nat.add_eq_right]
    exact .of_eq (raise_of_enclosingSlow _ _ _ rfl)

/-! ### The acknowledgements of a slow load (R208) -/

/-- An acknowledgement of SlowLoad: the SSTATE that announces it, and the arguments of its AckPoll (R208, R210). -/
structure AckStep where
  sstate : SState
  bc : Option Nat
  extra : Nat
  stage : Stage

/-- Its number of polls, for a packet length and a baud rate (R205). -/
def AckStep.polls (b : AckStep) (length : Nat) (baud : Word) : Nat := pollCount (b.bc.getD length) b.extra baud

/-- The acknowledgements a LoadType asks for (R208). -/
def ackSteps (lt : LoadType) : List AckStep :=
  ⟨.checksumAckPending, none, Config.tAckExtraMs, .checksumAck⟩ ::
    if needsEeprom lt then
      [⟨.eepromProgramAckPending, some 0, Config.tEepromProgramAckMs, .eepromProgramAck⟩,
        ⟨.eepromVerifyAckPending, some 0, Config.tEepromVerifyAckMs, .eepromVerifyAck⟩]
    else []

/-- The steps of acknowledgements (R210). -/
def ackActs : List AckStep → List Act
  | [] => []
  | b :: bs => .sstate b.sstate :: .ackPoll b.bc b.extra b.stage :: ackActs bs

/-- What R322 counts is what is asked for. -/
theorem ackBudgets_eq (lt : LoadType) (packet : List Byte) (baud : Word) :
    ackBudgets lt packet baud = (ackSteps lt).map fun b => (b.stage, b.polls packet.length baud) := by
  cases lt <;> rfl

/-- No acknowledgement ends SlowLoad. -/
theorem enclosingSlow_ackActs (l : List AckStep) (todo : List Act) :
    enclosingSlow (ackActs l ++ todo) = enclosingSlow todo := by
  induction l with
  | nil => rfl
  | cons b l ih => exact ih

/-- The state after acknowledgements at these polls, with the last SSTATE and RXB as given (R205). -/
def State.afterAcks (acked : List Nat) (q : SState) (m : Memory) (st : List IoStatus) (rx : List RxAnswer)
    (s : State) : State :=
  { s with
    sstate := q
    rxb := m
    rxcnt := if acked = [] then s.rxcnt else 1#32
    env := { s.env with status := st, rx := rx }
    calls := s.calls ++ acked.flatMap (pollCalls s.cfg) }

/-- Acknowledgements that come within their budgets lead to those after them (R205, R208). -/
theorem State.reaches_acks (acked : List Nat) {steps : List AckStep} {s : State} {ret : Word}
    (hacked : ackedAt acked (steps.map fun b => (b.stage, b.polls s.pktlen.toNat s.baud)))
    (hs : s.env.status = List.replicate acked.sum .ok ++ st) (hx : s.env.rx = acked.flatMap ackAtPoll ++ rx) :
    ∃ m q ret', Memory.Received s.rxb m (acked.map fun _ => [0xFE#8]) ∧
      (s.setPhase (.exec i ret (ackActs steps ++ todo))).Reaches
        ((s.afterAcks acked q m st rx).setPhase (.exec i ret' (ackActs (steps.drop acked.length) ++ todo))) := by
  induction acked generalizing steps s ret with
  | nil =>
    have hs : s.env.status = st := hs
    have hx : s.env.rx = rx := hx
    refine ⟨s.rxb, s.sstate, ret, fun _ => rfl, ?_⟩
    have hsame : s.afterAcks [] s.sstate s.rxb st rx = s := by
      subst hs hx
      simp [afterAcks]
    rw [hsame]
    exact .refl _
  | cons k acked ih =>
    obtain ⟨hlen, hwithin⟩ := hacked
    cases steps with
    | nil => cases hlen
    | cons b steps =>
      obtain ⟨hpos, hk⟩ := hwithin 0 k rfl
      rw [List.sum_cons, List.replicate_add, List.append_assoc] at hs
      rw [List.flatMap_cons, List.append_assoc] at hx
      have hone := reaches_acknowledged (s := s.setSState b.sstate) (i := i) (ret := ret) (bc := b.bc)
        (extra := b.extra) (stage := b.stage) (todo := ackActs steps ++ todo) hpos (hk _ rfl) hs hx
      obtain ⟨m, q, ret', hm, hreach⟩ := ih (steps := steps) (ret := BitVec.ofNat 32 k)
        (s := { s.setSState b.sstate with
          rxb := s.rxb.store 0 [0xFE#8]
          rxcnt := 1#32
          env := { s.env with
            status := List.replicate acked.sum .ok ++ st
            rx := acked.flatMap ackAtPoll ++ rx }
          calls := s.calls ++ pollCalls s.cfg k })
        ⟨Nat.le_of_succ_le_succ hlen, fun j i hi => hwithin (j + 1) i hi⟩ rfl rfl
      refine ⟨m, q, ret', (Memory.received_of_stored (Memory.stored_store s.rxb 0 [0xFE#8])).append hm,
        .trans (.act rfl rfl) (hone.trans (hreach.trans ?_))⟩
      simp only [afterAcks, setSState, List.flatMap_cons, List.append_assoc, ite_self, reduceCtorEq, if_false]
      exact .refl _

/-! ### The packet (R210) -/

/-- The packet is in the packet buffer (R210). -/
def State.withPacket (packet : List Byte) (s : State) : State :=
  { s with
    pkt := s.pkt.store 0 packet
    pktlen := BitVec.ofNat 32 packet.length }

/-- Building a packet that fits, in an emptied buffer (R62, R210). -/
theorem State.reaches_built {packet : List Byte} (h : packet.length ≤ s.cfg.pktCapacity.toNat) :
    (s.setPhase (.exec i ret (.clearPkt :: .append packet :: todo))).Reaches
      ((s.withPacket packet).setPhase (.exec i ret todo)) := by
  refine .trans (t := s.clearPkt.setPhase (.exec i ret (.append packet :: todo))) (.act rfl rfl) (.act rfl ?_)
  rw [Act.run, appendPkt_fit _ (by exact (Nat.zero_add _).trans_le h), putPkt]
  simp only [withPacket, clearPkt, setPhase, BitVec.zero_add, BitVec.toNat_zero]

/-- Building a packet that does not fit leaves the buffer empty (R62, R210). -/
theorem State.reaches_overflow {packet : List Byte} (h : s.cfg.pktCapacity.toNat < packet.length) :
    (s.setPhase (.exec i ret (.clearPkt :: .append packet :: todo))).Reaches
      ((s.clearPkt.setPhase (.exec i ret todo)).raise .bufferOverflow .build (BitVec.ofNat 32 packet.length)) := by
  refine .trans (t := s.clearPkt.setPhase (.exec i ret (.append packet :: todo))) (.act rfl rfl) (.act rfl ?_)
  exact congrArg some (appendPkt_over _ (by exact h.trans_eq (Nat.zero_add _).symm))

/-- ConnReset that succeeds. -/
theorem State.reaches_resetOk (hs : s.env.status = .ok :: st) :
    (s.setPhase (.exec i ret (.connReset :: todo))).Reaches
      (((s.call .reset).setStatus st).setPhase (.exec i ret todo)) :=
  .of_run 2 fun hw => run_connReset 0 rfl hs hw

/-- ConnReset that fails. -/
theorem State.reaches_resetIoErr (hs : s.env.status = .ioErr :: st) :
    (s.setPhase (.exec i ret (.connReset :: todo))).Reaches
      ((((s.call .reset).setStatus st).setPhase (.exec i ret todo)).raise .connectionIo .reset 0#32) :=
  .trans (t := (s.call .reset).setPhase (.exec i ret (.wasReset :: todo))) (.act rfl rfl)
    (.act rfl (takeStatus_ioErr hs))

/-- ConnSend of the packet that succeeds. -/
theorem State.reaches_packetOk {packet : List Byte} (hp : s.packet = packet) (hs : s.env.status = .ok :: st) :
    (s.setPhase (.exec i ret (.sendPkt :: todo))).Reaches
      (((s.call (.send packet)).setStatus st).setPhase (.exec i ret todo)) :=
  hp ▸ .of_run 2 fun hw => run_sendPkt 0 rfl hs hw

/-- ConnSend of the packet that fails. -/
theorem State.reaches_packetIoErr {packet : List Byte} (hp : s.packet = packet)
    (hs : s.env.status = .ioErr :: st) :
    (s.setPhase (.exec i ret (.sendPkt :: todo))).Reaches
      ((((s.call (.send packet)).setStatus st).setPhase (.exec i ret todo)).raise .connectionIo .send 0#32) :=
  hp ▸ .trans (t := (s.call (.send s.packet)).setPhase (.exec i ret (.sent 0#32 :: todo))) (.act rfl rfl)
    (.act rfl (takeStatus_ioErr hs))

/-- A packet that fits has its length in PKTLEN (R28). -/
theorem toNat_length_of_fit {p : Params} {packet : List Byte} (h : packet.length ≤ p.pktCapacity.toNat) :
    (BitVec.ofNat 32 packet.length).toNat = packet.length := by
  rw [BitVec.toNat_ofNat, Nat.mod_eq_of_lt (h.trans_lt p.pktCapacity.isLt)]

theorem State.withPacket_packet {packet : List Byte} (h : packet.length ≤ s.cfg.pktCapacity.toNat) :
    (s.withPacket packet).packet = packet := by
  rw [State.packet, withPacket, toNat_length_of_fit h, Memory.read_store_same]

/-- ConnReset and the packet, sent (R210). -/
theorem State.reaches_packetSent {packet : List Byte} (hp : s.packet = packet) (hs : s.env.status = .ok :: .ok :: st) :
    (s.setPhase (.exec i ret (.connReset :: .sstate .reset :: .sendPkt :: .sstate .handshakeSent :: todo))).Reaches
      (({ s with
        sstate := .handshakeSent
        env := { s.env with status := st }
        calls := s.calls ++ [.reset, .send packet] } : State).setPhase (.exec i ret todo)) := by
  have hsent := reaches_packetOk (s := ((s.call .reset).setStatus (.ok :: st)).setSState .reset) (i := i) (ret := ret)
    (todo := .sstate .handshakeSent :: todo) hp rfl
  refine (reaches_resetOk hs).trans ((reaches_sstate _).trans (hsent.trans ((reaches_sstate _).trans ?_)))
  simp only [call, setStatus, setSState, List.append_assoc]
  exact .refl _

/-! ### The response (R161, R210) -/

/-- Bytes stored one after another are the bytes read. -/
theorem Memory.read_storeEach (m : Memory) (a : Nat) (l : List Byte) : (m.storeEach a l).read a l.length = l :=
  (read_congr fun _ _ => get_storeEach l m a _).trans (read_store_same m a l)

/-- The version bytes follow the response (R160). -/
theorem State.rxVersion_of_received {m : Memory} {l : List Byte} (hl : l.length = 129)
    (hrxb : s.rxb = m.storeEach 0 l) : rxVersion s = verDecode (l.drop 125) := by
  have hread := Memory.read_storeEach m 0 l
  rw [hl, show 129 = 125 + 4 from rfl, Memory.read_append] at hread
  have hversion := congrArg (List.drop 125) hread
  rw [List.drop_left' (Memory.read_length ..)] at hversion
  rw [rxVersion, hrxb, ← hversion]
  rfl

/-- A response has the bytes it was received with. -/
theorem State.get_of_received {m : Memory} {l : List Byte} {k : Nat} (hl : l.length = 129) (hk : k < 129)
    (hrxb : s.rxb = m.storeEach 0 l) : s.rxb.get k = l.getD k 0#8 := by
  have hget := (Memory.stored_storeEach m 0 l).1 k (by omega)
  rwa [Nat.zero_add, ← hrxb] at hget

/-- The handshake response, received and compared (R161, R210). -/
theorem State.reaches_matched {l : List Byte} (hx : s.env.rx = .bytes l :: rx) (hl : l.length = 129)
    (h : ∀ n, n < 125 → l.getD n 0#8 = rxhByte s.cfg n) :
    (s.setPhase (.exec i ret (.recv Config.hsRxLen Config.tHsMs .handshake :: .hsCompare :: todo))).Reaches
      ((s.afterReceive 129 2000 l rx).setPhase (.exec i ret todo)) := by
  have heard := reaches_receive (i := i) (ret := ret) (n := Config.hsRxLen) (t := Config.tHsMs) (k := .handshake)
    (todo := .hsCompare :: todo) hx
  rw [deliver_bytes (n := Config.hsRxLen) hl] at heard
  refine heard.trans (.act (a := .hsCompare) rfl (congrArg some (hsCompare_eq ?_ fun j hj => ?_)))
  · show 129 ≤ (BitVec.ofNat 32 l.length).toNat
    rw [hl]
    decide
  · exact (get_of_received hl (by omega) rfl).trans (h j hj)

/-- The handshake response that first differs at byte k (R161, R210). -/
theorem State.reaches_differs {l : List Byte} {k : Nat} (hx : s.env.rx = .bytes l :: rx) (hl : l.length = 129)
    (hk : k < 125) (h : ∀ j, j < k → l.getD j 0#8 = rxhByte s.cfg j) (hne : l.getD k 0#8 ≠ rxhByte s.cfg k) :
    (s.setPhase (.exec i ret (.recv Config.hsRxLen Config.tHsMs .handshake :: .hsCompare :: todo))).Reaches
      (((s.afterReceive 129 2000 l rx).setPhase (.exec i ret todo)).raise .handshakeMismatch .handshakeRx
        (BitVec.ofNat 32 k)) := by
  have heard := reaches_receive (i := i) (ret := ret) (n := Config.hsRxLen) (t := Config.tHsMs) (k := .handshake)
    (todo := .hsCompare :: todo) hx
  rw [deliver_bytes (n := Config.hsRxLen) hl] at heard
  refine heard.trans (.act (a := .hsCompare) rfl (congrArg some (hsCompare_diff ?_ hk (fun j hj => ?_) ?_)))
  · show 129 ≤ (BitVec.ofNat 32 l.length).toNat
    rw [hl]
    decide
  · exact (get_of_received hl (by omega) rfl).trans (h j hj)
  · rw [get_of_received hl (by omega) rfl]
    exact hne

/-- The receive of the handshake response fails (R161, R210). -/
theorem State.reaches_failedResponse (hx : s.env.rx = .ioErr :: rx) :
    (s.setPhase (.exec i ret (.recv Config.hsRxLen Config.tHsMs .handshake :: todo))).Reaches
      (((s.afterReceive 129 2000 [] rx).setPhase (.exec i ret todo)).raise .connectionIo .handshakeRx 0#32) :=
  reaches_receive hx

/-- No handshake response (R161, R210). -/
theorem State.reaches_noResponse (hx : s.env.rx = .timeout :: rx) :
    (s.setPhase (.exec i ret (.recv Config.hsRxLen Config.tHsMs .handshake :: .hsCompare :: todo))).Reaches
      (((s.afterReceive 129 2000 [] rx).setPhase (.exec i ret todo)).raise .handshakeMismatch .handshakeRx
        noAnswer) :=
  .trans (reaches_receive hx) (.act (a := .hsCompare) rfl (congrArg some (hsCompare_few (Nat.zero_lt_succ 128))))

/-- Version 1 is written and accepted (R160, R161). -/
theorem State.reaches_versionOk (h : rxVersion s = 1#8) :
    (s.setPhase (.exec i ret (.hsVersion :: .hsAccept :: todo))).Reaches
      ((s.setVersion 1#8).setPhase (.exec i ret todo)) := by
  refine .trans (t := (s.setVersion 1#8).setPhase (.exec i ret (.hsAccept :: todo))) (.act rfl ?_)
    (.act rfl (congrArg some (if_pos rfl)))
  rw [← h]
  rfl

/-- Another version is written, and ends the load (R161). -/
theorem State.reaches_badVersion {v : Byte} (hv : rxVersion s = v) (hne : v ≠ 1#8) :
    (s.setPhase (.exec i ret (.hsVersion :: .hsAccept :: todo))).Reaches
      (((s.setVersion v).setPhase (.exec i ret todo)).raise .versionMismatch .version (v.setWidth 32)) :=
  hv ▸ .trans (t := (s.setVersion (rxVersion s)).setPhase (.exec i ret (.hsAccept :: todo))) (.act rfl rfl)
    (.act rfl (congrArg some (if_neg (hv ▸ hne))))

/-! ### SlowLoad (R210) -/

/-- The steps of SlowLoad after its handshake (R210). -/
def versionActs (lt : LoadType) (a : Nat) : List Act :=
  .sstate .handshakeVerified :: .hsVersion :: .hsAccept :: .sstate .versionVerified ::
    (ackActs (ackSteps lt) ++ [.sstate .done, .slowEnd a])

/-- The steps of SlowLoad (R210). -/
theorem slowLoadActs_eq (packet : List Byte) (lt : LoadType) (a : Nat) :
    slowLoadActs packet lt a = .clearPkt :: .append packet :: .connReset :: .sstate .reset :: .sendPkt ::
      .sstate .handshakeSent :: .recv Config.hsRxLen Config.tHsMs .handshake :: .hsCompare :: versionActs lt a := by
  cases lt <;> rfl

/-- What the steps of SlowLoad have changed so far (R210, R211). -/
def State.afterSlow (q : SState) (version : Byte) (pkt : Memory) (pktlen : Word) (rxb : Memory) (rxcnt : Word)
    (st : List IoStatus) (rx : List RxAnswer) (made : List ConnCall) (s : State) : State :=
  { s with
    sstate := q
    version := version
    pkt := pkt
    pktlen := pktlen
    rxb := rxb
    rxcnt := rxcnt
    env := { s.env with status := st, rx := rx }
    calls := s.calls ++ made }

/-- SlowLoad up to the packet sent (R210). -/
def State.afterSent (packet : List Byte) (st : List IoStatus) (s : State) : State :=
  s.afterSlow .handshakeSent s.version (s.pkt.store 0 packet) (BitVec.ofNat 32 packet.length) s.rxb s.rxcnt st s.env.rx
    [.reset, .send packet]

/-- SlowLoad up to its response (R210). -/
def State.afterHeard (packet l : List Byte) (st : List IoStatus) (rx : List RxAnswer) (s : State) : State :=
  s.afterSlow .handshakeSent s.version (s.pkt.store 0 packet) (BitVec.ofNat 32 packet.length) (s.rxb.storeEach 0 l)
    (BitVec.ofNat 32 l.length) st rx [.reset, .send packet, .recv 129 2000]

/-- SlowLoad up to its version (R210). -/
def State.afterVersion (packet l : List Byte) (st : List IoStatus) (rx : List RxAnswer) (s : State) : State :=
  s.afterSlow .versionVerified 1#8 (s.pkt.store 0 packet) (BitVec.ofNat 32 packet.length) (s.rxb.storeEach 0 l) 129#32
    st rx [.reset, .send packet, .recv 129 2000]

section

variable {lt : LoadType} {a : Nat} {packet : List Byte} (hpacket : packet = romPacket s.cfg lt s.image)
include hpacket

/-- SlowLoad starts with SSTATE Idle (R210). -/
theorem State.reaches_slowStart :
    (s.setPhase (.exec i ret (.slowLoad lt a :: todo))).Reaches
      ((s.setSState .idle).setPhase (.exec i ret (slowLoadActs packet lt a ++ todo))) :=
  hpacket ▸ .act rfl rfl

variable (hfit : packet.length ≤ s.cfg.pktCapacity.toNat)
include hfit

/-- SlowLoad up to its packet (R210). -/
theorem State.reaches_slowBuilt :
    (s.setPhase (.exec i ret (.slowLoad lt a :: todo))).Reaches
      (((s.setSState .idle).withPacket packet).setPhase (.exec i ret (.connReset :: .sstate .reset :: .sendPkt ::
        .sstate .handshakeSent :: .recv Config.hsRxLen Config.tHsMs .handshake :: .hsCompare ::
        (versionActs lt a ++ todo)))) := by
  refine (reaches_slowStart hpacket).trans ?_
  rw [slowLoadActs_eq]
  exact reaches_built hfit

/-- The packet is sent (R210). -/
theorem State.reaches_slowSent (hs : s.env.status = .ok :: .ok :: st) :
    (s.setPhase (.exec i ret (.slowLoad lt a :: todo))).Reaches
      ((s.afterSent packet st).setPhase (.exec i ret (.recv Config.hsRxLen Config.tHsMs .handshake :: .hsCompare ::
        (versionActs lt a ++ todo)))) :=
  (reaches_slowBuilt hpacket hfit).trans
    (reaches_packetSent (s := (s.setSState .idle).withPacket packet) (withPacket_packet hfit) hs)

/-- The response is the expected one (R161, R210). -/
theorem State.reaches_slowMatched {l : List Byte} (hs : s.env.status = .ok :: .ok :: st)
    (hx : s.env.rx = .bytes l :: rx) (hl : l.length = 129) (h : ∀ n, n < 125 → l.getD n 0#8 = rxhByte s.cfg n) :
    (s.setPhase (.exec i ret (.slowLoad lt a :: todo))).Reaches
      ((s.afterHeard packet l st rx).setPhase (.exec i ret (versionActs lt a ++ todo))) := by
  have hmatched := reaches_matched (s := s.afterSent packet st) (i := i) (ret := ret)
    (todo := versionActs lt a ++ todo) hx hl h
  refine (reaches_slowSent hpacket hfit hs).trans (hmatched.trans ?_)
  simp only [afterReceive, afterSent, afterSlow, List.append_assoc]
  exact .refl _

/-- The response carries version 1 (R160, R210). -/
theorem State.reaches_slowVerified {l : List Byte} (hs : s.env.status = .ok :: .ok :: st)
    (hx : s.env.rx = .bytes l :: rx) (h : goodResponse s.cfg l) :
    (s.setPhase (.exec i ret (.slowLoad lt a :: todo))).Reaches ((s.afterVersion packet l st rx).setPhase
      (.exec i ret (ackActs (ackSteps lt) ++ .sstate .done :: .slowEnd a :: todo))) := by
  obtain ⟨hl, hmatch, hversion⟩ := h
  have hread : rxVersion (s.afterHeard packet l st rx) = 1#8 := (rxVersion_of_received hl rfl).trans hversion
  have hok := reaches_versionOk (s := (s.afterHeard packet l st rx).setSState .handshakeVerified) (i := i) (ret := ret)
    (todo := .sstate .versionVerified :: (ackActs (ackSteps lt) ++ [.sstate .done, .slowEnd a] ++ todo)) hread
  refine (reaches_slowMatched hpacket hfit hs hx hl hmatch).trans ((reaches_sstate _).trans (hok.trans
    ((reaches_sstate _).trans ?_)))
  rw [List.append_assoc]
  simp only [afterHeard, hl]
  exact .refl _

end

/-- SlowLoad succeeds when every acknowledgement comes within its budget (R205, R208, R210). -/
theorem State.reaches_slowDone {lt : LoadType} {a : Nat} {packet l : List Byte} {acked : List Nat}
    (hpacket : packet = romPacket s.cfg lt s.image) (hfit : packet.length ≤ s.cfg.pktCapacity.toNat)
    (hgood : goodResponse s.cfg l) (hacked : ackedAt acked (ackBudgets lt packet s.baud))
    (hall : acked.length = (ackSteps lt).length)
    (hs : s.env.status = .ok :: .ok :: (List.replicate acked.sum .ok ++ st))
    (hx : s.env.rx = .bytes l :: (acked.flatMap ackAtPoll ++ rx)) :
    ∃ m, Memory.Received (s.rxb.storeEach 0 l) m (acked.map fun _ => [0xFE#8]) ∧
      (s.setPhase (.exec i ret (.slowLoad lt a :: todo))).Reaches ((s.afterSlow .done 1#8 (s.pkt.store 0 packet)
        (BitVec.ofNat 32 packet.length) m 1#32 st rx ([.reset, .send packet, .recv 129 2000] ++
          acked.flatMap (pollCalls s.cfg))).setPhase (.exec i (BitVec.ofNat 32 a) todo)) := by
  have hlen := toNat_length_of_fit hfit
  rw [ackBudgets_eq, ← hlen] at hacked
  obtain ⟨m, q, ret', hm, hacks⟩ := reaches_acks acked (i := i) (ret := ret)
    (todo := .sstate .done :: .slowEnd a :: todo) (st := st) (rx := rx)
    (s := s.afterVersion packet l (List.replicate acked.sum .ok ++ st) (acked.flatMap ackAtPoll ++ rx)) hacked rfl rfl
  rw [hall, List.drop_length] at hacks
  have hne : acked ≠ [] := List.ne_nil_of_length_pos (hall ▸ Nat.zero_lt_succ _)
  refine ⟨m, hm, (reaches_slowVerified hpacket hfit hs hx hgood).trans (hacks.trans ((reaches_sstate _).trans
    (.act rfl ?_)))⟩
  simp only [Act.run, afterAcks, afterVersion, afterSlow, setSState, if_neg hne, List.append_assoc]
  rfl

/-! ### How SlowLoad fails (R210) -/

/-- Inside SlowLoad an error is the same wherever it is raised (R285). -/
theorem State.raise_toSlowEnd {todo' : List Act} {a : Nat} {c : ErrCode} {stage : Stage} {info : Word}
    (h : enclosingSlow todo' = some (a, todo)) : (s.setPhase (.exec i ret todo')).raise c stage info =
      (s.setPhase (.exec i ret (.slowEnd a :: todo))).raise c stage info :=
  raise_of_enclosingSlow c stage info h

/-- SlowLoad ends after its version and its acknowledgements (R210). -/
theorem enclosingSlow_versionActs (lt : LoadType) (a : Nat) (todo : List Act) :
    enclosingSlow (versionActs lt a ++ todo) = some (a, todo) :=
  (congrArg enclosingSlow (List.append_assoc ..)).trans
    (enclosingSlow_ackActs (ackSteps lt) (.sstate .done :: .slowEnd a :: todo))

/-- The stage at which an acknowledgement fails is that of its step (R208). -/
theorem report_ack {lt : LoadType} {acked : List Nat} {b : AckStep} (hb : (ackSteps lt)[acked.length]? = some b)
    (l packet : List Byte) (k : Nat) (g : AckFailure) :
    (SlowFailure.ack l acked k g).report packet = g.report b.stage k := by
  have hstage : b.stage = match acked.length with
      | 0 => .checksumAck
      | 1 => .eepromProgramAck
      | _ => .eepromVerifyAck := by
    have hall : ackSteps lt <+: ackSteps .programRun := by
      cases lt with
      | shutdown | run => exact List.take_prefix 1 (ackSteps .programRun)
      | programShutdown | programRun => exact List.prefix_rfl
    obtain ⟨hlt, rfl⟩ := List.getElem?_eq_some_iff.1 hb
    rw [hall.getElem hlt]
    have hlen : acked.length < 3 := hlt.trans_le hall.length_le
    interval_cases acked.length <;> rfl
  rw [hstage]
  rfl

section

variable {lt : LoadType} {a : Nat} {packet : List Byte} (hpacket : packet = romPacket s.cfg lt s.image)
include hpacket

/-- SlowLoad whose acknowledgement fails, after those at the polls `acked` (R205, R208). -/
theorem State.reaches_slowAckFailure {l : List Byte} {acked : List Nat} {k : Nat} {g : AckFailure}
    (hposs : (SlowFailure.ack l acked k g).possible s.cfg lt packet s.baud)
    (hs : s.env.status = (SlowFailure.ack l acked k g).statuses ++ st)
    (hx : s.env.rx = (SlowFailure.ack l acked k g).answers ++ rx) :
    ∃ m q ret', Memory.Received s.rxb m (SlowFailure.ack l acked k g).received ∧
      (s.setPhase (.exec i ret (.slowLoad lt a :: todo))).Reaches (((s.afterSlow q 1#8 (s.pkt.store 0 packet)
        (BitVec.ofNat 32 packet.length) m (g.count k (if acked = [] then 129#32 else 1#32)) st rx
        ((SlowFailure.ack l acked k g).calls s.cfg packet)).setPhase (.exec i ret' (.slowEnd a :: todo))).raise
          ((SlowFailure.ack l acked k g).report packet).1 ((SlowFailure.ack l acked k g).report packet).2.1
          ((SlowFailure.ack l acked k g).report packet).2.2) := by
  obtain ⟨hfit, hgood, hacked, ⟨stage, polls⟩, hb, hposs⟩ := hposs
  simp only [SlowFailure.statuses, SlowFailure.answers, List.append_assoc, List.cons_append, List.nil_append] at hs hx
  rw [ackBudgets_eq, List.getElem?_map, Option.map_eq_some_iff] at hb
  obtain ⟨b, hb, heq⟩ := hb
  obtain ⟨rfl, rfl⟩ := Prod.mk.inj heq
  obtain ⟨hlt, hget⟩ := List.getElem?_eq_some_iff.1 hb
  have hlen := toNat_length_of_fit hfit
  rw [ackBudgets_eq, ← hlen] at hacked
  rw [← hlen] at hposs
  obtain ⟨m, q, ret', hm, hacks⟩ := reaches_acks acked (i := i) (ret := ret)
    (todo := .sstate .done :: .slowEnd a :: todo) (st := g.statuses k ++ st) (rx := g.answers k ++ rx)
    (s := s.afterVersion packet l (List.replicate acked.sum .ok ++ (g.statuses k ++ st))
      (acked.flatMap ackAtPoll ++ (g.answers k ++ rx))) hacked rfl rfl
  rw [List.drop_eq_getElem_cons hlt, hget] at hacks
  obtain ⟨m', hm', hfail⟩ := reaches_ackFailure (i := i) (ret := ret') (bc := b.bc) (extra := b.extra)
    (stage := b.stage) (g := g) (k := k) (st := st) (rx := rx)
    (todo := ackActs ((ackSteps lt).drop (acked.length + 1)) ++ .sstate .done :: .slowEnd a :: todo)
    (s := ((s.afterVersion packet l (List.replicate acked.sum .ok ++ (g.statuses k ++ st))
      (acked.flatMap ackAtPoll ++ (g.answers k ++ rx))).afterAcks acked q m (g.statuses k ++ st)
        (g.answers k ++ rx)).setSState b.sstate) hposs rfl rfl
  refine ⟨m', b.sstate, ret', ?_, (reaches_slowVerified hpacket hfit hs hx hgood).trans (hacks.trans
    ((reaches_sstate _).trans (hfail.trans (.of_eq ?_))))⟩
  · have hall := (Memory.received_of_stored (Memory.stored_storeEach s.rxb 0 l)).append (hm.append hm')
    cases g <;> exact hall
  · rw [raise_toSlowEnd (enclosingSlow_ackActs _ (.sstate .done :: .slowEnd a :: todo)), report_ack hb]
    simp only [afterAcks, afterVersion, afterSlow, setSState, SlowFailure.calls, List.append_assoc]

/-- Every way SlowLoad fails raises its report, with what the steps before left (R210, R211). -/
theorem State.reaches_slowFailure {f : SlowFailure} (hposs : f.possible s.cfg lt packet s.baud)
    (hs : s.env.status = f.statuses ++ st) (hx : s.env.rx = f.answers ++ rx) :
    ∃ m m₁ q ret', (f = .overflow → m = s.pkt) ∧ (f ≠ .overflow → Memory.Stored s.pkt m 0 packet) ∧
      Memory.Received s.rxb m₁ f.received ∧
      (s.setPhase (.exec i ret (.slowLoad lt a :: todo))).Reaches (((s.afterSlow q (f.version s.version) m
        (f.pktlen packet) m₁ (f.count s.rxcnt) st rx (f.calls s.cfg packet)).setPhase
          (.exec i ret' (.slowEnd a :: todo))).raise (f.report packet).1 (f.report packet).2.1
            (f.report packet).2.2) := by
  have hstored := Memory.stored_store s.pkt 0 packet
  have henc := enclosingSlow_versionActs lt a todo
  cases f with
  | overflow =>
    obtain rfl : s.env.status = st := hs
    obtain rfl : s.env.rx = rx := hx
    have hbuild := reaches_overflow (s := s.setSState .idle) (i := i) (ret := ret)
      (todo := .connReset :: .sstate .reset :: .sendPkt :: .sstate .handshakeSent ::
        .recv Config.hsRxLen Config.tHsMs .handshake :: .hsCompare :: (versionActs lt a ++ todo)) hposs
    refine ⟨s.pkt, s.rxb, .idle, ret, fun _ => rfl, fun h => absurd rfl h, fun _ => rfl,
      (reaches_slowStart hpacket).trans ?_⟩
    simp only [slowLoadActs_eq, List.cons_append]
    refine hbuild.trans (.of_eq ((raise_toSlowEnd (by exact henc)).trans ?_))
    simp only [afterSlow, SlowFailure.calls, List.append_nil]
    rfl
  | resetFails =>
    obtain rfl : s.env.rx = rx := hx
    exact ⟨_, s.rxb, .idle, ret, nofun, fun _ => hstored, fun _ => rfl, (reaches_slowBuilt hpacket hposs).trans
      ((reaches_resetIoErr (s := (s.setSState .idle).withPacket packet) (st := st) hs).trans
        (.of_eq (raise_toSlowEnd (by exact henc))))⟩
  | sendFails =>
    obtain rfl : s.env.rx = rx := hx
    have hreset := reaches_resetOk (s := (s.setSState .idle).withPacket packet) (st := .ioErr :: st) (i := i)
      (ret := ret) (todo := .sstate .reset :: .sendPkt :: .sstate .handshakeSent ::
        .recv Config.hsRxLen Config.tHsMs .handshake :: .hsCompare :: (versionActs lt a ++ todo)) hs
    have hsend := reaches_packetIoErr (st := st) (i := i) (ret := ret)
      (s := ((((s.setSState .idle).withPacket packet).call .reset).setStatus (.ioErr :: st)).setSState .reset)
      (todo := .sstate .handshakeSent :: .recv Config.hsRxLen Config.tHsMs .handshake :: .hsCompare ::
        (versionActs lt a ++ todo)) (withPacket_packet hposs) rfl
    refine ⟨_, s.rxb, .reset, ret, nofun, fun _ => hstored, fun _ => rfl, (reaches_slowBuilt hpacket hposs).trans
      (hreset.trans ((reaches_sstate _).trans (hsend.trans (.of_eq ((raise_toSlowEnd (by exact henc)).trans ?_)))))⟩
    simp only [withPacket, call, setStatus, setSState, List.append_assoc]
    rfl
  | recvFails =>
    have hrecv := reaches_failedResponse (s := s.afterSent packet st) (i := i) (ret := ret) (rx := rx)
      (todo := .hsCompare :: (versionActs lt a ++ todo)) hx
    refine ⟨_, s.rxb, .handshakeSent, ret, nofun, fun _ => hstored, fun _ => rfl,
      (reaches_slowSent hpacket hposs hs).trans (hrecv.trans (.of_eq ((raise_toSlowEnd (by exact henc)).trans ?_)))⟩
    simp only [afterReceive, afterSent, afterSlow, List.append_assoc]
    rfl
  | noResponse =>
    have hrecv := reaches_noResponse (s := s.afterSent packet st) (i := i) (ret := ret) (rx := rx)
      (todo := versionActs lt a ++ todo) hx
    refine ⟨_, s.rxb, .handshakeSent, ret, nofun, fun _ => hstored, fun _ => rfl,
      (reaches_slowSent hpacket hposs hs).trans (hrecv.trans (.of_eq ((raise_toSlowEnd (by exact henc)).trans ?_)))⟩
    simp only [afterReceive, afterSent, afterSlow, List.append_assoc]
    rfl
  | differs l k =>
    obtain ⟨hfit, hl, hk, hsame, hne⟩ := hposs
    have hrecv := reaches_differs (s := s.afterSent packet st) (i := i) (ret := ret) (rx := rx)
      (todo := versionActs lt a ++ todo) hx hl hk hsame hne
    refine ⟨_, _, .handshakeSent, ret, nofun, fun _ => hstored,
      Memory.received_of_stored (Memory.stored_storeEach s.rxb 0 l), (reaches_slowSent hpacket hfit hs).trans
        (hrecv.trans (.of_eq ((raise_toSlowEnd (by exact henc)).trans ?_)))⟩
    simp only [afterReceive, afterSent, afterSlow, List.append_assoc, hl]
    rfl
  | badVersion l =>
    obtain ⟨hfit, hl, hmatch, hversion⟩ := hposs
    have hread := rxVersion_of_received (s := (s.afterHeard packet l st rx).setSState .handshakeVerified) hl rfl
    have hbad := reaches_badVersion (s := (s.afterHeard packet l st rx).setSState .handshakeVerified) (i := i)
      (ret := ret) (todo := .sstate .versionVerified :: (ackActs (ackSteps lt) ++ [.sstate .done, .slowEnd a] ++ todo))
      hread hversion
    refine ⟨_, _, .handshakeVerified, ret, nofun, fun _ => hstored,
      Memory.received_of_stored (Memory.stored_storeEach s.rxb 0 l),
      (reaches_slowMatched hpacket hfit hs hx hl hmatch).trans ((reaches_sstate _).trans (hbad.trans
        (.of_eq ((raise_toSlowEnd (by exact henc)).trans ?_))))⟩
    simp only [afterHeard, afterSlow, hl]
    rfl
  | ack l acked k g =>
    obtain ⟨m₁, q, ret', hm₁, hreach⟩ := reaches_slowAckFailure (i := i) (ret := ret) (a := a) (todo := todo)
      hpacket hposs hs hx
    exact ⟨_, m₁, q, ret', nofun, fun _ => hstored, hm₁, hreach⟩

end

/-! ### ROM.LOAD (R210) -/

/-- An error of the last attempt ends the command with SSTATE Failed (R241, R285). -/
theorem State.raise_lastAttempt {a : Nat} (c : ErrCode) (stage : Stage) (info : Word)
    (h : ¬(i = .fastBegin ∧ a < s.cfg.nStage2Attempts)) :
    (s.setPhase (.exec i ret (.slowEnd a :: todo))).raise c stage info =
      ((s.setSState .failed).markFast i).report c stage info := by
  rw [raise, setPhase_phase]
  refine (if_neg h).trans ?_
  unfold markFast
  split <;> rfl

section

variable {lt : LoadType}

/-- No LT 0 (R92). -/
theorem exec_romLoad_shutdown (s : State) :
    exec (.romLoad .shutdown) s = launch (.romLoad .shutdown) [.reject .operandError 0#32] s :=
  rfl

variable (hlt : lt ≠ .shutdown)
include hlt

/-- An image without a word count, or past IMG_MEM_SIZE, fails the second check (R204, R210). -/
theorem exec_romLoad_image (h : s.imgsize.toNat % 4 ≠ 0 ∨ s.cfg.imgMemSize < s.imgsize.toNat) :
    exec (.romLoad lt) s = launch (.romLoad lt) [.reject .operandError s.imgsize] s := by
  rw [exec, execRomLoad, if_neg (legalLoadType_of_ne hlt), if_pos (by simpa [badRomImage] using h)]
  rfl

variable (hcount : s.imgsize.toNat % 4 = 0) (himg : s.imgsize.toNat ≤ s.cfg.imgMemSize)
include hcount himg

/-- No baud rate fails the third (R205, R210). -/
theorem exec_romLoad_baud (h : s.baud = 0#32) :
    exec (.romLoad lt) s = launch (.romLoad lt) [.reject .operandError 0#32] s := by
  rw [exec, execRomLoad, if_neg (legalLoadType_of_ne hlt), if_neg (by simp [badRomImage, hcount, himg]), if_pos h]
  rfl

/-- ROM.LOAD after its checks (R210). -/
theorem exec_romLoad (h : s.baud ≠ 0#32) :
    exec (.romLoad lt) s = launch (.romLoad lt) [.slowLoad lt 1] s := by
  rw [exec, execRomLoad, if_neg (legalLoadType_of_ne hlt), if_neg (by simp [badRomImage, hcount, himg]), if_neg h]

end

end

/-- Receives of the same byte leave what one of them leaves (R63). -/
theorem Memory.stored_of_received {m m' : Memory} {b : Byte} (acked : List Nat) (hne : acked ≠ [])
    (h : Memory.Received m m' (acked.map fun _ => [b])) : Memory.Stored m m' 0 [b] := by
  have hfold (x : Nat) : ∀ (l : List Nat) (c : Byte), (l.map fun _ => [b]).foldl
      (fun c l => if x < l.length then l.getD x 0#8 else c) c = if x = 0 ∧ l ≠ [] then b else c := by
    intro l
    induction l with
    | nil => simp
    | cons k l ih =>
      intro c
      rw [List.map_cons, List.foldl_cons, ih]
      cases x <;> simp
  simp only [Memory.Received, hfold] at h
  refine ⟨fun k hk => ?_, fun x hx => ?_⟩
  · obtain rfl : k = 0 := by simpa using hk
    simpa [hne] using h 0
  · rw [h, if_neg]
    rintro ⟨rfl, -⟩
    simp at hx

theorem ackedAt_nil {budgets : List (Stage × Nat)} : ackedAt [] budgets := ⟨Nat.zero_le _, nofun⟩

/-- An acknowledgement within the first budget, and others within the others (R205). -/
theorem ackedAt_cons {k n : Nat} {stage : Stage} {acked : List Nat} {budgets : List (Stage × Nat)} (hpos : 1 ≤ k)
    (hk : k ≤ n) (h : ackedAt acked budgets) : ackedAt (k :: acked) ((stage, n) :: budgets) := by
  obtain ⟨hlen, hwithin⟩ := h
  refine ⟨Nat.succ_le_succ hlen, fun m j hj => ?_⟩
  cases m with
  | zero =>
    obtain rfl : k = j := Option.some.inj hj
    exact ⟨hpos, fun b hb => Option.some.inj hb ▸ hk⟩
  | succ m => exact hwithin m j hj

/-- The polls of the acknowledgements a LoadType asks for: one, or three with EEPROM programming (R208). -/
def ackPolls (lt : LoadType) (i j k : Nat) : List Nat := i :: if needsEeprom lt then [j, k] else []

theorem ackPolls_length (lt : LoadType) (i j k : Nat) : (ackPolls lt i j k).length = (ackSteps lt).length := by
  cases lt <;> rfl

theorem ackPolls_sum (lt : LoadType) (i j k : Nat) :
    (ackPolls lt i j k).sum = i + if needsEeprom lt then j + k else 0 := by
  cases lt <;> rfl

theorem ackPolls_flatMap {α : Type} (lt : LoadType) (i j k : Nat) (f : Nat → List α) :
    (ackPolls lt i j k).flatMap f = f i ++ if needsEeprom lt then f j ++ f k else [] := by
  cases lt <;> simp [ackPolls, needsEeprom]

/-- Settles O38: one acknowledgement, or three with EEPROM programming, each within its budget. -/
theorem romLoadSucceeds : Obligations.RomLoadSucceeds := by
  refine ⟨needsEeprom_iff, fun s lt packet l i j k st rx hw hlt hcount himg hbaud hpacket hfit hi hi' hj hj' hk hk'
    hl hmatch hversion hs hx => ?_⟩
  have hacked : ackedAt (ackPolls lt i j k) (ackBudgets lt packet s.baud) := by
    unfold ackPolls ackBudgets
    split
    · exact ackedAt_cons hi hi' (ackedAt_cons hj hj' (ackedAt_cons hk hk' ackedAt_nil))
    · exact ackedAt_cons hi hi' ackedAt_nil
  rw [Nat.add_assoc, ← ackPolls_sum, Nat.add_comm] at hs
  rw [← ackPolls_flatMap] at hx
  obtain ⟨m, hm, hreach⟩ := reaches_slowDone (s := s.start (.romLoad lt) []) (i := .romLoad lt) (ret := 0#32)
    (todo := []) (a := 1) (st := st) (rx := rx) hpacket hfit ⟨hl, hmatch, hversion⟩ hacked (ackPolls_length ..) hs
    hx
  refine ⟨_, _, m, Memory.stored_store s.pkt 0 packet, Memory.stored_storeEach s.rxb 0 l,
    Memory.stored_of_received _ (List.cons_ne_nil _ _) hm,
    (exec_of_reaches (exec_romLoad hlt hcount himg hbaud) hw (hreach.trans (.finish rfl)) rfl).trans ?_⟩
  simp only [afterSlow, start, ackPolls_flatMap, List.append_assoc]
  rfl

/-- Settles O39: the checks in their order, and SlowLoad failing in each way. -/
theorem romLoadStopsAtAMismatch : Obligations.RomLoadStopsAtAMismatch := by
  refine ⟨needsEeprom_iff, fun s lt hw => ⟨fun hlt => ?_, fun hlt h => ?_, fun hlt hcount himg => ⟨fun h => ?_,
    fun hbaud packet f st rx hpacket hposs hs hx => ?_⟩⟩⟩
  · subst hlt
    exact exec_reject hw (exec_romLoad_shutdown s)
  · exact exec_reject hw (exec_romLoad_image hlt h)
  · exact exec_reject hw (exec_romLoad_baud hlt hcount himg h)
  · obtain ⟨m, m₁, q, ret, hsame, hstored, hm₁, hreach⟩ := reaches_slowFailure (s := s.start (.romLoad lt) [])
      (i := .romLoad lt) (ret := 0#32) (todo := []) (a := 1) hpacket hposs hs hx
    rw [raise_lastAttempt _ _ _ (by simp)] at hreach
    exact ⟨m, m₁, hsame, hstored, hm₁, exec_of_reaches (exec_romLoad hlt hcount himg hbaud) hw hreach rfl⟩

end Sys2Proof.Machine
end

section
/-! PROOFS. The Connection calls of a command are bounded (R322): each step still to do is charged for the calls that it
and the steps it puts in front can make, and what is spent and still charged stays within the command's bound. -/

namespace Sys2Proof.Machine

open State

/-! ### What the calls of a command depend on -/

/-- The registers and the space that the number of calls depends on (R205, R210). -/
structure CallView where
  img : Memory
  pktlen : Nat
  baud : Word

def State.callView (s : State) : CallView := ⟨s.img, s.pktlen.toNat, s.baud⟩

/-- What the charges are for: the parameters, IMGSIZE, the attempts of the second stage, and the packet length and the
baud rate at which acknowledgements are awaited. -/
structure CallBudget where
  cfg : Params
  imgsize : Nat
  attempts : Nat
  length : Nat
  baud : Word

namespace CallBudget

variable (b : CallBudget)

/-- The polls of an AckPoll (R205). -/
def polls (bc : Option Nat) (extra : Nat) : Nat := pollCount (bc.getD b.length) extra b.baud

/-- The most calls of one SlowLoad (R322). -/
def slowBound (lt : LoadType) : Nat := 3 + 2 * ((ackSteps lt).map fun a => b.polls a.bc a.extra).sum

/-- The packet of SlowLoad and the baud rate are those of the budget (R210). -/
def fits (lt : LoadType) (v : CallView) : Prop :=
  (romPacket b.cfg lt (v.img.read 0 b.imgsize)).length = b.length ∧ v.baud = b.baud

end CallBudget

/-- The calls of the polls or attempts that can follow an answer (R205, R232). -/
def RxUse.charge : RxUse → Nat
  | .poll i n _ => 2 * (n - i)
  | .response _ a => 2 * (3 - a)
  | .raw => 0
  | .handshake => 0
  | .ready => 0

/-- The calls that a step and those it puts in front of the others can make (R322). The attempts of the second stage
after the a-th (R241) are charged at the end of the a-th. -/
def Act.charge (b : CallBudget) : Act → Nat
  | .send _ _ => 1
  | .sendPkt => 1
  | .connReset => 1
  | .setBaud _ => 1
  | .recv _ _ k => 1 + k.charge
  | .heard _ k => k.charge
  | .answered _ k => k.charge
  | .xmit x a => if x.resp then 2 + 2 * (3 - a) else 1
  | .ackPoll bc extra _ => 2 * b.polls bc extra
  | .slowLoad lt a => b.slowBound lt + b.slowBound .run * (b.attempts - a)
  | .slowEnd a => b.slowBound .run * (b.attempts - a)
  | .chunk _ size pos _ => 6 * ((size - pos + 1023) / 1024)
  | _ => 0

/-- The charges of the steps still to do. -/
def CallBudget.charges (b : CallBudget) (todo : List Act) : Nat := (todo.map (Act.charge b)).sum

/-- At a step the registers are what its charge presumes, and they will be for the steps after it. IMG and BAUD do not
change inside SlowLoad, and what follows SlowLoad does not depend on PKTLEN. -/
def Act.foreseen (b : CallBudget) (a : Act) (todo : List Act) (after : CallView → Prop) (v : CallView) : Prop :=
  match a with
  | .imgByte off x => enclosingSlow todo = none ∧ after { v with img := v.img.store off [x] }
  | .clearPkt => after { v with pktlen := 0 }
  | .append l => after { v with pktlen := v.pktlen + l.length }
  | .set .baud val => ∃ r, val = .const r ∧ enclosingSlow todo = none ∧ after { v with baud := r }
  | .setBaud r => enclosingSlow todo = none ∧ after { v with baud := r }
  | .baudSet r => enclosingSlow todo = none ∧ after { v with baud := r }
  | .ackPoll bc _ _ => (bc.getD v.pktlen = bc.getD b.length ∧ v.baud = b.baud) ∧ after v
  | .slowLoad lt a => b.fits lt v ∧ (a < b.attempts → b.fits .run v) ∧ ∀ n, after { v with pktlen := n }
  | .slowEnd a => (a < b.attempts → b.fits .run v) ∧ ∀ n, after { v with pktlen := n }
  | _ => after v

/-- So at all steps still to do. -/
def CallBudget.foreseen (b : CallBudget) : List Act → CallView → Prop
  | [], _ => True
  | a :: todo, v => a.foreseen b todo (b.foreseen todo) v

variable {b : CallBudget}

/-- Inside SlowLoad everything is ready for another attempt and for what follows SlowLoad. -/
theorem CallBudget.foreseen_after {todo after : List Act} {a : Nat} {v : CallView}
    (hslow : enclosingSlow todo = some (a, after)) (h : b.foreseen todo v) :
    (a < b.attempts → b.fits .run v) ∧ ∀ n, b.foreseen after { v with pktlen := n } := by
  induction todo generalizing v with
  | nil => cases hslow
  | cons x todo ih =>
    have changed {p : Prop} (hx : enclosingSlow todo = none ∧ p) (hs : enclosingSlow todo = some (a, after)) :
        (a < b.attempts → b.fits .run v) ∧ ∀ n, b.foreseen after { v with pktlen := n } := by
      rw [hx.1] at hs
      cases hs
    cases x with
    | imgByte off y => exact changed h hslow
    | setBaud r => exact changed h hslow
    | baudSet r => exact changed h hslow
    | set r val =>
      cases r with
      | baud =>
        obtain ⟨r, -, hx⟩ := h
        exact changed hx hslow
      | _ => exact ih hslow h
    | clearPkt => exact ih (v := { v with pktlen := 0 }) hslow h
    | append l => exact ih (v := { v with pktlen := v.pktlen + l.length }) hslow h
    | ackPoll bc extra st => exact ih hslow h.2
    | slowLoad lt k => exact ih hslow (h.2.2 v.pktlen)
    | slowEnd k => cases hslow; exact h
    | _ => exact ih hslow h

/-- The attempts to come and what follows SlowLoad are among the charges. -/
theorem CallBudget.charges_after {todo after : List Act} {a : Nat} (hslow : enclosingSlow todo = some (a, after)) :
    b.slowBound .run * (b.attempts - a) + b.charges after ≤ b.charges todo := by
  obtain ⟨before, rfl⟩ := enclosingSlow_eq hslow
  simp only [charges, List.map_append, List.sum_append, List.map_cons, List.sum_cons, Act.charge]
  omega

/-! ### What one step spends -/

/-- What a step of a command spends of its charge: it goes on without a call, it puts steps in front whose charges and
its own calls are within its charge, or it raises an error without a call. -/
inductive Act.Spends (b : CallBudget) (a : Act) (s : State) : State → Prop
  | goesOn {u : State} (same : SameControl s u) (calls : u.calls = s.calls)
    (foreseen : ∀ todo, b.foreseen (a :: todo) s.callView → b.foreseen todo u.callView) : Spends b a s u
  | pushes {u : State} {l : List Act} {made : List ConnCall} (same : SameControl s u)
    (calls : u.calls = s.calls ++ made) (charge : made.length + b.charges l ≤ a.charge b)
    (foreseen : ∀ todo, b.foreseen (a :: todo) s.callView → b.foreseen (l ++ todo) u.callView) :
    Spends b a s (u.push l)
  | raises {u : State} {c : ErrCode} {st : Stage} {info : Word} (same : SameControl s u) (calls : u.calls = s.calls)
    (view : u.callView = s.callView) (slow : ∀ todo, enclosingSlow (a :: todo) = enclosingSlow todo) :
    Spends b a s (u.raise c st info)
  | rejects {c : ErrCode} {info : Word} : Spends b a s (s.report c .none info)

namespace Act.Spends

variable {a : Act} {s t : State}

/-- The return of ConnSend, ConnReset or ConnSetBaud. -/
theorem of_takeStatus {f : State → State} {c : ErrCode} {st : Stage} {info : Word}
    (h : takeStatus f (State.raise c st info) s = some t) (hf : ∀ l, Spends b a s (f (s.setStatus l)))
    (slow : ∀ todo, enclosingSlow (a :: todo) = enclosingSlow todo) : Spends b a s t := by
  unfold takeStatus at h
  split at h
  · cases h
  · cases h; exact hf _
  · cases h; exact .raises (s := s) (u := s.setStatus _) (.of_eq rfl) rfl rfl slow

/-- The next attempt of an exchange makes the calls that were charged for it (R232). -/
theorem of_xmitRetry (r : RxAnswer) (x : Exchange) (k : Nat) (last : Word) :
    Spends b (.answered r (.response x k)) s (xmitRetry x k last s) := by
  unfold xmitRetry
  split
  · refine .pushes (.refl s) (List.append_nil _).symm ?_ fun _ h => h
    have hk : k < 3 := ‹_›
    simp only [CallBudget.charges, Act.charge, RxUse.charge, List.map_cons, List.map_nil, List.sum_cons, List.sum_nil,
      List.length_nil]
    split <;> omega
  · exact .raises (.refl s) rfl rfl fun _ => rfl

/-- Going on with an answer (R205, R210, R232, R241, R264). -/
theorem of_answered (r : RxAnswer) (k : RxUse) : Spends b (.answered r k) s (k.act r s) := by
  have go : Spends b (.answered r k) s s := .goesOn (.refl s) rfl fun _ h => h
  have fails (c st info) : Spends b (.answered r k) s (s.raise c st info) := .raises (.refl s) rfl rfl fun _ => rfl
  have returns (v) : Spends b (.answered r k) s (s.setRet v) := .goesOn (.setRet v s) rfl fun _ h => h
  cases k with
  | raw => cases r with
    | bytes l => exact go
    | timeout => exact fails ..
    | ioErr => exact fails ..
  | handshake => cases r with
    | bytes l => exact go
    | timeout => exact go
    | ioErr => exact fails ..
  | poll i n st => cases r with
    | bytes l =>
      dsimp only [RxUse.act]
      split
      · exact returns _
      · exact fails ..
    | timeout =>
      dsimp only [RxUse.act]
      split
      · refine .pushes (.refl s) (List.append_nil _).symm ?_ fun _ h => h
        simp only [CallBudget.charges, pollActs, Act.charge, RxUse.charge, List.map_cons, List.map_nil, List.sum_cons,
          List.sum_nil, List.length_nil]
        omega
      · exact fails ..
    | ioErr => exact fails ..
  | response x a => cases r with
    | bytes l =>
      dsimp only [RxUse.act]
      split
      · exact returns _
      · exact of_xmitRetry ..
    | timeout => exact of_xmitRetry ..
    | ioErr => exact fails ..
  | ready => cases r with
    | bytes l =>
      dsimp only [RxUse.act]
      split
      · exact go
      · exact fails ..
    | timeout => exact fails ..
    | ioErr => exact fails ..

end Act.Spends

/-- The steps of a receive's answer make no call themselves (R63). -/
theorem CallBudget.charges_receiveActs (r : RxAnswer) (k : RxUse) : b.charges (receiveActs r k) = k.charge := by
  have bytes (off : Nat) (l : List Byte) : b.charges (rxBytes off l) = 0 := by
    induction l generalizing off with
    | nil => rfl
    | cons x l ih => exact (Nat.zero_add _).trans (ih (off + 1))
  rw [receiveActs_eq, charges, List.map_append, List.sum_append]
  exact (congrArg (· + _) (bytes 0 r.heard)).trans (by simp [Act.charge])

/-- Nor do they change what is foreseen. -/
theorem CallBudget.foreseen_receiveActs (r : RxAnswer) (k : RxUse) (todo : List Act) (v : CallView) :
    b.foreseen (receiveActs r k ++ todo) v ↔ b.foreseen todo v := by
  have bytes (off : Nat) (l : List Byte) (todo : List Act) :
      b.foreseen (rxBytes off l ++ todo) v ↔ b.foreseen todo v := by
    induction l generalizing off with
    | nil => rfl
    | cons x l ih => exact ih (off + 1)
  rw [receiveActs_eq, List.append_assoc, bytes]
  rfl

/-- SlowLoad's steps are charged what SlowLoad is (R322). -/
theorem CallBudget.charges_slowLoadActs (packet : List Byte) (lt : LoadType) (a : Nat) :
    b.charges (slowLoadActs packet lt a) = b.slowBound lt + b.slowBound .run * (b.attempts - a) := by
  have acks (l : List AckStep) : b.charges (ackActs l) = 2 * (l.map fun x => b.polls x.bc x.extra).sum := by
    induction l with
    | nil => rfl
    | cons x l ih =>
      simp only [charges, ackActs, List.map_cons, List.sum_cons, Act.charge] at ih ⊢
      omega
  have hacks := acks (ackSteps lt)
  simp only [charges] at hacks
  simp only [slowLoadActs_eq, versionActs, charges, List.map_cons, List.map_append, List.sum_cons, List.sum_append,
    hacks, Act.charge, RxUse.charge, List.map_nil, List.sum_nil, slowBound]
  omega

/-- SlowLoad's steps find what SlowLoad's charge presumes (R210). -/
theorem CallBudget.foreseen_slowLoadActs {packet : List Byte} {lt : LoadType} {a : Nat} {todo : List Act} {v : CallView}
    (hlen : packet.length = b.length) (h : b.foreseen (.slowLoad lt a :: todo) v) :
    b.foreseen (slowLoadActs packet lt a ++ todo) v := by
  obtain ⟨⟨-, hbaud⟩, hretry, hafter⟩ := h
  have acks (l : List AckStep) : b.foreseen (ackActs l ++ .sstate .done :: .slowEnd a :: todo)
      { v with pktlen := b.length } := by
    induction l with
    | nil => exact ⟨hretry, hafter⟩
    | cons x l ih => exact ⟨⟨rfl, hbaud⟩, ih⟩
  have hall := acks (ackSteps lt)
  rw [← hlen, ← Nat.zero_add packet.length] at hall
  rw [slowLoadActs_eq, versionActs]
  simp only [List.cons_append, List.append_assoc]
  exact hall

/-- What one step of a command spends. -/
theorem Act.run_spends {a : Act} {s t : State} {todo : List Act} (hcfg : s.cfg = b.cfg)
    (himgsize : s.imgsize.toNat = b.imgsize) (hready : b.foreseen (a :: todo) s.callView) (h : a.run s = some t) :
    a.Spends b s t := by
  cases a with
  | set r v =>
    cases h
    refine .goesOn (.assign ..) (by simp) fun todo hv => ?_
    cases r with
    | baud =>
      obtain ⟨r, rfl, -, hv⟩ := hv
      exact hv
    | _ => exact hv
  | sstate q => cases h; exact .goesOn (.of_eq rfl) rfl fun _ h => h
  | fstate q => cases h; exact .goesOn (.of_eq rfl) rfl fun _ h => h
  | imgByte off x => cases h; exact .goesOn (.of_eq rfl) rfl fun _ h => h.2
  | clearPkt => cases h; exact .goesOn (.of_eq rfl) rfl fun _ h => h
  | append l =>
    cases h
    rcases s.appendPkt_cases l with ⟨_, h⟩ | ⟨hfit, h⟩ <;> rw [h]
    · exact .raises (.refl s) rfl rfl fun _ => rfl
    · refine .goesOn (.of_eq rfl) rfl fun todo hv => ?_
      have hlen : (s.putPkt l).pktlen.toNat = s.pktlen.toNat + l.length := by
        rw [putPkt_pktlen, BitVec.toNat_add, BitVec.toNat_ofNat, Nat.add_mod_mod,
          Nat.mod_eq_of_lt (hfit.trans_lt s.cfg.pktCapacity.isLt)]
      rw [callView, hlen]
      exact hv
  | send l info => cases h; exact .pushes (u := s.call _) (.of_eq rfl) rfl (Nat.le_refl _) fun _ h => h
  | sendPkt => cases h; exact .pushes (u := s.call _) (.of_eq rfl) rfl (Nat.le_refl _) fun _ h => h
  | sent info => exact .of_takeStatus h (fun l => .goesOn (.of_eq rfl) rfl fun _ h => h) fun _ => rfl
  | connReset => cases h; exact .pushes (u := s.call _) (.of_eq rfl) rfl (Nat.le_refl _) fun _ h => h
  | wasReset => exact .of_takeStatus h (fun l => .goesOn (.of_eq rfl) rfl fun _ h => h) fun _ => rfl
  | setBaud r => cases h; exact .pushes (u := s.call _) (.of_eq rfl) rfl (Nat.le_refl _) fun _ h => h
  | baudSet r =>
    exact .of_takeStatus h (fun l => .pushes (u := s.setStatus l) (.of_eq rfl) (List.append_nil _).symm
      (Nat.le_refl _) fun _ h => ⟨r, rfl, h⟩) fun _ => rfl
  | recv n t k => cases h; exact .pushes (u := s.call _) (.of_eq rfl) rfl (Nat.le_refl _) fun _ h => h
  | heard n k =>
    cases hr : s.env.rx with
    | nil => rw [Act.run, takeRx_nil hr] at h; cases h
    | cons r rest =>
      rw [Act.run, takeRx_cons hr] at h
      cases h
      exact .pushes (u := s.setRx rest) (.of_eq rfl) (List.append_nil _).symm
        ((Nat.zero_add _).trans (CallBudget.charges_receiveActs ..)).le
        fun _ h => (CallBudget.foreseen_receiveActs ..).2 h
  | rxByte off x => cases h; exact .goesOn (.of_eq rfl) rfl fun _ h => h
  | rxCount n => cases h; exact .goesOn (.of_eq rfl) rfl fun _ h => h
  | answered r k => cases h; exact .of_answered r k
  | hsCompare =>
    cases h; unfold Machine.hsCompare
    split
    · exact .raises (.refl s) rfl rfl fun _ => rfl
    · split
      · exact .goesOn (.refl s) rfl fun _ h => h
      · exact .raises (.refl s) rfl rfl fun _ => rfl
  | hsVersion => cases h; exact .goesOn (.of_eq rfl) rfl fun _ h => h
  | hsAccept =>
    cases h; unfold Machine.hsAccept
    split
    · exact .goesOn (.refl s) rfl fun _ h => h
    · exact .raises (.refl s) rfl rfl fun _ => rfl
  | ackPoll bc extra st =>
    cases h
    obtain ⟨⟨hlen, hbaud⟩, -⟩ := hready
    refine .pushes (.refl s) (List.append_nil _).symm ?_ fun _ h => h.2
    have hpolls : pollCount (bc.getD s.pktlen.toNat) extra s.baud = b.polls bc extra := by
      rw [CallBudget.polls, ← hlen, ← hbaud]
      rfl
    have hpos : 1 ≤ b.polls bc extra := Nat.le_max_left ..
    rw [hpolls]
    simp only [CallBudget.charges, pollActs, Act.charge, RxUse.charge, List.map_cons, List.map_nil, List.sum_cons,
      List.sum_nil, List.length_nil]
    omega
  | slowLoad lt a =>
    cases h
    obtain ⟨⟨hlen, -⟩, -⟩ := hready
    have hpacket : (romPacket s.cfg lt s.image).length = b.length := by
      rw [image, hcfg, himgsize]
      exact hlen
    exact .pushes (u := s.setSState .idle) (.of_eq rfl) (List.append_nil _).symm
      ((Nat.zero_add _).trans (CallBudget.charges_slowLoadActs ..)).le
      fun _ h => CallBudget.foreseen_slowLoadActs hpacket h
  | slowEnd a => cases h; exact .goesOn (.setRet ..) rfl fun _ h => h.2 s.pktlen.toNat
  | xmit x a =>
    cases h
    refine .pushes (u := s.drawTag) (.of_eq rfl) (List.append_nil _).symm ?_ ?_
    · cases hx : x.resp <;> simp [CallBudget.charges, Act.charge, RxUse.charge, hx]
      omega
    · cases x.resp <;> exact fun _ h => h
  | attempt a => cases h; exact .goesOn (.of_eq rfl) rfl fun _ h => h
  | expect want st =>
    cases h
    split
    · exact .goesOn (.refl s) rfl fun _ h => h
    · exact .raises (.refl s) rfl rfl fun _ => rfl
  | chunk off size pos n =>
    cases h; unfold chunkStep
    split
    · refine .pushes (u := s.setFState .transmitting) (.of_eq rfl) (List.append_nil _).symm ?_ fun _ h => h
      simp only [CallBudget.charges, Act.charge, List.map_cons, List.map_nil, List.sum_cons, List.sum_nil,
        List.length_nil, Config.maxPacketSize, if_true]
      omega
    · exact .pushes (.refl s) (List.append_nil _).symm (Nat.zero_le _) fun _ h => h
  | reject c info => cases h; exact .rejects

/-! ### What a command spends -/

/-- Of a command with these calls before it: what it has spent and is still charged for stays within a bound. -/
structure State.WithinCalls (b : CallBudget) (i : Instr) (before : List ConnCall) (bound : Nat) (s : State) : Prop where
  cfg : s.cfg = b.cfg
  imgsize : s.imgsize.toNat = b.imgsize
  since : before <+: s.calls
  spent : s.calls.length ≤ before.length + bound
  charged : s.phase = .idle ∨ ∃ ret todo, s.phase = .exec i ret todo ∧
    s.calls.length + b.charges todo ≤ before.length + bound ∧ b.foreseen todo s.callView

/-- Every sequencer step keeps it. -/
theorem State.seqStep_withinCalls {i : Instr} {before : List ConnCall} {bound : Nat} {s t : State}
    (hretry : i = .fastBegin → b.cfg.nStage2Attempts ≤ b.attempts) (hs : s.WithinCalls b i before bound)
    (h : s.seqStep = some t) : t.WithinCalls b i before bound := by
  have hsame := seqStep_sameOperands h
  obtain ⟨hcfg, himgsize, hsince, hspent, hp | ⟨ret, todo, hp, hcharged, hready⟩⟩ := hs
  · simp [hp] at h
  have hcfg' := hsame.cfg.trans hcfg
  have himgsize' := (congrArg BitVec.toNat hsame.imgsize).trans himgsize
  cases todo with
  | nil =>
    rw [seqStep_nil hp] at h
    cases h
    exact ⟨hcfg, himgsize, hsince, hspent, .inl rfl⟩
  | cons a todo =>
    rw [seqStep_cons hp] at h
    rw [CallBudget.charges, List.map_cons, List.sum_cons, ← CallBudget.charges] at hcharged
    cases a.run_spends (s := s.setPhase (.exec i ret todo)) (b := b) (todo := todo) hcfg himgsize hready h with
    | goesOn same calls foreseen =>
      obtain ⟨ret', hu⟩ := same.phase rfl
      rw [setPhase_calls] at calls
      refine ⟨hcfg', himgsize', calls ▸ hsince, calls ▸ hspent, .inr ⟨ret', todo, hu, ?_, foreseen _ hready⟩⟩
      rw [calls]
      omega
    | @pushes u l made same calls charge foreseen =>
      obtain ⟨ret', hu⟩ := same.phase rfl
      rw [setPhase_calls] at calls
      have hlen : u.calls.length = s.calls.length + made.length := by rw [calls, List.length_append]
      refine ⟨hcfg', himgsize', ?_, ?_, .inr ⟨ret', l ++ todo, by rw [push, hu], ?_, foreseen _ hready⟩⟩
      · rw [push_calls, calls]
        exact hsince.trans (List.prefix_append ..)
      · rw [push_calls]
        omega
      · rw [push_calls, CallBudget.charges, List.map_append, List.sum_append, ← CallBudget.charges,
          ← CallBudget.charges]
        omega
    | @raises u c st info same calls view slow =>
      obtain ⟨ret', hu⟩ := same.phase rfl
      rw [setPhase_calls] at calls
      refine ⟨hcfg', himgsize', by rwa [raise_calls, calls], by rwa [raise_calls, calls], ?_⟩
      rcases u.raise_cases c st info with ⟨q, f, hr, -⟩ | ⟨ret'', todo', k, after, hu', hslow, hk, hr⟩ <;> rw [hr]
      · exact .inl rfl
      · cases hu.symm.trans hu'
        have hattempts := hretry rfl
        have hku : k < b.attempts := by
          rw [same.cfg, setPhase_cfg, hcfg] at hk
          omega
        obtain ⟨hfits, hafter⟩ := CallBudget.foreseen_after ((slow todo).trans hslow) hready
        have hcharges := CallBudget.charges_after (b := b) hslow
        refine .inr ⟨ret', _, rfl, ?_, ?_⟩
        · rw [setPhase_calls, setSState_calls, calls, CallBudget.charges, List.map_cons, List.sum_cons,
            ← CallBudget.charges, Act.charge]
          have hsplit : b.slowBound .run * (b.attempts - k) =
              b.slowBound .run + b.slowBound .run * (b.attempts - (k + 1)) := by
            rw [show b.attempts - k = 1 + (b.attempts - (k + 1)) by omega, Nat.mul_add, Nat.mul_one]
          omega
        · have hview : u.callView = s.callView := view
          rw [← hview] at hfits hafter
          exact ⟨hfits hku, fun _ => hfits hku, hafter⟩
    | rejects => exact ⟨hcfg', himgsize', hsince, hspent, .inl rfl⟩

/-! ### The steps a command starts with -/

/-- The rows of R322. -/
def callBound (s : State) : Instr → Nat
  | .pktSend => 1
  | .connReset => 1
  | .connRecv => 1
  | .connBaud => 1
  | .romAck => 2 * pollCount s.arg0.toNat s.arg1.toNat s.baud
  | .romLoad lt => slowLoadBound lt (romPacket s.cfg lt (s.img.read 0 s.imgsize.toNat)) s.baud
  | .fastXmit _ _ => 6
  | .fastBegin => 2 + max 1 s.cfg.nStage2Attempts *
      slowLoadBound .run (romPacket s.cfg .run ((s.img.store 5 [s.newCksum]).read 0 s.imgsize.toNat)) s.arg1 + 1
  | .fastData => 6 * (packetCount s.arg1).toNat
  | .fastEnd lt => 6 * (if needsEeprom lt then 3 else 2) + 1
  | _ => 0

/-- The budget of a command: of a slow load the length of its packet, and the baud rate it runs at. -/
def callBudget (s : State) : Instr → CallBudget
  | .romLoad lt => ⟨s.cfg, s.imgsize.toNat, 0, (romPacket s.cfg lt s.image).length, s.baud⟩
  | .fastBegin => ⟨s.cfg, s.imgsize.toNat, s.cfg.nStage2Attempts,
      (romPacket s.cfg .run ((s.img.store 5 [s.newCksum]).read 0 s.imgsize.toNat)).length, s.arg1⟩
  | _ => ⟨s.cfg, s.imgsize.toNat, 0, 0, s.baud⟩

/-- A slow load is charged its row of R322. -/
theorem CallBudget.slowBound_eq {packet : List Byte} (lt : LoadType) (h : b.length = packet.length) :
    b.slowBound lt = slowLoadBound lt packet b.baud := by
  rw [slowBound, slowLoadBound, ackBudgets_eq, List.map_map, ← h]
  rfl

/-- Steps that are charged no more than a bound, and find what their charges presume. -/
structure Affordable (b : CallBudget) (bound : Nat) (s : State) (todo : List Act) : Prop where
  charges : b.charges todo ≤ bound
  foreseen : b.foreseen todo s.callView

namespace Affordable

variable {bound : Nat} {s : State}

/-- A failed check makes no call (R281). -/
theorem reject (c : ErrCode) (info : Word) : Affordable b bound s [.reject c info] := ⟨Nat.zero_le _, trivial⟩

theorem ite {p : Prop} [Decidable p] {l l' : List Act} (h : Affordable b bound s l) (h' : Affordable b bound s l') :
    Affordable b bound s (if p then l else l') := by
  split
  · exact h
  · exact h'

/-- IMG.WRF makes no call (R184). -/
theorem imgBytes (off : Nat) (l : List Byte) (v : CallView) :
    b.charges (imgBytes off l) = 0 ∧ enclosingSlow (Machine.imgBytes off l) = none ∧
      b.foreseen (Machine.imgBytes off l) v := by
  induction l generalizing off v with
  | nil => exact ⟨rfl, rfl, trivial⟩
  | cons x l ih =>
    obtain ⟨hcharges, hslow, hforeseen⟩ := ih (off + 1) { v with img := v.img.store off [x] }
    exact ⟨(Nat.zero_add _).trans hcharges, hslow, hslow, hforeseen⟩

/-- The exchanges of FAST.END and the launch (R247). -/
theorem fastEnd (lt : LoadType) (sum : Word) :
    Affordable b (6 * (if needsEeprom lt then 3 else 2) + 1) s (fastEndActs lt sum s) := by
  cases lt <;> exact ⟨Nat.le_refl _, trivial⟩

/-- The chunks of FAST.DATA (R240, R244). -/
theorem fastData : Affordable b (6 * (packetCount s.arg1).toNat) s [.chunk s.arg0.toNat s.arg1.toNat 0 0] := by
  have hlt := s.arg1.isLt
  have hcount : (packetCount s.arg1).toNat = (s.arg1.toNat + 1023) / 1024 := by
    rw [packetCount, BitVec.toNat_ofNat]
    exact Nat.mod_eq_of_lt (by simp only [Config.maxPacketSize]; omega)
  exact ⟨by simp [CallBudget.charges, Act.charge, hcount], trivial⟩

/-- The attempts of the second stage between two baud switches (R241). -/
theorem fastBegin : Affordable (callBudget s .fastBegin) (callBound s .fastBegin) s
    [.fstate .begin, .set .pktid (.const (packetCount s.arg0)), .imgByte cksumOffset s.newCksum, .setBaud s.arg1,
      .slowLoad .run 1, .recv Config.pktRspLen Config.tStage2ReadyMs .ready, .setBaud s.arg2, .set .cksum (.const 0#32),
      .fstate .secondStageStarted, .set .res0 .pktid, .set .res1 .ret] := by
  refine ⟨?_, rfl, rfl, ⟨rfl, rfl⟩, fun _ => ⟨rfl, rfl⟩, fun _ => ⟨rfl, trivial⟩⟩
  have hattempts : max 1 s.cfg.nStage2Attempts = 1 + (s.cfg.nStage2Attempts - 1) := by omega
  simp only [CallBudget.charges, List.map_cons, List.map_nil, List.sum_cons, List.sum_nil, Act.charge, RxUse.charge,
    CallBudget.slowBound_eq (b := callBudget s .fastBegin) .run rfl]
  simp only [callBudget, callBound, hattempts, Nat.add_mul, Nat.one_mul, Nat.mul_comm]
  omega

/-- A slow load (R210). -/
theorem romLoad (lt : LoadType) :
    Affordable (callBudget s (.romLoad lt)) (callBound s (.romLoad lt)) s [.slowLoad lt 1] := by
  refine ⟨?_, ⟨rfl, rfl⟩, fun h => absurd h (Nat.not_lt_zero _), fun _ => trivial⟩
  simp only [CallBudget.charges, List.map_cons, List.map_nil, List.sum_cons, List.sum_nil, Act.charge,
    CallBudget.slowBound_eq (b := callBudget s (.romLoad lt)) lt rfl]
  simp [callBudget, callBound, image]

end Affordable

/-- Every command is launched with steps that it can afford. -/
theorem exec_affordable (i : Instr) (s : State) : ∃ todo, exec i s = launch i todo s ∧
    Affordable (callBudget s i) (callBound s i) s todo := by
  cases i with
  | encLookup w v => exact ⟨_, rfl, .ite ⟨Nat.le_refl _, trivial⟩ (.reject ..)⟩
  | encBytes => exact ⟨_, rfl, .ite (.reject ..) ⟨Nat.le_refl _, trivial⟩⟩
  | pktSend => exact ⟨_, rfl, .ite ⟨Nat.zero_le _, trivial⟩ ⟨Nat.le_refl _, trivial⟩⟩
  | hsRxbyte => exact ⟨_, rfl, .ite (.reject ..) ⟨Nat.le_refl _, trivial⟩⟩
  | imgCksum => exact ⟨_, rfl, .ite (.reject ..) ⟨Nat.le_refl _, rfl, trivial⟩⟩
  | imgRdf f =>
    refine ⟨_, rfl, ?_⟩
    split
    · exact .reject ..
    · exact ⟨Nat.le_refl _, trivial⟩
  | imgWrf f =>
    refine ⟨_, rfl, ?_⟩
    split
    · exact .reject ..
    · obtain ⟨hcharges, -, hforeseen⟩ := Affordable.imgBytes (b := callBudget s (.imgWrf f)) _ _ s.callView
      exact ⟨hcharges.le, hforeseen⟩
  | romBuild lt => exact ⟨_, rfl, .ite (.reject ..) (.ite (.reject ..) ⟨Nat.le_refl _, trivial⟩)⟩
  | romAck => exact ⟨_, rfl, .ite (.reject ..) ⟨Nat.le_refl _, ⟨rfl, rfl⟩, trivial⟩⟩
  | romLoad lt => exact ⟨_, rfl, .ite (.reject ..) (.ite (.reject ..) (.ite (.reject ..) (.romLoad lt)))⟩
  | fastXmit psel r =>
    refine ⟨_, rfl, .ite (.reject ..) (.ite (.reject ..) (.ite (.reject ..) ?_))⟩
    cases r
    · exact ⟨show 1 ≤ 6 by decide, trivial⟩
    · exact ⟨Nat.le_refl _, trivial⟩
  | fastBegin =>
    exact ⟨_, rfl, .ite (.reject ..) (.ite (.reject ..) .fastBegin)⟩
  | fastData => exact ⟨_, rfl, .ite (.reject ..) (.ite (.reject ..) (.ite (.reject ..) .fastData))⟩
  | fastEnd lt =>
    refine ⟨_, rfl, .ite (.reject ..) ?_⟩
    split
    · exact .reject ..
    · exact .ite (.reject ..) (.fastEnd ..)
  | connRecv => exact ⟨_, rfl, .ite (.reject ..) ⟨Nat.le_refl _, trivial⟩⟩
  | connBaud => exact ⟨_, rfl, .ite (.reject ..) ⟨Nat.le_refl _, rfl, trivial⟩⟩
  | _ => exact ⟨_, rfl, Nat.le_refl _, trivial⟩

/-- A budget for FAST.BEGIN has all its attempts (R241). -/
theorem callBudget_attempts {s : State} {i : Instr} (h : i = .fastBegin) :
    (callBudget s i).cfg.nStage2Attempts ≤ (callBudget s i).attempts := by
  subst h
  exact Nat.le_refl _

/-- Over all its steps a command's calls come after those before it, and their number is within its row of R322. -/
theorem calls_of_follows {i : Instr} {s u t : State} (hexec : exec i s = .next u) (hfollows : Follows u t) :
    s.calls <+: t.calls ∧ t.calls.length ≤ s.calls.length + callBound s i := by
  obtain ⟨todo, hlaunch, hcharges, hforeseen⟩ := exec_affordable i s
  have hP : RunInvariant (State.WithinCalls (callBudget s i) i s.calls (callBound s i)) :=
    ⟨fun _ _ _ _ _ _ ⟨hcfg, himgsize, hsince, hspent, hcharged⟩ => ⟨hcfg, himgsize, hsince, hspent, hcharged⟩,
      fun _ _ => seqStep_withinCalls callBudget_attempts⟩
  have hcfg : s.cfg = (callBudget s i).cfg := by cases i <;> rfl
  have himgsize : s.imgsize.toNat = (callBudget s i).imgsize := by cases i <;> rfl
  obtain ⟨-, -, hsince, hspent, -⟩ := hP.follows_exec hlaunch ⟨hcfg, himgsize, List.prefix_refl _, Nat.le_add_right ..,
    .inr ⟨_, todo, rfl, Nat.add_le_add_left hcharges _, hforeseen⟩⟩ hexec hfollows
  exact ⟨hsince, hspent⟩

/-- Settles O55: what a command has spent and is still charged for stays within its row. -/
theorem connectionCallsAreBounded : Obligations.ConnectionCallsAreBounded := by
  refine ⟨needsEeprom_iff, fun i s u t hexec hfollows => ?_⟩
  obtain ⟨hsince, hspent⟩ := calls_of_follows hexec hfollows
  refine ⟨?_, ?_, ?_, ?_, ?_, ?_, ?_, fun hrxb hsend hreset hbaud => ?_⟩
  · rintro (rfl | rfl | rfl | rfl) <;> exact hspent
  · rintro rfl; exact hspent
  · rintro lt rfl; exact hspent
  · rintro psel r rfl; exact hspent
  · rintro rfl; exact hspent
  · rintro rfl; exact hspent
  · rintro lt rfl; exact hspent
  · have hnone : callBound s i = 0 := by cases i <;> simp_all [callBound, writesRxb]
    rw [hnone] at hspent
    exact (hsince.eq_of_length_le hspent).symm

end Sys2Proof.Machine
end

section
/-! PROOFS. The encoder and packet-buffer commands (R123 to R130): the bytes the candidate table forms, the word of
ENC.LOOKUP, and each command with its checks and results. -/

namespace Sys2Proof.Machine

open State

/-! ### The output under the candidate table (R122, R124) -/

/-- An entry of the candidate table that is read consumes three bits, or all of a shorter group (R122). -/
theorem candidates_encCell {w v : Nat} (hpos : 1 ≤ w) (hw : w ≤ 5) (hv : v < 2 ^ w) :
    min 3 w ≤ (Config.candidates.encCell v w).2 := by
  have table : ∀ w < 5, ∀ v < 2 ^ (w + 1), min 3 (w + 1) ≤ (Config.candidates.encCell v (w + 1)).2 := by
    decide
  obtain ⟨w, rfl⟩ := Nat.exists_eq_add_of_le' hpos
  exact table w hw v hv

/-- Under the candidate table the walker forms at most one group for every three bits, rounded up (R122, R124). -/
theorem encWalk_candidates_length (n : Nat) (l : List Bool) :
    (encWalk Config.candidates n l).length ≤ (l.length + 2) / 3 := by
  induction n generalizing l with
  | zero => exact Nat.zero_le _
  | succ n ih =>
    cases l with
    | nil => exact Nat.zero_le _
    | cons b l =>
      have hval : bitsVal ((b :: l).take 5) < 2 ^ min 5 (b :: l).length :=
        (bitsVal_lt _).trans_eq (congrArg (2 ^ ·) List.length_take)
      have hused := candidates_encCell (by simp) (Nat.min_le_left ..) hval
      have hrest := ih ((b :: l).drop (Config.candidates.encCell (bitsVal ((b :: l).take 5)) (min 5 (b :: l).length)).2)
      rw [List.length_drop] at hrest
      have hlen : 0 < (b :: l).length := Nat.succ_pos _
      simp only [encWalk, Config.encMaxW, List.length_take]
      rw [List.length_cons]
      omega

/-- The output under the candidate table is at most a third of the bits, rounded up. -/
theorem encodeBits_candidates_length (d : List Byte) :
    (encodeBits Config.candidates d).length ≤ (8 * d.length + 2) / 3 := by
  simpa only [encodeBits, bitStream_length] using encWalk_candidates_length (8 * d.length) (bitStream d)

/-! ### ENC.LOOKUP (R123) -/

/-- The word of ENC.LOOKUP: the width in F, the value in V (R90, R93). -/
theorem encode_encLookup (w : BitVec 3) (v : BitVec 5) :
    encode (.encLookup w v) = 0x10#32 ||| (w.setWidth 32 <<< 10) ||| (v.setWidth 32 <<< 13) := by
  revert w v
  decide

theorem legalLookup_iff {w : BitVec 3} {v : BitVec 5} :
    legalLookup w v = true ↔ 1 ≤ w.toNat ∧ w.toNat ≤ 5 ∧ v.toNat < 2 ^ w.toNat := by
  simp only [legalLookup, Bool.and_eq_true, decide_eq_true_eq, and_assoc]
  rfl

/-- ENC.LOOKUP after its check (R123). -/
theorem exec_encLookup {w : BitVec 3} {v : BitVec 5} {s : State} (h : legalLookup w v = true) :
    exec (.encLookup w v) s = launch (.encLookup w v)
      [.set .res0 (.const ((s.cfg.encCell v.toNat w.toNat).1.setWidth 32)),
        .set .res1 (.const (BitVec.ofNat 32 (s.cfg.encCell v.toNat w.toNat).2))] s := by
  rw [exec, execEncLookup, if_pos h]

/-- Fields out of range fail the check (R91, R123). -/
theorem exec_encLookup_fields {w : BitVec 3} {v : BitVec 5} {s : State} (h : ¬legalLookup w v = true) :
    exec (.encLookup w v) s = launch (.encLookup w v) [.reject .operandError s.cmd] s := by
  rw [exec, execEncLookup, if_neg h]
  rfl

/-- Settles O20: the two assignments, or the check that fails. -/
theorem encLookupResult : Obligations.EncLookupResult := by
  refine ⟨fun w v => encode_encLookup w v ▸ decodeOfEncode (.encLookup w v), fun w v s hw => ?_⟩
  by_cases h : legalLookup w v = true
  · rw [if_pos (legalLookup_iff.1 h)]
    exact exec_of_reaches (exec_encLookup h) hw (.trans (.act rfl rfl) (.trans (.act rfl rfl) (.finish rfl))) rfl
  · rw [if_neg (mt legalLookup_iff.2 h)]
    exact exec_reject hw (exec_encLookup_fields h)

/-! ### Appending to the packet (R62) -/

section

variable {s : State} {i : Instr} {ret : Word} {todo : List Act} {l : List Byte}

/-- An append that fits (R62). -/
theorem State.reaches_appended (h : s.pktlen.toNat + l.length ≤ s.cfg.pktCapacity.toNat) :
    (s.setPhase (.exec i ret (.append l :: todo))).Reaches ((s.putPkt l).setPhase (.exec i ret todo)) :=
  .act rfl (congrArg some (appendPkt_fit _ (by exact h)))

/-- An append that does not fit ends the command and writes nothing (R62, R285). -/
theorem State.reaches_appendOver (h : s.cfg.pktCapacity.toNat < s.pktlen.toNat + l.length)
    (hslow : enclosingSlow todo = none) :
    (s.setPhase (.exec i ret (.append l :: todo))).Reaches
      ((s.markFast i).report .bufferOverflow .build (BitVec.ofNat 32 l.length)) :=
  .act rfl (congrArg some ((appendPkt_over (s.setPhase (.exec i ret todo)) (by exact h)).trans
    (raise_of_noSlow _ _ _ hslow)))

end

/-! ### ENC.BYTES (R125, R126) -/

section

variable {s : State}

/-- A range past IMG_MEM_SIZE fails the check (R125). -/
theorem exec_encBytes_range (h : s.cfg.imgMemSize < s.arg0.toNat + s.arg1.toNat) :
    exec .encBytes s = launch .encBytes [.reject .operandError s.arg0] s := by
  rw [exec, execEncBytes, if_pos (by simpa [pastImg] using h)]
  rfl

/-- ENC.BYTES after its check (R126). -/
theorem exec_encBytes {out : List Byte} (himg : s.arg0.toNat + s.arg1.toNat ≤ s.cfg.imgMemSize)
    (hout : out = encodeBits s.cfg (s.img.read s.arg0.toNat s.arg1.toNat)) :
    exec .encBytes s = launch .encBytes
      [.append out, .set .res0 (.const (BitVec.ofNat 32 out.length)),
        .set .res1 (.const (BitVec.ofNat 32 (8 * s.arg1.toNat)))] s := by
  have hbits : 8#32 * s.arg1 = BitVec.ofNat 32 (8 * s.arg1.toNat) := by
    rw [BitVec.ofNat_mul, BitVec.ofNat_toNat, BitVec.setWidth_eq]
  rw [exec, execEncBytes, if_neg (by simpa [pastImg] using himg), hout, hbits]

end

/-- Settles O22: the check, and the append that writes nothing or the whole output. -/
theorem encBytesAppendsAllOrNothing : Obligations.EncBytesAppendsAllOrNothing := by
  refine ⟨decodeOfEncode .encBytes, fun d => Nat.le_succ_of_le (encodeBits_candidates_length d),
    fun s hw => ⟨fun h => exec_reject hw (exec_encBytes_range h), fun himg out hout =>
      ⟨fun hover => ?_, fun hfit => ?_⟩⟩⟩
  · exact exec_of_reaches (exec_encBytes himg hout) hw
      (reaches_appendOver (s := s.start .encBytes []) (i := .encBytes) hover rfl) rfl
  · have happended := reaches_appended (s := s.start .encBytes []) (i := .encBytes) (ret := 0#32)
      (todo := [.set .res0 (.const (BitVec.ofNat 32 out.length)),
        .set .res1 (.const (BitVec.ofNat 32 (8 * s.arg1.toNat)))]) hfit
    exact ⟨_, Memory.stored_store .., exec_of_reaches (exec_encBytes himg hout) hw
      (happended.trans (.trans (.act rfl rfl) (.trans (.act rfl rfl) (.finish rfl)))) rfl⟩

/-! ### PKT.CLEAR and PKT.PUTB (R128, R129) -/

/-- Settles O23: PKTLEN is cleared alone; PKT.PUTB is an append of one byte. -/
theorem pktClearAndPutb : Obligations.PktClearAndPutb := by
  refine ⟨decodeOfEncode .pktClear, decodeOfEncode .pktPutb, fun s hw => ⟨?_, fun hover => ?_, fun hfit => ?_⟩⟩
  · exact exec_of_reaches rfl hw (.trans (.act rfl rfl) (.finish rfl)) rfl
  · exact exec_of_reaches rfl hw
      (reaches_appendOver (s := s.start .pktPutb []) (i := .pktPutb) (l := [s.arg0.setWidth 8]) hover rfl) rfl
  · have happended := reaches_appended (s := s.start .pktPutb []) (i := .pktPutb) (ret := 0#32) (todo := [])
      (l := [s.arg0.setWidth 8]) hfit
    exact ⟨_, Memory.stored_store .., exec_of_reaches rfl hw (happended.trans (.finish rfl)) rfl⟩

/-! ### PKT.SEND (R130) -/

/-- An empty packet is not sent (R130). -/
theorem exec_pktSend_empty {s : State} (h : s.pktlen = 0#32) :
    exec .pktSend s = launch .pktSend [.set .res0 .pktlen] s := by
  rw [exec, execPktSend, if_pos h]

/-- PKT.SEND of a packet (R130). -/
theorem exec_pktSend {s : State} (h : s.pktlen ≠ 0#32) :
    exec .pktSend s = launch .pktSend [.sendPkt, .set .res0 .pktlen] s := by
  rw [exec, execPktSend, if_neg h]

/-- Settles O24: no call for an empty packet; else one, and its result decides how the command ends. -/
theorem pktSendResult : Obligations.PktSendResult := by
  refine ⟨decodeOfEncode .pktSend, fun s hw => ⟨fun hempty => ?_, fun hne st => ⟨fun hs => ?_, fun hs => ?_⟩⟩⟩
  · rw [← hempty]
    exact exec_of_reaches (exec_pktSend_empty hempty) hw (.trans (.act rfl rfl) (.finish rfl)) rfl
  · have hsent := reaches_packetOk (s := s.start .pktSend []) (i := .pktSend) (ret := 0#32)
      (todo := [.set .res0 .pktlen]) rfl hs
    exact exec_of_reaches (exec_pktSend hne) hw (hsent.trans (.trans (.act rfl rfl) (.finish rfl))) rfl
  · have hfailed := reaches_packetIoErr (s := s.start .pktSend []) (i := .pktSend) (ret := 0#32)
      (todo := [.set .res0 .pktlen]) rfl hs
    exact exec_of_reaches (exec_pktSend hne) hw hfailed rfl

end Sys2Proof.Machine
end

section
/-! PROOFS. The handshake generator (R151 to R162): the recurrence and its period, the expected response and the
version, the handshake commands, and the commands that append a constant or the length field to the packet (R157, R201,
R203). -/

namespace Sys2Proof.Machine

open State

/-! ### The recurrence (R151) -/

/-- The new low bit is the feedback (R151). -/
theorem getLsbD_lfsrNext_zero (taps : List (Fin 8)) (s : Byte) :
    (lfsrNext taps s).getLsbD 0 = lfsrFeedback taps s := by
  simp [lfsrNext]

/-- The other bits move up (R151). -/
theorem getLsbD_lfsrNext_succ (taps : List (Fin 8)) (s : Byte) {j : Nat} (hj : j < 7) :
    (lfsrNext taps s).getLsbD (j + 1) = s.getLsbD j := by
  have hmask : (0xFE#8).getLsbD (j + 1) = true := by
    interval_cases j <;> rfl
  have hwidth : j + 1 < Config.lfsrWidth := Nat.succ_lt_succ hj
  simp only [lfsrNext, BitVec.getLsbD_or, BitVec.getLsbD_and, BitVec.getLsbD_shiftLeft, hmask]
  simp [hwidth]

/-- No bit is fed back from zero (R152). -/
theorem lfsrFeedback_zero (taps : List (Fin 8)) : lfsrFeedback taps 0#8 = false := by
  unfold lfsrFeedback
  induction taps with
  | nil => rfl
  | cons t taps ih => simpa only [List.foldl_cons, BitVec.getLsbD_zero, Bool.false_xor] using ih

/-- Zero stays zero (R152). -/
theorem lfsrNext_zero (taps : List (Fin 8)) : lfsrNext taps 0#8 = 0#8 := by
  rw [lfsrNext, lfsrFeedback_zero]
  rfl

/-! ### The period (R152) -/

/-- s_k is Next, k times, of the seed (R151). -/
theorem lfsrState_eq_iterate (taps : List (Fin 8)) (k : Nat) :
    lfsrState taps k = (lfsrNext taps)^[k] Config.lfsrSeed := by
  induction k with
  | zero => rfl
  | succ k ih => rw [lfsrState, ih, Function.iterate_succ_apply']

/-- s_n is the seed exactly when n is a period of it. -/
theorem lfsrState_eq_seed_iff {taps : List (Fin 8)} {n : Nat} :
    lfsrState taps n = Config.lfsrSeed ↔ Function.IsPeriodicPt (lfsrNext taps) n Config.lfsrSeed := by
  rw [lfsrState_eq_iterate]
  rfl

/-- The states repeat after a period. -/
theorem lfsrState_add_period {taps : List (Fin 8)} {n : Nat} (h : lfsrState taps n = Config.lfsrSeed) (k : Nat) :
    lfsrState taps (k + n) = lfsrState taps k := by
  rw [lfsrState_eq_iterate, Function.iterate_add_apply, ← lfsrState_eq_iterate, h, lfsrState_eq_iterate]

/-- A period no proper divisor of which is a period is the first: with a shorter one their greatest common divisor is a
period too. -/
theorem lfsrState_ne_seed {taps : List (Fin 8)} {n : Nat} (h : lfsrState taps n = Config.lfsrSeed)
    (hdiv : ∀ d ∈ n.properDivisors, lfsrState taps d ≠ Config.lfsrSeed) (k : Nat) (hpos : 0 < k) (hk : k < n) :
    lfsrState taps k ≠ Config.lfsrSeed := by
  intro hseed
  have hgcd : Nat.gcd k n < n := (Nat.gcd_le_left n hpos).trans_lt hk
  refine hdiv (Nat.gcd k n) (Nat.mem_properDivisors.2 ⟨Nat.gcd_dvd_right k n, hgcd⟩) ?_
  exact lfsrState_eq_seed_iff.2 ((lfsrState_eq_seed_iff.1 hseed).gcd (lfsrState_eq_seed_iff.1 h))

/-- Under the source's taps s_63 is the seed (R152). -/
theorem lfsrState_source_period : lfsrState [0, 1, 4, 7] 63 = 0x50#8 := by decide +kernel

/-- Under the alternative taps s_255 is the seed (R152). -/
theorem lfsrState_alternative_period : lfsrState [1, 4, 5, 7] 255 = 0x50#8 := by decide +kernel

/-- Settles O26: bit by bit, and by the periods' proper divisors. -/
theorem lfsrRecurrence : Obligations.LfsrRecurrence := by
  refine ⟨fun s => ?_, fun taps s j hj => getLsbD_lfsrNext_succ taps s hj, lfsrNext_zero, fun k => ?_,
    lfsrState_source_period, lfsrState_ne_seed lfsrState_source_period (by decide +kernel),
    lfsrState_alternative_period, lfsrState_ne_seed lfsrState_alternative_period (by decide +kernel), by decide,
    by decide⟩
  · rw [getLsbD_lfsrNext_zero]
    simp only [lfsrFeedback, List.foldl_cons, List.foldl_nil, Bool.false_xor]
    rfl
  · rw [streamBit, streamBit, lfsrState_add_period lfsrState_source_period]

/-! ### LFSR.SEED and LFSR.STEP (R153, R154) -/

/-- A bit as a word. -/
theorem setWidth_bitByte (b : Bool) : (bitByte b).setWidth 32 = if b then 1#32 else 0#32 := by
  cases b <;> rfl

/-- LFSR.SEED loads the seed (R153). -/
theorem exec_lfsrSeed {s : State} (hw : s.hostWaits = true) :
    exec .lfsrSeed s = .next { s.doneOk with lfsr := 0x50#8 } :=
  exec_of_reaches rfl hw (.trans (.act rfl rfl) (.finish rfl)) rfl

/-- LFSR.STEP emits the low bit and advances (R154). -/
theorem exec_lfsrStep {s : State} (hw : s.hostWaits = true) :
    exec .lfsrStep s = .next { s.doneOk with
      res0 := if s.lfsr.getLsbD 0 then 1#32 else 0#32
      lfsr := lfsrNext s.cfg.lfsrTaps s.lfsr
      res1 := (lfsrNext s.cfg.lfsrTaps s.lfsr).setWidth 32 } := by
  have hlfsr : ((lfsrNext s.cfg.lfsrTaps s.lfsr).setWidth 32).setWidth 8 = lfsrNext s.cfg.lfsrTaps s.lfsr :=
    BitVec.setWidth_setWidth_of_le _ (by decide)
  have hstep : exec .lfsrStep s = .next { s.doneOk with
      res0 := (bitByte (s.lfsr.getLsbD 0)).setWidth 32
      lfsr := ((lfsrNext s.cfg.lfsrTaps s.lfsr).setWidth 32).setWidth 8
      res1 := (lfsrNext s.cfg.lfsrTaps s.lfsr).setWidth 32 } :=
    exec_of_reaches rfl hw
      (.trans (.act rfl rfl) (.trans (.act rfl rfl) (.trans (.act rfl rfl) (.finish rfl)))) rfl
  rw [hstep, setWidth_bitByte, hlfsr]

/-- The state k steps after the seed: LFSR is s_k, and the last step returned o[k − 1] and s_k (R154). -/
def State.SteppedTo (taps : List (Fin 8)) (k : Nat) (s : State) : Prop :=
  s.hostWaits = true ∧ s.cfg.lfsrTaps = taps ∧ s.lfsr = lfsrState taps k ∧
    (1 ≤ k → s.res0 = (if streamBit taps (k - 1) then 1#32 else 0#32) ∧ s.res1 = (lfsrState taps k).setWidth 32)

/-- One LFSR.STEP moves one step on (R154). -/
theorem exec_lfsrStep_steppedTo {taps : List (Fin 8)} {k : Nat} {s : State} (h : s.SteppedTo taps k) :
    ∃ t, exec .lfsrStep s = .next t ∧ t.SteppedTo taps (k + 1) := by
  obtain ⟨hw, rfl, hlfsr, -⟩ := h
  refine ⟨_, exec_lfsrStep hw, waits_of hw rfl, rfl, ?_, fun _ => ⟨?_, ?_⟩⟩
  · exact congrArg (lfsrNext s.cfg.lfsrTaps) hlfsr
  · rw [hlfsr]
    rfl
  · rw [hlfsr]
    rfl

/-- k of them move k steps on (R154). -/
theorem execList_lfsrSteps {taps : List (Fin 8)} (k : Nat) {n : Nat} {s : State} (h : s.SteppedTo taps n) :
    ∃ t, execList (List.replicate k .lfsrStep) s = .next t ∧ t.SteppedTo taps (n + k) := by
  induction k generalizing n s with
  | zero => exact ⟨s, rfl, h⟩
  | succ k ih =>
    obtain ⟨t, ht, hstep⟩ := exec_lfsrStep_steppedTo h
    obtain ⟨u, hu, hsteps⟩ := ih hstep
    refine ⟨u, ?_, Nat.succ_add_eq_add_succ n k ▸ hsteps⟩
    rw [List.replicate_succ, execList, ht]
    exact hu

/-- Settles O25: one command each, and the seed followed by k steps. -/
theorem lfsrSeedAndStep : Obligations.LfsrSeedAndStep := by
  refine ⟨decodeOfEncode .lfsrSeed, decodeOfEncode .lfsrStep, fun s hw =>
    ⟨exec_lfsrSeed hw, exec_lfsrStep hw, fun k => ?_⟩⟩
  have hseeded : ({ s.doneOk with lfsr := 0x50#8 } : State).SteppedTo s.cfg.lfsrTaps 0 :=
    ⟨waits_of hw rfl, rfl, rfl, nofun⟩
  obtain ⟨t, ht, -, -, hlfsr, hres⟩ := execList_lfsrSteps k hseeded
  rw [Nat.zero_add] at hlfsr hres
  refine ⟨t, ?_, hlfsr, hres⟩
  rw [execList, exec_lfsrSeed hw]
  exact ht

/-! ### The expected response and the version (R160) -/

/-- A fold moves the version's bits down by two (R160). -/
theorem getLsbD_verFold_low (acc b : Byte) {j : Nat} (hj : j < 6) :
    (verFold acc b).getLsbD j = acc.getLsbD (j + 2) := by
  interval_cases j <;> simp [verFold]

/-- Bit 0 of the byte folded in becomes bit 6 (R160). -/
theorem getLsbD_verFold_six (acc b : Byte) : (verFold acc b).getLsbD 6 = b.getLsbD 0 := by
  simp [verFold]

/-- Its bit 5 becomes bit 7 (R160). -/
theorem getLsbD_verFold_seven (acc b : Byte) : (verFold acc b).getLsbD 7 = b.getLsbD 5 := by
  simp [verFold]

/-- Of four bytes byte k gives bits 2k and 2k + 1 of the version (R160). -/
theorem getLsbD_verDecode (b0 b1 b2 b3 : Byte) {k : Nat} (hk : k < 4) :
    (verDecode [b0, b1, b2, b3]).getLsbD (2 * k) = ([b0, b1, b2, b3].getD k 0#8).getLsbD 0 ∧
      (verDecode [b0, b1, b2, b3]).getLsbD (2 * k + 1) = ([b0, b1, b2, b3].getD k 0#8).getLsbD 5 := by
  interval_cases k <;>
    simp only [verDecode, List.foldl_cons, List.foldl_nil, getLsbD_verFold_low, getLsbD_verFold_six,
      getLsbD_verFold_seven, Nat.reduceMul, Nat.reduceAdd, Nat.reduceLT, List.getD_cons_zero, List.getD_cons_succ,
      and_self]

/-- Settles O29: the one-pass response from s_250 on, and four folds. -/
theorem expectedResponseAndVersion : Obligations.ExpectedResponseAndVersion := by
  refine ⟨fun p => ⟨rxh_length p, fun k hk => (rxhFrom_spec p 125 250).2 k hk⟩, fun l hl k hk => ?_⟩
  obtain ⟨b0, b1, b2, b3, rfl⟩ := List.length_eq_four.1 hl
  exact getLsbD_verDecode b0 b1 b2 b3 hk

/-! ### HS.RXBYTE and HS.VERDEC (R159, R162) -/

/-- Two stream bits as RES1 shows them (R159). -/
theorem rxBits_eq (p : Params) (k : Nat) :
    rxBits p k = BitVec.ofNat 32 ((streamBit p.lfsrTaps (250 + 2 * k)).toNat +
      2 * (streamBit p.lfsrTaps (251 + 2 * k)).toNat) := by
  show (bitByte (streamBit p.lfsrTaps (250 + 2 * k))).setWidth 32 |||
    ((bitByte (streamBit p.lfsrTaps (251 + 2 * k))).setWidth 32 <<< 1) = _
  cases streamBit p.lfsrTaps (250 + 2 * k) <;> cases streamBit p.lfsrTaps (251 + 2 * k) <;> rfl

/-- A byte past the response fails the check (R159). -/
theorem exec_hsRxbyte_range {s : State} (h : 125 ≤ s.arg0.toNat) :
    exec .hsRxbyte s = launch .hsRxbyte [.reject .operandError s.arg0] s := by
  rw [exec, execHsRxbyte, if_pos (by exact h)]
  rfl

/-- HS.RXBYTE after its check (R159). -/
theorem exec_hsRxbyte {s : State} (h : s.arg0.toNat < 125) :
    exec .hsRxbyte s = launch .hsRxbyte
      [.set .res0 (.const ((rxhByte s.cfg s.arg0.toNat).setWidth 32)),
        .set .res1 (.const (rxBits s.cfg s.arg0.toNat))] s := by
  rw [exec, execHsRxbyte, if_neg (by exact Nat.not_le.2 h)]

/-- Settles O28: the check, the two assignments, and the decode. -/
theorem hsRxbyteAndVerdec : Obligations.HsRxbyteAndVerdec := by
  refine ⟨decodeOfEncode .hsRxbyte, decodeOfEncode .hsVerdec, fun s hw =>
    ⟨fun h => exec_reject hw (exec_hsRxbyte_range h), fun h => ?_, ?_⟩⟩
  · rw [← rxBits_eq]
    exact exec_of_reaches (exec_hsRxbyte h) hw (.trans (.act rfl rfl) (.trans (.act rfl rfl) (.finish rfl))) rfl
  · exact exec_of_reaches rfl hw (.trans (.act rfl rfl) (.finish rfl)) rfl

/-! ### HS.VERIFY (R161) -/

section

variable {s : State}

/-- A compare that raises an error ends HS.VERIFY (R161, R285). -/
theorem exec_hsVerify_mismatch {info : Word} (hw : s.hostWaits = true)
    (h : hsCompare (s.start .hsVerify [.hsVersion, .hsAccept]) =
      (s.start .hsVerify [.hsVersion, .hsAccept]).raise .handshakeMismatch .handshakeRx info) :
    exec .hsVerify s = .next (s.doneErr .handshakeMismatch .handshakeRx info) :=
  exec_of_reaches rfl hw (.act rfl (congrArg some h)) rfl

/-- A compare that passes leads to the version (R161). -/
theorem reaches_hsVerify_version (hcnt : 129 ≤ s.rxcnt.toNat) (h : ∀ j, j < 125 → s.rxb.get j = rxhByte s.cfg j) :
    (s.start .hsVerify [.hsCompare, .hsVersion, .hsAccept]).Reaches
      ((s.start .hsVerify []).setPhase (.exec .hsVerify 0#32 [.hsVersion, .hsAccept])) :=
  .act rfl (congrArg some (hsCompare_eq (by exact hcnt) (by exact h)))

end

/-- Settles O30: the compare fails, or the version is written and then checked. -/
theorem hsVerifyResult : Obligations.HsVerifyResult := by
  refine ⟨decodeOfEncode .hsVerify, fun s hw => ⟨fun hfew => ?_, fun hcnt =>
    ⟨fun k hk hsame hne => ?_, fun hsame v hv => ⟨fun hone => ?_, fun hother => ?_⟩⟩⟩⟩
  · exact exec_hsVerify_mismatch hw (hsCompare_few hfew)
  · exact exec_hsVerify_mismatch hw (hsCompare_diff (s := s.start _ _) hcnt hk hsame hne)
  · have haccepted := reaches_versionOk (s := s.start .hsVerify []) (i := .hsVerify) (ret := 0#32) (todo := [])
      (hv.symm.trans hone)
    exact exec_of_reaches rfl hw ((reaches_hsVerify_version hcnt hsame).trans (haccepted.trans (.finish rfl))) rfl
  · have hrefused := reaches_badVersion (s := s.start .hsVerify []) (i := .hsVerify) (ret := 0#32) (todo := [])
      hv.symm hother
    exact exec_of_reaches rfl hw ((reaches_hsVerify_version hcnt hsame).trans hrefused) rfl

/-! ### HS.TX, ROM.CMD and ROM.LEN (R157, R201, R203) -/

section

variable {s : State} {i : Instr} {todo : List Act} {l : List Byte} {n : Nat}

/-- A command that starts with an append that does not fit writes nothing (R62). -/
theorem exec_append_over (hexec : exec i s = launch i (.append l :: todo) s) (hw : s.hostWaits = true)
    (hlen : l.length = n) (hover : s.cfg.pktCapacity.toNat < s.pktlen.toNat + n) (hslow : enclosingSlow todo = none)
    (hfast : inFastLoad i = false) : exec i s = .next (s.doneErr .bufferOverflow .build (BitVec.ofNat 32 n)) := by
  subst hlen
  refine exec_of_reaches hexec hw ((reaches_appendOver (s := s.start i []) (i := i) hover hslow).trans (.of_eq ?_)) rfl
  rw [markFast, if_neg (by simp [hfast])]
  rfl

/-- A command that is one append that fits (R62). -/
theorem exec_append_fit (hexec : exec i s = launch i [.append l] s) (hw : s.hostWaits = true) (hlen : l.length = n)
    (hfit : s.pktlen.toNat + n ≤ s.cfg.pktCapacity.toNat) :
    ∃ m, Memory.Stored s.pkt m s.pktlen.toNat l ∧
      exec i s = .next { s.doneOk with pkt := m, pktlen := s.pktlen + BitVec.ofNat 32 n } := by
  subst hlen
  exact ⟨_, Memory.stored_store .., exec_of_reaches hexec hw
    ((reaches_appended (s := s.start i []) (i := i) hfit).trans (.finish rfl)) rfl⟩

end

/-- The word of ROM.CMD: the LoadType's code in LT (R90, R93). -/
theorem encode_romCmd (lt : LoadType) : encode (.romCmd lt) = 0x40#32 ||| (lt.code.setWidth 32 <<< 8) := by
  cases lt <;> decide

/-- HS.TX that fits (R157). -/
theorem exec_hsTx_fit {s : State} (hw : s.hostWaits = true) (hlen : s.cfg.txh.length = 209)
    (hfit : s.pktlen.toNat + 209 ≤ s.cfg.pktCapacity.toNat) :
    ∃ m, Memory.Stored s.pkt m s.pktlen.toNat s.cfg.txh ∧
      exec .hsTx s = .next { s.doneOk with pkt := m, pktlen := s.pktlen + 209#32, res0 := 209#32 } := by
  have happended := reaches_appended (s := s.start .hsTx []) (i := .hsTx) (ret := 0#32)
    (todo := [.set .res0 (.const 209#32)]) (l := s.cfg.txh) (hlen ▸ hfit)
  rw [putPkt, hlen] at happended
  exact ⟨_, Memory.stored_store .., exec_of_reaches rfl hw
    (happended.trans (.trans (.act rfl rfl) (.finish rfl))) rfl⟩

/-- Settles O34: each command starts with an append of 209 or 11 bytes. -/
theorem hsTxRomCmdAndRomLen : Obligations.HsTxRomCmdAndRomLen := by
  refine ⟨⟨decodeOfEncode .hsTx, decodeOfEncode .romLen, fun lt => encode_romCmd lt ▸ decodeOfEncode (.romCmd lt)⟩,
    fun s hw hwf => ⟨fun hover => ?_, exec_hsTx_fit hw (txh_length hwf), fun hover => ⟨fun lt => ?_, ?_⟩, fun hfit =>
      ⟨fun lt => ?_, ?_⟩⟩⟩
  · exact exec_append_over rfl hw (txh_length hwf) hover rfl rfl
  · exact exec_append_over rfl hw (cmdConst_length hwf lt) hover rfl rfl
  · exact exec_append_over rfl hw (lenField_length s.cfg s.arg0) hover rfl rfl
  · exact exec_append_fit rfl hw (cmdConst_length hwf lt) hfit
  · exact exec_append_fit rfl hw (lenField_length s.cfg s.arg0) hfit

end Sys2Proof.Machine
end

section
/-! PROOFS. The image commands (R180 to R184): the checksum byte, and a header field read and written with the checks
they share. -/

namespace Sys2Proof.Machine

open State

/-! ### The checksum (R181, R182) -/

/-- Writing the byte that is there changes no byte. -/
theorem Memory.get_store_get (m : Memory) (a x : Nat) : (m.store a [m.get a]).get x = m.get x := by
  by_cases h : x = a
  · subst h
    exact get_store_inside (k := 0) Nat.zero_lt_one
  · exact get_store_outside (by simp only [List.length_singleton]; omega)

section

variable {s : State}

/-- An image without a checksum byte, or past IMG_MEM_SIZE, fails the check (R182). -/
theorem exec_imgCksum_size (h : s.imgsize.toNat < 6 ∨ s.cfg.imgMemSize < s.imgsize.toNat) :
    exec .imgCksum s = launch .imgCksum [.reject .operandError s.imgsize] s := by
  rw [exec, execImgCksum, if_pos (by simpa [badCksumImage] using h)]
  rfl

variable (h6 : 6 ≤ s.imgsize.toNat)
include h6

/-- With the new checksum byte the image sums to the target (R181). -/
theorem sumByte_newCksum :
    sumByte ((s.img.store 5 [s.newCksum]).read 0 s.imgsize.toNat) = s.cfg.targetChecksum := by
  have hold : s.image.getD 5 0#8 = s.img.get 5 := Memory.getD_read s.img 0 s.imgsize.toNat 5 h6
  calc sumByte ((s.img.store 5 [s.newCksum]).read 0 s.imgsize.toNat)
      = sumByte (s.image.set 5 s.newCksum) := congrArg sumByte (read_store_byte (a := 0) h6)
    _ = sumByte s.image - s.img.get 5 + s.newCksum := by
      rw [sum_set (by exact h6.trans_eq (Memory.read_length ..).symm), hold]
    _ = s.cfg.targetChecksum := add_sub_cancel _ _

/-- The image with its new checksum byte keeps that byte (R182). -/
theorem checksumByte_newCksum :
    checksumByte s.cfg.targetChecksum ((s.img.store 5 [s.newCksum]).read 0 s.imgsize.toNat)
      ((s.img.store 5 [s.newCksum]).get 5) = (s.img.store 5 [s.newCksum]).get 5 := by
  rw [checksumByte, sumByte_newCksum h6]
  exact sub_sub_cancel _ _

variable (himg : s.imgsize.toNat ≤ s.cfg.imgMemSize)
include himg

/-- IMG.CKSUM after its check (R182). -/
theorem exec_imgCksum (hw : s.hostWaits = true) :
    exec .imgCksum s = .next { s.doneOk with
      img := s.img.store 5 [s.newCksum]
      res0 := (sumByte s.image).signExtend 32 } := by
  have hexec : exec .imgCksum s = launch .imgCksum
      [.imgByte 5 s.newCksum, .set .res0 (.const ((sumByte s.image).signExtend 32))] s := by
    rw [exec, execImgCksum, if_neg (by simp [badCksumImage, h6, himg])]
    rfl
  exact exec_of_reaches hexec hw (.trans (.act rfl rfl) (.trans (.act rfl rfl) (.finish rfl))) rfl

end

/-- Settles O31: the first IMG.CKSUM reaches the target, so the second writes the byte that is there. -/
theorem imgCksumReachesTheTarget : Obligations.ImgCksumReachesTheTarget := by
  refine ⟨decodeOfEncode .imgCksum, fun s hw => ⟨fun h => exec_reject hw (exec_imgCksum_size h),
    fun h6 himg all hall => ?_⟩, fun s hw h6 himg => ?_⟩
  · subst hall
    exact ⟨_, Memory.stored_store .., exec_imgCksum h6 himg hw⟩
  · refine ⟨_, _, exec_imgCksum h6 himg hw, sumByte_newCksum h6, exec_imgCksum (by exact h6) (by exact himg) hw,
      fun x => ?_, ?_⟩
    · exact (congrArg (fun b => Memory.get (Memory.store _ 5 [b]) x) (checksumByte_newCksum h6)).trans
        (Memory.get_store_get _ 5 x)
    · exact congrArg (BitVec.signExtend 32) (sumByte_newCksum h6)

/-! ### Header fields (R180, R183, R184) -/

/-- The word of IMG.RDF: the field number in F (R90, R93). -/
theorem encode_imgRdf (f : BitVec 3) : encode (.imgRdf f) = 0x31#32 ||| (f.setWidth 32 <<< 10) := by
  revert f
  decide

/-- The word of IMG.WRF: the field number in F (R90, R93). -/
theorem encode_imgWrf (f : BitVec 3) : encode (.imgWrf f) = 0x32#32 ||| (f.setWidth 32 <<< 10) := by
  revert f
  decide

section

variable {s : State} {f : BitVec 3} {off n : Nat}

/-- A field number without a field fails the check (R183). -/
theorem State.headerField_none (h : imgField f = none) : s.headerField f = none := by
  simp only [headerField, h]

variable (h : imgField f = some (off, n))
include h

/-- A field past the image, or an image past IMG_MEM_SIZE, fails the check (R183). -/
theorem State.headerField_past (hpast : s.imgsize.toNat < off + n ∨ s.cfg.imgMemSize < s.imgsize.toNat) :
    s.headerField f = none := by
  simp only [headerField, h]
  exact if_pos hpast

/-- A field in the image passes the check (R183). -/
theorem State.headerField_inside (hend : off + n ≤ s.imgsize.toNat) (himg : s.imgsize.toNat ≤ s.cfg.imgMemSize) :
    s.headerField f = some (off, n) := by
  simp only [headerField, h]
  exact if_neg (not_or.2 ⟨Nat.not_lt.2 hend, Nat.not_lt.2 himg⟩)

end

section

variable {s : State} {f : BitVec 3} (hw : s.hostWaits = true)
include hw

/-- IMG.RDF that fails its check (R183). -/
theorem exec_imgRdf_fails (h : s.headerField f = none) :
    exec (.imgRdf f) s = .next (s.doneErr .operandError .none (f.setWidth 32)) := by
  refine exec_reject hw ?_
  simp only [exec, execImgRdf, h]
  rfl

/-- IMG.WRF that fails its check (R184). -/
theorem exec_imgWrf_fails (h : s.headerField f = none) :
    exec (.imgWrf f) s = .next (s.doneErr .operandError .none (f.setWidth 32)) := by
  refine exec_reject hw ?_
  simp only [exec, execImgWrf, h]
  rfl

variable {off n : Nat} (h : s.headerField f = some (off, n))
include h

/-- IMG.RDF of a field (R66, R183). -/
theorem exec_imgRdf :
    exec (.imgRdf f) s = .next { s.doneOk with
      res0 := BitVec.ofNat 32 (((List.range n).map fun k => (s.img.get (off + k)).toNat * 2 ^ (8 * k)).sum) } := by
  have hvalue : leValue (s.img.read off n) =
      ((List.range n).map fun k => (s.img.get (off + k)).toNat * 2 ^ (8 * k)).sum := by
    rw [leValue_eq, Memory.read_length]
    refine congrArg List.sum (List.map_congr_left fun k hk => ?_)
    exact congrArg (·.toNat * 2 ^ (8 * k)) (Memory.getD_read s.img off n k (List.mem_range.1 hk))
  have hexec : exec (.imgRdf f) s = launch (.imgRdf f)
      [.set .res0 (.const (BitVec.ofNat 32 (leValue (s.img.read off n))))] s := by
    simp only [exec, execImgRdf, h]
  rw [← hvalue]
  exact exec_of_reaches hexec hw (.trans (.act rfl rfl) (.finish rfl)) rfl

end

/-- IMG.WRF's loop stores its bytes one after another (R73, R184). -/
theorem State.reaches_imgBytes {i : Instr} {ret : Word} {todo : List Act} (l : List Byte) {s : State} {off : Nat} :
    (s.setPhase (.exec i ret (imgBytes off l ++ todo))).Reaches
      (({ s with img := s.img.storeEach off l } : State).setPhase (.exec i ret todo)) := by
  induction l generalizing s off with
  | nil => exact .refl _
  | cons b l ih => exact .trans (.act rfl rfl) (ih (s := s.setImgByte off b) (off := off + 1))

/-- IMG.WRF of a field (R66, R184). -/
theorem exec_imgWrf {s : State} {f : BitVec 3} {off n : Nat} (hw : s.hostWaits = true)
    (h : s.headerField f = some (off, n)) :
    exec (.imgWrf f) s = .next { s.doneOk with img := s.img.storeEach off (leBytes s.arg0 n) } := by
  have hexec : exec (.imgWrf f) s = launch (.imgWrf f) (imgBytes off (leBytes s.arg0 n) ++ []) s := by
    simp only [exec, execImgWrf, h, List.append_nil]
  exact exec_of_reaches hexec hw ((reaches_imgBytes (s := s.start (.imgWrf f) []) _).trans (.finish rfl)) rfl

/-- Settles O32: the field table, and the check that fails or the value of the field's bytes. -/
theorem imgRdfResult : Obligations.ImgRdfResult := by
  refine ⟨fun f => encode_imgRdf f ▸ decodeOfEncode (.imgRdf f), by decide, fun f s hw =>
    ⟨fun hnone => exec_imgRdf_fails hw (headerField_none hnone), fun off n h => ⟨fun hpast => ?_, fun hend himg => ?_⟩⟩⟩
  · exact exec_imgRdf_fails hw (headerField_past h hpast)
  · exact exec_imgRdf hw (headerField_inside h hend himg)

/-- Settles O33: the same check, and the low bytes of ARG0 stored one after another. -/
theorem imgWrfResult : Obligations.ImgWrfResult := by
  refine ⟨fun f => encode_imgWrf f ▸ decodeOfEncode (.imgWrf f), fun f s hw =>
    ⟨fun hnone => exec_imgWrf_fails hw (headerField_none hnone), fun off n h => ⟨fun hpast => ?_, fun hend himg => ?_⟩⟩⟩
  · exact exec_imgWrf_fails hw (headerField_past h hpast)
  · exact ⟨_, Memory.stored_storeEach .., exec_imgWrf hw (headerField_inside h hend himg)⟩

end Sys2Proof.Machine
end

section
/-! PROOFS. FAST.BEGIN (R240, R241): its steps, second-stage attempts that fail and are tried again, and the load that
succeeds at any of them. -/

namespace Sys2Proof.Machine

open State

section

variable {s : State} {i : Instr} {ret : Word} {todo : List Act} {st : List IoStatus} {rx : List RxAnswer}

/-! ### A baud switch, the readiness response and assignments (R241) -/

/-- A named assignment of a value that is w. -/
theorem State.reaches_assign {r : SeqReg} {v : Val} {w : Word} (h : (s.setPhase (.exec i ret todo)).val v = w) :
    (s.setPhase (.exec i ret (.set r v :: todo))).Reaches ((s.assign r w).setPhase (.exec i ret todo)) := by
  refine .act rfl ?_
  subst h
  cases r <;> rfl

/-- ConnSetBaud that succeeds. -/
theorem State.reaches_baudOk {b : Word} (hs : s.env.status = .ok :: st) :
    (s.setPhase (.exec i ret (.setBaud b :: todo))).Reaches
      ((((s.call (.setBaud b)).setStatus st).assign .baud b).setPhase (.exec i ret todo)) :=
  .of_run 3 fun hw =>
    (run_setBaud (s := s.setPhase (.exec i ret (.setBaud b :: todo))) 0 rfl hs hw).trans rfl

/-- The readiness response that carries PKTID (R241). -/
theorem State.reaches_ready {r : List Byte} (hx : s.env.rx = .bytes r :: rx) (hlen : r.length = 8)
    (hr : le32 r = s.pktid) :
    (s.setPhase (.exec i ret (.recv 8 2000 .ready :: todo))).Reaches
      ((s.afterReceive 8 2000 r rx).setPhase (.exec i ret todo)) := by
  have hheard := reaches_receive (i := i) (ret := ret) (n := 8) (t := 2000) (k := .ready) (todo := todo) hx
  rw [deliver_bytes hlen] at hheard
  exact hheard.trans (.of_eq (if_pos hr))

/-! ### Attempts that fail and are tried again (R241, log 15) -/

/-- An error of an attempt before the last one starts the next attempt (R241, log 15). -/
theorem State.raise_retried {a : Nat} (c : ErrCode) (stage : Stage) (info : Word) (h : a < s.cfg.nStage2Attempts) :
    (s.setPhase (.exec .fastBegin ret (.slowEnd a :: todo))).raise c stage info =
      (s.setSState .failed).setPhase (.exec .fastBegin ret (.slowLoad .run (a + 1) :: todo)) := by
  rw [raise, setPhase_phase]
  exact if_pos ⟨rfl, h⟩

/-- Only a packet that does not fit overflows the packet buffer (R62, R210). -/
theorem SlowFailure.eq_overflow {f : SlowFailure} {p : Params} {lt : LoadType} {packet : List Byte} {baud : Word}
    (h : f.possible p lt packet baud) (hover : p.pktCapacity.toNat < packet.length) : f = .overflow := by
  cases f with
  | overflow => rfl
  | resetFails | sendFails | recvFails | noResponse => exact absurd h (Nat.not_le.2 hover)
  | differs | badVersion | ack => exact absurd h.1 (Nat.not_le.2 hover)

/-- What failed attempts leave in PKT: no byte past the packet is changed, and none at all if it does not fit (R62). -/
def Memory.TriedPacket (p : Params) (packet : List Byte) (m m' : Memory) : Prop :=
  (∀ x, packet.length ≤ x → m'.get x = m.get x) ∧ (p.pktCapacity.toNat < packet.length → m' = m)

/-- One more failed attempt. -/
theorem Memory.TriedPacket.of_attempt {p : Params} {packet : List Byte} {m m' m'' : Memory} {f : SlowFailure}
    {lt : LoadType} {baud : Word} (hposs : f.possible p lt packet baud) (hsame : f = .overflow → m' = m)
    (hstored : f ≠ .overflow → Memory.Stored m m' 0 packet) (h : TriedPacket p packet m' m'') :
    TriedPacket p packet m m'' := by
  obtain ⟨hpast, hover⟩ := h
  refine ⟨fun x hx => (hpast x hx).trans ?_, fun hlong =>
    (hover hlong).trans (hsame (SlowFailure.eq_overflow hposs hlong))⟩
  by_cases hf : f = .overflow
  · rw [hsame hf]
  · exact (hstored hf).2 x (.inr (by omega))

/-- The packet stored after failed attempts is stored in what was there before them. -/
theorem Memory.TriedPacket.stored {p : Params} {packet : List Byte} {m m' : Memory} (h : TriedPacket p packet m m') :
    Memory.Stored m (m'.store 0 packet) 0 packet := by
  obtain ⟨hin, hout⟩ := Memory.stored_store m' 0 packet
  exact ⟨hin, fun x hx => (hout x hx).trans (h.1 x (by omega))⟩

/-- Second-stage attempts that fail, none of them the last one: the next attempt starts with what their steps left
(R241, log 15). -/
theorem State.reaches_retried {packet : List Byte} (fs : List SlowFailure) {s : State} {ret : Word} {a : Nat}
    (hpacket : packet = romPacket s.cfg .run s.image) (hposs : ∀ f ∈ fs, f.possible s.cfg .run packet s.baud)
    (hleft : fs.length ≤ s.cfg.nStage2Attempts - a) (hs : s.env.status = fs.flatMap SlowFailure.statuses ++ st)
    (hx : s.env.rx = fs.flatMap SlowFailure.answers ++ rx) :
    ∃ q m len m₁ ret', Memory.TriedPacket s.cfg packet s.pkt m ∧
      Memory.Received s.rxb m₁ (fs.flatMap SlowFailure.received) ∧
      (s.setPhase (.exec .fastBegin ret (.slowLoad .run a :: todo))).Reaches
        ((s.afterSlow q (fs.foldl (fun v f => f.version v) s.version) m len m₁
          (fs.foldl (fun c f => f.count c) s.rxcnt) st rx (fs.flatMap fun f => f.calls s.cfg packet)).setPhase
            (.exec .fastBegin ret' (.slowLoad .run (a + fs.length) :: todo))) := by
  induction fs generalizing s ret a with
  | nil =>
    obtain rfl : s.env.status = st := hs
    obtain rfl : s.env.rx = rx := hx
    refine ⟨s.sstate, s.pkt, s.pktlen, s.rxb, ret, ⟨fun _ _ => rfl, fun _ => rfl⟩, fun _ => rfl, .of_eq ?_⟩
    simp only [afterSlow, List.flatMap_nil, List.append_nil]
    rfl
  | cons f fs ih =>
    rw [List.flatMap_cons, List.append_assoc] at hs hx
    rw [List.length_cons] at hleft
    have hf := hposs f List.mem_cons_self
    obtain ⟨m, m₁, q, ret₁, hsame, hstored, hm₁, hfail⟩ := reaches_slowFailure (i := .fastBegin) (ret := ret) (a := a)
      (todo := todo) hpacket hf hs hx
    rw [raise_retried _ _ _ (by show a < s.cfg.nStage2Attempts; omega)] at hfail
    obtain ⟨q', m', len', m₁', ret', hpkt, hm₁', hrest⟩ := ih (a := a + 1) (ret := ret₁)
      (s := s.afterSlow .failed (f.version s.version) m (f.pktlen packet) m₁ (f.count s.rxcnt)
        (fs.flatMap SlowFailure.statuses ++ st) (fs.flatMap SlowFailure.answers ++ rx) (f.calls s.cfg packet))
      hpacket (fun g hg => hposs g (List.mem_cons_of_mem f hg))
      (by show fs.length ≤ s.cfg.nStage2Attempts - (a + 1); omega) rfl rfl
    refine ⟨q', m', len', m₁', ret', hpkt.of_attempt hf hsame hstored, hm₁.append hm₁', hfail.trans
      (hrest.trans (.of_eq ?_))⟩
    simp only [afterSlow, List.flatMap_cons, List.append_assoc, List.length_cons, Nat.add_assoc, Nat.add_comm 1]
    rfl

/-- After attempts that fail, one that succeeds (R210, R241). -/
theorem State.reaches_loaded {packet l : List Byte} {fs : List SlowFailure} {a k : Nat}
    (hpacket : packet = romPacket s.cfg .run s.image) (hposs : ∀ f ∈ fs, f.possible s.cfg .run packet s.baud)
    (hleft : fs.length ≤ s.cfg.nStage2Attempts - a) (hfit : packet.length ≤ s.cfg.pktCapacity.toNat)
    (hgood : goodResponse s.cfg l) (hpos : 1 ≤ k) (hk : k ≤ pollCount packet.length 250 s.baud)
    (hs : s.env.status = fs.flatMap SlowFailure.statuses ++ (List.replicate (2 + k) .ok ++ st))
    (hx : s.env.rx = fs.flatMap SlowFailure.answers ++ RxAnswer.bytes l :: (ackAtPoll k ++ rx)) :
    ∃ m m₁, Memory.Stored s.pkt m 0 packet ∧
      Memory.Received s.rxb m₁ (fs.flatMap SlowFailure.received ++ [l, [0xFE#8]]) ∧
      (s.setPhase (.exec .fastBegin ret (.slowLoad .run a :: todo))).Reaches
        ((s.afterSlow .done 1#8 m (BitVec.ofNat 32 packet.length) m₁ 1#32 st rx
          (fs.flatMap (fun f => f.calls s.cfg packet) ++ [ConnCall.reset, .send packet, .recv 129 2000] ++
            pollCalls s.cfg k)).setPhase (.exec .fastBegin (BitVec.ofNat 32 (a + fs.length)) todo)) := by
  have hacked : ackedAt [k] (ackBudgets .run packet s.baud) := ackedAt_cons hpos hk ackedAt_nil
  have hsent : List.replicate (2 + k) IoStatus.ok ++ st = .ok :: .ok :: (List.replicate [k].sum .ok ++ st) := by
    rw [List.replicate_add, List.sum_singleton]
    rfl
  obtain ⟨q, m, len, m₁, ret', hpkt, hm₁, hretried⟩ := reaches_retried fs (ret := ret) (todo := todo) hpacket hposs
    hleft hs hx
  obtain ⟨m₂, hm₂, hdone⟩ := reaches_slowDone (i := .fastBegin) (ret := ret') (todo := todo) (lt := .run)
    (a := a + fs.length) (packet := packet) (l := l) (acked := [k]) (st := st) (rx := rx)
    (s := s.afterSlow q (fs.foldl (fun v f => f.version v) s.version) m len m₁
      (fs.foldl (fun c f => f.count c) s.rxcnt) (List.replicate (2 + k) IoStatus.ok ++ st) (.bytes l :: (ackAtPoll k ++ rx))
      (fs.flatMap fun f => f.calls s.cfg packet))
    hpacket hfit hgood hacked rfl hsent (by simp [afterSlow])
  refine ⟨_, m₂, hpkt.stored, ?_, hretried.trans (hdone.trans (.of_eq ?_))⟩
  · exact hm₁.append ((Memory.received_of_stored (Memory.stored_storeEach m₁ 0 l)).append hm₂)
  · simp only [afterSlow, List.flatMap_singleton, List.append_assoc]

end

/-! ### FAST.BEGIN (R240, R241) -/

/-- The steps of FAST.BEGIN after its slow load (R241). -/
def readyActs (baud : Word) : List Act :=
  [.recv 8 2000 .ready, .setBaud baud, .set .cksum (.const 0#32), .fstate .secondStageStarted, .set .res0 .pktid,
    .set .res1 .ret]

/-- FAST.BEGIN up to its first slow load, the first baud switch being made (R240, R241). -/
def State.begun (st : List IoStatus) (s : State) : State :=
  { s.start .fastBegin [] with
    fstate := .begin
    pktid := packetCount s.arg0
    img := s.img.store 5 [s.newCksum]
    baud := s.arg1
    env := { s.env with status := st }
    calls := s.calls ++ [.setBaud s.arg1] }

section

variable {s : State} {st : List IoStatus} {rx : List RxAnswer}

/-- FAST.BEGIN after its checks (R241). -/
theorem exec_fastBegin (hbaud : s.arg1 ≠ 0#32) (hbaud' : s.arg2 ≠ 0#32) (h6 : 6 ≤ s.imgsize.toNat)
    (hcount : s.imgsize.toNat % 4 = 0) (himg : s.imgsize.toNat ≤ s.cfg.imgMemSize) :
    exec .fastBegin s = launch .fastBegin (.fstate .begin :: .set .pktid (.const (packetCount s.arg0)) ::
      .imgByte 5 s.newCksum :: .setBaud s.arg1 :: .slowLoad .run 1 :: readyActs s.arg2) s := by
  rw [exec, execFastBegin, if_neg (by simp [hbaud, hbaud']),
    if_neg (by simp [badCksumImage, badRomImage, h6, hcount, himg])]
  rfl

/-- The first baud switch succeeds (R241). -/
theorem State.reaches_begun {todo : List Act} (hs : s.env.status = .ok :: st) :
    (s.start .fastBegin (.fstate .begin :: .set .pktid (.const (packetCount s.arg0)) :: .imgByte 5 s.newCksum ::
      .setBaud s.arg1 :: todo)).Reaches ((s.begun st).setPhase (.exec .fastBegin 0#32 todo)) := by
  have hbaud := reaches_baudOk (i := .fastBegin) (ret := 0#32) (b := s.arg1) (todo := todo) (st := st)
    (s := { s.start .fastBegin [] with
      fstate := .begin
      pktid := packetCount s.arg0
      img := s.img.store 5 [s.newCksum] }) hs
  exact .trans (.act rfl rfl) (.trans (.act rfl rfl) (.trans (.act rfl rfl) hbaud))

/-- The steps of FAST.BEGIN after its second baud switch (R241). -/
theorem State.reaches_beginEnd {ret : Word} :
    (s.setPhase (.exec .fastBegin ret [.set .cksum (.const 0#32), .fstate .secondStageStarted, .set .res0 .pktid,
      .set .res1 .ret])).Reaches
      { s.finish with fstate := .secondStageStarted, cksum := 0#32, res0 := s.pktid, res1 := ret } := by
  have hfstate : ((s.assign .cksum 0#32).setPhase (.exec .fastBegin ret [.fstate .secondStageStarted,
      .set .res0 .pktid, .set .res1 .ret])).Reaches (((s.assign .cksum 0#32).setFState .secondStageStarted).setPhase
        (.exec .fastBegin ret [.set .res0 .pktid, .set .res1 .ret])) := .act rfl rfl
  refine (reaches_assign (w := 0#32) rfl).trans (hfstate.trans ((reaches_assign (w := s.pktid) rfl).trans
    ((reaches_assign (w := ret) rfl).trans (.trans (.finish rfl) (.of_eq ?_)))))
  simp only [finish, assign, setFState, setPhase]

/-- FAST.BEGIN after its slow load: the readiness response and the second baud switch (R241). -/
theorem State.reaches_secondStage {ret : Word} {r : List Byte} {baud : Word} (hs : s.env.status = .ok :: st)
    (hx : s.env.rx = .bytes r :: rx) (hlen : r.length = 8) (hr : le32 r = s.pktid) :
    (s.setPhase (.exec .fastBegin ret (readyActs baud))).Reaches
      ({ s.finish with
        fstate := .secondStageStarted
        cksum := 0#32
        baud := baud
        rxb := s.rxb.storeEach 0 r
        rxcnt := 8#32
        res0 := s.pktid
        res1 := ret
        env := { s.env with status := st, rx := rx }
        calls := s.calls ++ [.recv 8 2000, .setBaud baud] }) := by
  have hbaud := reaches_baudOk (s := s.afterReceive 8 2000 r rx) (i := .fastBegin) (ret := ret) (b := baud)
    (todo := [.set .cksum (.const 0#32), .fstate .secondStageStarted, .set .res0 .pktid, .set .res1 .ret]) hs
  refine (reaches_ready hx hlen hr).trans (hbaud.trans (reaches_beginEnd.trans (.of_eq ?_)))
  simp only [afterReceive, hlen, call, setStatus, assign, finish, List.append_assoc]
  rfl

end

/-- Settles O43: attempts that are tried again, the slow load that succeeds, the readiness response and the second baud
switch. -/
theorem fastBeginSucceeds : Obligations.FastBeginSucceeds := by
  intro s packet l r img fs i st rx hw hbaud hbaud' h6 hcount himg himg' hpacket hfit hleft hposs hpos hi hgood hlen hr
    hs hx
  subst himg'
  have hafter : List.replicate (3 + i) IoStatus.ok ++ st = List.replicate (2 + i) .ok ++ .ok :: st := by
    rw [show 3 + i = 2 + i + 1 by omega, List.replicate_succ', List.append_assoc, List.singleton_append]
  rw [List.append_assoc, hafter] at hs
  have hbegun := reaches_begun (todo := .slowLoad .run 1 :: readyActs s.arg2) hs
  obtain ⟨m, m₁, hm, hm₁, hloaded⟩ := reaches_loaded (ret := 0#32) (a := 1) (k := i)
    (todo := readyActs s.arg2) (st := .ok :: st) (rx := .bytes r :: rx) (s := s.begun _)
    hpacket hposs (hleft.elim (fun h => h ▸ Nat.zero_le _) Nat.le_sub_one_of_lt) hfit hgood hpos hi rfl hx
  refine ⟨Memory.stored_store .., m, m₁.storeEach 0 r, hm, ?_, ?_⟩
  · have hall := hm₁.append (Memory.received_of_stored (Memory.stored_storeEach m₁ 0 r))
    rwa [List.append_assoc] at hall
  · refine (exec_of_reaches (exec_fastBegin hbaud hbaud' h6 hcount himg) hw
      (hbegun.trans (hloaded.trans (reaches_secondStage rfl rfl hlen hr))) rfl).trans ?_
    simp only [afterSlow, begun, start, finish, Nat.add_comm 1, List.append_assoc]
    rfl

end Sys2Proof.Machine
end

section
/-! PROOFS. The length field (R202), ROM.BUILD (R200, R204) and ROM.ACK (R205 to R207). -/

namespace Sys2Proof.Machine

open State

/-! ### The length field (R202) -/

/-- A slot's bit in place (R202). -/
theorem bitByte_shiftLeft (b : Bool) (k : Nat) : bitByte b <<< k = if b then 1#8 <<< k else 0#8 := by
  cases b
  · exact BitVec.zero_shiftLeft k
  · rfl

/-- An element has the bits of the base, and each slot's bit in its place (R202). -/
theorem getLsbD_lenElem (p : Params) (s0 s1 s2 : Bool) (k : Fin 8) :
    (lenElem p s0 s1 s2).getLsbD k = (p.lenElemBase.getLsbD k || s0 && decide (k = p.lenSlot0) ||
      s1 && decide (k = p.lenSlot1) || s2 && decide (k = p.lenSlot2)) := by
  have slot (b : Bool) (j : Fin 8) : (bitByte b <<< j.val).getLsbD k = (b && decide (k = j)) := by
    cases b
    · simp [bitByte_shiftLeft]
    · revert j k
      decide
  simp only [lenElem, BitVec.getLsbD_or, slot]

section

variable (p : Params) (c : Word)

/-- Each of the first ten elements takes three bits of the count in LEN_ORDER (R202). -/
theorem lenField_getElem? {i : Nat} (hi : i < 10) : (lenField p c)[i]? =
    some (lenElem p (lenBit p c (3 * i)) (lenBit p c (3 * i + 1)) (lenBit p c (3 * i + 2))) := by
  rw [lenField, List.getElem?_append_left (by simpa [Config.lenElems] using hi), List.getElem?_map,
    List.getElem?_range (by simpa [Config.lenElems] using hi)]
  rfl

/-- The last element takes the other two, and has the final tag (R202). -/
theorem lenField_getElem?_last :
    (lenField p c)[10]? = some (lenElem p (lenBit p c 30) (lenBit p c 31) false ||| p.lenFinalTag) := by
  rw [lenField, List.getElem?_append_right (by simp [Config.lenElems])]
  simp [Config.lenElems, lenField.q, Config.lenBitsPerElem]

end

variable {p : Params} {c d : Word}

/-- The count is its bits in LEN_ORDER. -/
theorem eq_of_lenBit (h : ∀ j < 32, lenBit p c j = lenBit p d j) : c = d := by
  refine BitVec.eq_of_getLsbD_eq fun k hk => ?_
  unfold lenBit at h
  cases horder : p.lenOrder with
  | lsbFirst => simpa only [horder] using h k hk
  | msbFirst =>
    have hk' := h (31 - k) (by omega)
    rw [horder, show 31 - (31 - k) = k by omega] at hk'
    exact hk'

/-- When the slots are distinct bits that the base and the final tag leave clear, each bit of the count can be read
from the field (R202). -/
theorem lenBit_eq_of_lenField_eq (h01 : p.lenSlot0 ≠ p.lenSlot1) (h02 : p.lenSlot0 ≠ p.lenSlot2)
    (h12 : p.lenSlot1 ≠ p.lenSlot2)
    (hclear : (p.lenElemBase.getLsbD p.lenSlot0.val || p.lenElemBase.getLsbD p.lenSlot1.val ||
      p.lenElemBase.getLsbD p.lenSlot2.val || p.lenFinalTag.getLsbD p.lenSlot0.val ||
      p.lenFinalTag.getLsbD p.lenSlot1.val) = false)
    (h : lenField p c = lenField p d) {j : Nat} (hj : j < 32) : lenBit p c j = lenBit p d j := by
  simp only [Bool.or_eq_false_iff] at hclear
  obtain ⟨⟨⟨⟨hbase0, hbase1⟩, hbase2⟩, htag0⟩, htag1⟩ := hclear
  obtain hlast | hj : 30 ≤ j ∨ j < 30 := by omega
  · have helem := Option.some.inj ((lenField_getElem?_last p c).symm.trans (h ▸ lenField_getElem?_last p d))
    have hbit (k : Fin 8) := congrArg (BitVec.getLsbD · k) helem
    simp only [BitVec.getLsbD_or, getLsbD_lenElem] at hbit
    obtain rfl | rfl : j = 30 ∨ j = 31 := by omega
    · simpa [-BitVec.getLsbD_eq_getElem, hbase0, htag0, h01] using hbit p.lenSlot0
    · simpa [-BitVec.getLsbD_eq_getElem, hbase1, htag1, h01.symm] using hbit p.lenSlot1
  · have hi : j / 3 < 10 := by omega
    have helem := Option.some.inj ((lenField_getElem? p c hi).symm.trans (h ▸ lenField_getElem? p d hi))
    have hbit (k : Fin 8) := congrArg (BitVec.getLsbD · k) helem
    simp only [getLsbD_lenElem] at hbit
    obtain hr | hr | hr : j = 3 * (j / 3) ∨ j = 3 * (j / 3) + 1 ∨ j = 3 * (j / 3) + 2 := by omega
    · rw [hr]
      simpa [-BitVec.getLsbD_eq_getElem, hbase0, h01, h02] using hbit p.lenSlot0
    · rw [hr]
      simpa [-BitVec.getLsbD_eq_getElem, hbase1, h01.symm, h12] using hbit p.lenSlot1
    · rw [hr]
      simpa [-BitVec.getLsbD_eq_getElem, hbase2, h02.symm, h12.symm] using hbit p.lenSlot2

/-- Settles O35: the elements by their bits in LEN_ORDER, from which every bit of the count can be read. -/
theorem lenFieldDeterminesTheCount : Obligations.LenFieldDeterminesTheCount := by
  refine ⟨fun p s0 s1 s2 => ?_, fun p c => ⟨lenField_length p c, fun horder => ⟨fun i hi => ?_, ?_⟩,
    fun horder => ⟨fun i hi => ?_, ?_⟩⟩, fun p h01 h02 h12 hclear c d h =>
      eq_of_lenBit fun j hj => lenBit_eq_of_lenField_eq h01 h02 h12 hclear h hj⟩
  · simp only [lenElem, bitByte_shiftLeft]
  · have hbit : 31 - (3 * i + 1) = 30 - 3 * i ∧ 31 - (3 * i + 2) = 29 - 3 * i := by omega
    simp only [lenField_getElem? p c hi, lenBit, horder, hbit]
  · simp only [lenField_getElem?_last, lenBit, horder]
  · simp only [lenField_getElem? p c hi, lenBit, horder]
  · simp only [lenField_getElem?_last, lenBit, horder]

/-! ### ROM.BUILD (R200, R204) -/

/-- The word of ROM.BUILD: the LoadType's code in LT (R90, R93). -/
theorem encode_romBuild (lt : LoadType) : encode (.romBuild lt) = 0x42#32 ||| (lt.code.setWidth 32 <<< 8) := by
  cases lt <;> decide

section

variable {s : State} {lt : LoadType}

/-- No LT 0 (R92). -/
theorem exec_romBuild_shutdown (s : State) :
    exec (.romBuild .shutdown) s = launch (.romBuild .shutdown) [.reject .operandError 0#32] s :=
  rfl

/-- An image without a word count, or past IMG_MEM_SIZE, fails the second check (R204). -/
theorem exec_romBuild_image (hlt : lt ≠ .shutdown)
    (h : s.imgsize.toNat % 4 ≠ 0 ∨ s.cfg.imgMemSize < s.imgsize.toNat) :
    exec (.romBuild lt) s = launch (.romBuild lt) [.reject .operandError s.imgsize] s := by
  rw [exec, execRomBuild, if_neg (legalLoadType_of_ne hlt), if_pos (by simpa [badRomImage] using h)]
  rfl

/-- ROM.BUILD after its checks (R204). -/
theorem exec_romBuild (hlt : lt ≠ .shutdown) (hcount : s.imgsize.toNat % 4 = 0)
    (himg : s.imgsize.toNat ≤ s.cfg.imgMemSize) : exec (.romBuild lt) s = launch (.romBuild lt)
      [.clearPkt, .append (romPacket s.cfg lt s.image), .set .res0 .pktlen] s := by
  rw [exec, execRomBuild, if_neg (legalLoadType_of_ne hlt), if_neg (by simp [badRomImage, hcount, himg])]

/-- The packet of the image in IMG (R200). -/
theorem romPacket_image (s : State) (lt : LoadType) : romPacket s.cfg lt s.image =
    s.cfg.txh ++ s.cfg.cmdConst lt.code.toNat ++ lenField s.cfg (BitVec.ofNat 32 (s.imgsize.toNat / 4)) ++
      encodeBits s.cfg (s.img.read 0 s.imgsize.toNat) := by
  rw [romPacket, State.image, Memory.read_length]

end

/-- Settles O36: the checks in their order, and the packet that is built in an emptied buffer or does not fit. -/
theorem romBuildResult : Obligations.RomBuildResult := by
  refine ⟨fun lt => encode_romBuild lt ▸ decodeOfEncode (.romBuild lt), fun lt s hw => ⟨fun hlt => ?_,
    fun hlt => ⟨fun h => exec_reject hw (exec_romBuild_image hlt h), fun hcount himg packet hpacket =>
      ⟨fun hover => ?_, fun hfit => ?_⟩⟩⟩⟩
  · subst hlt
    exact exec_reject hw (exec_romBuild_shutdown s)
  all_goals
    rw [← romPacket_image] at hpacket
    have hexec := hpacket ▸ exec_romBuild hlt hcount himg
  · have hfailed := reaches_overflow (s := s.start (.romBuild lt) []) (i := .romBuild lt) (ret := 0#32)
      (todo := [.set .res0 .pktlen]) hover
    rw [raise_of_noSlow _ _ _ rfl] at hfailed
    exact exec_of_reaches hexec hw hfailed rfl
  · have hbuilt := reaches_built (s := s.start (.romBuild lt) []) (i := .romBuild lt) (ret := 0#32)
      (todo := [.set .res0 .pktlen]) hfit
    exact ⟨_, Memory.stored_store s.pkt 0 packet, exec_of_reaches hexec hw
      (hbuilt.trans ((reaches_assign (w := BitVec.ofNat 32 packet.length) rfl).trans (.finish rfl))) rfl⟩

/-! ### ROM.ACK (R205 to R207) -/

section

variable {s : State} {n : Nat}

/-- No baud rate fails the check (R206). -/
theorem exec_romAck_baud (h : s.baud = 0#32) :
    exec .romAck s = launch .romAck [.reject .operandError 0#32] s := by
  rw [exec, execRomAck, if_pos h]
  rfl

/-- The steps of ROM.ACK after AckPoll (R207). -/
def ackResultActs (polls : Nat) : List Act := [.set .res0 .ret, .set .res1 (.const (BitVec.ofNat 32 polls))]

/-- ROM.ACK after its check (R206). -/
theorem exec_romAck (h : s.baud ≠ 0#32) (hn : n = pollCount s.arg0.toNat s.arg1.toNat s.baud) :
    exec .romAck s = launch .romAck
      (.ackPoll (some s.arg0.toNat) s.arg1.toNat .checksumAck :: ackResultActs n) s := by
  rw [exec, execRomAck, if_neg h, hn]
  rfl

variable {k : Nat} {st : List IoStatus} {rx : List RxAnswer} (hw : s.hostWaits = true) (h : s.baud ≠ 0#32)
  (hn : n = pollCount s.arg0.toNat s.arg1.toNat s.baud) (hk : k + 1 ≤ n)
include hw h hn hk

/-- ROM.ACK that hears 0xFE at poll k + 1 (R205, R207). -/
theorem exec_romAck_acknowledged (hs : s.env.status = List.replicate (k + 1) .ok ++ st)
    (hx : s.env.rx = ackAtPoll (k + 1) ++ rx) :
    exec .romAck s = .next { s.doneOk with
      res0 := BitVec.ofNat 32 (k + 1)
      res1 := BitVec.ofNat 32 n
      rxb := s.rxb.store 0 [0xFE#8]
      rxcnt := 1#32
      env := { s.env with status := st, rx := rx }
      calls := s.calls ++ pollCalls s.cfg (k + 1) } := by
  have hacked := reaches_acknowledged (s := s.start .romAck []) (i := .romAck) (ret := 0#32)
    (bc := some s.arg0.toNat) (extra := s.arg1.toNat) (stage := .checksumAck) (todo := ackResultActs n)
    (Nat.succ_pos k) (hn ▸ hk) hs hx
  exact exec_of_reaches (exec_romAck h hn) hw (hacked.trans
    ((reaches_assign (w := BitVec.ofNat 32 (k + 1)) rfl).trans
      ((reaches_assign (w := BitVec.ofNat 32 n) rfl).trans (.finish rfl)))) rfl

/-- ROM.ACK whose poll k + 1 hears an answer that is an error (R205, R206). -/
theorem exec_romAck_fails {r : RxAnswer} {c : ErrCode} {stage : Stage} {info : Word}
    (hs : s.env.status = List.replicate (k + 1) .ok ++ st) (hx : s.env.rx = List.replicate k .timeout ++ r :: rx)
    (hraise : ∀ u, RxUse.act (.poll (k + 1) n .checksumAck) (deliver 1 r) u = u.raise c stage info) :
    exec .romAck s = .next { s.doneErr c stage info with
      rxb := s.rxb.storeEach 0 (deliver 1 r).heard
      rxcnt := BitVec.ofNat 32 (deliver 1 r).heard.length
      env := { s.env with status := st, rx := rx }
      calls := s.calls ++ pollCalls s.cfg (k + 1) } := by
  subst hn
  have hheard := reaches_poll (s := s.start .romAck []) (i := .romAck) (ret := 0#32) (bc := some s.arg0.toNat)
    (extra := s.arg1.toNat) (stage := .checksumAck)
    (todo := ackResultActs (pollCount s.arg0.toNat s.arg1.toNat s.baud)) hk hs hx
  refine exec_of_reaches (exec_romAck h rfl) hw (hheard.trans (.of_eq ((hraise _).trans ?_))) rfl
  exact raise_of_noSlow _ _ _ rfl

/-- ROM.ACK whose poll k + 1 cannot send its probe (R205, R206). -/
theorem exec_romAck_sendFails (hs : s.env.status = List.replicate k .ok ++ .ioErr :: st)
    (hx : s.env.rx = List.replicate k .timeout ++ rx) :
    exec .romAck s = .next { s.doneErr .connectionIo .send (BitVec.ofNat 32 (k + 1)) with
      rxcnt := if k = 0 then s.rxcnt else 0#32
      env := { s.env with status := st, rx := rx }
      calls := s.calls ++ pollCalls s.cfg k ++ [.send [0xF9#8]] } := by
  subst hn
  have hpolled := reaches_polls (s := s.start .romAck []) (i := .romAck) (ret := 0#32) (bc := some s.arg0.toNat)
    (extra := s.arg1.toNat) (stage := .checksumAck)
    (todo := ackResultActs (pollCount s.arg0.toNat s.arg1.toNat s.baud)) hk hs hx
  refine exec_of_reaches (exec_romAck h rfl) hw (hpolled.trans ((reaches_sendIoErr (st := st) rfl).trans (.of_eq ?_)))
    rfl
  exact raise_of_noSlow _ _ _ rfl

end

/-- Settles O37: the check, and the polls that time out before the one that decides. -/
theorem romAckResult : Obligations.RomAckResult := by
  refine ⟨decodeOfEncode .romAck, fun s hw => ⟨fun h => exec_reject hw (exec_romAck_baud h),
    fun h polls i st st' rx rx' hn hpos hi hs hx => ?_⟩⟩
  obtain ⟨k, rfl⟩ : ∃ k, i = k + 1 := ⟨i - 1, by omega⟩
  simp only [Nat.add_sub_cancel] at hs hx ⊢
  have hsent (hst : st = .ok :: st') : s.env.status = List.replicate (k + 1) .ok ++ st' := by
    rw [hs, hst, List.replicate_succ', List.append_assoc, List.singleton_append]
  refine ⟨fun hst hrx => ?_, fun b hb hst hrx => ?_, fun hst hrx => ?_, fun hst => ?_, fun hlast hst hrx => ?_⟩
  · subst hrx
    refine ⟨_, Memory.stored_store .., exec_romAck_acknowledged hw h hn hi (hsent hst) (hx.trans ?_)⟩
    rw [ackAtPoll, List.append_assoc]
    rfl
  · subst hrx
    exact ⟨_, Memory.stored_storeEach s.rxb 0 [b],
      exec_romAck_fails hw h hn hi (hsent hst) hx fun _ => if_neg hb⟩
  · subst hrx
    exact exec_romAck_fails hw h hn hi (hsent hst) hx fun _ => rfl
  · subst hst
    simp only [Nat.add_eq_right]
    exact exec_romAck_sendFails hw h hn hi hs hx
  · subst hrx
    exact exec_romAck_fails hw h hn hi (hsent hst) hx fun _ => if_neg (by omega)

end Sys2Proof.Machine
end

section
/-! PROOFS. How the load commands end (R209, R236, R285): what SSTATE and FSTATE come to if no error is raised, carried
over every step as a weakest precondition of the steps still to do. -/

namespace Sys2Proof.Machine

open State

/-! ### Where the steps still to do lead -/

/-- The codes of a load command's failed checks (R236, R281). -/
def isCheckCode (i : Instr) (c : ErrCode) : Prop :=
  c = .operandError ∨ (inFastLoad i = true ∧ c = .sequenceError)

/-- An error raised with these steps still to do is marked: FSTATE becomes Failed, or SSTATE does because SlowLoad runs
(R285). -/
def errorMarked (i : Instr) (todo : List Act) : Prop :=
  inFastLoad i = true ∨ ∃ p, enclosingSlow todo = some p

/-- What must hold of SSTATE and FSTATE before a step of command i for `after` to hold of them after it and the steps it
puts in front. After SlowLoad SSTATE is Done; its end asks this of every FSTATE, for the attempts that an error starts
(R241). A step that can raise an error must have it marked. -/
def Act.leadsTo (i : Instr) (todo : List Act) (after : SState → FState → Prop) (q : SState) (f : FState) : Act → Prop
  | .sstate q' => after q' f
  | .fstate f' => after q f'
  | .slowLoad _ _ => ∀ f', after .done f'
  | .slowEnd _ => after q f ∧ ∀ f', after .done f'
  | .chunk _ size pos _ => after q (if pos < size then .transmitting else f) ∧ errorMarked i todo
  | .reject c _ => isCheckCode i c ∧ enclosingSlow todo = none
  | _ => after q f ∧ errorMarked i todo

/-- What must hold of SSTATE and FSTATE before the steps still to do for `good` to hold of them at an end without an
error. -/
def leadsTo (i : Instr) (good : SState → FState → Prop) : List Act → SState → FState → Prop
  | [], q, f => good q f
  | a :: todo, q, f => a.leadsTo i todo (leadsTo i good todo) q f

/-- A step that leaves SSTATE and FSTATE alone unless it raises an error, and is no part of SlowLoad's frame. -/
def Act.plain : Act → Bool
  | .sstate _ => false
  | .fstate _ => false
  | .slowLoad _ _ => false
  | .slowEnd _ => false
  | .chunk _ _ _ _ => false
  | .reject _ _ => false
  | _ => true

variable {i : Instr} {good : SState → FState → Prop} {q : SState} {f : FState}

/-- A plain step asks for what the steps after it ask for, and that its error is marked. -/
theorem leadsTo_plain {a : Act} (ha : a.plain = true) {todo : List Act} :
    leadsTo i good (a :: todo) q f ↔ leadsTo i good todo q f ∧ errorMarked i todo := by
  cases a with
  | sstate | fstate | slowLoad | slowEnd | chunk | reject => cases ha
  | _ => exact Iff.rfl

/-- Plain steps are in no way the end of SlowLoad. -/
theorem enclosingSlow_plain {l : List Act} (hl : l.all Act.plain = true) (todo : List Act) :
    enclosingSlow (l ++ todo) = enclosingSlow todo := by
  induction l with
  | nil => rfl
  | cons a l ih =>
    obtain ⟨ha, hl⟩ : a.plain = true ∧ l.all Act.plain = true := by simpa using hl
    cases a with
    | sstate | fstate | slowLoad | slowEnd | chunk | reject => cases ha
    | _ => exact ih hl

/-- Plain steps in front lead where the others do. -/
theorem leadsTo_append {l todo : List Act} (hl : l.all Act.plain = true) (hmark : errorMarked i todo)
    (h : leadsTo i good todo q f) : leadsTo i good (l ++ todo) q f := by
  induction l with
  | nil => exact h
  | cons a l ih =>
    obtain ⟨ha, hl⟩ : a.plain = true ∧ l.all Act.plain = true := by simpa using hl
    exact (leadsTo_plain ha).2 ⟨ih hl, hmark.imp_right fun h => (enclosingSlow_plain hl todo).symm ▸ h⟩

/-- Inside SlowLoad what follows it leads to the good end from Done and every FSTATE, so another attempt can follow
(R241). -/
theorem leadsTo_after {todo after : List Act} {k : Nat} (h : leadsTo i good todo q f)
    (hslow : enclosingSlow todo = some (k, after)) (f' : FState) : leadsTo i good after .done f' := by
  induction todo generalizing q f with
  | nil => cases hslow
  | cons a todo ih =>
    cases a with
    | slowEnd m => cases hslow; exact h.2 f'
    | slowLoad lt m => exact ih (h f') hslow
    | sstate | fstate => exact ih h hslow
    | reject => cases h.2.symm.trans hslow
    | _ => exact ih h.1 hslow

/-- SlowLoad's own steps end in Done (R209, R210). -/
theorem leadsTo_slowLoadActs {packet : List Byte} {lt : LoadType} {k : Nat} {todo : List Act}
    (h : ∀ f', leadsTo i good todo .done f') : leadsTo i good (slowLoadActs packet lt k ++ todo) q f := by
  cases lt <;> simp [slowLoadActs, needsEeprom, leadsTo, Act.leadsTo, errorMarked, enclosingSlow, h]

/-- The steps a plain step puts in front are plain. -/
theorem Act.pushed_plain {a : Act} (ha : a.plain = true) (s : State) : (a.pushed s).all Act.plain = true := by
  have bytes (off : Nat) (l : List Byte) : (rxBytes off l).all Act.plain = true := by
    induction l generalizing off with
    | nil => rfl
    | cons b bs ih => exact ih (off + 1)
  cases a with
  | sstate | fstate | slowLoad | slowEnd | chunk | reject => cases ha
  | heard n k =>
    simp only [pushed]
    split
    · rfl
    · rw [receiveActs_eq, List.all_append, bytes]
      rfl
  | answered r k => cases k <;> rfl
  | xmit x a => simp only [pushed]; split <;> rfl
  | _ => rfl

/-! ### The end of a load command -/

/-- The error was marked: FSTATE is Failed for the three fast-load commands, SSTATE for ROM.LOAD (R209, R236,
R285). -/
def State.markedFailed (i : Instr) (s : State) : Prop :=
  if inFastLoad i then s.fstate = .failed else s.sstate = .failed

/-- Command i ended with a failed check or a marked error, or with SSTATE and FSTATE as `good` says, or it still runs
and its steps still to do lead there. -/
def State.endsMarked (i : Instr) (good : SState → FState → Prop) (s : State) : Prop :=
  (s.phase = .idle ∧ s.err = true ∧ (isCheckCode i s.ecode ∨ s.markedFailed i)) ∨
    (s.phase = .idle ∧ s.err = false ∧ good s.sstate s.fstate) ∨
    ∃ ret todo, s.phase = .exec i ret todo ∧ s.err = false ∧ leadsTo i good todo s.sstate s.fstate

/-- A step of command i was taken off the list, and an error it raises would be marked. -/
structure State.Midstep (i : Instr) (good : SState → FState → Prop) (todo : List Act) (s : State) : Prop where
  phase : ∃ ret, s.phase = .exec i ret todo
  err : s.err = false
  leads : leadsTo i good todo s.sstate s.fstate
  marked : errorMarked i todo

namespace State.Midstep

variable {todo : List Act} {s t : State} (hs : s.Midstep i good todo)
include hs

theorem goesOn : s.endsMarked i good :=
  let ⟨ret, hp⟩ := hs.phase
  .inr (.inr ⟨ret, todo, hp, hs.err, hs.leads⟩)

theorem returns (v : Word) : (s.setRet v).endsMarked i good :=
  let ⟨_, hp⟩ := hs.phase
  .inr (.inr ⟨v, todo, by simp [setRet, hp], hs.err, hs.leads⟩)

theorem pushes {l : List Act} (hl : l.all Act.plain = true) : (s.push l).endsMarked i good :=
  let ⟨ret, hp⟩ := hs.phase
  .inr (.inr ⟨ret, l ++ todo, by simp [push, hp], hs.err, leadsTo_append hl hs.marked hs.leads⟩)

/-- An error is marked, or starts the next attempt of the second stage, from which the steps still to do lead to the
same end (R241, R285). -/
theorem raises (c : ErrCode) (st : Stage) (info : Word) : (s.raise c st info).endsMarked i good := by
  obtain ⟨ret, hp⟩ := hs.phase
  have fast (u : State) (h : inFastLoad i = true) : (u.markFast i).fstate = .failed := by
    rw [markFast, if_pos h, setFState_fstate]
  simp only [State.raise, hp]
  split
  · rename_i hslow
    have hfast : inFastLoad i = true := hs.marked.resolve_right (by simp [hslow])
    exact .inl ⟨rfl, rfl, .inr ((if_pos hfast).mpr (fast s hfast))⟩
  · rename_i k after hslow
    split
    · exact .inr (.inr ⟨ret, _, rfl, hs.err, leadsTo_after hs.leads hslow⟩)
    · refine .inl ⟨rfl, rfl, .inr ?_⟩
      by_cases hfast : inFastLoad i = true
      · exact (if_pos hfast).mpr (fast _ hfast)
      · rw [markFast, if_neg hfast]
        exact (if_neg hfast).mpr rfl

/-- Updates of other fields keep it. -/
theorem of_eq {u : State} (h : (u.phase, u.err, u.sstate, u.fstate) = (s.phase, s.err, s.sstate, s.fstate)) :
    u.Midstep i good todo := by
  simp only [Prod.mk.injEq] at h
  obtain ⟨hp, herr, hq, hf⟩ := h
  exact ⟨hp ▸ hs.phase, herr ▸ hs.err, hq ▸ hf ▸ hs.leads, hs.marked⟩

/-- The return of ConnSend, ConnReset or ConnSetBaud. -/
theorem takesStatus {g : State → State} {c : ErrCode} {st : Stage} {info : Word}
    (hg : ∀ u : State, u.Midstep i good todo → (g u).endsMarked i good)
    (ht : takeStatus g (State.raise c st info) s = some t) : t.endsMarked i good := by
  unfold takeStatus at ht
  split at ht
  · cases ht
  · cases ht; exact hg _ (hs.of_eq rfl)
  · rename_i rest _
    cases ht; exact raises (s := s.setStatus rest) (hs.of_eq rfl) ..

/-- A bad or missing response (R232). -/
theorem retries (x : Exchange) (a : Nat) (last : Word) : (xmitRetry x a last s).endsMarked i good := by
  unfold xmitRetry
  split
  · exact hs.pushes rfl
  · exact hs.raises ..

/-- The step that goes on with an answer (R205, R210, R232, R241, R264). -/
theorem answered (r : RxAnswer) (k : RxUse) : (k.act r s).endsMarked i good := by
  cases k with
  | raw => cases r with
    | bytes l => exact hs.goesOn
    | timeout | ioErr => exact hs.raises ..
  | handshake => cases r with
    | bytes l => exact hs.goesOn
    | timeout => exact hs.goesOn
    | ioErr => exact hs.raises ..
  | poll j n st => cases r with
    | bytes l =>
      dsimp only [RxUse.act]
      split
      · exact hs.returns _
      · exact hs.raises ..
    | timeout =>
      dsimp only [RxUse.act]
      split
      · exact hs.pushes rfl
      · exact hs.raises ..
    | ioErr => exact hs.raises ..
  | response x a => cases r with
    | bytes l =>
      dsimp only [RxUse.act]
      split
      · exact hs.returns _
      · exact hs.retries ..
    | timeout => exact hs.retries ..
    | ioErr => exact hs.raises ..
  | ready => cases r with
    | bytes l =>
      dsimp only [RxUse.act]
      split
      · exact hs.goesOn
      · exact hs.raises ..
    | timeout | ioErr => exact hs.raises ..

/-- A plain step keeps the promise of the steps still to do, or raises an error that is marked. -/
theorem runs {a : Act} (ha : a.plain = true) (h : a.run s = some t) : t.endsMarked i good := by
  have sends (c : ConnCall) {l : List Act} (hl : l.all Act.plain = true) : ((s.call c).push l).endsMarked i good :=
    pushes (hs.of_eq rfl) hl
  cases a with
  | sstate | fstate | slowLoad | slowEnd | chunk | reject => cases ha
  | set r v => cases h; exact (hs.of_eq (by simp)).goesOn
  | imgByte | clearPkt | rxByte | rxCount | hsVersion | attempt => cases h; exact (hs.of_eq rfl).goesOn
  | append l =>
    cases h
    rcases s.appendPkt_cases l with ⟨_, h⟩ | ⟨_, h⟩ <;> rw [h]
    · exact hs.raises ..
    · exact (hs.of_eq rfl).goesOn
  | send | sendPkt | connReset | setBaud | recv => cases h; exact sends _ rfl
  | sent | wasReset => exact hs.takesStatus (fun _ hu => hu.goesOn) h
  | baudSet => exact hs.takesStatus (fun _ hu => hu.pushes rfl) h
  | heard n k =>
    cases hr : s.env.rx with
    | nil => rw [Act.run, takeRx_nil hr] at h; cases h
    | cons r rest =>
      have hpushed := Act.pushed_plain ha s
      simp only [Act.pushed, hr] at hpushed
      rw [Act.run, takeRx_cons hr] at h
      cases h
      exact pushes (hs.of_eq rfl) hpushed
  | answered r k => cases h; exact hs.answered r k
  | hsCompare =>
    cases h; unfold Machine.hsCompare
    split
    · exact hs.raises ..
    · split
      · exact hs.goesOn
      · exact hs.raises ..
  | hsAccept =>
    cases h; unfold Machine.hsAccept
    split
    · exact hs.goesOn
    · exact hs.raises ..
  | ackPoll => cases h; exact hs.pushes rfl
  | xmit x a => cases h; exact pushes (hs.of_eq rfl) (Act.pushed_plain (a := .xmit x a) rfl s)
  | expect want st =>
    cases h
    split
    · exact hs.goesOn
    · exact hs.raises ..

end State.Midstep

/-- The chunk loop sets FSTATE while there is something to send (R244). -/
theorem chunkStep_endsMarked {todo : List Act} {s : State} {off size pos n : Nat}
    (hs : (s.setFState (if pos < size then .transmitting else s.fstate)).Midstep i good todo) :
    (chunkStep off size pos n s).endsMarked i good := by
  unfold chunkStep
  split
  · rename_i hpos
    rw [if_pos hpos] at hs
    obtain ⟨⟨ret, hp⟩, herr, hleads, hmarked⟩ := hs
    have hrest (pos' n' : Nat) : leadsTo i good (.chunk off size pos' n' :: todo) s.sstate .transmitting :=
      ⟨(ite_self FState.transmitting).symm ▸ hleads, hmarked⟩
    refine .inr (.inr ⟨ret, _, by simp only [push, hp]; rfl, herr, ?_⟩)
    exact leadsTo_append (l := [.xmit _ 1, .expect _ _, .set _ _, .set _ _]) rfl hmarked (hrest _ _)
  · rename_i hpos
    rw [if_neg hpos] at hs
    exact State.Midstep.pushes (s := s) (hs.of_eq rfl) rfl

/-- The other steps set SSTATE or FSTATE as foreseen, or are failed checks. -/
theorem State.seqStep_endsMarked {s t : State} (hs : s.endsMarked i good) (h : s.seqStep = some t) :
    t.endsMarked i good := by
  obtain ⟨hp, -⟩ | ⟨hp, -⟩ | ⟨ret, todo, hp, herr, hleads⟩ := hs
  · simp [hp] at h
  · simp [hp] at h
  cases todo with
  | nil =>
    rw [seqStep_nil hp] at h
    cases h
    exact .inr (.inl ⟨rfl, herr, hleads⟩)
  | cons a todo =>
    rw [seqStep_cons hp] at h
    cases a with
    | sstate q => cases h; exact .inr (.inr ⟨ret, todo, rfl, herr, hleads⟩)
    | fstate f => cases h; exact .inr (.inr ⟨ret, todo, rfl, herr, hleads⟩)
    | slowLoad lt k => cases h; exact .inr (.inr ⟨ret, _, rfl, herr, leadsTo_slowLoadActs hleads⟩)
    | slowEnd k => cases h; exact .inr (.inr ⟨_, todo, rfl, herr, hleads.1⟩)
    | reject c info => cases h; exact .inl ⟨rfl, rfl, .inl hleads.1⟩
    | chunk off size pos n =>
      cases h
      obtain ⟨hleads, hmarked⟩ := hleads
      exact chunkStep_endsMarked ⟨⟨ret, rfl⟩, herr, hleads, hmarked⟩
    | _ =>
      obtain ⟨hleads, hmarked⟩ := hleads
      exact State.Midstep.runs (s := s.setPhase (.exec i ret todo)) ⟨⟨ret, rfl⟩, herr, hleads, hmarked⟩ rfl h

/-- It depends on the phase, ERR, ECODE, SSTATE and FSTATE alone. -/
theorem runInvariant_endsMarked (i : Instr) (good : SState → FState → Prop) :
    RunInvariant (State.endsMarked i good) where
  outside _ _ _ _ _ _ h := h
  seqStep _ _ := seqStep_endsMarked

/-! ### The steps a load command starts with -/

/-- A load command starts with steps that lead to the end `good`. -/
def startsLeadingTo (i : Instr) (s : State) (good : SState → FState → Prop) : Prop :=
  ∃ todo, exec i s = launch i todo s ∧ leadsTo i good todo s.sstate s.fstate

/-- A failed check needs no further steps (R281). -/
theorem leadsTo_reject {c : ErrCode} (info : Word) (h : isCheckCode i c) : leadsTo i good [.reject c info] q f :=
  ⟨h, rfl⟩

/-- So for an OPERAND_ERROR. -/
theorem leadsTo_operandError (info : Word) : leadsTo i good (operandError info) q f :=
  leadsTo_reject info (.inl rfl)

/-- A check leads where both its outcomes lead. -/
theorem leadsTo_ite {p : Prop} [Decidable p] {l l' : List Act} (h : p → leadsTo i good l q f)
    (h' : ¬p → leadsTo i good l' q f) : leadsTo i good (if p then l else l') q f := by
  split
  · exact h ‹_›
  · exact h' ‹_›

/-- ROM.LOAD leads to SSTATE Done (R209). -/
theorem romLoad_leads (lt : LoadType) (s : State) : startsLeadingTo (.romLoad lt) s fun q _ => q = .done :=
  ⟨_, rfl, leadsTo_ite (fun _ => leadsTo_operandError _) fun _ => leadsTo_ite (fun _ => leadsTo_operandError _) fun _ =>
    leadsTo_ite (fun _ => leadsTo_operandError _) fun _ _ => rfl⟩

/-- FAST.BEGIN leads to SecondStageStarted, after a slow load (R236, R241). -/
theorem fastBegin_leads (s : State) : startsLeadingTo .fastBegin s fun q f => f = .secondStageStarted ∧ q = .done := by
  refine ⟨_, rfl, leadsTo_ite (fun _ => leadsTo_operandError _) fun _ => leadsTo_ite (fun _ => leadsTo_operandError _)
    fun _ => ?_⟩
  simp [leadsTo, Act.leadsTo, errorMarked, inFastLoad]

/-- FAST.DATA leads to Transmitting, or leaves FSTATE as it is when there is nothing to send (R236, R244). -/
theorem fastData_leads (s : State) : startsLeadingTo .fastData s fun _ f =>
    f = if s.arg1 = 0#32 then s.fstate else .transmitting := by
  refine ⟨_, rfl, leadsTo_ite (fun _ => leadsTo_operandError _) fun _ => leadsTo_ite (fun _ => leadsTo_operandError _)
    fun _ => leadsTo_ite (fun _ => leadsTo_reject _ (.inr ⟨rfl, rfl⟩)) fun _ => ⟨?_, .inl rfl⟩⟩
  have hsize : 0 < s.arg1.toNat ↔ ¬s.arg1 = 0#32 := by
    rw [Nat.pos_iff_ne_zero, ← BitVec.toNat_inj, BitVec.toNat_zero]
  simp only [leadsTo, hsize, ite_not]

/-- FAST.END leads to Launched (R236, R247). -/
theorem fastEnd_leads (lt : LoadType) (s : State) : startsLeadingTo (.fastEnd lt) s fun _ f => f = .launched := by
  refine ⟨_, rfl, leadsTo_ite (fun _ => leadsTo_operandError _) fun _ => ?_⟩
  split
  · exact leadsTo_operandError _
  · refine leadsTo_ite (fun _ => leadsTo_reject _ (.inr ⟨rfl, rfl⟩)) fun _ => ?_
    cases lt <;> simp [fastEndActs, endExchange, needsEeprom, leadsTo, Act.leadsTo, errorMarked, inFastLoad]

/-- A load command that has ended with an error failed a check or marked the error; without one it ended as its steps
led. -/
theorem ends_of_follows {s u t : State} (hstart : startsLeadingTo i s good) (hexec : exec i s = .next u)
    (hfollows : Follows u t) (hidle : t.phase = .idle) :
    (t.err = true → isCheckCode i t.ecode ∨ t.markedFailed i) ∧ (t.err = false → good t.sstate t.fstate) := by
  obtain ⟨todo, hlaunch, hleads⟩ := hstart
  obtain ⟨-, herr, hend⟩ | ⟨-, herr, hgood⟩ | ⟨_, _, hp, -⟩ := (runInvariant_endsMarked i good).follows_exec hlaunch
    (.inr (.inr ⟨_, todo, rfl, rfl, hleads⟩)) hexec hfollows
  · exact ⟨fun _ => hend, fun h => absurd (h.symm.trans herr) Bool.false_ne_true⟩
  · exact ⟨fun h => absurd (herr.symm.trans h) Bool.false_ne_true, fun _ => hgood⟩
  · cases hidle.symm.trans hp

/-- Settles O49: what the steps still to do lead to holds at an end without an error, and an error is marked wherever it
is raised. -/
theorem loadsEndInTheNamedState : Obligations.LoadsEndInTheNamedState := by
  refine ⟨fun s u t lt hexec hfollows hidle => ?_, fun i s u t hmoves hexec hfollows hidle => ?_⟩
  · obtain ⟨hfail, hgood⟩ := ends_of_follows (romLoad_leads lt s) hexec hfollows hidle
    refine ⟨fun herr hcode => ?_, hgood⟩
    simpa [isCheckCode, inFastLoad, hcode, State.markedFailed] using hfail herr
  · rw [← inFastLoad_eq_movesFState] at hmoves
    have ends {good} (hstart : startsLeadingTo i s good) :
        (t.err = true → t.ecode ≠ .operandError → t.ecode ≠ .sequenceError → t.fstate = .failed) ∧
          (t.err = false → good t.sstate t.fstate) := by
      refine (ends_of_follows hstart hexec hfollows hidle).imp_left fun hfail herr hcode hcode' => ?_
      simpa [isCheckCode, hmoves, hcode, hcode', State.markedFailed] using hfail herr
    cases i with
    | fastBegin => exact (ends (fastBegin_leads s)).imp_right fun h herr => ⟨fun _ => h herr, nofun, nofun⟩
    | fastData => exact (ends (fastData_leads s)).imp_right fun h herr => ⟨nofun, fun _ => h herr, nofun⟩
    | fastEnd lt => exact (ends (fastEnd_leads lt s)).imp_right fun h herr => ⟨nofun, nofun, fun _ _ => h herr⟩
    | _ => cases hmoves

end Sys2Proof.Machine
end

section
/-! PROOFS. FAST.XMIT accepted at its first, second or third attempt (R232, R235). -/

namespace Sys2Proof.Machine

open State

/-- Every delivery has the length asked for (R232). -/
theorem length_of_mem_deliveries {n : Nat} {answers : List RxAnswer} {l : List Byte} (h : l ∈ deliveries n answers) :
    l.length = n := by
  obtain ⟨r, -, hr⟩ := List.mem_filterMap.1 h
  cases hd : deliver n r with
  | bytes l' =>
    rw [hd] at hr
    exact Option.some.inj hr ▸ length_of_deliver hd
  | timeout | ioErr =>
    rw [hd] at hr
    cases hr

/-- Lists no longer than the last one leave its bytes alone (R63). -/
theorem Memory.stored_last {m m' : Memory} {ls : List (List Byte)} {l : List Byte} (h : Received m m' (ls ++ [l]))
    (hlen : ∀ k ∈ ls, k.length ≤ l.length) : Stored m m' 0 l := by
  have hx (x : Nat) := (h x).trans (List.foldl_append ..)
  refine ⟨fun k hk => ?_, fun x hout => ?_⟩
  · rw [Nat.zero_add]
    exact (hx k).trans (if_pos hk)
  · have hout : l.length ≤ x := by omega
    refine (hx x).trans ((if_neg (Nat.not_lt.2 hout)).trans ?_)
    exact List.foldlRecOn ls _ (motive := (· = m.get x)) rfl
      fun b hb k hk => (if_neg (Nat.not_lt.2 ((hlen k hk).trans hout))).trans hb

/-- An answer with the tag that was sent and a result other than the id is accepted, and its bytes stand in RXB
(R63, R232). -/
theorem State.reaches_answer {s : State} {i : Instr} {ret : Word} {todo : List Act} {x : Exchange}
    (hresp : x.resp = true) {bad : List RxAnswer} {l : List Byte} {st : List IoStatus} {rx : List RxAnswer}
    (hs : s.env.status = List.replicate (bad.length + 1) .ok ++ st) (hx : s.env.rx = bad ++ .bytes l :: rx)
    (hnone : noneAccepted x.id s.env bad) (hbad : bad.length < 3) (hl : l.length = 8)
    (htag : le32 (l.drop 4) = s.env.tagNo bad.length) (hid : le32 l ≠ x.id) :
    ∃ m, Memory.Stored s.rxb m 0 l ∧
      (s.setPhase (.exec i ret (.xmit x 1 :: todo))).Reaches ((s.afterExchange (bad.length + 1) m 8#32
        (xmitCalls x.id x.payload x.timeout s.env (bad.length + 1)) st rx).setPhase (.exec i (le32 l) todo)) := by
  have hd : deliver Config.pktRspLen (.bytes l) = .bytes l := deliver_bytes hl
  have hcount : lastCount (.bytes l) = 8#32 := by rw [lastCount, hd]
  have hreceived := received_afterAttempts x (bad ++ [.bytes l]) 1 s
  rw [deliveries, List.filterMap_append, ← deliveries] at hreceived
  refine ⟨_, Memory.stored_last (l := l) (by simpa [show deliver 8 (.bytes l) = .bytes l from hd] using hreceived)
    fun k hk => (length_of_mem_deliveries hk).trans_le hl.ge, ?_⟩
  refine (reaches_lastAnswer hresp hs hx hnone (by omega)).trans ?_
  rw [afterAttempts_eq_afterExchange hs hx, hd, hcount]
  exact .of_eq (if_pos ⟨htag, hid⟩)

/-- The two results of FAST.XMIT (R235). -/
theorem State.reaches_xmitEnd {s : State} {i : Instr} {ret w : Word} (hw : s.attempt.setWidth 32 = w) :
    (s.setPhase (.exec i ret [.set .res0 .ret, .set .res1 .attempt])).Reaches
      { s.finish with res0 := ret, res1 := w } := by
  refine (reaches_assign (w := ret) rfl).trans ((reaches_assign (w := w) (by exact hw)).trans
    (.trans (.finish rfl) (.of_eq ?_)))
  simp only [finish, assign, setPhase]

/-- Settles O40: the answer is accepted, and the two results are assigned. -/
theorem fastXmitAccepted : Obligations.FastXmitAccepted := by
  intro s psel payload l t bad rx st a hw hpsel himg hpay hlen ht ha ha3 hnone hl htag hid hs hx
  subst hpay ht ha
  obtain ⟨m, hm, hreach⟩ := reaches_answer (s := s.start (.fastXmit psel true) []) (i := .fastXmit psel true)
    (ret := 0#32) (todo := [.set .res0 .ret, .set .res1 .attempt]) (x := ⟨s.arg0, s.xmitPayload psel,
      if s.arg3 = 0#32 then s.cfg.tPktMs else s.arg3.toNat, true, .dataChunk⟩) rfl hs hx hnone (by omega) hl htag hid
  have hattempt : (BitVec.ofNat 2 (bad.length + 1)).setWidth 32 = BitVec.ofNat 32 (bad.length + 1) := by
    have hbad : bad.length < 3 := by omega
    interval_cases bad.length <;> rfl
  exact ⟨m, hm, (exec_of_reaches (exec_fastXmit true hpsel himg hlen) hw (hreach.trans (reaches_xmitEnd hattempt))
    rfl).trans rfl⟩

end Sys2Proof.Machine
end

section
/-! PROOFS. How FAST.BEGIN fails (R241, R282): its checks, the two baud switches, the last second-stage attempt, and the
readiness response. -/

namespace Sys2Proof.Machine

open State

section

variable {s : State} {i : Instr} {ret : Word} {todo : List Act} {st : List IoStatus} {rx : List RxAnswer}

/-! ### Each step that fails (R241) -/

/-- Outside SlowLoad a ConnSetBaud that fails ends the command with the rate, and BAUD stays (R241). -/
theorem State.reaches_baudFails {b : Word} (hslow : enclosingSlow todo = none) (hs : s.env.status = .ioErr :: st) :
    (s.setPhase (.exec i ret (.setBaud b :: todo))).Reaches
      ((((s.call (.setBaud b)).setStatus st).markFast i).report .baudRateSwitchFailure .baudSwitch b) := by
  refine .trans (t := (s.call (.setBaud b)).setPhase (.exec i ret (.baudSet b :: todo))) (.act rfl rfl) (.act rfl
    ((takeStatus_ioErr (rest := st) (by exact hs)).trans (congrArg some ?_)))
  exact raise_of_noSlow (s := (s.call (.setBaud b)).setStatus st) (ret := ret) _ _ _ hslow

/-- Second-stage attempts that all fail: the last one's error ends the command (R241). -/
theorem State.reaches_notLoaded {packet : List Byte} {fs : List SlowFailure} {f : SlowFailure}
    (hpacket : packet = romPacket s.cfg .run s.image)
    (hposs : ∀ g ∈ fs ++ [f], g.possible s.cfg .run packet s.baud)
    (hlast : fs.length + 1 = max 1 s.cfg.nStage2Attempts)
    (hs : s.env.status = (fs ++ [f]).flatMap SlowFailure.statuses ++ st)
    (hx : s.env.rx = (fs ++ [f]).flatMap SlowFailure.answers ++ rx) :
    ∃ m m₁, (f = .overflow → m = s.pkt) ∧ (f ≠ .overflow → Memory.Stored s.pkt m 0 packet) ∧
      Memory.Received s.rxb m₁ ((fs ++ [f]).flatMap SlowFailure.received) ∧
      (s.setPhase (.exec .fastBegin ret (.slowLoad .run 1 :: todo))).Reaches
        (((s.afterSlow .failed ((fs ++ [f]).foldl (fun v g => g.version v) s.version) m (f.pktlen packet) m₁
          ((fs ++ [f]).foldl (fun c g => g.count c) s.rxcnt) st rx
          ((fs ++ [f]).flatMap fun g => g.calls s.cfg packet)).setFState .failed).report
            (f.report packet).1 (f.report packet).2.1 (f.report packet).2.2) := by
  simp only [List.flatMap_append, List.flatMap_singleton, List.append_assoc] at hs hx
  simp only [List.flatMap_append, List.flatMap_singleton, List.foldl_append, List.foldl_cons, List.foldl_nil]
  have hf := hposs f (by simp)
  obtain ⟨q, m, len, m₁, ret', hpkt, hm₁, hretried⟩ := reaches_retried fs (ret := ret) (a := 1) (todo := todo) hpacket
    (fun g hg => hposs g (List.mem_append_left [f] hg)) (by omega) hs hx
  obtain ⟨m', m₁', q', ret'', hsame, hstored, hm₁', hfail⟩ := reaches_slowFailure (i := .fastBegin) (ret := ret')
    (a := 1 + fs.length) (todo := todo) (st := st) (rx := rx)
    (s := s.afterSlow q (fs.foldl (fun v f => f.version v) s.version) m len m₁
      (fs.foldl (fun c f => f.count c) s.rxcnt) (f.statuses ++ st) (f.answers ++ rx)
      (fs.flatMap fun f => f.calls s.cfg packet)) hpacket hf rfl rfl
  rw [raise_lastAttempt _ _ _ (by show ¬(_ ∧ 1 + fs.length < s.cfg.nStage2Attempts); omega)] at hfail
  refine ⟨m', m₁', fun h => ?_, fun h => ?_, hm₁.append hm₁', hretried.trans (hfail.trans (.of_eq ?_))⟩
  · subst h
    exact (hsame rfl).trans (hpkt.2 hf)
  · obtain ⟨hin, hout⟩ := hstored h
    exact ⟨hin, fun x hx => (hout x hx).trans (hpkt.1 x (by omega))⟩
  · simp only [afterSlow, List.append_assoc]
    rfl

/-- Every way FAST.BEGIN fails after its slow load (R241). -/
theorem State.reaches_readyFailure {f : ReadyFailure} {baud : Word} (hposs : f.possible s.pktid)
    (hs : s.env.status = f.statuses ++ st) (hx : s.env.rx = f.answer :: rx) :
    ∃ m, Memory.Received s.rxb m (deliveries 8 [f.answer]) ∧
      (s.setPhase (.exec .fastBegin ret (readyActs baud))).Reaches
        (({ s with
          fstate := .failed
          rxb := m
          rxcnt := lastCount f.answer
          env := { s.env with status := st, rx := rx }
          calls := s.calls ++ f.calls baud } : State).report (f.report baud).1 (f.report baud).2.1
            (f.report baud).2.2) := by
  refine ⟨_, received_storeEach_heard s.rxb 8 f.answer, ?_⟩
  have hheard := reaches_receive (i := .fastBegin) (ret := ret) (n := 8) (t := 2000) (k := .ready)
    (todo := (readyActs baud).tail) hx
  have hraise (l : List Byte) (c : ErrCode) (stage : Stage) (info : Word) :=
    raise_of_noSlow (s := s.afterReceive 8 2000 l rx) (i := .fastBegin) (ret := ret) (todo := (readyActs baud).tail)
      c stage info rfl
  rw [lastCount_eq]
  cases f with
  | noResponse | recvFails =>
    obtain rfl : s.env.status = st := hs
    exact hheard.trans (.of_eq (hraise [] ..))
  | unexpected l =>
    obtain rfl : s.env.status = st := hs
    obtain ⟨hlen, hne⟩ := hposs
    have hd : deliver 8 (.bytes l) = .bytes l := deliver_bytes hlen
    simp only [ReadyFailure.answer, Config.pktRspLen, hd] at hheard ⊢
    exact hheard.trans (.of_eq ((if_neg hne).trans (hraise l ..)))
  | baudFails l =>
    obtain ⟨hlen, heq⟩ := hposs
    have hd : deliver 8 (.bytes l) = .bytes l := deliver_bytes hlen
    simp only [ReadyFailure.answer, Config.pktRspLen, hd] at hx ⊢
    have hbaud := reaches_baudFails (s := s.afterReceive 8 2000 l rx) (i := .fastBegin) (ret := ret) (b := baud)
      (st := st) (todo := (readyActs baud).tail.tail) rfl hs
    refine (reaches_ready hx hlen heq).trans (hbaud.trans (.of_eq ?_))
    simp only [afterReceive, call, setStatus, List.append_assoc]
    rfl

end

/-! ### FAST.BEGIN (R241) -/

section

variable {s : State}

/-- A rate of 0 fails the first check (R241). -/
theorem exec_fastBegin_rate (h : s.arg1 = 0#32 ∨ s.arg2 = 0#32) :
    exec .fastBegin s = launch .fastBegin [.reject .operandError 0#32] s := by
  rw [exec, execFastBegin, if_pos h]
  rfl

/-- An image without a checksum byte or a word count, or past IMG_MEM_SIZE, fails the second (R182, R204, R241). -/
theorem exec_fastBegin_image (hbaud : s.arg1 ≠ 0#32) (hbaud' : s.arg2 ≠ 0#32)
    (h : s.imgsize.toNat < 6 ∨ s.imgsize.toNat % 4 ≠ 0 ∨ s.cfg.imgMemSize < s.imgsize.toNat) :
    exec .fastBegin s = launch .fastBegin [.reject .operandError s.imgsize] s := by
  have himage : s.badCksumImage = true ∨ s.badRomImage = true := by
    simp only [badCksumImage, badRomImage, Bool.or_eq_true, decide_eq_true_eq]
    omega
  rw [exec, execFastBegin, if_neg (by simp [hbaud, hbaud']), if_pos himage]
  rfl

end

/-- Settles O44: the checks in their order, and then each step that can fail, after those before it. -/
theorem fastBeginChecks : Obligations.FastBeginChecks := by
  refine fun s hw => ⟨fun h => exec_reject hw (exec_fastBegin_rate h), fun hbaud hbaud' =>
    ⟨fun h => exec_reject hw (exec_fastBegin_image hbaud hbaud' h),
      fun h6 hcount himg img packet st rx himg' hpacket => ?_⟩⟩
  subst himg'
  have hexec := exec_fastBegin hbaud hbaud' h6 hcount himg
  refine ⟨Memory.stored_store .., fun hs => ?_, fun fs f hlast hposs hs hx => ?_,
    fun fs l k f hleft hposs hfit hpos hk hgood hready hs hx => ?_⟩
  · have hfail := reaches_baudFails (i := .fastBegin) (ret := 0#32) (b := s.arg1) (st := st)
      (todo := .slowLoad .run 1 :: readyActs s.arg2) (s := { s.start .fastBegin [] with
        fstate := .begin
        pktid := packetCount s.arg0
        img := s.img.store 5 [s.newCksum] }) rfl hs
    exact (exec_of_reaches hexec hw (.trans (.act rfl rfl) (.trans (.act rfl rfl) (.trans (.act rfl rfl) hfail)))
      rfl).trans rfl
  · have hbegun := reaches_begun (todo := .slowLoad .run 1 :: readyActs s.arg2) hs
    obtain ⟨m, m₁, hsame, hstored, hm₁, hfail⟩ := reaches_notLoaded (ret := 0#32) (todo := readyActs s.arg2)
      (st := st) (rx := rx) (s := s.begun _) hpacket hposs hlast rfl hx
    exact ⟨m, m₁, hsame, hstored, hm₁, (exec_of_reaches hexec hw (hbegun.trans hfail) rfl).trans rfl⟩
  · rw [List.append_assoc, List.append_assoc] at hs
    have hbegun := reaches_begun (todo := .slowLoad .run 1 :: readyActs s.arg2) hs
    obtain ⟨m, m₁, hm, hm₁, hloaded⟩ := reaches_loaded (ret := 0#32) (a := 1) (k := k)
      (todo := readyActs s.arg2) (st := f.statuses ++ st) (rx := f.answer :: rx) (s := s.begun _)
      hpacket hposs (hleft.elim (fun h => h ▸ Nat.zero_le _) Nat.le_sub_one_of_lt) hfit hgood hpos hk rfl hx
    obtain ⟨m₂, hm₂, hfail⟩ := reaches_readyFailure (ret := BitVec.ofNat 32 (1 + fs.length)) (baud := s.arg2)
      (st := st) (rx := rx) (f := f)
      (s := (s.begun (fs.flatMap SlowFailure.statuses ++ (List.replicate (2 + k) .ok ++ (f.statuses ++ st)))).afterSlow
        .done 1#8 m (BitVec.ofNat 32 packet.length) m₁ 1#32 (f.statuses ++ st) (f.answer :: rx)
        (fs.flatMap (fun f => f.calls s.cfg packet) ++ [.reset, .send packet, .recv 129 2000] ++ pollCalls s.cfg k))
      hready rfl rfl
    refine ⟨m, m₂, hm, hm₁.append hm₂, (exec_of_reaches hexec hw (hbegun.trans (hloaded.trans hfail)) rfl).trans ?_⟩
    simp only [afterSlow, begun, start, report, List.append_assoc]
    rfl

end Sys2Proof.Machine
end

section
/-! PROOFS. FAST.DATA (R244): its checks, chunks that are accepted one after another, the end of the loop, and a chunk
that fails. -/

namespace Sys2Proof.Machine

open State

/-! ### The checks (R236, R244) -/

section

variable {s : State}

/-- A range past IMG_MEM_SIZE fails the first check (R244). -/
theorem exec_fastData_range (h : s.cfg.imgMemSize < s.arg0.toNat + s.arg1.toNat) :
    exec .fastData s = launch .fastData [.reject .operandError s.arg0] s := by
  rw [exec, execFastData, if_pos (by simpa [pastImg] using h)]
  rfl

/-- No chunk is longer than the first, which fits (R244). -/
theorem not_tooLong_chunk (hfit : s.arg1 ≠ 0#32 → 8 + min s.arg1.toNat 1024 ≤ s.cfg.maxDataSize) :
    ¬(s.arg1 ≠ 0#32 ∧ s.tooLong (min s.arg1.toNat Config.maxPacketSize) = true) :=
  fun ⟨hsize, hlong⟩ => Nat.not_lt.2 (hfit hsize) (of_decide_eq_true hlong)

variable (himg : s.arg0.toNat + s.arg1.toNat ≤ s.cfg.imgMemSize)
include himg

/-- A chunk that is too long fails the second (R244). -/
theorem exec_fastData_length (hsize : s.arg1 ≠ 0#32) (h : s.cfg.maxDataSize < 8 + min s.arg1.toNat 1024) :
    exec .fastData s = launch .fastData [.reject .operandError s.arg1] s := by
  rw [exec, execFastData, if_neg (by simpa [pastImg] using himg), if_pos ⟨hsize, by exact decide_eq_true h⟩]
  rfl

variable (hfit : s.arg1 ≠ 0#32 → 8 + min s.arg1.toNat 1024 ≤ s.cfg.maxDataSize)
include hfit

/-- A wrong FSTATE fails the third (R236). -/
theorem exec_fastData_sequence (h : s.fstate ≠ .secondStageStarted) (h' : s.fstate ≠ .transmitting) :
    exec .fastData s = launch .fastData [.reject .sequenceError (s.fstate.code.setWidth 32)] s := by
  rw [exec, execFastData, if_neg (by simpa [pastImg] using himg), if_neg (not_tooLong_chunk hfit),
    if_pos (by simp [fastReady, h, h'])]

/-- FAST.DATA after its checks is the chunk loop (R244). -/
theorem exec_fastData (h : s.fstate = .secondStageStarted ∨ s.fstate = .transmitting) :
    exec .fastData s = launch .fastData [.chunk s.arg0.toNat s.arg1.toNat 0 0] s := by
  rw [exec, execFastData, if_neg (by simpa [pastImg] using himg), if_neg (not_tooLong_chunk hfit),
    if_neg (by simpa [fastReady, or_iff_not_imp_left] using h)]

end

/-! ### One chunk (R244) -/

/-- The steps that follow the check of chunk j's result: the sum and the result that were computed when the chunk
started, and the next chunk (R244). -/
def chunkDone (cksum want : Word) (off size j : Nat) : List Act :=
  [.set .cksum (.const cksum), .set .pktid (.const want), .chunk off size (min size (1024 * (j + 1))) (j + 1)]

/-- u is where FAST.DATA from s stands when j chunks were accepted: what the next chunk is made of (R244). -/
structure State.AtChunk (s u : State) (j : Nat) : Prop where
  cfg : u.cfg = s.cfg
  img : u.img = s.img
  pktid : u.pktid = s.pktid - BitVec.ofNat 32 j

section

variable {s u : State} {i : Instr} {ret : Word} {off size j : Nat}

/-- Before the end of the range the loop starts chunk j (R244). -/
theorem State.AtChunk.reaches_exchange (hat : s.AtChunk u j) (hj : 1024 * j < size) :
    (u.setPhase (.exec i ret [.chunk off size (min size (1024 * j)) j])).Reaches
      ((u.setFState .transmitting).setPhase (.exec i ret (.xmit (dataChunk s off size j).exchange 1 ::
        .expect (dataChunk s off size j).want (dataChunk s off size j).stage ::
          chunkDone (u.cksum + BitVec.ofNat 32 (byteSum (dataChunk s off size j).payload)) (dataChunk s off size j).want
            off size j))) := by
  obtain ⟨hcfg, himg, hpktid⟩ := hat
  have hpos : min size (1024 * j) = 1024 * j := by omega
  have hnext : 1024 * j + min 1024 (size - 1024 * j) = min size (1024 * (j + 1)) := by omega
  refine .act rfl (congrArg some ((if_pos (by omega)).trans ?_))
  simp only [setPhase_img, setPhase_pktid, setPhase_cksum, setPhase_cfg, hcfg, himg, hpktid, hpos,
    Config.maxPacketSize, hnext]
  rfl

/-- After an accepted chunk the loop goes on with CKSUM and PKTID assigned (R244). -/
theorem State.reaches_chunkDone {cksum want : Word} :
    (u.setPhase (.exec i ret (chunkDone cksum want off size j))).Reaches
      (({ u with cksum := cksum, pktid := want } : State).setPhase
        (.exec i ret [.chunk off size (min size (1024 * (j + 1))) (j + 1)])) :=
  (reaches_assign rfl).trans (reaches_assign rfl)

/-- At the end of the range the loop stores the number of chunks (R244). -/
theorem State.reaches_chunksEnd {n : Nat} :
    (u.setPhase (.exec i ret [.chunk off size size n])).Reaches { u.finish with res0 := BitVec.ofNat 32 n } := by
  have hend : (u.setPhase (.exec i ret [.chunk off size size n])).Reaches
      (u.setPhase (.exec i ret [.set .res0 (.const (BitVec.ofNat 32 n))])) :=
    .act rfl (congrArg some (if_neg (Nat.lt_irrefl size)))
  exact hend.trans ((reaches_assign rfl).trans (.finish rfl))

end

/-! ### Chunks that are accepted one after another (R244) -/

/-- The value of a draw after others (R266). -/
theorem Env.tagNo_afterTags (j k : Nat) (e : Env) : (e.afterTags j).tagNo k = e.tagNo (j + k) := by
  rw [← afterTags_nextTag, afterTags_add, afterTags_nextTag]

/-- Every exchange draws a tag (R232). -/
theorem tagsDrawn_pos {xs : List Accepted} (h : xs ≠ []) : 0 < tagsDrawn xs := by
  cases xs with
  | nil => exact absurd rfl h
  | cons x xs => rw [tagsDrawn]; omega

/-- The last tag of exchanges, or the given one when there is none (R232). -/
def lastTag (before : Word) (e : Env) (xs : List Accepted) : Word :=
  if xs = [] then before else e.tagNo (tagsDrawn xs - 1)

/-- It depends on the tags alone. -/
theorem lastTag_with (before : Word) (e : Env) (st : List IoStatus) (rx : List RxAnswer) (xs : List Accepted) :
    lastTag before { e with status := st, rx := rx } xs = lastTag before e xs := by
  rw [lastTag, Env.tagNo_with, lastTag]

theorem lastTag_nil (before : Word) (e : Env) : lastTag before e [] = before := if_pos rfl

/-- The last tag after a first exchange. -/
theorem lastTag_cons (before : Word) (e : Env) (x : Accepted) (xs : List Accepted) :
    lastTag before e (x :: xs) = lastTag (e.tagNo x.bad.length) (e.afterTags (x.bad.length + 1)) xs := by
  rw [lastTag, lastTag, if_neg (List.cons_ne_nil x xs), tagsDrawn]
  by_cases h : xs = []
  · subst h
    rfl
  · rw [if_neg h, Env.tagNo_afterTags, Nat.add_sub_assoc (tagsDrawn_pos h)]

/-- The bytes that exchanges carry. -/
def payloads (xs : List Accepted) : List Byte := xs.flatMap (·.asked.payload)

/-- The state after chunks of FAST.DATA were accepted: each moved PKTID down by one and CKSUM up by its bytes (R244). -/
def State.afterChunks (xs : List Accepted) (m : Memory) (st : List IoStatus) (rx : List RxAnswer) (s : State) : State :=
  { s.afterAccepted xs (if xs = [] then s.fstate else .transmitting) (lastTag s.tag s.env xs)
      (lastAttempts s.attempt xs) m st rx with
    pktid := s.pktid - BitVec.ofNat 32 xs.length
    cksum := s.cksum + BitVec.ofNat 32 (byteSum (payloads xs)) }

/-- The sum of bytes is that of its parts. -/
theorem byteSum_append (l l' : List Byte) : byteSum (l ++ l') = byteSum l + byteSum l' := by
  rw [byteSum, List.map_append, List.sum_append]
  rfl

section

variable (s : State) (off size : Nat)

/-- There are as many chunks as lists of answers. -/
theorem dataChunks_length (bads : List (List RxAnswer)) (j : Nat) :
    (dataChunks s off size j bads).length = bads.length := by
  induction bads generalizing j with
  | nil => rfl
  | cons bad bads ih => exact congrArg (· + 1) (ih (j + 1))

/-- The chunks up to a position carry the bytes of the range up to it, none twice (R244). -/
theorem payloads_dataChunks (bads : List (List RxAnswer)) (j : Nat) (hsize : 1024 * (j + bads.length) < size + 1024) :
    payloads (dataChunks s off size j bads) =
      s.img.read (off + 1024 * j) (min size (1024 * (j + bads.length)) - 1024 * j) := by
  induction bads generalizing j with
  | nil =>
    rw [show min size (1024 * (j + ([] : List (List RxAnswer)).length)) - 1024 * j = 0 by simp]
    rfl
  | cons bad bads ih =>
    rw [List.length_cons] at hsize ⊢
    have hrest := ih (j + 1) (by omega)
    rw [payloads] at hrest ⊢
    rw [dataChunks, List.flatMap_cons, hrest, dataChunk]
    by_cases hlast : bads.length = 0
    · have hnone : min size (1024 * (j + 1 + bads.length)) - 1024 * (j + 1) = 0 := by omega
      have hall : min size (1024 * (j + (bads.length + 1))) - 1024 * j = min 1024 (size - 1024 * j) := by omega
      rw [hnone, hall]
      exact List.append_nil _
    · have hwhole : min 1024 (size - 1024 * j) = 1024 := by omega
      have hsplit : min size (1024 * (j + (bads.length + 1))) - 1024 * j =
        1024 + (min size (1024 * (j + 1 + bads.length)) - 1024 * (j + 1)) := by omega
      rw [hwhole, hsplit, Memory.read_append, Nat.mul_succ, ← Nat.add_assoc off]

end

/-- No chunk changes nothing. -/
theorem State.afterChunks_nil (u : State) : u.afterChunks [] u.rxb u.env.status u.env.rx = u := by
  simp only [afterChunks, afterAccepted, acceptedCalls, List.append_nil, List.length_nil, BitVec.sub_zero, lastTag_nil,
    if_true]
  exact congrArg (fun c => { u with cksum := c }) (BitVec.add_zero u.cksum)

/-- One chunk is one exchange, and its two assignments (R244). -/
theorem State.afterChunks_singleton (x : Accepted) (m : Memory) (st : List IoStatus) (rx : List RxAnswer) (u : State) :
    u.afterChunks [x] m st rx =
      { (u.setFState .transmitting).afterExchange (x.bad.length + 1) m 8#32
          (xmitCalls x.asked.id x.asked.payload x.asked.timeout u.env (x.bad.length + 1)) st rx with
        pktid := u.pktid - 1#32
        cksum := u.cksum + BitVec.ofNat 32 (byteSum x.asked.payload) } := by
  simp only [afterChunks, afterAccepted, payloads, List.flatMap_singleton, acceptedCalls, List.append_nil]
  rfl

/-- A first chunk and then others (R244). -/
theorem State.afterChunks_cons (x : Accepted) (xs : List Accepted) (m m' : Memory) (st st' : List IoStatus)
    (rx rx' : List RxAnswer) (u : State) :
    (u.afterChunks [x] m st rx).afterChunks xs m' st' rx' = u.afterChunks (x :: xs) m' st' rx' := by
  have hcount : xs.length + 1 = [x].length + xs.length := Nat.add_comm ..
  simp only [afterChunks, afterAccepted, lastTag_cons, lastTag_nil, lastTag_with, tagsDrawn, Nat.add_zero,
    Env.afterTags_with, Env.afterTags_add, acceptedCalls, acceptedCalls_with, payloads, List.flatMap_cons,
    List.flatMap_nil, List.append_nil, List.append_assoc, byteSum_append, BitVec.ofNat_add, lastAttempts,
    List.length_cons, hcount, sub_sub, add_assoc, reduceCtorEq, if_false, ite_self]

/-- What a first exchange and then others leave in RXB (R63). -/
theorem received_accepted_cons {x : Accepted} {xs : List Accepted} {e : Env} {m₀ m m' : Memory} {st : List IoStatus}
    {rx : List RxAnswer}
    (h : Memory.Received m₀ m (deliveries 8 (x.bad ++ [.bytes (response x.asked.want (e.tagNo x.bad.length))])))
    (h' : Memory.Received m m' (deliveries 8
      (acceptedAnswers { e.afterTags (x.bad.length + 1) with status := st, rx := rx } xs))) :
    Memory.Received m₀ m' (deliveries 8 (acceptedAnswers e (x :: xs))) := by
  rw [acceptedAnswers_with] at h'
  rw [acceptedAnswers, deliveries, List.append_cons, List.filterMap_append]
  exact h.append h'

section

variable {s u : State} {i : Instr} {ret : Word} {off size j : Nat} {st : List IoStatus} {rx : List RxAnswer}

/-- Chunk j, accepted (R244). -/
theorem State.AtChunk.reaches_nextChunk {x : Accepted} (hat : s.AtChunk u j) (hj : 1024 * j < size)
    (hx : x.asked = dataChunk s off size j) (hs : u.env.status = List.replicate (x.bad.length + 1) .ok ++ st)
    (hrx : u.env.rx = x.bad ++ .bytes (response x.asked.want (u.env.tagNo x.bad.length)) :: rx)
    (hnone : noneAccepted x.asked.id u.env x.bad) (hbad : x.bad.length < 3) (hid : x.asked.want ≠ x.asked.id) :
    ∃ m, Memory.Received u.rxb m
        (deliveries 8 (x.bad ++ [.bytes (response x.asked.want (u.env.tagNo x.bad.length))])) ∧
      (u.setPhase (.exec i ret [.chunk off size (min size (1024 * j)) j])).Reaches
        ((u.afterChunks [x] m st rx).setPhase
          (.exec i x.asked.want [.chunk off size (min size (1024 * (j + 1))) (j + 1)])) := by
  have hexchange := hat.reaches_exchange (i := i) (ret := ret) (off := off) hj
  rw [← hx] at hexchange
  obtain ⟨m, hm, haccepted⟩ := reaches_accepted (s := u.setFState .transmitting) (i := i) (ret := ret)
    (todo := chunkDone (u.cksum + BitVec.ofNat 32 (byteSum x.asked.payload)) x.asked.want off size j) hs hrx hnone hbad
    hid
  refine ⟨m, hm, hexchange.trans (haccepted.trans (reaches_chunkDone.trans (.of_eq (congrArg _ ?_))))⟩
  rw [afterChunks_singleton, hx, dataChunk, ← hat.pktid]
  rfl

/-- Chunks that are accepted leave the loop where the next one starts (R244). -/
theorem State.AtChunk.add {xs : List Accepted} (hat : s.AtChunk u j) (m : Memory) :
    s.AtChunk (u.afterChunks xs m st rx) (j + xs.length) := by
  obtain ⟨hcfg, himg, hpktid⟩ := hat
  refine ⟨hcfg, himg, ?_⟩
  rw [BitVec.ofNat_add, ← sub_sub, ← hpktid]
  rfl

end

/-- Chunks that are accepted one after another lead to the one after them, or to the end of the range (R244). -/
theorem State.reaches_chunks {s : State} {i : Instr} {off size : Nat} {st : List IoStatus} {rx : List RxAnswer}
    (bads : List (List RxAnswer)) {u : State} {ret : Word} {j : Nat} {xs : List Accepted} (hat : s.AtChunk u j)
    (hsize : 1024 * (j + bads.length) < size + 1024) (hxs : xs = dataChunks s off size j bads)
    (hacc : allAccepted u.env xs) (hs : u.env.status = List.replicate (tagsDrawn xs) .ok ++ st)
    (hx : u.env.rx = acceptedAnswers u.env xs ++ rx) :
    ∃ m ret', (xs = [] → m = u.rxb) ∧ Memory.Received u.rxb m (deliveries 8 (acceptedAnswers u.env xs)) ∧
      (u.setPhase (.exec i ret [.chunk off size (min size (1024 * j)) j])).Reaches
        ((u.afterChunks xs m st rx).setPhase
          (.exec i ret' [.chunk off size (min size (1024 * (j + bads.length))) (j + bads.length)])) := by
  induction bads generalizing u ret j xs with
  | nil =>
    subst hxs
    obtain rfl : u.env.status = st := hs
    obtain rfl : u.env.rx = rx := hx
    exact ⟨u.rxb, ret, fun _ => rfl, fun _ => rfl, .of_eq (congrArg _ u.afterChunks_nil.symm)⟩
  | cons bad bads ih =>
    subst hxs
    obtain ⟨hbad, hid, hnone, hrest⟩ := hacc
    rw [List.length_cons] at hsize
    rw [dataChunks, tagsDrawn, List.replicate_add, List.append_assoc] at hs
    rw [dataChunks, acceptedAnswers, List.append_assoc, List.cons_append] at hx
    obtain ⟨m, hm, hone⟩ := hat.reaches_nextChunk (i := i) (ret := ret) (x := ⟨dataChunk s off size j, bad⟩)
      (by omega) rfl hs hx hnone hbad hid
    obtain ⟨m', ret', -, hm', hothers⟩ := ih (ret := (dataChunk s off size j).want) (hat.add (xs := [_]) m)
      (by simp only [List.length_singleton]; omega) rfl (allAccepted_with _ _ _ hrest) rfl
      (congrArg (· ++ rx) (acceptedAnswers_with _ _ _ _).symm)
    rw [afterChunks_cons, List.length_singleton, Nat.add_assoc, Nat.add_comm 1] at hothers
    exact ⟨m', ret', nofun, received_accepted_cons hm hm', hone.trans hothers⟩

/-! ### FAST.DATA from its start (R244) -/

section

variable {s : State} {bads : List (List RxAnswer)} {xs : List Accepted} {st : List IoStatus} {rx : List RxAnswer}

/-- FAST.DATA starts with no chunk sent. -/
theorem State.AtChunk.start (s : State) : s.AtChunk (s.start .fastData []) 0 :=
  ⟨rfl, rfl, (BitVec.sub_zero _).symm⟩

variable (hxs : xs = dataChunks s s.arg0.toNat s.arg1.toNat 0 bads)
include hxs

/-- The bytes of the first chunks are those of the range, up to its end (R244). -/
theorem payloads_eq_read (hsize : 1024 * bads.length < s.arg1.toNat + 1024) :
    payloads xs = s.img.read s.arg0.toNat (min s.arg1.toNat (1024 * bads.length)) := by
  have hpay := payloads_dataChunks s s.arg0.toNat s.arg1.toNat bads 0 (by omega)
  rw [Nat.zero_add] at hpay
  exact hxs ▸ hpay

variable (hsize : 1024 * bads.length < s.arg1.toNat + 1024) (hacc : allAccepted s.env xs)
include hsize hacc

/-- FAST.DATA over chunks that are accepted to the one after them, or to the end of the range (R244). -/
theorem State.start_reaches_chunks (hs : s.env.status = List.replicate (tagsDrawn xs) .ok ++ st)
    (hx : s.env.rx = acceptedAnswers s.env xs ++ rx) :
    ∃ m ret, (xs = [] → m = s.rxb) ∧ Memory.Received s.rxb m (deliveries 8 (acceptedAnswers s.env xs)) ∧
      (s.start .fastData [.chunk s.arg0.toNat s.arg1.toNat 0 0]).Reaches
        (((s.start .fastData []).afterChunks xs m st rx).setPhase (.exec .fastData ret
          [.chunk s.arg0.toNat s.arg1.toNat (min s.arg1.toNat (1024 * bads.length)) bads.length])) := by
  have hchunks := reaches_chunks (i := .fastData) (ret := 0#32) bads (.start s) (by omega) hxs hacc hs hx
  rw [Nat.zero_add, Nat.mul_zero, Nat.min_zero] at hchunks
  exact hchunks

/-- FAST.DATA over chunks that are accepted to one that fails (R232, R234, R244). -/
theorem State.start_reaches_chunkFailure {x : Accepted} {f : ExchangeFailure} {e : Env}
    (hn : 1024 * bads.length < s.arg1.toNat) (hasked : x.asked = dataChunk s s.arg0.toNat s.arg1.toNat bads.length)
    (he : e = s.env.afterTags (tagsDrawn xs)) (hposs : f.possible x e)
    (hs : s.env.status = List.replicate (tagsDrawn xs) .ok ++ f.statuses x.bad ++ st)
    (hx : s.env.rx = acceptedAnswers s.env xs ++ f.answers x.bad e ++ rx) :
    ∃ m m', Memory.Received s.rxb m' (deliveries 8 (acceptedAnswers s.env xs ++ f.answers x.bad e)) ∧
      (s.start .fastData [.chunk s.arg0.toNat s.arg1.toNat 0 0]).Reaches
        (((((s.start .fastData []).afterChunks xs m (f.statuses x.bad ++ st)
          (f.answers x.bad e ++ rx)).setFState .failed).afterFailure f x m' st rx).report
            (f.report x).1 (f.report x).2.1 (f.report x).2.2) := by
  subst he
  rw [List.append_assoc] at hs hx
  obtain ⟨m, ret, -, hm, hchunks⟩ := start_reaches_chunks hxs hsize hacc hs hx
  have hat := (State.AtChunk.start s).add (xs := xs) (st := f.statuses x.bad ++ st)
    (rx := f.answers x.bad (s.env.afterTags (tagsDrawn xs)) ++ rx) m
  rw [Nat.zero_add, hxs, dataChunks_length, ← hxs] at hat
  have hexchange := hat.reaches_exchange (i := .fastData) (ret := ret) (off := s.arg0.toNat) hn
  rw [← hasked] at hexchange
  obtain ⟨m', hm', hfail⟩ := reaches_failure (f := f) (x := x) (i := .fastData) (ret := ret) (st := st) (rx := rx)
    (s := ((s.start .fastData []).afterChunks xs m (f.statuses x.bad ++ st)
      (f.answers x.bad (s.env.afterTags (tagsDrawn xs)) ++ rx)).setFState .transmitting)
    (todo := .expect x.asked.want x.asked.stage :: chunkDone (s.cksum + BitVec.ofNat 32 (byteSum (payloads xs)) +
      BitVec.ofNat 32 (byteSum x.asked.payload)) x.asked.want s.arg0.toNat s.arg1.toNat bads.length) rfl
    (fun _ _ => ⟨_, rfl⟩) (f.possible_with _ _ x _ hposs) rfl (congrArg (· ++ rx) (f.answers_with _ _ x _).symm)
  refine ⟨m, m', ?_, hchunks.trans (hexchange.trans hfail)⟩
  have hm' : Memory.Received m m' (deliveries 8 (f.answers x.bad { s.env.afterTags (tagsDrawn xs) with
    status := f.statuses x.bad ++ st
    rx := f.answers x.bad (s.env.afterTags (tagsDrawn xs)) ++ rx })) := hm'
  rw [f.answers_with] at hm'
  rw [deliveries, List.filterMap_append]
  exact hm.append hm'

end

/-- Settles O45: the loop over all chunks, and its end. -/
theorem fastDataSendsEveryChunk : Obligations.FastDataSendsEveryChunk := by
  intro s n bads xs st rx hw himg hfit hstate hn hlen hxs hacc hs hx
  subst hlen
  have hsize : 1024 * bads.length < s.arg1.toNat + 1024 := by omega
  have hall : min s.arg1.toNat (1024 * bads.length) = s.arg1.toNat := by omega
  have hcount : xs.length = bads.length := hxs ▸ dataChunks_length ..
  have hnil : xs = [] ↔ bads.length = 0 := by rw [← hcount, List.length_eq_zero_iff]
  have hpay := payloads_eq_read hxs hsize
  obtain ⟨m, ret, hnone, hm, hreach⟩ := start_reaches_chunks hxs hsize hacc hs hx
  rw [hall] at hreach hpay
  refine ⟨m, fun h => hnone (hnil.2 h), hm, (exec_of_reaches (exec_fastData himg hfit hstate) hw
    (hreach.trans reaches_chunksEnd) rfl).trans ?_⟩
  simp only [afterChunks, afterAccepted, lastTag, hnil, hcount, hpay]
  rfl

/-- Settles O46: the checks in their order, and a chunk that fails after those before it. -/
theorem fastDataChecksAndMismatch : Obligations.FastDataChecksAndMismatch := by
  refine fun s hw => ⟨fun h => exec_reject hw (exec_fastData_range h), fun himg =>
    ⟨fun hsize h => exec_reject hw (exec_fastData_length himg hsize h), fun hfit =>
      ⟨fun h h' => exec_reject hw (exec_fastData_sequence himg hfit h h'),
        fun hstate n bads xs x f e st rx hlen hn hxs hasked hacc he hposs hs hx => ?_⟩⟩⟩
  subst hlen
  have hsize : 1024 * bads.length < s.arg1.toNat + 1024 := by omega
  have hcount : xs.length = bads.length := hxs ▸ dataChunks_length ..
  have hnil : xs = [] ↔ bads.length = 0 := by rw [← hcount, List.length_eq_zero_iff]
  have hpay := payloads_eq_read hxs hsize
  rw [Nat.min_eq_right hn.le] at hpay
  obtain ⟨m, m', hm', hreach⟩ := start_reaches_chunkFailure hxs hsize hacc hn hasked he hposs hs hx
  refine ⟨m', hm', (exec_of_reaches (exec_fastData himg hfit hstate) hw hreach rfl).trans ?_⟩
  subst he
  simp only [afterFailure, afterExchange, afterChunks, afterAccepted, setFState, Env.afterTags_with, Env.tagNo_with,
    ExchangeFailure.calls_with, hnil, hcount, hpay]
  rfl

end Sys2Proof.Machine
end

section
/-! PROOFS. NOP and the raw interface commands (R260 to R265): each with its check and every result of its
primitive. -/

namespace Sys2Proof.Machine

open State

/-! ### CONN.RECV (R264) -/

section

variable {s : State}

/-- A count of 0 or past RXB_SIZE fails the check (R264). -/
theorem exec_connRecv_range (h : s.arg0 = 0#32 ∨ s.cfg.rxbSize < s.arg0.toNat) :
    exec .connRecv s = launch .connRecv [.reject .operandError s.arg0] s := by
  rw [exec, execConnRecv, if_pos h]
  rfl

/-- CONN.RECV after its check (R264). -/
theorem exec_connRecv (hpos : s.arg0 ≠ 0#32) (hsize : s.arg0.toNat ≤ s.cfg.rxbSize) :
    exec .connRecv s = launch .connRecv
      [.recv s.arg0.toNat s.arg1.toNat .raw, .set .res0 (.const s.arg0)] s := by
  rw [exec, execConnRecv, if_neg (not_or.2 ⟨hpos, hsize.not_gt⟩)]

variable {rx : List RxAnswer} (hw : s.hostWaits = true) (hpos : s.arg0 ≠ 0#32) (hsize : s.arg0.toNat ≤ s.cfg.rxbSize)
include hw hpos hsize

/-- CONN.RECV that hears the bytes it asked for (R63, R264). -/
theorem exec_connRecv_bytes {l : List Byte} (hlen : l.length = s.arg0.toNat) (hx : s.env.rx = .bytes l :: rx) :
    exec .connRecv s = .next { s.doneOk with
      rxb := s.rxb.storeEach 0 l
      rxcnt := s.arg0
      res0 := s.arg0
      env := { s.env with rx := rx }
      calls := s.calls ++ [.recv s.arg0.toNat s.arg1.toNat] } := by
  have hheard := reaches_receive (s := s.start .connRecv []) (i := .connRecv) (ret := 0#32) (n := s.arg0.toNat)
    (t := s.arg1.toNat) (k := .raw) (todo := [.set .res0 (.const s.arg0)]) hx
  rw [deliver_bytes hlen] at hheard
  have hcount : BitVec.ofNat 32 l.length = s.arg0 := by
    rw [hlen, BitVec.ofNat_toNat, BitVec.setWidth_eq]
  refine (exec_of_reaches (exec_connRecv hpos hsize) hw
    (hheard.trans ((reaches_assign rfl).trans (.finish rfl))) rfl).trans ?_
  simp only [afterReceive, RxAnswer.heard, hcount]
  rfl

/-- CONN.RECV whose answer has no bytes and is an error (R63, R264). -/
theorem exec_connRecv_fails {r : RxAnswer} {info : Word} (hx : s.env.rx = r :: rx)
    (hnone : (deliver s.arg0.toNat r).heard = [])
    (hraise : ∀ u, RxUse.act .raw (deliver s.arg0.toNat r) u = u.raise .connectionIo .handshakeRx info) :
    exec .connRecv s = .next { s.doneErr .connectionIo .handshakeRx info with
      rxcnt := 0#32
      env := { s.env with rx := rx }
      calls := s.calls ++ [.recv s.arg0.toNat s.arg1.toNat] } := by
  have hheard := reaches_receive (s := s.start .connRecv []) (i := .connRecv) (ret := 0#32) (n := s.arg0.toNat)
    (t := s.arg1.toNat) (k := .raw) (todo := [.set .res0 (.const s.arg0)]) hx
  rw [hnone, hraise, raise_of_noSlow _ _ _ rfl] at hheard
  exact exec_of_reaches (exec_connRecv hpos hsize) hw hheard rfl

end

/-- Settles O18: the check, and the receive with each answer. -/
theorem connRecvResult : Obligations.ConnRecvResult := by
  refine ⟨decodeOfEncode .connRecv, fun s hw => ⟨fun h => exec_reject hw (exec_connRecv_range h),
    fun hpos hsize rx => ⟨fun l hlen hx => ?_, fun hx => ?_, fun hx => ?_⟩⟩⟩
  · exact ⟨_, Memory.stored_storeEach s.rxb 0 l, exec_connRecv_bytes hw hpos hsize hlen hx⟩
  · exact exec_connRecv_fails hw hpos hsize hx rfl fun _ => rfl
  · exact exec_connRecv_fails hw hpos hsize hx rfl fun _ => rfl

/-! ### CONN.BAUD (R265) -/

section

variable {s : State}

/-- A rate of 0 fails the check (R265). -/
theorem exec_connBaud_rate (h : s.arg0 = 0#32) :
    exec .connBaud s = launch .connBaud [.reject .operandError 0#32] s := by
  rw [exec, execConnBaud, if_pos h]
  rfl

/-- CONN.BAUD after its check (R265). -/
theorem exec_connBaud (h : s.arg0 ≠ 0#32) : exec .connBaud s = launch .connBaud [.setBaud s.arg0] s := by
  rw [exec, execConnBaud, if_neg h]

end

/-- Settles O19: NOP has no step; the other two make one call, whose result decides how they end. -/
theorem nopConnResetAndConnBaud : Obligations.NopConnResetAndConnBaud := by
  refine ⟨decodeOfEncode .nop, decodeOfEncode .connReset, decodeOfEncode .connBaud, fun s hw =>
    ⟨?_, fun st => ⟨fun hs => ?_, fun hs => ?_⟩, fun h => exec_reject hw (exec_connBaud_rate h),
      fun h st => ⟨fun hs => ?_, fun hs => ?_⟩⟩⟩
  · exact exec_of_reaches rfl hw (.finish rfl) rfl
  · have hreset := reaches_resetOk (s := s.start .connReset []) (i := .connReset) (ret := 0#32) (todo := []) hs
    exact exec_of_reaches rfl hw (hreset.trans (.finish rfl)) rfl
  · have hfailed := reaches_resetIoErr (s := s.start .connReset []) (i := .connReset) (ret := 0#32) (todo := []) hs
    rw [raise_of_noSlow _ _ _ rfl] at hfailed
    exact exec_of_reaches rfl hw hfailed rfl
  · have hset := reaches_baudOk (s := s.start .connBaud []) (i := .connBaud) (ret := 0#32) (b := s.arg0) (todo := []) hs
    exact exec_of_reaches (exec_connBaud h) hw (hset.trans (.finish rfl)) rfl
  · have hfailed := reaches_baudFails (s := s.start .connBaud []) (i := .connBaud) (ret := 0#32) (b := s.arg0)
      (todo := []) rfl hs
    exact exec_of_reaches (exec_connBaud h) hw hfailed rfl

end Sys2Proof.Machine
end

section
/-! PROOFS. Checks and errors over a whole command: a failed check is the command's only step (R281), and ERRINFO is
written only where an error ends a command (R285, R289). -/

namespace Sys2Proof.Machine

open State

/-! ### The codes of a failed check (R281) -/

/-- Every code but those of a failed check, OPERAND_ERROR and SEQUENCE_ERROR (R281). -/
def ErrCode.notCheck (c : ErrCode) : Prop := c ≠ .operandError ∧ c ≠ .sequenceError

/-- Every step but a failed check. -/
def Act.notCheck : Act → Bool
  | .reject _ _ => false
  | _ => true

/-- The steps that a step puts in front of the others hold no failed check. -/
theorem Act.pushed_notCheck (a : Act) (s : State) : (a.pushed s).all Act.notCheck = true := by
  have plain {a : Act} (ha : a.plain = true) : (a.pushed s).all Act.notCheck = true :=
    List.all_eq_true.2 fun b hb => by
      have hb : b.plain = true := List.all_eq_true.1 (pushed_plain ha s) b hb
      cases b with
      | reject => cases hb
      | _ => rfl
  cases a with
  | sstate | fstate | slowEnd | reject => rfl
  | slowLoad lt a => cases lt <;> rfl
  | chunk off size pos n => simp only [pushed]; split <;> rfl
  | _ => exact plain rfl

/-! ### Only a failed check gives ECODE its code -/

section

variable {s : State} (hs : s.ecode.notCheck)
include hs

/-- An error with another code, reported or not (R241, R285). -/
theorem State.raise_notCheck (c : ErrCode) (st : Stage) (info : Word)
    (hc : c.notCheck := by simp [ErrCode.notCheck]) : (s.raise c st info).ecode.notCheck := by
  rcases s.raise_cases c st info with ⟨q, f, h, -⟩ | ⟨_, _, _, _, -, -, -, h⟩ <;> rw [h]
  · exact hc
  · exact hs

/-- A bad or missing response (R232). -/
theorem xmitRetry_notCheck (x : Exchange) (a : Nat) (last : Word) : (xmitRetry x a last s).ecode.notCheck := by
  unfold xmitRetry
  split
  · exact hs
  · exact raise_notCheck hs ..

/-- The step that goes on with an answer (R205, R210, R232, R241, R264). -/
theorem RxUse.act_notCheck (k : RxUse) (r : RxAnswer) : (k.act r s).ecode.notCheck := by
  cases k with
  | raw => cases r with
    | bytes => exact hs
    | timeout | ioErr => exact raise_notCheck hs ..
  | handshake => cases r with
    | bytes | timeout => exact hs
    | ioErr => exact raise_notCheck hs ..
  | poll i n st => cases r with
    | bytes | timeout =>
      dsimp only [RxUse.act]
      split
      · exact hs
      · exact raise_notCheck hs ..
    | ioErr => exact raise_notCheck hs ..
  | response x a => cases r with
    | bytes l =>
      dsimp only [RxUse.act]
      split
      · exact hs
      · exact xmitRetry_notCheck hs ..
    | timeout => exact xmitRetry_notCheck hs ..
    | ioErr => exact raise_notCheck hs ..
  | ready => cases r with
    | bytes l =>
      dsimp only [RxUse.act]
      split
      · exact hs
      · exact raise_notCheck hs ..
    | timeout | ioErr => exact raise_notCheck hs ..

/-- The return of ConnSend, ConnReset or ConnSetBaud (R263). -/
theorem takeStatus_notCheck {t : State} {f : State → State} (c : ErrCode) (st : Stage) (info : Word)
    (h : takeStatus f (State.raise c st info) s = some t) (hf : ∀ u, (f u).ecode = u.ecode)
    (hc : c.notCheck := by simp [ErrCode.notCheck]) : t.ecode.notCheck := by
  unfold takeStatus at h
  split at h
  · cases h
  · cases h; rw [hf]; exact hs
  · rename_i rest _
    cases h; exact raise_notCheck (s := s.setStatus rest) hs c st info hc

/-- A step that is no failed check gives ECODE none of their codes. -/
theorem Act.run_notCheck {a : Act} {t : State} (ha : a.notCheck = true) (h : a.run s = some t) :
    t.ecode.notCheck := by
  cases a with
  | set r v => cases h; rw [assign_ecode]; exact hs
  | append l =>
    cases h
    rcases s.appendPkt_cases l with ⟨-, h⟩ | ⟨-, h⟩ <;> rw [h]
    · exact raise_notCheck hs ..
    · exact hs
  | sent | wasReset | baudSet => exact takeStatus_notCheck hs _ _ _ h fun _ => rfl
  | heard n k =>
    rw [Act.run, takeRx] at h
    split at h
    · cases h
    · cases h; exact hs
  | answered r k => cases h; exact RxUse.act_notCheck hs k r
  | hsCompare =>
    cases h; unfold Machine.hsCompare
    split
    · exact raise_notCheck hs ..
    · split
      · exact hs
      · exact raise_notCheck hs ..
  | hsAccept =>
    cases h; unfold Machine.hsAccept
    split
    · exact hs
    · exact raise_notCheck hs ..
  | expect want st =>
    cases h
    split
    · exact hs
    · exact raise_notCheck hs ..
  | chunk off size pos n => cases h; unfold chunkStep; split <;> exact hs
  | reject c info => cases ha
  | _ => cases h; exact hs

end

/-- Command i has passed its checks: ECODE has none of their codes, and no step still to do is a failed check. -/
def State.checked (i : Instr) (s : State) : Prop := s.ecode.notCheck ∧ s.runsWith i Act.notCheck

/-- A command that has passed its checks goes on so, a new attempt of the second stage as well (R241). -/
theorem State.seqStep_checked {i : Instr} {s t : State} (hs : s.checked i) (h : s.seqStep = some t) : t.checked i := by
  obtain ⟨hcode, hruns⟩ := hs
  refine ⟨?_, seqStep_runsWith (fun a u _ _ => a.pushed_notCheck u) (fun _ _ => rfl) hruns h⟩
  obtain hp | ⟨ret, todo, hp, htodo⟩ := hruns
  · simp [hp] at h
  cases todo with
  | nil => rw [seqStep_nil hp] at h; cases h; exact hcode
  | cons a todo =>
    rw [seqStep_cons hp] at h
    exact Act.run_notCheck (s := s.setPhase (.exec i ret todo)) hcode (Bool.and_eq_true_iff.1 htodo).1 h

/-! ### The steps a command starts with -/

/-- The two ways a command starts: a check failed and there is nothing else to do, or no check failed (R281). -/
inductive ChecksFirst : List Act → Prop
  | fails (c : ErrCode) (info : Word) : ChecksFirst [.reject c info]
  | passes {todo : List Act} (h : todo.all Act.notCheck = true) : ChecksFirst todo

theorem ChecksFirst.ite {p : Prop} [Decidable p] {l l' : List Act} (h : ChecksFirst l) (h' : ChecksFirst l') :
    ChecksFirst (if p then l else l') := by
  split
  · exact h
  · exact h'

theorem ChecksFirst.imgBytes (off : Nat) (l : List Byte) : ChecksFirst (Machine.imgBytes off l) := by
  refine .passes ?_
  induction l generalizing off with
  | nil => rfl
  | cons b bs ih => exact ih (off + 1)

/-- Every command makes its checks before its first step (R281). -/
theorem exec_checksFirst (i : Instr) (s : State) : ∃ todo, exec i s = launch i todo s ∧ ChecksFirst todo := by
  cases i with
  | encLookup w v => exact ⟨_, rfl, .ite (.passes rfl) (.fails ..)⟩
  | pktSend => exact ⟨_, rfl, .ite (.passes rfl) (.passes rfl)⟩
  | encBytes | hsRxbyte | imgCksum | romAck | connRecv | connBaud => exact ⟨_, rfl, .ite (.fails ..) (.passes rfl)⟩
  | romBuild | fastBegin => exact ⟨_, rfl, .ite (.fails ..) (.ite (.fails ..) (.passes rfl))⟩
  | romLoad | fastData => exact ⟨_, rfl, .ite (.fails ..) (.ite (.fails ..) (.ite (.fails ..) (.passes rfl)))⟩
  | fastXmit psel r =>
    refine ⟨_, rfl, .ite (.fails ..) (.ite (.fails ..) (.ite (.fails ..) ?_))⟩
    cases r <;> exact .passes rfl
  | imgRdf f =>
    refine ⟨_, rfl, ?_⟩
    split
    · exact .fails ..
    · exact .passes rfl
  | imgWrf f =>
    refine ⟨_, rfl, ?_⟩
    split
    · exact .fails ..
    · exact .imgBytes ..
  | fastEnd lt =>
    refine ⟨_, rfl, .ite (.fails ..) ?_⟩
    split
    · exact .fails ..
    · exact .ite (.fails ..) (by cases lt <;> exact .passes rfl)
  | _ => exact ⟨_, rfl, .passes rfl⟩

/-! ### A failed check touches nothing else (R281) -/

/-- A command whose check failed has ended so, unless a move of the host lands before its one step (log 11, log 17). -/
theorem State.resume_reject (i : Instr) (c : ErrCode) (info : Word) (s : State) :
    (s.start i [.reject c info]).resume = s.start i [.reject c info] ∨
      ∃ q, (s.start i [.reject c info]).resume = { s.doneErr c .none info with hostq := q } := by
  obtain ⟨n, hn⟩ := (s.start i [.reject c info]).le_fuel 1 (by decide)
  rw [resume, hn, run_succ]
  split
  · exact .inl rfl
  · exact .inr ⟨_, run_idle rfl n⟩

/-- A command with a field outside its legal range ends with OPERAND_ERROR (R91, R281). -/
theorem exec_illFormed {i : Instr} (h : i.wellFormed = false) (s : State) (hw : s.hostWaits = true) :
    ∃ info, exec i s = .next (s.doneErr .operandError .none info) := by
  have loadType {lt : LoadType} (h : legalLoadType lt = false) : lt = .shutdown := by simpa [legalLoadType] using h
  have field {f : BitVec 3} (h : legalField f = false) : imgField f = none := by
    revert f; decide
  cases i with
  | encLookup w v => exact ⟨_, exec_reject hw (exec_encLookup_fields (ne_true_of_eq_false h))⟩
  | imgRdf f => exact ⟨_, exec_imgRdf_fails hw (headerField_none (field h))⟩
  | imgWrf f => exact ⟨_, exec_imgWrf_fails hw (headerField_none (field h))⟩
  | romBuild lt => obtain rfl := loadType h; exact ⟨_, exec_reject hw (exec_romBuild_shutdown s)⟩
  | romLoad lt => obtain rfl := loadType h; exact ⟨_, exec_reject hw (exec_romLoad_shutdown s)⟩
  | fastEnd lt => obtain rfl := loadType h; exact ⟨_, exec_reject hw (exec_fastEnd_shutdown s)⟩
  | fastXmit psel r => exact ⟨_, exec_reject hw (exec_fastXmit_selector r (not_le.1 (of_decide_eq_false h)))⟩
  | _ => cases h

/-- Settles O51: a command that starts with a failed check does nothing else, and one that has passed its checks never
gets their codes. -/
theorem checksComeBeforeAccess : Obligations.ChecksComeBeforeAccess := by
  refine ⟨fun i s t hexec hcode => ?_, fun i s h hw => exec_illFormed h s hw⟩
  obtain ⟨todo, hlaunch, hchecks⟩ := exec_checksFirst i s
  rw [hlaunch, launch] at hexec
  cases hexec
  cases hchecks with
  | fails c info =>
    obtain h | ⟨q, h⟩ := resume_reject i c info s <;> rw [h] at hcode ⊢
    · exact hcode.elim nofun nofun
    · rfl
  | passes hpass =>
    have start : (s.start i todo).checked i := ⟨⟨nofun, nofun⟩, .inr ⟨_, _, rfl, hpass⟩⟩
    have ends : (s.start i todo).resume.checked i := run_induct (fun _ _ => seqStep_checked) (fun _ h => h) _ _ start
    obtain ⟨⟨hoperand, hsequence⟩, -⟩ := ends
    exact (hcode.elim hoperand hsequence).elim

/-! ### ERRINFO (R285, R289) -/

/-- ERRINFO still holds v, or a command has ended with an error that has a code. -/
def State.keepsErrinfo (v : Word) (s : State) : Prop :=
  s.errinfo = v ∨ (s.phase = .idle ∧ s.done = true ∧ s.err = true ∧ s.ecode ≠ .none)

/-- A reported error is such an end (R285). -/
theorem State.report_keepsErrinfo (v : Word) {c : ErrCode} (hc : c ≠ .none) (st : Stage) (info : Word) (s : State) :
    (s.report c st info).keepsErrinfo v :=
  .inr ⟨rfl, rfl, rfl, hc⟩

/-- A step of a command writes ERRINFO only where it reports an error. -/
theorem State.seqStep_keepsErrinfo {v : Word} {s t : State} (hown : s.ownSteps) (hs : s.keepsErrinfo v)
    (h : s.seqStep = some t) : t.keepsErrinfo v := by
  cases hp : s.phase with
  | idle => simp [hp] at h
  | exec i ret todo =>
    have hv : s.errinfo = v := hs.resolve_right (by simp [hp])
    cases todo with
    | nil => rw [seqStep_nil hp] at h; cases h; exact .inl hv
    | cons a todo =>
      rw [seqStep_cons hp] at h
      cases a.run_outcome h with
      | goesOn same => exact .inl (same.errinfo.trans hv)
      | pushes same => exact .inl (same.errinfo.trans hv)
      | @raises u same rx c st info hc =>
        rcases u.raise_cases c st info with ⟨q, f, hr, -⟩ | ⟨_, _, _, _, -, -, -, hr⟩ <;> rw [hr]
        · exact report_keepsErrinfo v hc ..
        · exact .inl (same.errinfo.trans hv)
      | rejects c info check =>
        subst check
        have ha : Act.ofCommand i (.reject c info) = true := by
          simp only [ownSteps, hp, List.all_cons, Bool.and_eq_true] at hown
          exact hown.1
        refine report_keepsErrinfo v ?_ ..
        rintro rfl
        simp [Act.ofCommand] at ha

/-- So does a whole run of one. -/
theorem State.run_keepsErrinfo {v : Word} {s : State} (n : Nat) (hown : s.ownSteps) (hs : s.keepsErrinfo v) :
    (run n s).keepsErrinfo v :=
  (run_induct (P := fun u => u.ownSteps ∧ u.keepsErrinfo v)
    (fun _ _ ⟨hown, hs⟩ h => ⟨stepInvariant_ownSteps.seqStep _ _ hown h, seqStep_keepsErrinfo hown hs h⟩)
    (fun _ h => h) n s ⟨hown, hs⟩).2

/-- Settles O54: the command that goes on or starts writes ERRINFO only where it reports an error, and of the host's
moves only an illegal command word and reset write it. -/
theorem errinfoIsWrittenOnlyByErrors : Obligations.ErrinfoIsWrittenOnlyByErrors := by
  intro s t hown hstep
  suffices h : t.keepsErrinfo s.errinfo ∨ ∃ wait q, s.hostq = ⟨wait, .reset⟩ :: q from or_assoc.1 h
  rcases step_cases hstep with rfl | ⟨w, m, q, hq, hmove⟩
  · exact .inl (run_keepsErrinfo _ hown (.inl rfl))
  · cases hmove with
    | reads | ignored | busyWrite | imgByte => exact .inl (.inl rfl)
    | idleWrite r v => exact .inl (.inl (by cases r <;> rfl))
    | illegal off v => exact .inl (report_keepsErrinfo _ (by decide) ..)
    | command off v i idle runs =>
      obtain ⟨todo, hlaunch, htodo⟩ := exec_launchable i { s with hostq := q, cmd := v }
      rw [hlaunch, launch] at runs
      cases runs
      exact .inl (run_keepsErrinfo _ htodo.own (.inl rfl))
    | reset => exact .inr ⟨w, q, hq⟩

end Sys2Proof.Machine
end
